-- ==== Sys2Proof/Word.lean ====
section
/-!
DEFINITION. The words of the block: 32-bit registers and command words, 16-bit probability cells, bytes (spec 10_state R20, 20_memory R61).
-/

namespace Sys2Proof

/-- A 32-bit register or command word; its arithmetic is the ring `u32` of R9. -/
abbrev Word := BitVec 32

/-- The value of one cell of the probability memory (R61). -/
abbrev Prob := BitVec 16

/-- One byte of a stream (R66, R67). -/
abbrev Byte := BitVec 8

end Sys2Proof
end

