-- ==== Sys2Proof/Syntax.lean ====
section
/-!
DEFINITION. The commands of the block: one constructor for each row of spec/opcode_table.json (30_encoding R93), with the fields of the command word that the row uses (R90).
-/

namespace Sys2Proof

/-- A command. `n` is field N (tree depth or number of direct bits), `ps` field PS (pos_state), `l` field L (length coder select). -/
inductive Instr where
  -- control and model memory (40_control_and_models)
  | nop
  | reset
  | pmInit
  | pmRd
  | pmWr
  -- range decoder (41, 43, 44, 45)
  | rdInit
  | rdBit
  | rdDirect (n : BitVec 6)
  | rdTree (n : BitVec 6)
  | rdRtree (n : BitVec 6)
  | rdLen (ps : BitVec 4) (l : BitVec 1)
  | rdLit
  | rdLitm
  -- range encoder (42, 43, 44, 45)
  | reInit
  | reBit
  | reDirect (n : BitVec 6)
  | reTree (n : BitVec 6)
  | reRtree (n : BitVec 6)
  | reLen (ps : BitVec 4) (l : BitVec 1)
  | reLit
  | reLitm
  | reFlush
  -- indexers and prices (43, 44, 45, 46)
  | idxLit
  | idxPs
  | prBit
  | prTree (n : BitVec 6)
  | prRtree (n : BitVec 6)
  | prLit
  | prLitm
  | prLen (ps : BitVec 4) (l : BitVec 1)
  | lenPriceInit (l : BitVec 1)
deriving DecidableEq, Repr

end Sys2Proof
end

