-- ==== Sys2Proof/WellFormed.lean ====
section
/-!
DEFINITION. Which commands the encoding admits: the legal range of N (30_encoding R91, R93). PS and L are legal at every value of their fields; PS is checked against CFG.PB when the command runs (R200).
-/

namespace Sys2Proof

/-- The legal direct-bit counts, 0..32 (R91). -/
abbrev legalCount (n : BitVec 6) : Prop := n.toNat ≤ 32

/-- The legal tree depths, 1..8 (R91). -/
abbrev legalDepth (n : BitVec 6) : Prop := 1 ≤ n.toNat ∧ n.toNat ≤ 8

/-- The command is one that a legal command word stands for (R93, R95). -/
def Instr.wellFormed : Instr → Bool
  | .nop => true
  | .reset => true
  | .pmInit => true
  | .pmRd => true
  | .pmWr => true
  | .rdInit => true
  | .rdBit => true
  | .rdDirect n => decide (legalCount n)
  | .rdTree n => decide (legalDepth n)
  | .rdRtree n => decide (legalDepth n)
  | .rdLen _ _ => true
  | .rdLit => true
  | .rdLitm => true
  | .reInit => true
  | .reBit => true
  | .reDirect n => decide (legalCount n)
  | .reTree n => decide (legalDepth n)
  | .reRtree n => decide (legalDepth n)
  | .reLen _ _ => true
  | .reLit => true
  | .reLitm => true
  | .reFlush => true
  | .idxLit => true
  | .idxPs => true
  | .prBit => true
  | .prTree n => decide (legalDepth n)
  | .prRtree n => decide (legalDepth n)
  | .prLit => true
  | .prLitm => true
  | .prLen _ _ => true
  | .lenPriceInit _ => true

end Sys2Proof
end

