-- ==== Sys2Proof/Decode.lean ====
section
/-!
DEFINITION. Decoding a command word (30_encoding R90, R93 to R96), total on every 32-bit word and rejecting by name, and the encoder written from the same tables.
-/

namespace Sys2Proof

/-! ## The fields of a command word (R90) -/

/-- OP, bits 7:0. -/
def fieldOp (w : Word) : BitVec 8 := w.extractLsb' 0 8
/-- N, bits 13:8. -/
def fieldN (w : Word) : BitVec 6 := w.extractLsb' 8 6
/-- PS, bits 17:14. -/
def fieldPs (w : Word) : BitVec 4 := w.extractLsb' 14 4
/-- L, bit 18. -/
def fieldL (w : Word) : BitVec 1 := w.extractLsb' 18 1

/-! ## The opcode map (R93) -/

/-- One row of the opcode map: the fields the opcode uses, N's legal range, and the command. -/
structure OpRow where
  /-- The legal range of N, or none where the opcode does not use N. -/
  n    : Option (Nat × Nat)
  ps   : Bool
  l    : Bool
  make : BitVec 6 → BitVec 4 → BitVec 1 → Instr

/-- A row that uses no field. -/
def OpRow.plain (i : Instr) : OpRow := ⟨none, false, false, fun _ _ _ => i⟩
/-- A row that uses N as a number of direct bits, 0..32. -/
def OpRow.count (f : BitVec 6 → Instr) : OpRow := ⟨some (0, 32), false, false, fun n _ _ => f n⟩
/-- A row that uses N as a tree depth, 1..8. -/
def OpRow.depth (f : BitVec 6 → Instr) : OpRow := ⟨some (1, 8), false, false, fun n _ _ => f n⟩
/-- A row that uses PS and L. -/
def OpRow.length (f : BitVec 4 → BitVec 1 → Instr) : OpRow := ⟨none, true, true, fun _ ps l => f ps l⟩
/-- A row that uses L. -/
def OpRow.select (f : BitVec 1 → Instr) : OpRow := ⟨none, false, true, fun _ _ l => f l⟩

/-- The opcode map of R93. -/
def opRow (op : BitVec 8) : Option OpRow :=
  match op.toNat with
  | 0x00 => some (.plain .nop)
  | 0x01 => some (.plain .reset)
  | 0x02 => some (.plain .pmInit)
  | 0x03 => some (.plain .pmRd)
  | 0x04 => some (.plain .pmWr)
  | 0x10 => some (.plain .rdInit)
  | 0x11 => some (.plain .rdBit)
  | 0x12 => some (.count .rdDirect)
  | 0x13 => some (.depth .rdTree)
  | 0x14 => some (.depth .rdRtree)
  | 0x15 => some (.length .rdLen)
  | 0x16 => some (.plain .rdLit)
  | 0x17 => some (.plain .rdLitm)
  | 0x20 => some (.plain .reInit)
  | 0x21 => some (.plain .reBit)
  | 0x22 => some (.count .reDirect)
  | 0x23 => some (.depth .reTree)
  | 0x24 => some (.depth .reRtree)
  | 0x25 => some (.length .reLen)
  | 0x26 => some (.plain .reLit)
  | 0x27 => some (.plain .reLitm)
  | 0x28 => some (.plain .reFlush)
  | 0x30 => some (.plain .idxLit)
  | 0x31 => some (.plain .idxPs)
  | 0x32 => some (.plain .prBit)
  | 0x33 => some (.depth .prTree)
  | 0x34 => some (.depth .prRtree)
  | 0x35 => some (.plain .prLit)
  | 0x36 => some (.plain .prLitm)
  | 0x37 => some (.length .prLen)
  | 0x38 => some (.select .lenPriceInit)
  | _ => none

/-- The bits of the word that the opcode uses (`used` of R94). -/
def OpRow.used (r : OpRow) : Word :=
  0x000000FF#32 ||| (if r.n.isSome then 0x00003F00#32 else 0#32)
    ||| (if r.ps then 0x0003C000#32 else 0#32) ||| (if r.l then 0x00040000#32 else 0#32)

/-- The value of N is in the row's legal range, or the row has none. -/
def OpRow.admits (r : OpRow) (n : BitVec 6) : Bool :=
  match r.n with
  | none => true
  | some (lo, hi) => decide (lo ≤ n.toNat ∧ n.toNat ≤ hi)

/-! ## Decoding (R94) -/

/-- Why a word is illegal (R95). Each of the three raises ILLEGAL_CMD. -/
inductive DecodeError where
  /-- OP is not in the opcode map. -/
  | unassignedOpcode
  /-- A reserved bit, or a bit of a field the opcode does not use, is 1. -/
  | unusedBitSet
  /-- N is outside the opcode's legal range. -/
  | countOutOfRange
deriving DecidableEq, Repr

/-- `decode(w)` of R94. -/
def decode (w : Word) : Except DecodeError Instr :=
  match opRow (fieldOp w) with
  | none => .error .unassignedOpcode
  | some r =>
    if w &&& ~~~ r.used ≠ 0#32 then .error .unusedBitSet
    else if r.admits (fieldN w) = false then .error .countOutOfRange
    else .ok (r.make (fieldN w) (fieldPs w) (fieldL w))

/-- The decoder as the host asks for it: bit 0 of `w` is bit 0 of the command word, and every bit at
or above `nbits` is 0. A command is exactly one 32-bit word (R96), so a value that does not fit is none. -/
def decodeTableWord (nbits w : Nat) : Option Instr :=
  let v := w % 2 ^ nbits
  if v < 2 ^ 32 then
    match decode (BitVec.ofNat 32 v) with
    | .ok i => some i
    | .error _ => none
  else none

/-! ## Encoding -/

/-- The command word with these fields, bits 31:19 zero (R90). -/
def commandWord (op : BitVec 8) (n : BitVec 6) (ps : BitVec 4) (l : BitVec 1) : Word :=
  0#13 ++ l ++ ps ++ n ++ op

/-- The command word of a command (R90, R93): every field the opcode does not use is 0. -/
def encode : Instr → Word
  | .nop => commandWord 0x00#8 0 0 0
  | .reset => commandWord 0x01#8 0 0 0
  | .pmInit => commandWord 0x02#8 0 0 0
  | .pmRd => commandWord 0x03#8 0 0 0
  | .pmWr => commandWord 0x04#8 0 0 0
  | .rdInit => commandWord 0x10#8 0 0 0
  | .rdBit => commandWord 0x11#8 0 0 0
  | .rdDirect n => commandWord 0x12#8 n 0 0
  | .rdTree n => commandWord 0x13#8 n 0 0
  | .rdRtree n => commandWord 0x14#8 n 0 0
  | .rdLen ps l => commandWord 0x15#8 0 ps l
  | .rdLit => commandWord 0x16#8 0 0 0
  | .rdLitm => commandWord 0x17#8 0 0 0
  | .reInit => commandWord 0x20#8 0 0 0
  | .reBit => commandWord 0x21#8 0 0 0
  | .reDirect n => commandWord 0x22#8 n 0 0
  | .reTree n => commandWord 0x23#8 n 0 0
  | .reRtree n => commandWord 0x24#8 n 0 0
  | .reLen ps l => commandWord 0x25#8 0 ps l
  | .reLit => commandWord 0x26#8 0 0 0
  | .reLitm => commandWord 0x27#8 0 0 0
  | .reFlush => commandWord 0x28#8 0 0 0
  | .idxLit => commandWord 0x30#8 0 0 0
  | .idxPs => commandWord 0x31#8 0 0 0
  | .prBit => commandWord 0x32#8 0 0 0
  | .prTree n => commandWord 0x33#8 n 0 0
  | .prRtree n => commandWord 0x34#8 n 0 0
  | .prLit => commandWord 0x35#8 0 0 0
  | .prLitm => commandWord 0x36#8 0 0 0
  | .prLen ps l => commandWord 0x37#8 0 ps l
  | .lenPriceInit l => commandWord 0x38#8 0 0 l

end Sys2Proof
end

