-- ==== Sys2Proof/Config.lean ====
section
/-!
DEFINITION. What one block fixes (the OPEN parameters of 00_scope R7) and the values the spec leaves unspecified (93 I3, I7, I8): opaque, so that nothing can be proved of them.
-/

namespace Sys2Proof

/-- The OPEN parameters of R7, constant for one block.
DESIGN CHOICE (log 1): they are carried in State, so a statement about every state holds for every value of them. -/
structure Params where
  /-- PM_SIZE, the number of cells of the probability memory, 1 to 2^32 (R7, R61). -/
  pmSize  : Nat
  /-- REG_BASE, the host address of register offset 0 (R7, R34). -/
  regBase : Nat
deriving DecidableEq, Repr

/-- The legal parameters of R7. -/
abbrev Params.wf (p : Params) : Prop := 1 ≤ p.pmSize ∧ p.pmSize ≤ 2 ^ 32

/-- The parameters of `State.reset`: PM_SIZE of the conventions of 95_test_vectors (S0), REG_BASE 0.
DESIGN CHOICE (log 1), unsafe to rest a statement on. -/
def Params.default : Params := { pmSize := 65536, regBase := 0 }

namespace Config

/-- The value of a cell whose written bit is 0 (R61, R322; 93 I7): free. No command reads it (log 5). -/
opaque unwrittenCell : Nat → Prob

/-- LENPRICE[l][ps][s] where the block holds no defined value (R32, R209; 93 I8): free (log 6). -/
opaque unspecifiedPrice : Nat → Nat → Word

/-- LENCNT[l][ps] where the block holds no defined value (R32; 93 I8): free (log 6). -/
opaque unspecifiedCount : Nat → BitVec 9

/-- PRICE[0], which the formula of R260 does not give (93 I3): free (log 7). -/
opaque priceZero : BitVec 10

end Config

end Sys2Proof
end

