-- ==== Sys2Proof/Machine/State.lean ====
section
/-!
DEFINITION. The state of the block and of what it is connected to (10_state R20, R36; 20_memory R60), its fault causes (60_exceptions R280), and the state after reset (70 R320).
-/

namespace Sys2Proof.Machine

/-! ## Why the model stops -/

/-- Why the MODEL would stop with a fault: never. Every fault of the block (60_exceptions R280) is a next state
with STATUS.ERR set (R282), and a port that never answers is a run that does not end (70 R331), so no
constructor is needed. Safe: there is no stop here for a claim to hide behind. -/
inductive Fault where
deriving DecidableEq, Repr

/-- Why the model refuses a step. -/
inductive Refusal where
  /-- Raised by an arm of `exec` whose command has no meaning yet; no arm does. Safe. -/
  | notModelled (mnemonic : String)
  /-- Raised by a host access to the window that is not a 32-bit word at an offset that is a multiple of 4:
  "not defined by the block; a model refuses it" (10_state R35, 20_memory R65). Safe (log 8). -/
  | accessNotAWord
  /-- Raised by a host access outside the 0x100 bytes at REG_BASE (R34): it addresses another device,
  of which the spec says nothing. Safe (log 8). -/
  | accessOutsideWindow
deriving DecidableEq, Repr

/-! ## Fault causes (R280) -/

/-- The fault causes of R280 that a command can raise. -/
inductive Cause where
  | illegalCmd
  | notInit
  | badOperand
  | invalidOption
  | pmRange
  | uninitModel
  | priceInvalid
  | unexpectedEof
  | ioError
deriving DecidableEq, Repr

/-- `raise Cause(info)` of R11 and R281: a cause and the word for FAULTINFO. -/
structure Raise where
  cause : Cause
  info  : Word
deriving DecidableEq, Repr

/-! ## The ports (20_memory R66, R67) -/

/-- What the input source answers to one request (R66). -/
inductive InAnswer where
  | byte (b : Byte)
  | eof
  | err
deriving DecidableEq, Repr

/-- What the input source answers to every request after its listed answers: always Eof, always Err, or nothing ever. -/
inductive InEnd where
  | eof
  | err
  | silent
deriving DecidableEq, Repr

/-- The input source: its coming answers, oldest first, and then `last` (log 3). -/
structure InPort where
  answers : List InAnswer
  last    : InEnd
deriving DecidableEq, Repr

/-- What the output sink answers to one offered byte or flush request (R67). -/
inductive OutAnswer where
  | ok
  | err
deriving DecidableEq, Repr

/-- The output sink's coming answers, oldest first, and then `last` for ever; `none` is no answer ever (log 3). -/
structure OutPort where
  answers : List OutAnswer
  last    : Option OutAnswer
deriving DecidableEq, Repr

/-- What reached the output sink: an accepted byte or an accepted flush request (R67). -/
inductive OutEvent where
  | byte (b : Byte)
  | flush
deriving DecidableEq, Repr

/-- A request to a port that has no answer yet (R66, R67, R331). -/
inductive PortRequest where
  | inByte
  | outByte (b : Byte)
  | outFlush
deriving DecidableEq, Repr

/-! ## The host -/

/-- What the outside does to the block's host side: an access by host address and width in bytes
(R35), or the hardware reset input (R320). -/
inductive HostEvent where
  | write (addr : Nat) (bytes : Nat) (value : Word)
  | read (addr : Nat) (bytes : Nat)
  | hardReset
deriving DecidableEq, Repr

/-! ## Registers with fields, and tables -/

/-- The stored fields of CFG; its reserved bits have no storage (R26). -/
structure Cfg where
  lc        : BitVec 4
  lp        : BitVec 3
  pb        : BitVec 3
  tableSize : BitVec 9
deriving DecidableEq, Repr

/-- A sparse table in canonical form: (index, value) pairs with strictly rising indices. -/
abbrev Cells (β : Type) := List (Nat × β)

/-- The probability memory: exactly the cells whose written bit is 1, with their values (R61; log 5). -/
abbrev Memory := Cells Prob

/-- The block and what it is connected to. INVENTORY.md, '## State', gives the rule of each field. -/
structure State where
  /-- PM_SIZE and REG_BASE (R7), constant. -/
  params      : Params
  /-- Operand registers (R21). -/
  a           : Word
  b           : Word
  c           : Word
  /-- Result register (R22). -/
  res         : Word
  /-- STATUS fields (R24). -/
  err         : Bool
  rdReady     : Bool
  reReady     : Bool
  pv0         : Bool
  pv1         : Bool
  cause       : BitVec 8
  /-- FAULTINFO (R25). -/
  faultInfo   : Word
  /-- CFG (R26). -/
  cfg         : Cfg
  /-- Model bases (R27, R28). -/
  litBase     : Word
  lenBase0    : Word
  lenBase1    : Word
  /-- Range decoder (R29). -/
  rdRange     : Word
  rdCode      : Word
  /-- Range encoder (R30). -/
  reRange     : Word
  reLow       : BitVec 33
  reCache     : Byte
  reCacheSize : BitVec 64
  rePos       : BitVec 64
  /-- Probability memory (R61). -/
  pm          : Memory
  /-- LENPRICE (R32): for index 16 l + ps, the prices of the symbols 0, 1, … that the last Refill wrote. -/
  lenPrice    : Cells (List Word)
  /-- LENCNT (R32), at index 16 l + ps. -/
  lenCnt      : Cells (BitVec 9)
  /-- The request a suspended command waits on (R36, R331). -/
  request     : Option PortRequest
  /-- Input source, output sink and output byte stream (R60, R66, R67). -/
  input       : InPort
  sink        : OutPort
  output      : List OutEvent
  /-- The host's coming accesses, and the words its reads have returned, oldest first (R6, R35). -/
  host        : List HostEvent
  hostReads   : List Word
deriving DecidableEq, Repr

/-- The state after reset: the block as R36 and R320 give it. What is no state of the block follows the
conventions of 95_test_vectors (S0): PM_SIZE 65536, an input that answers Eof, a sink that accepts
everything; and no host access is listed. DESIGN CHOICE for these (log 1, 2, 3, 12, 15). -/
def State.reset : State where
  params      := Params.default
  a           := 0#32
  b           := 0#32
  c           := 0#32
  res         := 0#32
  err         := false
  rdReady     := false
  reReady     := false
  pv0         := false
  pv1         := false
  cause       := 0#8
  faultInfo   := 0#32
  cfg         := ⟨0#4, 0#3, 0#3, 0#9⟩
  litBase     := 0#32
  lenBase0    := 0#32
  lenBase1    := 0#32
  rdRange     := 0#32
  rdCode      := 0#32
  reRange     := 0#32
  reLow       := 0#33
  reCache     := 0#8
  reCacheSize := 0#64
  rePos       := 0#64
  pm          := []
  lenPrice    := []
  lenCnt      := []
  request     := none
  input       := ⟨[], .eof⟩
  sink        := ⟨[], some .ok⟩
  output      := []
  host        := []
  hostReads   := []

end Sys2Proof.Machine
end

