-- ==== Sys2Proof/Machine/Flags.lean ====
section
/-!
DEFINITION. The block has no condition flags (R38); this file holds what stands in their place: STATUS as a word (R24), the cause codes (R280), and the ready and valid bits with the checks on them (R31, R32).
-/

namespace Sys2Proof.Machine

/-- The code of a cause in STATUS.CAUSE (R280). -/
def Cause.code : Cause → BitVec 8
  | .illegalCmd => 1#8
  | .notInit => 2#8
  | .badOperand => 3#8
  | .invalidOption => 4#8
  | .pmRange => 5#8
  | .uninitModel => 6#8
  | .priceInvalid => 7#8
  | .unexpectedEof => 8#8
  | .ioError => 9#8

/-- One bit as a word. -/
def bitWord (b : Bool) : Word := if b then 1#32 else 0#32

/-- STATUS as the host reads it (R24): ERR 0, RD_READY 1, RE_READY 2, PV0 3, PV1 4, CAUSE 15:8, the rest 0. -/
def State.statusWord (s : State) : Word :=
  bitWord s.err ||| (bitWord s.rdReady <<< 1) ||| (bitWord s.reReady <<< 2)
    ||| (bitWord s.pv0 <<< 3) ||| (bitWord s.pv1 <<< 4) ||| (s.cause.setWidth 32 <<< 8)

/-- PV[l] (R24, R32). -/
def State.pv (s : State) (l : BitVec 1) : Bool := if l = 0#1 then s.pv0 else s.pv1

/-- Set PV[l] (R209). -/
def State.setPv (s : State) (l : BitVec 1) : State :=
  if l = 0#1 then { s with pv0 := true } else { s with pv1 := true }

/-- Step 3 of R285 for an `RD_` command: NOT_INIT with the command word while RD_READY = 0 (R31). The word
is `encode i`, since a legal word is the only one that decodes to `i` (log 10). -/
def State.rdReadyFault (s : State) (i : Instr) : Option Raise :=
  if s.rdReady then none else some ⟨.notInit, encode i⟩

/-- Step 3 of R285 for an `RE_` command: NOT_INIT with the command word while RE_READY = 0 (R31). -/
def State.reReadyFault (s : State) (i : Instr) : Option Raise :=
  if s.reReady then none else some ⟨.notInit, encode i⟩

/-- PRICE_INVALID with the command word while PV[l] = 0 (R210). -/
def State.pvFault (s : State) (l : BitVec 1) (i : Instr) : Option Raise :=
  if s.pv l then none else some ⟨.priceInvalid, encode i⟩

end Sys2Proof.Machine
end

