-- ==== Sys2Proof/Machine/Operands.lean ====
section
/-!
DEFINITION. The operand forms: the packed bytes of C (30_encoding R92), CFG as a word and its field checks (10_state R26), cell indices and footprints (20_memory R63, R64), pos_state (44 R200) and the layouts of trees, length coders and literal sub-coders (43 R180, 44 R203, 45 R230).
-/

namespace Sys2Proof.Machine

/-! ## Packed operands of C (R92) -/

/-- C[0], the bit to encode or price. -/
def State.operandBit (s : State) : Bool := s.c.getLsbD 0
/-- C[7:0], the previous byte. -/
def State.prevByte (s : State) : Byte := s.c.extractLsb' 0 8
/-- C[15:8], the match byte. -/
def State.matchByte (s : State) : Byte := s.c.extractLsb' 8 8
/-- C[23:16], the literal symbol. -/
def State.literal (s : State) : Byte := s.c.extractLsb' 16 8
/-- C[15:0], the probability to write. -/
def State.operandProb (s : State) : Prob := s.c.extractLsb' 0 16
/-- The cell `A +32 B` (R63). -/
def State.operandCell (s : State) : Word := s.a + s.b

/-! ## CFG (R26) -/

/-- The fields a host write of `w` stores; the reserved bits are dropped. -/
def Cfg.ofWord (w : Word) : Cfg :=
  { lc := w.extractLsb' 0 4, lp := w.extractLsb' 4 3, pb := w.extractLsb' 8 3, tableSize := w.extractLsb' 16 9 }

/-- CFG as it is read: LC 3:0, LP 6:4, PB 10:8, TABLESIZE 24:16, reserved bits 0. -/
def Cfg.word (g : Cfg) : Word :=
  g.lc.setWidth 32 ||| (g.lp.setWidth 32 <<< 4) ||| (g.pb.setWidth 32 <<< 8) ||| (g.tableSize.setWidth 32 <<< 16)

/-- The check of one CFG field: INVALID_OPTION with the CFG value (R280). -/
def State.optionFault (s : State) (legal : Bool) : Option Raise :=
  if legal then none else some ⟨.invalidOption, s.cfg.word⟩

/-- Step 4 of R285 for a command that reads LC and LP: legal 0..8 and 0..4 (R26). -/
def State.lcLpFault (s : State) : Option Raise :=
  (s.optionFault (decide (s.cfg.lc.toNat ≤ 8))).or (s.optionFault (decide (s.cfg.lp.toNat ≤ 4)))

/-- Step 4 of R285 for a command that reads PB: legal 0..4 (R26). -/
def State.pbFault (s : State) : Option Raise := s.optionFault (decide (s.cfg.pb.toNat ≤ 4))

/-- Step 4 of R285 for a command that reads TABLESIZE: legal 1..272 (R26). -/
def State.tableSizeFault (s : State) : Option Raise :=
  s.optionFault (decide (1 ≤ s.cfg.tableSize.toNat ∧ s.cfg.tableSize.toNat ≤ 272))

/-! ## Operand checks (step 5 of R285) -/

/-- BAD_OPERAND with the refused operand, unless it is legal (R280). -/
def operandFault (legal : Bool) (operand : Word) : Option Raise :=
  if legal then none else some ⟨.badOperand, operand⟩

/-- PS must be below 2^pb (R204, R205, R210). -/
def State.psFault (s : State) (ps : BitVec 4) : Option Raise :=
  operandFault (decide (ps.toNat < 2 ^ s.cfg.pb.toNat)) (ps.setWidth 32)

/-- `B & ((1 << pb) - 1)` (R200). -/
def State.posState (s : State) : Word := s.b &&& ((1#32 <<< s.cfg.pb.toNat) - 1#32)

/-! ## Footprints (R64) -/

/-- A run of consecutive cells: `first`, `first +32 1`, …, `count` of them. -/
structure Span where
  first : Word
  count : Nat
deriving DecidableEq, Repr

/-- The cells of a span, in order. -/
def Span.cells (sp : Span) : List Word := (List.range sp.count).map fun k => sp.first + BitVec.ofNat 32 k

/-- The first cell of `ea`, `ea +32 1`, …, `n` cells, that `p` picks. -/
def firstInRun (p : Word → Bool) : Nat → Word → Option Word
  | 0, _ => none
  | n + 1, ea => if p ea then some ea else firstInRun p n (ea + 1#32)

/-- The first cell that `p` picks, in the order of the footprint. -/
def firstCell (p : Word → Bool) : List Span → Option Word
  | [] => none
  | sp :: rest => (firstInRun p sp.count sp.first).or (firstCell p rest)

/-- One cell. -/
def cellSpan (ea : Word) : List Span := [⟨ea, 1⟩]

/-- The nodes 1 .. 2^d - 1 of the tree of depth d at `base` (R180). -/
def treeSpan (base : Word) (d : Nat) : List Span := [⟨base + 1#32, 2 ^ d - 1⟩]

/-! ## The length coder's layout (R203) -/

/-- LENBASE[L] (R28). -/
def State.lenBase (s : State) (l : BitVec 1) : Word := if l = 0#1 then s.lenBase0 else s.lenBase1

/-- Tree base of low[ps]. -/
def lowTree (base : Word) (ps : Nat) : Word := base + BitVec.ofNat 32 (2 + 8 * ps)
/-- Tree base of mid[ps]. -/
def midTree (base : Word) (ps : Nat) : Word := base + BitVec.ofNat 32 (130 + 8 * ps)
/-- Tree base of the high tree. -/
def highTree (base : Word) : Word := base + 258#32

/-- The footprint of RD_LEN and RE_LEN under pos_state ps (R203). -/
def lenSpan (base : Word) (ps : Nat) : List Span :=
  [⟨base, 1⟩, ⟨base + 1#32, 1⟩] ++ treeSpan (lowTree base ps) 3 ++ treeSpan (midTree base ps) 3
    ++ treeSpan (highTree base) 8

/-- The footprint of LEN_PRICE_INIT (R209): the lists for ps = 0 .. n - 1, each cell at its first appearance. -/
def lenPriceSpan (base : Word) (n : Nat) : List Span :=
  lenSpan base 0 ++ (List.range (n - 1)).flatMap fun q =>
    treeSpan (lowTree base (q + 1)) 3 ++ treeSpan (midTree base (q + 1)) 3

/-- The place of (l, ps) in LENPRICE and LENCNT. -/
def lenIndex (l : BitVec 1) (ps : Nat) : Nat := 16 * l.toNat + ps

/-! ## The literal coder's layout (R230) -/

/-- The sub-coder k of LitBase (R230). -/
def State.subCoder (s : State) (pos : Word) (prev : Byte) : Nat :=
  ((pos.toNat &&& ((1 <<< s.cfg.lp.toNat) - 1)) <<< s.cfg.lc.toNat) + (prev.toNat >>> (8 - s.cfg.lc.toNat))

/-- LitBase(B, C[7:0]): the base cell of the literal sub-coder (R230). -/
def State.litSub (s : State) : Word := s.litBase + BitVec.ofNat 32 (768 * s.subCoder s.b s.prevByte)

/-- The footprint of a plain literal command (R230). -/
def plainSpan (sub : Word) : List Span := treeSpan sub 8

/-- The footprint of a matched literal command (R230). -/
def matchedSpan (sub : Word) : List Span :=
  treeSpan sub 8 ++ treeSpan (sub + 0x100#32) 8 ++ treeSpan (sub + 0x200#32) 8

/-- The cell index within the sub-coder for node m under match bit `mbit`: `((1 + mbit) << 8) + m` (R234). -/
def matchedNode (mbit : Bool) (m : Nat) : Nat := ((1 + mbit.toNat) <<< 8) + m

end Sys2Proof.Machine
end

