-- ==== Sys2Proof/Machine/Ops.lean ====
section
/-!
DEFINITION. The named operations every command is built from: the sparse tables and the probability memory (20_memory R61, R64), the ports (R66, R67), raising a fault and returning from one (60_exceptions R281, R282, R288; 70 R320), the adaptive update (40 R115), and the frame of a command (60_exceptions R285).
-/

namespace Sys2Proof.Machine

/-! ## Sparse tables -/

/-- The value listed at index k. -/
def Cells.get? {β : Type} : Cells β → Nat → Option β
  | [], _ => none
  | (j, v) :: rest, k => if j = k then some v else if k < j then none else Cells.get? rest k

/-- The table with value v at index k, in canonical form. -/
def Cells.set {β : Type} (k : Nat) (v : β) : Cells β → Cells β
  | [] => [(k, v)]
  | (j, w) :: rest =>
    if k < j then (k, v) :: (j, w) :: rest
    else if k = j then (k, v) :: rest
    else (j, w) :: Cells.set k v rest

/-- The canonical form: indices strictly rising. -/
abbrev Cells.wf {β : Type} (m : Cells β) : Prop := m.Pairwise fun x y => x.1 < y.1

/-- The canonical form of the probability memory. An unlisted cell is unwritten, so no entry equals what an
unlisted one reads as. -/
abbrev Memory.wf (m : Memory) : Prop := Cells.wf m

/-! ## The probability memory (R61) -/

/-- written[ea]. -/
def State.pmWritten (s : State) (ea : Word) : Bool := (s.pm.get? ea.toNat).isSome

/-- PMRead(ea). A command reads only written cells (R64); the value of another is free (log 5). -/
def State.pmRead (s : State) (ea : Word) : Prob := (s.pm.get? ea.toNat).getD (Config.unwrittenCell ea.toNat)

/-- PMWrite(ea, v). -/
def State.pmWrite (s : State) (ea : Word) (v : Prob) : State := { s with pm := s.pm.set ea.toNat v }

/-- PMWrite(ea +32 k, v) for k = 0 .. n - 1. The last cell is written first: the cells are distinct or get the
same value, so the order of R112 gives the same memory (log 14). -/
def fillRun (v : Prob) : Nat → Word → Memory → Memory
  | 0, _, m => m
  | n + 1, ea, m => (fillRun v n (ea + 1#32) m).set ea.toNat v

/-- ea < PM_SIZE. -/
def State.inRange (s : State) (ea : Word) : Bool := decide (ea.toNat < s.params.pmSize)

/-- Check (1) of R64: PM_RANGE with the first cell at or above PM_SIZE. -/
def State.rangeFault (s : State) (fp : List Span) : Option Raise :=
  (firstCell (fun ea => !s.inRange ea) fp).map fun ea => ⟨.pmRange, ea⟩

/-- Check (2) of R64: UNINIT_MODEL with the first unwritten cell. -/
def State.uninitFault (s : State) (fp : List Span) : Option Raise :=
  (firstCell (fun ea => !s.pmWritten ea) fp).map fun ea => ⟨.uninitModel, ea⟩

/-- Step 6 of R285 for a command that reads its footprint. -/
def State.readFault (s : State) (fp : List Span) : Option Raise := (s.rangeFault fp).or (s.uninitFault fp)

/-! ## The adaptive binary model (R115) -/

/-- The new value of a cell that held p when `bit` was coded. -/
def adapt (p : Prob) (bit : Bool) : Prob :=
  BitVec.ofNat 16 (if bit then p.toNat - (p.toNat >>> 5) else p.toNat + ((2048 - p.toNat) >>> 5))

/-- Update(ea, p, bit). -/
def State.update (s : State) (ea : Word) (p : Prob) (bit : Bool) : State := s.pmWrite ea (adapt p bit)

/-- The split point `(range >> 11) * p`, exact (R118). -/
def splitPoint (range : Word) (p : Prob) : Nat := (range >>> 11).toNat * p.toNat

/-! ## Raising a fault, and the way out -/

/-- The end of a command that raises: ERR, CAUSE and FAULTINFO are written and nothing else changes (R281, R282). -/
def State.raise (s : State) (r : Raise) : State :=
  { s with err := true, cause := r.cause.code, faultInfo := r.info }

/-- `reset()` of R320, the only way out of ERR = 1 (R288). The ports, what the sink has received, the host and
the parameters are not the block's to reset. -/
def State.resetBlock (s : State) : State :=
  { State.reset with
    params := s.params, input := s.input, sink := s.sink, output := s.output
    host := s.host, hostReads := s.hostReads }

/-! ## The running of a command -/

/-- How a command's pseudocode ends: with a value; with a raise (R281); or suspended on a port that does not
answer (R331). The state is that of the moment, every earlier write included (R11). -/
inductive Act (α : Type) where
  | ok (v : α) (s : State)
  | raised (r : Raise) (s : State)
  | waiting (q : PortRequest) (s : State)
deriving Repr

/-- The state, however the act ends. -/
def Act.state {α : Type} : Act α → State
  | .ok _ s => s
  | .raised _ s => s
  | .waiting _ s => s

/-- Go on with `f` where `m` ends with a value. -/
def Act.bind {α β : Type} (m : Act α) (f : α → State → Act β) : Act β :=
  match m with
  | .ok v s => f v s
  | .raised r s => .raised r s
  | .waiting q s => .waiting q s

/-- RES as the last step of a command (R22). -/
def State.setRes (s : State) (v : Word) : State := { s with res := v }

/-- `RES <- m`. -/
def Act.toRes (m : Act Nat) : Act Unit := m.bind fun v s => .ok () (s.setRes (BitVec.ofNat 32 v))

/-- A command suspended on a port keeps its partial effects and its request (R331; log 4). -/
def State.await (s : State) (q : PortRequest) : State := { s with request := some q }

/-- The state a command leaves: its own, or that of its fault, or suspended. -/
def Act.settle (m : Act Unit) : State :=
  match m with
  | .ok _ s => s
  | .raised r s => s.raise r
  | .waiting q s => s.await q

/-- Steps 3 to 7 of R285: the first check that raises decides; else the pseudocode runs. -/
def command (check : Option Raise) (body : State → Act Unit) (s : State) : Host.Outcome State Fault Refusal :=
  match check with
  | some r => .next (s.raise r)
  | none => .next (body s).settle

/-! ## The ports -/

/-- The next answer of the input source, and the source after it; none where it never answers. DESIGN CHOICE (log 3): a
source that has left a request unanswered answers none after it either, also none made after a hardware reset dropped
that request; the spec is silent on it (R66, R320, R331). -/
def InPort.next (p : InPort) : Option (InAnswer × InPort) :=
  match p.answers with
  | x :: rest => some (x, { p with answers := rest })
  | [] =>
    match p.last with
    | .eof => some (.eof, p)
    | .err => some (.err, p)
    | .silent => none

/-- The next answer of the output sink, and the sink after it; none where it never answers. DESIGN CHOICE (log 3): as for
the input source, a sink that has left a request unanswered answers none after it, a hardware reset or not. -/
def OutPort.next (p : OutPort) : Option (OutAnswer × OutPort) :=
  match p.answers with
  | x :: rest => some (x, { p with answers := rest })
  | [] => p.last.map fun x => (x, p)

/-- InByte() (R66). -/
def inByte (s : State) : Act Byte :=
  match s.input.next with
  | none => .waiting .inByte s
  | some (.byte b, p) => .ok b { s with input := p }
  | some (.eof, p) => .raised ⟨.unexpectedEof, 0#32⟩ { s with input := p }
  | some (.err, p) => .raised ⟨.ioError, 0#32⟩ { s with input := p }

/-- OutByte(b) (R67): an accepted byte is emitted and counted in RE_POS, modulo 2^64 (R159). -/
def outByte (b : Byte) (s : State) : Act Unit :=
  match s.sink.next with
  | none => .waiting (.outByte b) s
  | some (.ok, p) => .ok () { s with sink := p, output := s.output ++ [.byte b], rePos := s.rePos + 1#64 }
  | some (.err, p) => .raised ⟨.ioError, 0#32⟩ { s with sink := p }

/-- OutFlush() (R67). -/
def outFlush (s : State) : Act Unit :=
  match s.sink.next with
  | none => .waiting .outFlush s
  | some (.ok, p) => .ok () { s with sink := p, output := s.output ++ [.flush] }
  | some (.err, p) => .raised ⟨.ioError, 0#32⟩ { s with sink := p }

end Sys2Proof.Machine
end

