-- ==== Sys2Proof/Machine/Control.lean ====
section
/-!
DEFINITION. The control and model-memory commands NOP, RESET, PM_INIT, PM_RD, PM_WR (40_control_and_models).
-/

namespace Sys2Proof.Machine

/-- NOP (R110). -/
def execNop (s : State) : Host.Outcome State Fault Refusal := .next s

/-- RESET (R111): `reset()` of R320. -/
def execReset (s : State) : Host.Outcome State Fault Refusal := .next s.resetBlock

/-- PM_INIT (R112): B cells from A hold 1024. -/
def execPmInit (s : State) : Host.Outcome State Fault Refusal :=
  command (s.rangeFault [⟨s.a, s.b.toNat⟩])
    (fun s => .ok () { s with pm := fillRun 1024#16 s.b.toNat s.a s.pm }) s

/-- PM_RD (R113): RES is the cell A +32 B. -/
def execPmRd (s : State) : Host.Outcome State Fault Refusal :=
  command (s.readFault (cellSpan s.operandCell))
    (fun s => .ok () (s.setRes ((s.pmRead s.operandCell).setWidth 32))) s

/-- PM_WR (R114): cell A +32 B is C, which must be in [31, 2017]; that check comes before the footprint (R285). -/
def execPmWr (s : State) : Host.Outcome State Fault Refusal :=
  command
    ((operandFault (decide (31 ≤ s.c.toNat ∧ s.c.toNat ≤ 2017)) s.c).or (s.rangeFault (cellSpan s.operandCell)))
    (fun s => .ok () (s.pmWrite s.operandCell s.operandProb)) s

end Sys2Proof.Machine
end

