-- ==== Sys2Proof/Machine/Price.lean ====
section
/-!
DEFINITION. The price table, the bit price, and PR_BIT (46_price).
-/

namespace Sys2Proof.Machine

/-- The layer k of R260 that holds index j: 2^(8-k) ≤ j < 2^(9-k). -/
def priceLayer (j : Nat) : Nat :=
  if 256 ≤ j then 0 else if 128 ≤ j then 1 else if 64 ≤ j then 2 else if 32 ≤ j then 3 else if 16 ≤ j then 4
  else if 8 ≤ j then 5 else if 4 ≤ j then 6 else if 2 ≤ j then 7 else 8

/-- The formula of R260 in layer k. -/
def layerPrice (k j : Nat) : Nat := (k <<< 6) + (((2 ^ (9 - k) - j) <<< 6) >>> (8 - k))

/-- PRICE[j] (R260). PRICE[0] is free (log 7). -/
def priceRom (j : BitVec 9) : BitVec 10 :=
  if j = 0#9 then Config.priceZero else BitVec.ofNat 10 (layerPrice (priceLayer j.toNat) j.toNat)

/-- The index of PriceBit(p, b): `((((p - b) ^ (-b)) mod 2^32) & 2047) >> 2` (R261). -/
def priceIndex (p : Prob) (bit : Bool) : BitVec 9 :=
  (((((p.setWidth 32 - bitWord bit) ^^^ (0#32 - bitWord bit)) &&& 2047#32) >>> 2)).setWidth 9

/-- PriceBit(p, b) (R261). -/
def priceBit (p : Prob) (bit : Bool) : Nat := (priceRom (priceIndex p bit)).toNat

/-- PR_BIT (R262). -/
def execPrBit (s : State) : Host.Outcome State Fault Refusal :=
  command (s.readFault (cellSpan s.operandCell))
    (fun s => .ok () (s.setRes (BitVec.ofNat 32 (priceBit (s.pmRead s.operandCell) s.operandBit)))) s

end Sys2Proof.Machine
end

