-- ==== Sys2Proof/Machine/RangeDecoder.lean ====
section
/-!
DEFINITION. The range decoder: RD_INIT, renormalisation, RD_BIT, RD_DIRECT (41_range_decoder).
-/

namespace Sys2Proof.Machine

/-! ## Start (R130) -/

/-- Read n bytes into the low end of `code`. -/
def seedCode : Nat → Word → State → Act Word
  | 0, code, s => .ok code s
  | n + 1, code, s => (inByte s).bind fun b s => seedCode n ((code <<< 8) ||| b.setWidth 32) s

/-- RD_INIT (R130). -/
def execRdInit (s : State) : Host.Outcome State Fault Refusal :=
  command none
    (fun s => (seedCode 5 0#32 s).bind fun code s =>
      .ok () { s with rdCode := code, rdRange := 0xFFFFFFFF#32, rdReady := true }) s

/-! ## Renormalisation (R131) -/

/-- One round of the loop: the byte is requested before either register shifts. -/
def decShift (s : State) : Act Unit :=
  (inByte s).bind fun b s =>
    .ok () { s with rdRange := s.rdRange <<< 8, rdCode := (s.rdCode <<< 8) ||| b.setWidth 32 }

/-- The `while` loop, at most `fuel` rounds. -/
def decLoop : Nat → State → Act Unit
  | 0, s => .ok () s
  | fuel + 1, s => if s.rdRange.toNat < 2 ^ 24 then (decShift s).bind fun _ s => decLoop fuel s else .ok () s

/-- DecNormalize() (R131). Each round takes one listed answer of the source, and the round after the last of
them raises or waits, so the fuel never runs out (`decLoop_fuel` in Laws). In every state a run reaches it is
`decNormalizeOnce` (R135). -/
def decNormalize (s : State) : Act Unit := decLoop (s.input.answers.length + 1) s

/-- At most one round of the loop (R135): what DecNormalize() does wherever RD_RANGE is at least 2^16, which every
bit decoded with a cell in [31, 2017] and every direct bit leaves (`decNormalize_once`, `decodeBit_once` and
`directBit_once` in Laws). It is the form of the encoder's renormalisation, a single `if` (R136, R151). -/
def decNormalizeOnce (s : State) : Act Unit :=
  if s.rdRange.toNat < 2 ^ 24 then decShift s else .ok () s

/-! ## Bit decoding (R132) -/

/-- The decision of DecodeBit, before renormalisation: the bit, the interval and the cell. -/
def decodeSplit (ea : Word) (s : State) : Bool × State :=
  let p := s.pmRead ea
  let bound := splitPoint s.rdRange p
  if s.rdCode.toNat < bound then
    (false, { s with rdRange := BitVec.ofNat 32 bound }.update ea p false)
  else
    (true, { s with rdCode := s.rdCode - BitVec.ofNat 32 bound
                    rdRange := s.rdRange - BitVec.ofNat 32 bound }.update ea p true)

/-- DecodeBit(ea) (R132). -/
def decodeBit (ea : Word) (s : State) : Act Bool :=
  (decNormalize (decodeSplit ea s).2).bind fun _ t => .ok (decodeSplit ea s).1 t

/-- RD_BIT (R132). -/
def execRdBit (s : State) : Host.Outcome State Fault Refusal :=
  command ((s.rdReadyFault .rdBit).or (s.readFault (cellSpan s.operandCell)))
    (fun s => ((decodeBit s.operandCell s).bind fun bit s => .ok bit.toNat s).toRes) s

/-! ## Direct bits (R133) -/

/-- One direct bit before renormalisation: t as the rule computes it, and the interval. -/
def directSplit (s : State) : Word × State :=
  let range := s.rdRange >>> 1
  let t := (s.rdCode - range) >>> 31
  (t, { s with rdRange := range, rdCode := s.rdCode - (range &&& (t - 1#32)) })

/-- DecodeDirect(n) (R133), with the value decoded so far. -/
def decodeDirect : Nat → Word → State → Act Word
  | 0, v, s => .ok v s
  | n + 1, v, s =>
    (decNormalize (directSplit s).2).bind fun _ t =>
      decodeDirect n ((v <<< 1) ||| (1#32 - (directSplit s).1)) t

/-- RD_DIRECT (R133). -/
def execRdDirect (n : BitVec 6) (s : State) : Host.Outcome State Fault Refusal :=
  command (s.rdReadyFault (.rdDirect n))
    (fun s => (decodeDirect n.toNat 0#32 s).bind fun v s => .ok () (s.setRes v)) s

end Sys2Proof.Machine
end

