-- ==== Sys2Proof/Machine/RangeEncoder.lean ====
section
/-!
DEFINITION. The range encoder: RE_INIT, carry handling and renormalisation, RE_BIT, RE_DIRECT, RE_FLUSH (42_range_encoder).
-/

namespace Sys2Proof.Machine

/-- RE_INIT (R150). -/
def execReInit (s : State) : Host.Outcome State Fault Refusal :=
  command none
    (fun s => .ok ()
      { s with reRange := 0xFFFFFFFF#32, reLow := 0#33, reCache := 0#8, reCacheSize := 1#64, rePos := 0#64
               reReady := true }) s

/-! ## Carry handling (R152) -/

/-- The carry: bit 32 of RE_LOW. -/
def State.carry (s : State) : Byte := (s.reLow >>> 32).setWidth 8

/-- `repeat n times: OutByte(b)`. -/
def outBytes (b : Byte) : Nat → State → Act Unit
  | 0, s => .ok () s
  | n + 1, s => (outByte b s).bind fun _ s => outBytes b n s

/-- The emitting half of ShiftLow: the cached byte and the queued bytes, with the carry. -/
def emitPending (s : State) : Act Unit :=
  (outByte (s.reCache + s.carry) s).bind fun _ t =>
    (outBytes (0xFF#8 + s.carry) (s.reCacheSize.toNat - 1) t).bind fun _ u =>
      .ok () { u with reCache := (s.reLow >>> 24).setWidth 8, reCacheSize := 0#64 }

/-- ShiftLow() (R152). -/
def shiftLow (s : State) : Act Unit :=
  (if s.carry ≠ 0#8 ∨ s.reLow.toNat < 0xFF000000 then emitPending s else .ok () s).bind fun _ t =>
    .ok () { t with reCacheSize := t.reCacheSize + 1#64, reLow := (t.reLow <<< 8) &&& 0xFFFFFFFF#33 }

/-- EncNormalize() (R151). -/
def encNormalize (s : State) : Act Unit :=
  if s.reRange.toNat < 2 ^ 24 then shiftLow { s with reRange := s.reRange <<< 8 } else .ok () s

/-! ## Bit encoding (R154) -/

/-- The interval and the cell after one coded bit, before renormalisation. -/
def encodeSplit (ea : Word) (bit : Bool) (s : State) : State :=
  let p := s.pmRead ea
  let bound := splitPoint s.reRange p
  if bit then
    { s with reLow := s.reLow + BitVec.ofNat 33 bound, reRange := s.reRange - BitVec.ofNat 32 bound }.update ea p true
  else
    { s with reRange := BitVec.ofNat 32 bound }.update ea p false

/-- EncodeBit(ea, bit) (R154). -/
def encodeBit (ea : Word) (bit : Bool) (s : State) : Act Unit := encNormalize (encodeSplit ea bit s)

/-- RE_BIT (R154). -/
def execReBit (s : State) : Host.Outcome State Fault Refusal :=
  command ((s.reReadyFault .reBit).or (s.readFault (cellSpan s.operandCell)))
    (fun s => encodeBit s.operandCell s.operandBit s) s

/-! ## Direct bits (R155) -/

/-- The interval after one direct bit, before renormalisation. -/
def directShrink (bit : Bool) (s : State) : State :=
  let range := s.reRange >>> 1
  { s with reRange := range, reLow := if bit then s.reLow + range.setWidth 33 else s.reLow }

/-- EncodeDirect(v, n) (R155): bit n - 1 first. -/
def encodeDirect (v : Word) : Nat → State → Act Unit
  | 0, s => .ok () s
  | n + 1, s => (encNormalize (directShrink (v.getLsbD n) s)).bind fun _ s => encodeDirect v n s

/-- RE_DIRECT (R155). -/
def execReDirect (n : BitVec 6) (s : State) : Host.Outcome State Fault Refusal :=
  command (s.reReadyFault (.reDirect n)) (fun s => encodeDirect s.b n.toNat s) s

/-! ## Stream end (R156) -/

/-- `repeat n times: ShiftLow()`. -/
def shiftLows : Nat → State → Act Unit
  | 0, s => .ok () s
  | n + 1, s => (shiftLow s).bind fun _ s => shiftLows n s

/-- RE_FLUSH (R156). -/
def execReFlush (s : State) : Host.Outcome State Fault Refusal :=
  command (s.reReadyFault .reFlush) (fun s => (shiftLows 5 s).bind fun _ s => outFlush s) s

end Sys2Proof.Machine
end

