-- ==== Sys2Proof/Machine/BitTree.lean ====
section
/-!
DEFINITION. The bit-tree commands (43_bit_tree): decoding, encoding and pricing a depth-N symbol, MSB first and LSB first.
-/

namespace Sys2Proof.Machine

/-- The cell of node m of the tree at `base` (R180). -/
def nodeCell (base : Word) (m : Nat) : Word := base + BitVec.ofNat 32 m

/-- The node after coding `bit` at node m (R180). -/
def child (m : Nat) (bit : Bool) : Nat := 2 * m + bit.toNat

/-! ## Decoding -/

/-- Decode d bits from node m down; the node reached. -/
def treeWalk (base : Word) : Nat → Nat → State → Act Nat
  | 0, m, s => .ok m s
  | d + 1, m, s => (decodeBit (nodeCell base m) s).bind fun bit s => treeWalk base d (child m bit) s

/-- TreeDecode(base, d) (R182). -/
def treeDecode (base : Word) (d : Nat) (s : State) : Act Nat :=
  (treeWalk base d 1 s).bind fun m s => .ok (m - 2 ^ d) s

/-- Decode d bits from node m down, into the bits i, i + 1, … of the symbol (R183). -/
def treeWalkRev (base : Word) : Nat → Nat → Nat → Nat → State → Act Nat
  | 0, _, _, sym, s => .ok sym s
  | d + 1, i, m, sym, s =>
    (decodeBit (nodeCell base m) s).bind fun bit s =>
      treeWalkRev base d (i + 1) (child m bit) (sym ||| (bit.toNat <<< i)) s

/-- TreeDecodeRev(base, d) (R183). -/
def treeDecodeRev (base : Word) (d : Nat) (s : State) : Act Nat := treeWalkRev base d 0 1 0 s

/-- RD_TREE (R182). -/
def execRdTree (n : BitVec 6) (s : State) : Host.Outcome State Fault Refusal :=
  command ((s.rdReadyFault (.rdTree n)).or (s.readFault (treeSpan s.a n.toNat)))
    (fun s => (treeDecode s.a n.toNat s).toRes) s

/-- RD_RTREE (R183). -/
def execRdRtree (n : BitVec 6) (s : State) : Host.Outcome State Fault Refusal :=
  command ((s.rdReadyFault (.rdRtree n)).or (s.readFault (treeSpan s.a n.toNat)))
    (fun s => (treeDecodeRev s.a n.toNat s).toRes) s

/-! ## Encoding -/

/-- Encode the bits d - 1 down to 0 of the symbol from node m (R184). -/
def treeEncodeFrom (base : Word) (sym : Nat) : Nat → Nat → State → Act Unit
  | 0, _, s => .ok () s
  | d + 1, m, s =>
    (encodeBit (nodeCell base m) (sym.testBit d) s).bind fun _ s =>
      treeEncodeFrom base sym d (child m (sym.testBit d)) s

/-- TreeEncode(base, d, sym) (R184). -/
def treeEncode (base : Word) (d sym : Nat) (s : State) : Act Unit := treeEncodeFrom base sym d 1 s

/-- Encode d bits of the symbol, bit i first, from node m (R185). -/
def treeEncodeRevFrom (base : Word) (sym : Nat) : Nat → Nat → Nat → State → Act Unit
  | 0, _, _, s => .ok () s
  | d + 1, i, m, s =>
    (encodeBit (nodeCell base m) (sym.testBit i) s).bind fun _ s =>
      treeEncodeRevFrom base sym d (i + 1) (child m (sym.testBit i)) s

/-- TreeEncodeRev(base, d, sym) (R185). -/
def treeEncodeRev (base : Word) (d sym : Nat) (s : State) : Act Unit := treeEncodeRevFrom base sym d 0 1 s

/-- RE_TREE (R184). -/
def execReTree (n : BitVec 6) (s : State) : Host.Outcome State Fault Refusal :=
  command ((s.reReadyFault (.reTree n)).or (s.readFault (treeSpan s.a n.toNat)))
    (fun s => treeEncode s.a n.toNat s.b.toNat s) s

/-- RE_RTREE (R185). -/
def execReRtree (n : BitVec 6) (s : State) : Host.Outcome State Fault Refusal :=
  command ((s.reReadyFault (.reRtree n)).or (s.readFault (treeSpan s.a n.toNat)))
    (fun s => treeEncodeRev s.a n.toNat s.b.toNat s) s

/-! ## Prices -/

/-- The price of `bit` at a cell as it is now (R188). -/
def State.cellPrice (s : State) (ea : Word) (bit : Bool) : Nat := priceBit (s.pmRead ea) bit

/-- The price of the bits d - 1 down to 0 of the symbol from node m (R186). -/
def treePriceFrom (s : State) (base : Word) (sym : Nat) : Nat → Nat → Nat
  | 0, _ => 0
  | d + 1, m => s.cellPrice (nodeCell base m) (sym.testBit d) + treePriceFrom s base sym d (child m (sym.testBit d))

/-- TreePrice(base, d, sym) (R186). -/
def treePrice (s : State) (base : Word) (d sym : Nat) : Nat := treePriceFrom s base sym d 1

/-- The price of d bits of the symbol, bit i first, from node m (R187). -/
def treePriceRevFrom (s : State) (base : Word) (sym : Nat) : Nat → Nat → Nat → Nat
  | 0, _, _ => 0
  | d + 1, i, m =>
    s.cellPrice (nodeCell base m) (sym.testBit i) + treePriceRevFrom s base sym d (i + 1) (child m (sym.testBit i))

/-- TreePriceRev(base, d, sym) (R187). -/
def treePriceRev (s : State) (base : Word) (d sym : Nat) : Nat := treePriceRevFrom s base sym d 0 1

/-- PR_TREE (R186). -/
def execPrTree (n : BitVec 6) (s : State) : Host.Outcome State Fault Refusal :=
  command (s.readFault (treeSpan s.a n.toNat))
    (fun s => .ok () (s.setRes (BitVec.ofNat 32 (treePrice s s.a n.toNat s.b.toNat)))) s

/-- PR_RTREE (R187). -/
def execPrRtree (n : BitVec 6) (s : State) : Host.Outcome State Fault Refusal :=
  command (s.readFault (treeSpan s.a n.toNat))
    (fun s => .ok () (s.setRes (BitVec.ofNat 32 (treePriceRev s s.a n.toNat s.b.toNat)))) s

end Sys2Proof.Machine
end

