-- ==== Sys2Proof/Machine/LengthCoder.lean ====
section
/-!
DEFINITION. The length coder and pos_state commands IDX_PS, RD_LEN, RE_LEN, LEN_PRICE_INIT, PR_LEN (44_length_coder).
-/

namespace Sys2Proof.Machine

/-- IDX_PS (R200). -/
def execIdxPs (s : State) : Host.Outcome State Fault Refusal :=
  command s.pbFault (fun s => .ok () (s.setRes s.posState)) s

/-! ## Decoding (R204) -/

/-- LenDecode(base, ps) (R204). -/
def lenDecode (base : Word) (ps : Nat) (s : State) : Act Nat :=
  (decodeBit base s).bind fun c0 s =>
    if c0 = false then treeDecode (lowTree base ps) 3 s
    else (decodeBit (base + 1#32) s).bind fun c1 s =>
      if c1 = false then (treeDecode (midTree base ps) 3 s).bind fun sym s => .ok (8 + sym) s
      else (treeDecode (highTree base) 8 s).bind fun sym s => .ok (16 + sym) s

/-- RD_LEN (R204). -/
def execRdLen (ps : BitVec 4) (l : BitVec 1) (s : State) : Host.Outcome State Fault Refusal :=
  command
    ((s.rdReadyFault (.rdLen ps l)).or (s.pbFault.or ((s.psFault ps).or (s.readFault (lenSpan (s.lenBase l) ps.toNat)))))
    (fun s => (lenDecode (s.lenBase l) ps.toNat s).toRes) s

/-! ## Prices of length symbols (R206, R208) -/

/-- LenPrice(base, ps, sym) (R208). -/
def lenPrice (s : State) (base : Word) (ps sym : Nat) : Nat :=
  if sym < 8 then s.cellPrice base false + treePrice s (lowTree base ps) 3 sym
  else if sym < 16 then
    s.cellPrice base true + s.cellPrice (base + 1#32) false + treePrice s (midTree base ps) 3 (sym - 8)
  else s.cellPrice base true + s.cellPrice (base + 1#32) true + treePrice s (highTree base) 8 (sym - 16)

/-- LENPRICE[l][ps][sym] (R32). An entry no Refill wrote is free; one without a defined
value that an earlier Refill wrote keeps it, and no command reads it (log 6). -/
def State.lenPriceAt (s : State) (l : BitVec 1) (ps sym : Nat) : Word :=
  (((s.lenPrice.get? (lenIndex l ps)).getD [])[sym]?).getD (Config.unspecifiedPrice (lenIndex l ps) sym)

/-- LENCNT[l][ps] (R32). A counter no Refill wrote is free (log 6). -/
def State.lenCntAt (s : State) (l : BitVec 1) (ps : Nat) : BitVec 9 :=
  (s.lenCnt.get? (lenIndex l ps)).getD (Config.unspecifiedCount (lenIndex l ps))

/-- Refill(l, ps) (R206). Entries from tableSize up keep no defined value (R209; log 6). -/
def State.refill (s : State) (l : BitVec 1) (ps : Nat) : State :=
  { s with
    lenPrice := s.lenPrice.set (lenIndex l ps)
      ((List.range s.cfg.tableSize.toNat).map fun sym => BitVec.ofNat 32 (Machine.lenPrice s (s.lenBase l) ps sym))
    lenCnt := s.lenCnt.set (lenIndex l ps) s.cfg.tableSize }

/-- CountAndRefill(l, ps) (R206). -/
def State.countAndRefill (s : State) (l : BitVec 1) (ps : Nat) : State :=
  let n := s.lenCntAt l ps - 1#9
  let t := { s with lenCnt := s.lenCnt.set (lenIndex l ps) n }
  if n = 0#9 then t.refill l ps else t

/-! ## Encoding (R205) -/

/-- LenEncode(base, ps, sym) (R205). -/
def lenEncode (base : Word) (ps sym : Nat) (s : State) : Act Unit :=
  if sym < 8 then
    (encodeBit base false s).bind fun _ s => treeEncode (lowTree base ps) 3 sym s
  else if sym < 16 then
    (encodeBit base true s).bind fun _ s =>
      (encodeBit (base + 1#32) false s).bind fun _ s => treeEncode (midTree base ps) 3 (sym - 8) s
  else
    (encodeBit base true s).bind fun _ s =>
      (encodeBit (base + 1#32) true s).bind fun _ s => treeEncode (highTree base) 8 (sym - 16) s

/-- RE_LEN (R205): TABLESIZE is read only when PV[L] = 1, and only then is the symbol counted. -/
def execReLen (ps : BitVec 4) (l : BitVec 1) (s : State) : Host.Outcome State Fault Refusal :=
  command
    ((s.reReadyFault (.reLen ps l)).or (s.pbFault.or ((if s.pv l then s.tableSizeFault else none).or
      ((s.psFault ps).or ((operandFault (decide (s.b.toNat ≤ 271)) s.b).or
        (s.readFault (lenSpan (s.lenBase l) ps.toNat)))))))
    (fun s => (lenEncode (s.lenBase l) ps.toNat s.b.toNat s).bind fun _ s =>
      .ok () (if s.pv l then s.countAndRefill l ps.toNat else s)) s

/-! ## The price tables (R209, R210) -/

/-- Refill(l, q) for q = 0 .. n - 1, in this order (R209). DESIGN CHOICE (log 6): the sub-tables from n up, which hold
no defined value (R209), keep what an earlier Refill left in them; no command reads it. -/
def State.refills (s : State) (l : BitVec 1) : Nat → State
  | 0 => s
  | n + 1 => (s.refills l n).refill l n

/-- LEN_PRICE_INIT (R209). -/
def execLenPriceInit (l : BitVec 1) (s : State) : Host.Outcome State Fault Refusal :=
  command (s.pbFault.or (s.tableSizeFault.or (s.readFault (lenPriceSpan (s.lenBase l) (2 ^ s.cfg.pb.toNat)))))
    (fun s => .ok () ((s.refills l (2 ^ s.cfg.pb.toNat)).setPv l)) s

/-- PR_LEN (R210): PS is checked before PV[L], and B after it. -/
def execPrLen (ps : BitVec 4) (l : BitVec 1) (s : State) : Host.Outcome State Fault Refusal :=
  command
    (s.pbFault.or (s.tableSizeFault.or ((s.psFault ps).or ((s.pvFault l (.prLen ps l)).or
      (operandFault (decide (s.b.toNat < s.cfg.tableSize.toNat)) s.b)))))
    (fun s => .ok () (s.setRes (s.lenPriceAt l ps.toNat s.b.toNat))) s

end Sys2Proof.Machine
end

