-- ==== Sys2Proof/Machine/LiteralCoder.lean ====
section
/-!
DEFINITION. The literal coder commands IDX_LIT, RD_LIT, RE_LIT, RD_LITM, RE_LITM, PR_LIT, PR_LITM (45_literal_coder).
-/

namespace Sys2Proof.Machine

/-- IDX_LIT (R231). -/
def execIdxLit (s : State) : Host.Outcome State Fault Refusal :=
  command s.lcLpFault (fun s => .ok () (s.setRes s.litSub)) s

/-! ## Plain literals (R232, R233, R236) -/

/-- LitDecode(S) (R232): from sym = 1, sym reaches 0x100 after 8 bits; the byte is its low 8 bits. -/
def litDecode (sub : Word) (s : State) : Act Nat :=
  (treeWalk sub 8 1 s).bind fun sym s => .ok (sym &&& 0xFF) s

/-- RD_LIT (R232). -/
def execRdLit (s : State) : Host.Outcome State Fault Refusal :=
  command ((s.rdReadyFault .rdLit).or (s.lcLpFault.or (s.readFault (plainSpan s.litSub))))
    (fun s => (litDecode s.litSub s).toRes) s

/-- LitEncode(S, s) (R233): the bits 7 down to 0 of the byte from node 1. -/
def litEncode (sub : Word) (byte : Byte) (s : State) : Act Unit := treeEncodeFrom sub byte.toNat 8 1 s

/-- RE_LIT (R233). -/
def execReLit (s : State) : Host.Outcome State Fault Refusal :=
  command ((s.reReadyFault .reLit).or (s.lcLpFault.or (s.readFault (plainSpan s.litSub))))
    (fun s => litEncode s.litSub s.literal s) s

/-- LitPrice(S, s) (R236). -/
def litPrice (s : State) (sub : Word) (byte : Byte) : Nat := treePriceFrom s sub byte.toNat 8 1

/-- PR_LIT (R236). -/
def execPrLit (s : State) : Host.Outcome State Fault Refusal :=
  command (s.lcLpFault.or (s.readFault (plainSpan s.litSub)))
    (fun s => .ok () (s.setRes (BitVec.ofNat 32 (litPrice s s.litSub s.literal)))) s

/-! ## Matched literals (R234, R235, R237) -/

/-- The loop of LitDecodeMatched with d bits to go: the matched model while the bits agree, the mismatching
bit included, and the plain model after it. -/
def matchedWalk (sub : Word) : Nat → Byte → Nat → State → Act Nat
  | 0, _, sym, s => .ok sym s
  | d + 1, mb, sym, s =>
    (decodeBit (nodeCell sub (matchedNode (mb.getLsbD 7) sym)) s).bind fun bit s =>
      if bit = mb.getLsbD 7 then matchedWalk sub d (mb <<< 1) (child sym bit) s
      else treeWalk sub d (child sym bit) s

/-- LitDecodeMatched(S, mb) (R234). -/
def litDecodeMatched (sub : Word) (mb : Byte) (s : State) : Act Nat :=
  (matchedWalk sub 8 mb 1 s).bind fun sym s => .ok (sym &&& 0xFF) s

/-- RD_LITM (R234). -/
def execRdLitm (s : State) : Host.Outcome State Fault Refusal :=
  command ((s.rdReadyFault .rdLitm).or (s.lcLpFault.or (s.readFault (matchedSpan s.litSub))))
    (fun s => (litDecodeMatched s.litSub s.matchByte s).toRes) s

/-- The node index R235 and R237 code a bit at: matched while `same`, plain after. -/
def litNode (same mbit : Bool) (m : Nat) : Nat := if same then matchedNode mbit m else m

/-- The loop of LitEncodeMatched: the bits d - 1 down to 0 (R235). -/
def litEncodeMatchedFrom (sub : Word) (mb byte : Byte) : Nat → Nat → Bool → State → Act Unit
  | 0, _, _, s => .ok () s
  | d + 1, m, same, s =>
    (encodeBit (nodeCell sub (litNode same (mb.getLsbD d) m)) (byte.getLsbD d) s).bind fun _ s =>
      litEncodeMatchedFrom sub mb byte d (child m (byte.getLsbD d)) (same && (mb.getLsbD d == byte.getLsbD d)) s

/-- LitEncodeMatched(S, mb, s) (R235). -/
def litEncodeMatched (sub : Word) (mb byte : Byte) (s : State) : Act Unit :=
  litEncodeMatchedFrom sub mb byte 8 1 true s

/-- RE_LITM (R235). -/
def execReLitm (s : State) : Host.Outcome State Fault Refusal :=
  command ((s.reReadyFault .reLitm).or (s.lcLpFault.or (s.readFault (matchedSpan s.litSub))))
    (fun s => litEncodeMatched s.litSub s.matchByte s.literal s) s

/-- The loop of LitPriceMatched: the bits d - 1 down to 0 (R237). -/
def litPriceMatchedFrom (s : State) (sub : Word) (mb byte : Byte) : Nat → Nat → Bool → Nat
  | 0, _, _ => 0
  | d + 1, m, same =>
    s.cellPrice (nodeCell sub (litNode same (mb.getLsbD d) m)) (byte.getLsbD d)
      + litPriceMatchedFrom s sub mb byte d (child m (byte.getLsbD d)) (same && (mb.getLsbD d == byte.getLsbD d))

/-- LitPriceMatched(S, mb, s) (R237). -/
def litPriceMatched (s : State) (sub : Word) (mb byte : Byte) : Nat := litPriceMatchedFrom s sub mb byte 8 1 true

/-- PR_LITM (R237). -/
def execPrLitm (s : State) : Host.Outcome State Fault Refusal :=
  command (s.lcLpFault.or (s.readFault (matchedSpan s.litSub)))
    (fun s => .ok () (s.setRes (BitVec.ofNat 32 (litPriceMatched s s.litSub s.matchByte s.literal)))) s

end Sys2Proof.Machine
end

