-- ==== Sys2Proof/Machine/Dispatch.lean ====
section
/-!
DEFINITION. One arm for each command. `exec i s` is steps 3 to 7 of 60_exceptions R285; steps 1 and 2 are in `writeCmd` (log 11).
-/

namespace Sys2Proof.Machine

def exec (i : Instr) (s : State) : Host.Outcome State Fault Refusal :=
  match i with
  | .nop => Sys2Proof.Machine.execNop s
  | .reset => Sys2Proof.Machine.execReset s
  | .pmInit => Sys2Proof.Machine.execPmInit s
  | .pmRd => Sys2Proof.Machine.execPmRd s
  | .pmWr => Sys2Proof.Machine.execPmWr s
  | .rdInit => Sys2Proof.Machine.execRdInit s
  | .rdBit => Sys2Proof.Machine.execRdBit s
  | .rdDirect n => Sys2Proof.Machine.execRdDirect n s
  | .rdTree n => Sys2Proof.Machine.execRdTree n s
  | .rdRtree n => Sys2Proof.Machine.execRdRtree n s
  | .rdLen ps l => Sys2Proof.Machine.execRdLen ps l s
  | .rdLit => Sys2Proof.Machine.execRdLit s
  | .rdLitm => Sys2Proof.Machine.execRdLitm s
  | .reInit => Sys2Proof.Machine.execReInit s
  | .reBit => Sys2Proof.Machine.execReBit s
  | .reDirect n => Sys2Proof.Machine.execReDirect n s
  | .reTree n => Sys2Proof.Machine.execReTree n s
  | .reRtree n => Sys2Proof.Machine.execReRtree n s
  | .reLen ps l => Sys2Proof.Machine.execReLen ps l s
  | .reLit => Sys2Proof.Machine.execReLit s
  | .reLitm => Sys2Proof.Machine.execReLitm s
  | .reFlush => Sys2Proof.Machine.execReFlush s
  | .idxLit => Sys2Proof.Machine.execIdxLit s
  | .idxPs => Sys2Proof.Machine.execIdxPs s
  | .prBit => Sys2Proof.Machine.execPrBit s
  | .prTree n => Sys2Proof.Machine.execPrTree n s
  | .prRtree n => Sys2Proof.Machine.execPrRtree n s
  | .prLit => Sys2Proof.Machine.execPrLit s
  | .prLitm => Sys2Proof.Machine.execPrLitm s
  | .prLen ps l => Sys2Proof.Machine.execPrLen ps l s
  | .lenPriceInit l => Sys2Proof.Machine.execLenPriceInit l s

end Sys2Proof.Machine
end

