-- ==== Sys2Proof/Machine/HostAccess.lean ====
section
/-!
DEFINITION. The host's side of the block: the register window (10_state R33 to R35), a write to CMD (60_exceptions R283, R285 steps 1 and 2), and the one event a step takes.
-/

namespace Sys2Proof.Machine

/-- ID (R33): the bytes "LZRC". -/
def idWord : Word := 0x4C5A5243#32
/-- REVISION (R33). -/
def revisionWord : Word := 0x00000001#32

/-- A host write of w to CMD. Step 1 of R285: while ERR = 1 every word but NOP's and RESET's is ignored (R283).
Step 2: a word that does not decode raises ILLEGAL_CMD(w) (R94, R95). -/
def writeCmd (w : Word) (s : State) : Host.Outcome State Fault Refusal :=
  if s.err = true ∧ w ≠ 0x00000000#32 ∧ w ≠ 0x00000001#32 then .next s
  else
    match decode w with
    | .error _ => .next (s.raise ⟨.illegalCmd, w⟩)
    | .ok i => exec i s

/-- A host write of w at a word offset of the window (R34). Read-only and unassigned offsets ignore it (R35);
CFG clears PV0 and PV1 (R26), LENBASEl clears PVl (R28). DESIGN CHOICE (log 6): the price tables whose valid bit is
cleared then hold no defined value (R32), and the model keeps what they held; no command reads it. -/
def writeReg (off : Nat) (w : Word) (s : State) : Host.Outcome State Fault Refusal :=
  match off with
  | 0x00 => writeCmd w s
  | 0x04 => .next { s with a := w }
  | 0x08 => .next { s with b := w }
  | 0x0C => .next { s with c := w }
  | 0x1C => .next { s with cfg := Cfg.ofWord w, pv0 := false, pv1 := false }
  | 0x20 => .next { s with litBase := w }
  | 0x24 => .next { s with lenBase0 := w, pv0 := false }
  | 0x28 => .next { s with lenBase1 := w, pv1 := false }
  | _ => .next s

/-- The word a host read returns at a word offset of the window (R34). -/
def State.readReg (s : State) (off : Nat) : Word :=
  match off with
  | 0x00 => 0#32
  | 0x04 => s.a
  | 0x08 => s.b
  | 0x0C => s.c
  | 0x10 => s.res
  | 0x14 => s.statusWord
  | 0x18 => s.faultInfo
  | 0x1C => s.cfg.word
  | 0x20 => s.litBase
  | 0x24 => s.lenBase0
  | 0x28 => s.lenBase1
  | 0x2C => s.rdRange
  | 0x30 => s.rdCode
  | 0x34 => s.reRange
  | 0x38 => s.reLow.setWidth 32
  | 0x3C => (s.reLow >>> 32).setWidth 32
  | 0x40 => s.reCache.setWidth 32
  | 0x44 => s.reCacheSize.setWidth 32
  | 0x48 => (s.reCacheSize >>> 32).setWidth 32
  | 0x4C => s.rePos.setWidth 32
  | 0x50 => (s.rePos >>> 32).setWidth 32
  | 0x54 => idWord
  | 0x58 => revisionWord
  | _ => 0#32

/-- The access is in the window: 0x100 bytes at REG_BASE (R34). -/
def State.inWindow (s : State) (addr : Nat) : Bool :=
  decide (s.params.regBase ≤ addr ∧ addr < s.params.regBase + 0x100)

/-- The access is a 32-bit word at an offset that is a multiple of 4 (R35). -/
def State.wordAccess (s : State) (addr bytes : Nat) : Bool :=
  decide (bytes = 4 ∧ (addr - s.params.regBase) % 4 = 0)

/-- One host event (R35, R320). -/
def hostEvent (e : HostEvent) (s : State) : Host.Outcome State Fault Refusal :=
  match e with
  | .write addr bytes w =>
    if s.inWindow addr = false then .refused .accessOutsideWindow
    else if s.wordAccess addr bytes = false then .refused .accessNotAWord
    else writeReg (addr - s.params.regBase) w s
  | .read addr bytes =>
    if s.inWindow addr = false then .refused .accessOutsideWindow
    else if s.wordAccess addr bytes = false then .refused .accessNotAWord
    else .next { s with hostReads := s.hostReads ++ [s.readReg (addr - s.params.regBase)] }
  | .hardReset => .next s.resetBlock

/-- While a command waits on a port that never answers, every host access waits too and the run does not
end (R331, R35); only the hardware reset acts (R320; log 4, log 13). DESIGN CHOICE (log 13): the spec does not say
whether the reset input overtakes a host access that already waits. Here it does not: a `hardReset` acts only at the
head of the list, so one listed behind a waiting access never acts. -/
def waitingStep (s : State) : Host.Outcome State Fault Refusal :=
  match s.host with
  | .hardReset :: rest => hostEvent .hardReset { s with host := rest }
  | _ => .next s

/-- The block takes the host's next event; with none it waits for the host (R321). -/
def idleStep (s : State) : Host.Outcome State Fault Refusal :=
  match s.host with
  | [] => .next s
  | e :: rest => hostEvent e { s with host := rest }

/-- A host write of the command word w, as the next host event, to a block that waits on no port (log 2). -/
def State.placeCommand (s : State) (w : Word) : State :=
  { s with request := none, host := .write s.params.regBase 4 w :: s.host }

end Sys2Proof.Machine
end

