-- ==== Sys2Proof/Machine/Step.lean ====
section
/-!
DEFINITION. One step of the block: the host's next event, or waiting on a port (10_state R35; 20_memory R71).
-/

namespace Sys2Proof.Machine

/-- One step. The block has no program counter and fetches nothing (R37): a command comes from the host's next write to CMD. -/
def step (s : State) : Host.Outcome State Fault Refusal :=
  match s.request with
  | some _ => waitingStep s
  | none => idleStep s

/-- The machine with the command word w as the host's next write to CMD (log 2). Bits of w at or above `nbits`
are 0; a command is one 32-bit word (R96). -/
def State.withFetchWord (s : State) (nbits w : Nat) : State :=
  s.placeCommand (BitVec.ofNat 32 (w % 2 ^ nbits))

end Sys2Proof.Machine
end

