-- ==== Sys2Proof/Machine/HostProgram.lean ====
section
/-!
DEFINITION. Host programs (30_encoding R97, R98): the registers by name, the lines `ld`, `rd` and a command as host events, and the pseudo-instructions with their expansions. Assembler.lean has the text form of R97.
-/

namespace Sys2Proof.Machine

/-- The register names of R97. -/
inductive RegName where
  | a | b | c | cfg | litBase | lenBase0 | lenBase1 | res | status | faultInfo
  | rdRange | rdCode | reRange | reLowLo | reLowHi | reCache
  | reCacheSizeLo | reCacheSizeHi | rePosLo | rePosHi | id | revision
deriving DecidableEq, Repr

/-- The offset of a register in the window (R34). -/
def regOffset : RegName → Nat
  | .a => 0x04
  | .b => 0x08
  | .c => 0x0C
  | .res => 0x10
  | .status => 0x14
  | .faultInfo => 0x18
  | .cfg => 0x1C
  | .litBase => 0x20
  | .lenBase0 => 0x24
  | .lenBase1 => 0x28
  | .rdRange => 0x2C
  | .rdCode => 0x30
  | .reRange => 0x34
  | .reLowLo => 0x38
  | .reLowHi => 0x3C
  | .reCache => 0x40
  | .reCacheSizeLo => 0x44
  | .reCacheSizeHi => 0x48
  | .rePosLo => 0x4C
  | .rePosHi => 0x50
  | .id => 0x54
  | .revision => 0x58

/-- A line of a host program (R97). -/
inductive Line where
  | ld (r : RegName) (value : Word)
  | rd (r : RegName)
  | cmd (i : Instr)
deriving DecidableEq, Repr

/-- The host event a line stands for, with the window at `base`. -/
def lineEvent (base : Nat) : Line → HostEvent
  | .ld r v => .write (base + regOffset r) 4 v
  | .rd r => .read (base + regOffset r) 4
  | .cmd i => .write base 4 (encode i)

/-- The block with a host program as the host's coming accesses. -/
def State.withProgram (s : State) (lines : List Line) : State :=
  { s with host := lines.map (lineEvent s.params.regBase) }

/-- A byte at bits 8 k and up of a packed operand (R92). -/
def packByte (b : Byte) (k : Nat) : Word := b.setWidth 32 <<< (8 * k)

/-! ## Pseudo-instructions (R98) -/

def modelsInit (base count : Word) : List Line := [.ld .a base, .ld .b count, .cmd .pmInit]
def bitDec (base idx : Word) : List Line := [.ld .a base, .ld .b idx, .cmd .rdBit]
def bitEnc (base idx bit : Word) : List Line := [.ld .a base, .ld .b idx, .ld .c bit, .cmd .reBit]
def cfgLine (g : Cfg) : List Line := [.ld .cfg g.word]
def litDec (pos : Word) (prev : Byte) : List Line := [.ld .b pos, .ld .c (packByte prev 0), .cmd .rdLit]
def litmDec (pos : Word) (prev mb : Byte) : List Line :=
  [.ld .b pos, .ld .c (packByte mb 1 ||| packByte prev 0), .cmd .rdLitm]
def litEnc (pos : Word) (prev byte : Byte) : List Line :=
  [.ld .b pos, .ld .c (packByte byte 2 ||| packByte prev 0), .cmd .reLit]
def litmEnc (pos : Word) (prev mb byte : Byte) : List Line :=
  [.ld .b pos, .ld .c (packByte byte 2 ||| packByte mb 1 ||| packByte prev 0), .cmd .reLitm]
def lenDec (l : BitVec 1) (ps : BitVec 4) : List Line := [.cmd (.rdLen ps l)]
def lenEnc (l : BitVec 1) (ps : BitVec 4) (sym : Word) : List Line := [.ld .b sym, .cmd (.reLen ps l)]
def treeDec (base : Word) (depth : BitVec 6) : List Line := [.ld .a base, .cmd (.rdTree depth)]
def treeEnc (base : Word) (depth : BitVec 6) (sym : Word) : List Line :=
  [.ld .a base, .ld .b sym, .cmd (.reTree depth)]
def waitLine : List Line := [.rd .status]

end Sys2Proof.Machine
end

