-- ==== Sys2Proof/Machine/Assembler.lean ====
section
/-!
DEFINITION. The text form of host programs (30_encoding R97): one line of text to the host accesses it stands for, rejecting by name. What the grammar leaves open is log 17's.
-/

namespace Sys2Proof.Machine

/-- Why a line of text does not assemble. The rule names one such error, `fieldNotUsed`; the others are text
that is no line of the grammar, or a number that does not fit where it stands (log 17). -/
inductive AsmError where
  | malformed
  | unknownWord
  | unknownRegister
  | unknownField
  | badNumber
  | numberTooLarge
  | fieldNotUsed
  | fieldTwice
deriving DecidableEq, Repr

/-- Text as its characters. -/
abbrev Text := List Char

/-! ## Words and numbers -/

/-- A word read so far, last character first, as a list of no or one word. -/
def endWord (acc : Text) : List Text := if acc = [] then [] else [acc.reverse]

/-- The words of a line, split at blanks; a comma is a word of its own; `;` starts a comment, to the end of the line. -/
def wordsFrom (acc : Text) : Text → List Text
  | [] => endWord acc
  | c :: rest =>
    if c = ';' then endWord acc
    else if c = ' ' ∨ c = '\t' then endWord acc ++ wordsFrom [] rest
    else if c = ',' then endWord acc ++ [','] :: wordsFrom [] rest
    else wordsFrom (c :: acc) rest

/-- The value of a digit, where it is one of the base. -/
def digitValue (base : Nat) (c : Char) : Option Nat :=
  let v := if '0' ≤ c ∧ c ≤ '9' then c.toNat - '0'.toNat
    else if 'a' ≤ c ∧ c ≤ 'f' then c.toNat - 'a'.toNat + 10
    else if 'A' ≤ c ∧ c ≤ 'F' then c.toNat - 'A'.toNat + 10
    else base
  if v < base then some v else none

/-- The number that digits write after `v`. -/
def numberFrom (base v : Nat) : Text → Option Nat
  | [] => some v
  | c :: rest =>
    match digitValue base c with
    | none => none
    | some d => numberFrom base (base * v + d) rest

/-- `value` of R97: decimal, or `0x` and hexadecimal, below 2^width. -/
def number (width : Nat) (t : Text) : Except AsmError Nat :=
  let v := match t with
    | [] => none
    | '0' :: 'x' :: [] => none
    | '0' :: 'x' :: c :: rest => numberFrom 16 0 (c :: rest)
    | c :: rest => numberFrom 10 0 (c :: rest)
  match v with
  | none => .error .badNumber
  | some v => if v < 2 ^ width then .ok v else .error .numberTooLarge

/-! ## Names -/

/-- The value a name has in a table of names. -/
def named {α : Type} (table : List (String × α)) (t : Text) : Option α :=
  (table.find? fun row => row.1.toList == t).map Prod.snd

/-- The register names of R97. -/
def registerNames : List (String × RegName) :=
  [("A", .a), ("B", .b), ("C", .c), ("CFG", .cfg), ("LITBASE", .litBase), ("LENBASE0", .lenBase0),
   ("LENBASE1", .lenBase1), ("RES", .res), ("STATUS", .status), ("FAULTINFO", .faultInfo),
   ("RD_RANGE", .rdRange), ("RD_CODE", .rdCode), ("RE_RANGE", .reRange), ("RE_LOW_LO", .reLowLo),
   ("RE_LOW_HI", .reLowHi), ("RE_CACHE", .reCache), ("RE_CACHESIZE_LO", .reCacheSizeLo),
   ("RE_CACHESIZE_HI", .reCacheSizeHi), ("RE_POS_LO", .rePosLo), ("RE_POS_HI", .rePosHi),
   ("ID", .id), ("REVISION", .revision)]

/-- The mnemonics of R93 with their opcodes. -/
def mnemonicOps : List (String × BitVec 8) :=
  [("NOP", 0x00), ("RESET", 0x01), ("PM_INIT", 0x02), ("PM_RD", 0x03), ("PM_WR", 0x04)] ++
  [("RD_INIT", 0x10), ("RD_BIT", 0x11), ("RD_DIRECT", 0x12), ("RD_TREE", 0x13), ("RD_RTREE", 0x14),
   ("RD_LEN", 0x15), ("RD_LIT", 0x16), ("RD_LITM", 0x17)] ++
  [("RE_INIT", 0x20), ("RE_BIT", 0x21), ("RE_DIRECT", 0x22), ("RE_TREE", 0x23), ("RE_RTREE", 0x24),
   ("RE_LEN", 0x25), ("RE_LIT", 0x26), ("RE_LITM", 0x27), ("RE_FLUSH", 0x28)] ++
  [("IDX_LIT", 0x30), ("IDX_PS", 0x31), ("PR_BIT", 0x32), ("PR_TREE", 0x33), ("PR_RTREE", 0x34),
   ("PR_LIT", 0x35), ("PR_LITM", 0x36), ("PR_LEN", 0x37), ("LEN_PRICE_INIT", 0x38)]

/-! ## Commands -/

/-- The fields a line gives so far. -/
structure Given where
  n  : Option Nat
  ps : Option Nat
  l  : Option Nat
deriving DecidableEq, Repr

/-- One more field of a command whose opcode row is `r`. "A field given for an opcode that does not use it is an
assembly error" (R97). -/
def takeField (r : OpRow) (g : Given) (t : Text) : Except AsmError Given :=
  match t with
  | 'n' :: '=' :: v =>
    if r.n.isSome = false then .error .fieldNotUsed
    else if g.n.isSome then .error .fieldTwice
    else (number 6 v).map fun x => { g with n := some x }
  | 'p' :: 's' :: '=' :: v =>
    if r.ps = false then .error .fieldNotUsed
    else if g.ps.isSome then .error .fieldTwice
    else (number 4 v).map fun x => { g with ps := some x }
  | 'l' :: '=' :: v =>
    if r.l = false then .error .fieldNotUsed
    else if g.l.isSome then .error .fieldTwice
    else (number 1 v).map fun x => { g with l := some x }
  | _ => .error .unknownField

/-- The fields of a command. -/
def takeFields (r : OpRow) (g : Given) : List Text → Except AsmError Given
  | [] => .ok g
  | t :: rest =>
    match takeField r g t with
    | .error e => .error e
    | .ok g' => takeFields r g' rest

/-- The command word of a mnemonic with fields; a field left out is 0 (R97). A word whose N is then illegal is
written as it is: the block raises ILLEGAL_CMD for it (R94). -/
def assembleCommand (op : BitVec 8) (fields : List Text) : Except AsmError Word :=
  match opRow op with
  | none => .error .unknownWord
  | some r => (takeFields r ⟨none, none, none⟩ fields).map fun g =>
      commandWord op (BitVec.ofNat 6 (g.n.getD 0)) (BitVec.ofNat 4 (g.ps.getD 0)) (BitVec.ofNat 1 (g.l.getD 0))

/-! ## Lines and programs -/

/-- A register by its name. -/
def registerNamed (t : Text) : Except AsmError RegName :=
  match named registerNames t with
  | none => .error .unknownRegister
  | some r => .ok r

/-- The host accesses of the words of a line, with the window at `base`; none for a comment. DESIGN CHOICE (log 17): a
pseudo-instruction of R98 is no line of text, since the grammar of R97 has no production for it, so its name is an
unknown word; its expansion is a list of lines in HostProgram.lean. -/
def assembleWords (base : Nat) : List Text → Except AsmError (List HostEvent)
  | [] => .ok []
  | word :: rest =>
    if word = ['l', 'd'] then
      match rest with
      | [reg, [','], v] =>
        match registerNamed reg, number 32 v with
        | .ok r, .ok v => .ok [lineEvent base (.ld r (BitVec.ofNat 32 v))]
        | .error e, _ => .error e
        | _, .error e => .error e
      | _ => .error .malformed
    else if word = ['r', 'd'] then
      match rest with
      | [reg] => (registerNamed reg).map fun r => [lineEvent base (.rd r)]
      | _ => .error .malformed
    else
      match named mnemonicOps word with
      | none => .error .unknownWord
      | some op => (assembleCommand op rest).map fun w => [.write base 4 w]

/-- The host accesses of one line of text. -/
def assembleLine (base : Nat) (line : Text) : Except AsmError (List HostEvent) :=
  assembleWords base (wordsFrom [] line)

/-- The host accesses of a program, its lines one after another (R97). -/
def assemble (base : Nat) : List Text → Except AsmError (List HostEvent)
  | [] => .ok []
  | line :: rest =>
    match assembleLine base line, assemble base rest with
    | .ok now, .ok later => .ok (now ++ later)
    | .error e, _ => .error e
    | _, .error e => .error e

end Sys2Proof.Machine
end

