-- ==== Sys2Proof/Safety.lean ====
section
/-!
DEFINITION. The terms claims are made in: what a running block is, which cells a command codes with, what one coded bit does in plain numbers, the order in which the checks of a command decide, and the invariants the rules promise (40 R116, 41 R134, 42 R153, 44 R206, 10 R24).
-/

namespace Sys2Proof.Machine

/-! ## Runs -/

/-- No fault since reset, and no command suspended on a port. -/
abbrev State.running (s : State) : Prop := s.err = false ∧ s.request = none

/-- A step of the block answers this state. -/
abbrev stepsTo (s t : State) : Prop := step s = .next t

/-- The command answers this state. -/
abbrev runsTo (i : Instr) (s t : State) : Prop := exec i s = .next t

/-- The state after a command (it always answers a next one). -/
def afterCommand (i : Instr) (s : State) : State :=
  match exec i s with
  | .next t => t
  | _ => s

/-! ## The legal words (R93, R94) -/

/-- A row of the opcode table: match, mask, and the least and the greatest legal N (0 and 63 where N is not used). -/
abbrev WordRow := Word × Word × Nat × Nat

/-- The rows of the control and model-memory commands, as opcode_table.json gives them. -/
def controlWords : List WordRow :=
  [(0x00000000, 0xFFFFFFFF, 0, 63), (0x00000001, 0xFFFFFFFF, 0, 63), (0x00000002, 0xFFFFFFFF, 0, 63),
   (0x00000003, 0xFFFFFFFF, 0, 63), (0x00000004, 0xFFFFFFFF, 0, 63)]

/-- The rows of the range decoder commands, as opcode_table.json gives them. -/
def decoderWords : List WordRow :=
  [(0x00000010, 0xFFFFFFFF, 0, 63), (0x00000011, 0xFFFFFFFF, 0, 63), (0x00000012, 0xFFFFC0FF, 0, 32),
   (0x00000013, 0xFFFFC0FF, 1, 8), (0x00000014, 0xFFFFC0FF, 1, 8), (0x00000015, 0xFFF83FFF, 0, 63),
   (0x00000016, 0xFFFFFFFF, 0, 63), (0x00000017, 0xFFFFFFFF, 0, 63)]

/-- The rows of the range encoder commands, as opcode_table.json gives them. -/
def encoderWords : List WordRow :=
  [(0x00000020, 0xFFFFFFFF, 0, 63), (0x00000021, 0xFFFFFFFF, 0, 63), (0x00000022, 0xFFFFC0FF, 0, 32),
   (0x00000023, 0xFFFFC0FF, 1, 8), (0x00000024, 0xFFFFC0FF, 1, 8), (0x00000025, 0xFFF83FFF, 0, 63),
   (0x00000026, 0xFFFFFFFF, 0, 63), (0x00000027, 0xFFFFFFFF, 0, 63), (0x00000028, 0xFFFFFFFF, 0, 63)]

/-- The rows of the indexer and price commands, as opcode_table.json gives them. -/
def priceWords : List WordRow :=
  [(0x00000030, 0xFFFFFFFF, 0, 63), (0x00000031, 0xFFFFFFFF, 0, 63), (0x00000032, 0xFFFFFFFF, 0, 63),
   (0x00000033, 0xFFFFC0FF, 1, 8), (0x00000034, 0xFFFFC0FF, 1, 8), (0x00000035, 0xFFFFFFFF, 0, 63),
   (0x00000036, 0xFFFFFFFF, 0, 63), (0x00000037, 0xFFF83FFF, 0, 63), (0x00000038, 0xFFFBFFFF, 0, 63)]

/-- The word is legal by the row: the fixed bits match, and N is in its range. -/
abbrev WordRow.allows (r : WordRow) (w : Word) : Prop :=
  w &&& r.2.1 = r.1 ∧ r.2.2.1 ≤ w.toNat / 2 ^ 8 % 2 ^ 6 ∧ w.toNat / 2 ^ 8 % 2 ^ 6 ≤ r.2.2.2

/-- The word is a legal command word. -/
def legalWord (w : Word) : Prop :=
  ∃ r ∈ controlWords ++ decoderWords ++ encoderWords ++ priceWords, WordRow.allows r w

/-! ## Command lines (R97) -/

/-- A mnemonic, its word with every field 0, and the fields its opcode uses (R93). -/
structure LineRow where
  name : String
  word : Word
  n    : Bool
  ps   : Bool
  l    : Bool

/-- The mnemonics of R93 whose opcodes use no field. -/
def plainLines : List LineRow :=
  [("NOP", 0x00), ("RESET", 0x01), ("PM_INIT", 0x02), ("PM_RD", 0x03), ("PM_WR", 0x04), ("RD_INIT", 0x10),
   ("RD_BIT", 0x11), ("RD_LIT", 0x16), ("RD_LITM", 0x17), ("RE_INIT", 0x20), ("RE_BIT", 0x21), ("RE_LIT", 0x26),
   ("RE_LITM", 0x27), ("RE_FLUSH", 0x28), ("IDX_LIT", 0x30), ("IDX_PS", 0x31), ("PR_BIT", 0x32), ("PR_LIT", 0x35),
   ("PR_LITM", 0x36)].map fun x => ⟨x.1, x.2, false, false, false⟩

/-- The mnemonics of R93 whose opcodes use fields. -/
def fieldLines : List LineRow :=
  [("RD_DIRECT", 0x12), ("RD_TREE", 0x13), ("RD_RTREE", 0x14), ("RE_DIRECT", 0x22), ("RE_TREE", 0x23), ("RE_RTREE", 0x24),
   ("PR_TREE", 0x33), ("PR_RTREE", 0x34)].map (fun x => ⟨x.1, x.2, true, false, false⟩) ++
  [("RD_LEN", 0x15), ("RE_LEN", 0x25), ("PR_LEN", 0x37)].map (fun x => ⟨x.1, x.2, false, true, true⟩) ++
  [⟨"LEN_PRICE_INIT", 0x38, false, false, true⟩]

/-- A field as text, with its value in decimal; nothing where it is left out. -/
def fieldText (key : String) : Option Nat → List Char
  | none => []
  | some v => ' ' :: key.toList ++ Nat.toDigits 10 v

/-! ## The host -/

/-- The host's next event is a word write at this offset of the window, and the block waits on no port. -/
abbrev State.hostWrites (s : State) (off : Nat) (w : Word) (rest : List HostEvent) : Prop :=
  s.request = none ∧ s.host = .write (s.params.regBase + off) 4 w :: rest

/-- The host's next event is a word read at this offset of the window, and the block waits on no port. -/
abbrev State.hostReadsAt (s : State) (off : Nat) (rest : List HostEvent) : Prop :=
  s.request = none ∧ s.host = .read (s.params.regBase + off) 4 :: rest

/-- What a read of each register returns (R24, R26, R30, R33, R34). -/
def registerMap (s : State) : List (Nat × Nat) :=
  [(0x00, 0), (0x04, s.a.toNat), (0x08, s.b.toNat), (0x0C, s.c.toNat), (0x10, s.res.toNat),
   (0x14, s.err.toNat + 2 * s.rdReady.toNat + 4 * s.reReady.toNat + 8 * s.pv0.toNat + 16 * s.pv1.toNat
     + 2 ^ 8 * s.cause.toNat),
   (0x18, s.faultInfo.toNat),
   (0x1C, s.cfg.lc.toNat + 2 ^ 4 * s.cfg.lp.toNat + 2 ^ 8 * s.cfg.pb.toNat + 2 ^ 16 * s.cfg.tableSize.toNat),
   (0x20, s.litBase.toNat), (0x24, s.lenBase0.toNat), (0x28, s.lenBase1.toNat), (0x2C, s.rdRange.toNat),
   (0x30, s.rdCode.toNat), (0x34, s.reRange.toNat), (0x38, s.reLow.toNat % 2 ^ 32), (0x3C, s.reLow.toNat / 2 ^ 32),
   (0x40, s.reCache.toNat), (0x44, s.reCacheSize.toNat % 2 ^ 32), (0x48, s.reCacheSize.toNat / 2 ^ 32),
   (0x4C, s.rePos.toNat % 2 ^ 32), (0x50, s.rePos.toNat / 2 ^ 32), (0x54, 0x4C5A5243), (0x58, 1)]

/-- The offsets of the read-only registers (R34). -/
def readOnlyOffsets : List Nat :=
  [0x10, 0x14, 0x18, 0x2C, 0x30, 0x34, 0x38, 0x3C, 0x40, 0x44, 0x48, 0x4C, 0x50, 0x54, 0x58]

/-- An unassigned offset (R34). -/
abbrev unassignedOffset (off : Nat) : Prop := off % 4 = 0 ∧ 0x5C ≤ off ∧ off < 0x100

/-- Every register of the block at its reset value, every cell unwritten, no request outstanding (R36). -/
def State.atReset (t : State) : Prop :=
  (t.a = 0#32 ∧ t.b = 0#32 ∧ t.c = 0#32 ∧ t.res = 0#32 ∧ t.faultInfo = 0#32) ∧
  (t.err = false ∧ t.rdReady = false ∧ t.reReady = false ∧ t.pv0 = false ∧ t.pv1 = false ∧ t.cause = 0#8) ∧
  t.cfg = ⟨0#4, 0#3, 0#3, 0#9⟩ ∧ (t.litBase = 0#32 ∧ t.lenBase0 = 0#32 ∧ t.lenBase1 = 0#32) ∧
  (t.rdRange = 0#32 ∧ t.rdCode = 0#32) ∧
  (t.reRange = 0#32 ∧ t.reLow = 0#33 ∧ t.reCache = 0#8 ∧ t.reCacheSize = 0#64 ∧ t.rePos = 0#64) ∧
  (∀ ea, t.pmWritten ea = false) ∧ t.request = none

/-- What a reset does not touch is the same in both: the parameters, the ports, what the sink has received (R320). -/
def sameSurroundings (s t : State) : Prop :=
  t.params = s.params ∧ t.input = s.input ∧ t.sink = s.sink ∧ t.output = s.output

/-- The codes of R280. -/
def causeNumber : Cause → Nat
  | .illegalCmd => 1
  | .notInit => 2
  | .badOperand => 3
  | .invalidOption => 4
  | .pmRange => 5
  | .uninitModel => 6
  | .priceInvalid => 7
  | .unexpectedEof => 8
  | .ioError => 9

/-- The state after a fault (R282). -/
def State.faulted (s : State) (r : Raise) : State :=
  { s with err := true, cause := BitVec.ofNat 8 (causeNumber r.cause), faultInfo := r.info }

/-- The literal sub-coder's base cell in plain numbers (R230). -/
def State.litCell (s : State) : Word :=
  BitVec.ofNat 32 (s.litBase.toNat +
    768 * (s.b.toNat % 2 ^ s.cfg.lp.toNat * 2 ^ s.cfg.lc.toNat + s.c.toNat % 2 ^ 8 / 2 ^ (8 - s.cfg.lc.toNat)))

/-- LC and LP are legal (R26). -/
abbrev State.legalLcLp (s : State) : Prop := s.cfg.lc.toNat ≤ 8 ∧ s.cfg.lp.toNat ≤ 4

/-- PB is legal and PS is below 2^pb (R26, R91). -/
abbrev State.legalPs (s : State) (ps : BitVec 4) : Prop := s.cfg.pb.toNat ≤ 4 ∧ ps.toNat < 2 ^ s.cfg.pb.toNat

/-- TABLESIZE is legal (R26). -/
abbrev State.legalTableSize (s : State) : Prop := 1 ≤ s.cfg.tableSize.toNat ∧ s.cfg.tableSize.toNat ≤ 272

/-! ## Cells -/

/-- The cells of a footprint, in its order (R64). -/
def spanCells (fp : List Span) : List Word := fp.flatMap Span.cells

/-- The cell exists, is written, and holds a value a cell can hold (R116). -/
abbrev State.modelCell (s : State) (ea : Word) : Prop :=
  s.inRange ea = true ∧ s.pmWritten ea = true ∧ 31 ≤ (s.pmRead ea).toNat ∧ (s.pmRead ea).toNat ≤ 2017

/-- Every one of the cells is such a cell. -/
abbrev State.readable (s : State) (cells : List Word) : Prop := ∀ ea ∈ cells, s.modelCell ea

/-- The memories agree on every cell that is not among `cells`, in value and written bit. -/
abbrev agreeOutside (cells : List Word) (m m' : Memory) : Prop :=
  ∀ k : Nat, (∀ ea ∈ cells, ea.toNat ≠ k) → m'.get? k = m.get? k

/-! ## Frames -/

/-- Only the range decoder's registers, PM and the input source differ (R29, R284). -/
def decoderOnly (s t : State) : Prop :=
  t = { s with rdRange := t.rdRange, rdCode := t.rdCode, pm := t.pm, input := t.input }

/-- Only the range encoder's registers, PM, the output sink and its bytes differ (R30, R284). -/
def encoderOnly (s t : State) : Prop :=
  t = { s with
    reRange := t.reRange, reLow := t.reLow, reCache := t.reCache, reCacheSize := t.reCacheSize, rePos := t.rePos
    pm := t.pm, sink := t.sink, output := t.output }

/-! ## Environments -/

/-- The sink accepts whatever it is offered. -/
abbrev State.sinkAccepts (s : State) : Prop := s.sink.last = some .ok ∧ ∀ x ∈ s.sink.answers, x = .ok

/-- The source's next answers are at least n bytes. -/
abbrev State.hasBytes (s : State) (n : Nat) : Prop :=
  ∃ (bs : List Byte) (rest : List InAnswer), s.input.answers = bs.map .byte ++ rest ∧ n ≤ bs.length

/-! ## The coded bits of a symbol

A symbol is coded as a list of decisions, each a cell and a bit. Encoding, decoding and pricing use the same list
(R184, R185, R188, R205, R233, R235, R237). -/

/-- One decision: the model cell and the bit coded with it. -/
abbrev Decision := Word × Bool

/-- The cells of a list of decisions. -/
abbrev codeCells (code : List Decision) : List Word := code.map Prod.fst

/-- The decisions of a depth-d symbol, MSB first: step i is at the node 2^i + (the symbol's top i bits) (R180, R184). -/
def treeCode (base : Word) (d sym : Nat) : List Decision :=
  (List.range d).map fun i => (nodeCell base (2 ^ i + (sym % 2 ^ d) / 2 ^ (d - i)), sym.testBit (d - 1 - i))

/-- The node reached after the bits 0 .. i - 1 of the symbol (R180, R185). -/
def revNode (sym : Nat) : Nat → Nat
  | 0 => 1
  | i + 1 => 2 * revNode sym i + (sym.testBit i).toNat

/-- The decisions of a depth-d symbol, LSB first (R185). -/
def treeCodeRev (base : Word) (d sym : Nat) : List Decision :=
  (List.range d).map fun i => (nodeCell base (revNode sym i), sym.testBit i)

/-- The decisions of a length symbol: the table of R202 over the layout of R203. -/
def lenCode (base : Word) (ps sym : Nat) : List Decision :=
  if sym < 8 then (base, false) :: treeCode (base + BitVec.ofNat 32 (2 + 8 * ps)) 3 sym
  else if sym < 16 then
    (base, true) :: (base + 1#32, false) :: treeCode (base + BitVec.ofNat 32 (130 + 8 * ps)) 3 (sym - 8)
  else (base, true) :: (base + 1#32, true) :: treeCode (base + 258#32) 8 (sym - 16)

/-- The decisions of a literal byte with the plain model (R230, R233). -/
def litCode (sub : Word) (byte : Nat) : List Decision := treeCode sub 8 byte

/-- The decisions of a literal byte against a match byte: step i uses the matched model exactly when the bits above
bit 7 - i agree, so the first differing bit is still coded with it (R234, R235; 92 D25). -/
def matchedCode (sub : Word) (mb byte : Nat) : List Decision :=
  (List.range 8).map fun i =>
    let node := 2 ^ i + (byte % 256) / 2 ^ (8 - i)
    let cell := if mb / 2 ^ (8 - i) = byte / 2 ^ (8 - i) then 256 * (1 + (mb.testBit (7 - i)).toNat) + node else node
    (nodeCell sub cell, byte.testBit (7 - i))

/-! ## One coded bit in plain numbers -/

/-- The cell's value after `bit` was coded with it at p (R115). -/
def adapted (p : Nat) (bit : Bool) : Nat := if bit then p - p / 2 ^ 5 else p + (2048 - p) / 2 ^ 5

/-- The split point of an interval at p (R132, R154). -/
def boundOf (range p : Nat) : Nat := range / 2 ^ 11 * p

/-- RD_RANGE is where R134 promises it. -/
abbrev State.decoderInterval (s : State) : Prop := 2 ^ 24 ≤ s.rdRange.toNat

/-- RE_RANGE and RE_LOW are where R153 promises them. -/
abbrev State.encoderInterval (s : State) : Prop :=
  2 ^ 24 ≤ s.reRange.toNat ∧ s.reLow.toNat + s.reRange.toNat < 2 ^ 33

/-! ### Decoding -/

/-- Renormalisation of the decoder in at most one round (R131, R135). -/
def refilled (s u : State) : Prop :=
  (2 ^ 24 ≤ s.rdRange.toNat ∧ u = s) ∨
    (s.rdRange.toNat < 2 ^ 24 ∧ ∃ (b : Byte) (rest : List InAnswer), s.input.answers = .byte b :: rest ∧
      u = { s with
        rdRange := BitVec.ofNat 32 (s.rdRange.toNat * 2 ^ 8)
        rdCode := BitVec.ofNat 32 (s.rdCode.toNat * 2 ^ 8 + b.toNat)
        input := { s.input with answers := rest } })

/-- A request for a byte that gets none ends the command in t. End of input raises UNEXPECTED_EOF and an error IO_ERROR, each with
FAULTINFO 0 and the answer taken; a source that never answers leaves the request pending (R66, R281, R331; log 4). -/
def noByte (s t : State) : Prop :=
  match s.input.answers, s.input.last with
  | .byte _ :: _, _ => False
  | .eof :: rest, _ => t = State.faulted { s with input := { s.input with answers := rest } } ⟨.unexpectedEof, 0#32⟩
  | .err :: rest, _ => t = State.faulted { s with input := { s.input with answers := rest } } ⟨.ioError, 0#32⟩
  | [], .eof => t = s.faulted ⟨.unexpectedEof, 0#32⟩
  | [], .err => t = s.faulted ⟨.ioError, 0#32⟩
  | [], .silent => t = { s with request := some .inByte }

/-- The bit that decoding with a model cell finds (R132): 1 exactly where RD_CODE is at or above the split point. -/
def bitFound (x : Decision) (s : State) : Prop :=
  x.2 = decide (boundOf s.rdRange.toNat (s.pmRead x.1).toNat ≤ s.rdCode.toNat)

/-- The state in which that bit is found, before renormalisation: the interval, the code and the cell are updated (R132). -/
def bitTaken (x : Decision) (s : State) : State :=
  let p := (s.pmRead x.1).toNat
  let bound := boundOf s.rdRange.toNat p
  { s with
    rdRange := BitVec.ofNat 32 (if x.2 then s.rdRange.toNat - bound else bound)
    rdCode := BitVec.ofNat 32 (if x.2 then s.rdCode.toNat - bound else s.rdCode.toNat)
    pm := s.pm.set x.1.toNat (BitVec.ofNat 16 (adapted p x.2)) }

/-- Decoding one bit with a model cell finds this bit and leaves u (R131, R132). -/
def decodesBit (x : Decision) (s u : State) : Prop := bitFound x s ∧ refilled (bitTaken x s) u

/-- Decoding finds exactly these decisions, in this order, and leaves t. -/
def decodesAs : List Decision → State → State → Prop
  | [], s, t => t = s
  | x :: rest, s, t => ∃ u, decodesBit x s u ∧ decodesAs rest u t

/-- The direct bit that is found (R133): 1 exactly where RD_CODE less half the range is not negative as a 32-bit number. -/
def halfFound (bit : Bool) (s : State) : Prop :=
  bit = decide ((s.rdCode.toNat + 2 ^ 32 - s.rdRange.toNat / 2) % 2 ^ 32 < 2 ^ 31)

/-- The state in which that bit is found, before renormalisation (R133). -/
def halfTaken (bit : Bool) (s : State) : State :=
  let half := s.rdRange.toNat / 2
  { s with
    rdRange := BitVec.ofNat 32 half
    rdCode := BitVec.ofNat 32 (if bit then (s.rdCode.toNat + 2 ^ 32 - half) % 2 ^ 32 else s.rdCode.toNat) }

/-- Decoding one direct bit finds this bit and leaves u (R131, R133). -/
def decodesHalf (bit : Bool) (s u : State) : Prop := halfFound bit s ∧ refilled (halfTaken bit s) u

/-- Decoding finds exactly these direct bits, in this order, and leaves t. -/
def decodesHalves : List Bool → State → State → Prop
  | [], s, t => t = s
  | b :: rest, s, t => ∃ u, decodesHalf b s u ∧ decodesHalves rest u t

/-- Decoding follows this list until the renormalisation after one of its bits asks for a byte and gets none, which ends the
command in t; that bit has updated its cell, RD_RANGE and RD_CODE (R131, R284). -/
def decodeStarves {α : Type} (found : α → State → Prop) (taken : α → State → State) : List α → State → State → Prop
  | [], _, _ => False
  | x :: rest, s, t => found x s ∧
      (((taken x s).rdRange.toNat < 2 ^ 24 ∧ noByte (taken x s) t) ∨
        ∃ u, refilled (taken x s) u ∧ decodeStarves found taken rest u t)

/-- A decode command that takes these decisions ends in t: it completes with value v in RES, or ends where a byte does not come. -/
def decodeEnds (code : List Decision) (v : Nat) (s t : State) : Prop :=
  (∃ u, decodesAs code s u ∧ t = { u with res := BitVec.ofNat 32 v }) ∨ decodeStarves bitFound bitTaken code s t

/-- The number whose bits these are, the most significant first. -/
def bitsValue (bits : List Bool) : Nat := bits.foldl (fun v b => 2 * v + b.toNat) 0

/-! ### Encoding -/

/-- The bytes a ShiftLow emits: the cached byte and the queued bytes, each with the carry, or none (R152). -/
def State.leavingBytes (s : State) : List Byte :=
  let hi := s.reLow.toNat / 2 ^ 32
  if hi ≠ 0 ∨ s.reLow.toNat < 0xFF000000 then
    BitVec.ofNat 8 (s.reCache.toNat + hi) :: List.replicate (s.reCacheSize.toNat - 1) (BitVec.ofNat 8 (0xFF + hi))
  else []

/-- The state after ShiftLow (R152). -/
def State.shifted (s : State) : State :=
  { s with
    sink := { s.sink with answers := s.sink.answers.drop s.leavingBytes.length }
    output := s.output ++ s.leavingBytes.map .byte
    rePos := BitVec.ofNat 64 (s.rePos.toNat + s.leavingBytes.length)
    reCache := if s.leavingBytes = [] then s.reCache else BitVec.ofNat 8 (s.reLow.toNat / 2 ^ 24)
    reCacheSize := if s.leavingBytes = [] then BitVec.ofNat 64 (s.reCacheSize.toNat + 1) else 1#64
    reLow := BitVec.ofNat 33 (s.reLow.toNat % 2 ^ 24 * 2 ^ 8) }

/-- The state after the encoder's renormalisation (R151). -/
def State.renormalised (s : State) : State :=
  if s.reRange.toNat < 2 ^ 24 then { s with reRange := BitVec.ofNat 32 (s.reRange.toNat * 2 ^ 8) }.shifted else s

/-- The state after the decision of one bit with a model cell, before renormalisation (R154). -/
def bitCoded (x : Decision) (s : State) : State :=
  let p := (s.pmRead x.1).toNat
  let bound := boundOf s.reRange.toNat p
  { s with
    reLow := BitVec.ofNat 33 (if x.2 then s.reLow.toNat + bound else s.reLow.toNat)
    reRange := BitVec.ofNat 32 (if x.2 then s.reRange.toNat - bound else bound)
    pm := s.pm.set x.1.toNat (BitVec.ofNat 16 (adapted p x.2)) }

/-- The state after encoding one bit with a model cell (R154). -/
def State.encodedBit (s : State) (x : Decision) : State := (bitCoded x s).renormalised

/-- The state after encoding these decisions, in this order. -/
def State.encodedAs (s : State) (code : List Decision) : State := code.foldl State.encodedBit s

/-- The state after one direct bit, before renormalisation (R155). -/
def halfCoded (bit : Bool) (s : State) : State :=
  let half := s.reRange.toNat / 2
  { s with
    reRange := BitVec.ofNat 32 half
    reLow := BitVec.ofNat 33 (if bit then s.reLow.toNat + half else s.reLow.toNat) }

/-- The state after encoding one direct bit (R155). -/
def State.encodedHalf (s : State) (bit : Bool) : State := (halfCoded bit s).renormalised

/-! ### What the sink answers -/

/-- The sink's answer to its k-th offer or flush request from now on, none where it never answers. -/
def OutPort.answerAt (p : OutPort) (k : Nat) : Option OutAnswer := (p.answers[k]?).or p.last

/-- The sink accepts every byte the next ShiftLow emits. -/
def State.shiftAccepted (s : State) : Prop := ∀ k < s.leavingBytes.length, s.sink.answerAt k = some .ok

/-- The state after the first k bytes of a ShiftLow are accepted: emitted and counted, RE_CACHE, RE_CACHESIZE and RE_LOW as before
(R152, R284). -/
def State.emitted (s : State) (k : Nat) : State :=
  { s with
    sink := { s.sink with answers := s.sink.answers.drop k }
    output := s.output ++ (s.leavingBytes.take k).map .byte
    rePos := BitVec.ofNat 64 (s.rePos.toNat + k) }

/-- A ShiftLow ends the command in t: its k-th byte is answered with an error, which raises IO_ERROR with FAULTINFO 0, or is
never answered and stays offered (R67, R152, R284, R331; log 4). -/
def shiftStops (s t : State) : Prop :=
  ∃ (k : Nat) (b : Byte), s.leavingBytes[k]? = some b ∧ (∀ j < k, s.sink.answerAt j = some .ok) ∧
    ((s.sink.answerAt k = some .err ∧ t = State.faulted
        { s.emitted k with sink := { s.sink with answers := s.sink.answers.drop (k + 1) } } ⟨.ioError, 0#32⟩) ∨
      (s.sink.answerAt k = none ∧ t = { s.emitted k with request := some (.outByte b) }))

/-- The sink accepts every byte that encoding this list emits; a bit after which no ShiftLow runs needs no answer. -/
def codingAccepted {α : Type} (coded : α → State → State) : List α → State → Prop
  | [], _ => True
  | x :: rest, s => ((coded x s).reRange.toNat < 2 ^ 24 → (coded x s).shiftAccepted) ∧
      codingAccepted coded rest (coded x s).renormalised

/-- Encoding follows this list until the ShiftLow after one of its bits ends the command in t (R151, R284). -/
def codingStops {α : Type} (coded : α → State → State) : List α → State → State → Prop
  | [], _, _ => False
  | x :: rest, s, t =>
    ((coded x s).reRange.toNat < 2 ^ 24 ∧
        shiftStops { coded x s with reRange := BitVec.ofNat 32 ((coded x s).reRange.toNat * 2 ^ 8) } t) ∨
      (((coded x s).reRange.toNat < 2 ^ 24 → (coded x s).shiftAccepted) ∧
        codingStops coded rest (coded x s).renormalised t)

/-- The sink accepts every byte of the next n ShiftLows. -/
def shiftsAccepted : Nat → State → Prop
  | 0, _ => True
  | n + 1, s => s.shiftAccepted ∧ shiftsAccepted n s.shifted

/-- One of the next n ShiftLows ends the command in t. -/
def shiftsStop : Nat → State → State → Prop
  | 0, _, _ => False
  | n + 1, s, t => shiftStops s t ∨ (s.shiftAccepted ∧ shiftsStop n s.shifted t)

/-! ### Prices -/

/-- The sum of the bit prices of the decisions, with the cells as they are (R188). -/
def codePrice (s : State) (code : List Decision) : Nat := (code.map fun x => priceBit (s.pmRead x.1) x.2).sum

/-- The prices of the first `n` length symbols of a length coder under a pos_state, with the cells as they are (R206, R208). -/
def lenPrices (s : State) (base : Word) (ps n : Nat) : List Word :=
  (List.range n).map fun sym => BitVec.ofNat 32 (codePrice s (lenCode base ps sym))

/-! ## A coded stream (R137) -/

/-- One command of a stream, with its operands: what RE_BIT and RE_DIRECT code, and the tree, length and literal commands
built from them. -/
inductive Coded where
  | bit (ea : Word) (b : Bool)
  | direct (n : BitVec 6) (v : Word)
  | tree (base : Word) (n : BitVec 6) (sym : Word)
  | treeRev (base : Word) (n : BitVec 6) (sym : Word)
  | len (ps : BitVec 4) (l : BitVec 1) (sym : Word)
  | lit (pos : Word) (prev byte : Byte)
  | litMatched (pos : Word) (prev mb byte : Byte)
deriving DecidableEq, Repr

/-- What is coded, and so what RES holds after the matching decode command. -/
def Coded.value : Coded → Nat
  | .bit _ b => b.toNat
  | .direct n v => v.toNat % 2 ^ n.toNat
  | .tree _ n sym => sym.toNat % 2 ^ n.toNat
  | .treeRev _ n sym => sym.toNat % 2 ^ n.toNat
  | .len _ _ sym => sym.toNat
  | .lit _ _ byte => byte.toNat
  | .litMatched _ _ _ byte => byte.toNat

/-- The command can run on a block in state s with RE_READY = 1: its fields, options and operands are legal, and the cells of
its footprint hold values. -/
def Coded.legal (s : State) : Coded → Prop
  | .bit ea _ => s.readable [ea]
  | .direct n _ => legalCount n
  | .tree base n _ => legalDepth n ∧ s.readable (spanCells (treeSpan base n.toNat))
  | .treeRev base n _ => legalDepth n ∧ s.readable (spanCells (treeSpan base n.toNat))
  | .len ps l sym =>
    s.legalPs ps ∧ sym.toNat ≤ 271 ∧ (s.pv l = true → s.legalTableSize) ∧
      s.readable (spanCells (lenSpan (s.lenBase l) ps.toNat))
  | .lit pos prev _ =>
    s.legalLcLp ∧ s.readable (spanCells (plainSpan { s with b := pos, c := BitVec.ofNat 32 prev.toNat }.litCell))
  | .litMatched pos prev _ _ =>
    s.legalLcLp ∧ s.readable (spanCells (matchedSpan { s with b := pos, c := BitVec.ofNat 32 prev.toNat }.litCell))

/-- The RE_ command, with its operands written (R154, R155, R184, R185, R205, R233, R235). -/
def Coded.encode (s : State) : Coded → State
  | .bit ea b => afterCommand .reBit { s with a := ea, b := 0#32, c := bitWord b }
  | .direct n v => afterCommand (.reDirect n) { s with b := v }
  | .tree base n sym => afterCommand (.reTree n) { s with a := base, b := sym }
  | .treeRev base n sym => afterCommand (.reRtree n) { s with a := base, b := sym }
  | .len ps l sym => afterCommand (.reLen ps l) { s with b := sym }
  | .lit pos prev byte =>
    afterCommand .reLit { s with b := pos, c := BitVec.ofNat 32 (2 ^ 16 * byte.toNat + prev.toNat) }
  | .litMatched pos prev mb byte =>
    afterCommand .reLitm
      { s with b := pos, c := BitVec.ofNat 32 (2 ^ 16 * byte.toNat + 2 ^ 8 * mb.toNat + prev.toNat) }

/-- The matching RD_ command, with its operands written; it is told nothing of the coded value
(R132, R133, R182, R183, R204, R232, R234). -/
def Coded.decode (s : State) : Coded → State
  | .bit ea _ => afterCommand .rdBit { s with a := ea, b := 0#32 }
  | .direct n _ => afterCommand (.rdDirect n) s
  | .tree base n _ => afterCommand (.rdTree n) { s with a := base }
  | .treeRev base n _ => afterCommand (.rdRtree n) { s with a := base }
  | .len ps l _ => afterCommand (.rdLen ps l) s
  | .lit pos prev _ => afterCommand .rdLit { s with b := pos, c := BitVec.ofNat 32 prev.toNat }
  | .litMatched pos prev mb _ =>
    afterCommand .rdLitm { s with b := pos, c := BitVec.ofNat 32 (2 ^ 8 * mb.toNat + prev.toNat) }

/-- The states after each command of a stream. -/
def streamStates (run : State → Coded → State) : List Coded → State → List State
  | [], _ => []
  | op :: rest, s => run s op :: streamStates run rest (run s op)

/-! ## Which check decides (R285) -/

/-- The `RD_` commands that need RD_READY (R31). -/
def needsDecoder : Instr → Bool
  | .rdBit | .rdDirect _ | .rdTree _ | .rdRtree _ | .rdLen _ _ | .rdLit | .rdLitm => true
  | _ => false

/-- The `RE_` commands that need RE_READY (R31). -/
def needsEncoder : Instr → Bool
  | .reBit | .reDirect _ | .reTree _ | .reRtree _ | .reLen _ _ | .reLit | .reLitm | .reFlush => true
  | _ => false

/-- The commands that read LC and LP (45). -/
def readsLcLp : Instr → Bool
  | .idxLit | .rdLit | .rdLitm | .reLit | .reLitm | .prLit | .prLitm => true
  | _ => false

/-- The commands that read PB (44). -/
def readsPb : Instr → Bool
  | .idxPs | .rdLen _ _ | .reLen _ _ | .prLen _ _ | .lenPriceInit _ => true
  | _ => false

/-- The commands that read TABLESIZE; RE_LEN does only while PVL = 1 (R205). -/
def readsTableSize (s : State) : Instr → Bool
  | .reLen _ l => s.pv l
  | .prLen _ _ | .lenPriceInit _ => true
  | _ => false

/-- The operand checks, in the order of the command's rule: whether each is refused, and the fault (step 5). -/
def operandChecks (s : State) : Instr → List (Bool × Raise)
  | .pmWr => [(decide (s.c.toNat < 31 ∨ 2017 < s.c.toNat), ⟨.badOperand, s.c⟩)]
  | .rdLen ps _ => [(decide (2 ^ s.cfg.pb.toNat ≤ ps.toNat), ⟨.badOperand, ps.setWidth 32⟩)]
  | .reLen ps _ =>
    [(decide (2 ^ s.cfg.pb.toNat ≤ ps.toNat), ⟨.badOperand, ps.setWidth 32⟩),
     (decide (271 < s.b.toNat), ⟨.badOperand, s.b⟩)]
  | .prLen ps l =>
    [(decide (2 ^ s.cfg.pb.toNat ≤ ps.toNat), ⟨.badOperand, ps.setWidth 32⟩),
     (!s.pv l, ⟨.priceInvalid, encode (.prLen ps l)⟩),
     (decide (s.cfg.tableSize.toNat ≤ s.b.toNat), ⟨.badOperand, s.b⟩)]
  | _ => []

/-- The footprint of each command (R64 and the command's rule). -/
def footprint (s : State) : Instr → List Span
  | .pmInit => [⟨s.a, s.b.toNat⟩]
  | .pmRd | .pmWr | .rdBit | .reBit | .prBit => [⟨s.a + s.b, 1⟩]
  | .rdTree n | .rdRtree n | .reTree n | .reRtree n | .prTree n | .prRtree n => treeSpan s.a n.toNat
  | .rdLen ps l | .reLen ps l => lenSpan (s.lenBase l) ps.toNat
  | .rdLit | .reLit | .prLit => plainSpan s.litSub
  | .rdLitm | .reLitm | .prLitm => matchedSpan s.litSub
  | .lenPriceInit l => lenPriceSpan (s.lenBase l) (2 ^ s.cfg.pb.toNat)
  | _ => []

/-- The commands that only write their footprint (R64). -/
def onlyWrites : Instr → Bool
  | .pmInit | .pmWr => true
  | _ => false

/-- The footprint checks: PM_RANGE for the first cell that does not exist, then UNINIT_MODEL for the first unwritten one
(R64; step 6). -/
def footprintFault (s : State) (i : Instr) : Option Raise :=
  let cells := spanCells (footprint s i)
  match cells.find? (fun ea => decide (s.params.pmSize ≤ ea.toNat)) with
  | some ea => some ⟨.pmRange, ea⟩
  | none =>
    if onlyWrites i then none
    else (cells.find? fun ea => (s.pm.get? ea.toNat).isNone).map fun ea => ⟨.uninitModel, ea⟩

/-- The checks of steps 3 to 5, in order. -/
def stepChecks (s : State) (i : Instr) : List (Bool × Raise) :=
  [(needsDecoder i && !s.rdReady, ⟨.notInit, encode i⟩),
   (needsEncoder i && !s.reReady, ⟨.notInit, encode i⟩),
   (readsLcLp i && decide (8 < s.cfg.lc.toNat), ⟨.invalidOption, s.cfg.word⟩),
   (readsLcLp i && decide (4 < s.cfg.lp.toNat), ⟨.invalidOption, s.cfg.word⟩),
   (readsPb i && decide (4 < s.cfg.pb.toNat), ⟨.invalidOption, s.cfg.word⟩),
   (readsTableSize s i && decide (s.cfg.tableSize.toNat = 0 ∨ 272 < s.cfg.tableSize.toNat), ⟨.invalidOption, s.cfg.word⟩)]
  ++ operandChecks s i

/-- The fault of steps 3 to 6 of R285, if one raises: the first in order. -/
def firstFault (s : State) (i : Instr) : Option Raise :=
  match (stepChecks s i).find? Prod.fst with
  | some x => some x.2
  | none => footprintFault s i

/-! ## Which commands may write what -/

/-- The commands that write RES (R22). -/
def writesRes : Instr → Bool
  | .pmRd | .rdBit | .rdDirect _ | .rdTree _ | .rdRtree _ | .rdLen _ _ | .rdLit | .rdLitm | .idxLit | .idxPs
  | .prBit | .prTree _ | .prRtree _ | .prLit | .prLitm | .prLen _ _ => true
  | _ => false

/-- The commands that read cells or tables and write nothing but RES: PM_RD, the indexers and the price queries. -/
def readsOnly : Instr → Bool
  | .pmRd | .idxLit | .idxPs | .prBit | .prTree _ | .prRtree _ | .prLit | .prLitm | .prLen _ _ => true
  | _ => false

/-- The input bytes a command reads at most (R341). -/
def byteBudget : Instr → Nat
  | .rdInit => 5
  | .rdBit => 1
  | .rdDirect n | .rdTree n | .rdRtree n => n.toNat
  | .rdLen _ _ => 10
  | .rdLit | .rdLitm => 8
  | _ => 0

/-! ## Invariants -/

/-- PM is in canonical form, and every written cell exists and holds a value in [31, 2017] (R61, R116). -/
abbrev State.modelsInv (s : State) : Prop :=
  Memory.wf s.pm ∧ ∀ x ∈ s.pm, x.1 < s.params.pmSize ∧ 31 ≤ x.2.toNat ∧ x.2.toNat ≤ 2017

/-- CAUSE is 0 while ERR = 0 and one of the codes 1..9 while ERR = 1 (R24, R280). -/
abbrev State.statusInv (s : State) : Prop :=
  (s.err = false → s.cause = 0#8) ∧ (s.err = true → 1 ≤ s.cause.toNat ∧ s.cause.toNat ≤ 9)

/-- A started decoder of a running block has RD_RANGE in [2^24, 2^32) (R134). -/
abbrev State.decoderInv (s : State) : Prop := s.running → s.rdReady = true → s.decoderInterval

/-- A started encoder of a running block has RE_RANGE in [2^24, 2^32) and RE_LOW + RE_RANGE < 2^33 (R153). -/
abbrev State.encoderInv (s : State) : Prop := s.running → s.reReady = true → s.encoderInterval

/-- While PV[l] = 1, CFG is legal for prices, and every counter and table of a pos_state below 2^pb is filled: the
counter is in 1..tableSize and the table has tableSize entries (R206, R209). -/
def State.countersInv (s : State) : Prop :=
  ∀ l : BitVec 1, s.pv l = true →
    s.cfg.pb.toNat ≤ 4 ∧ 1 ≤ s.cfg.tableSize.toNat ∧ s.cfg.tableSize.toNat ≤ 272 ∧
    ∀ ps < 2 ^ s.cfg.pb.toNat,
      (∃ n, s.lenCnt.get? (lenIndex l ps) = some n ∧ 1 ≤ n.toNat ∧ n.toNat ≤ s.cfg.tableSize.toNat) ∧
      (∃ prices, s.lenPrice.get? (lenIndex l ps) = some prices ∧ prices.length = s.cfg.tableSize.toNat)

end Sys2Proof.Machine
end

