-- ==== Sys2Proof/Certificates/Slice0/Obligations.lean ====
section
/-!
DEFINITION. The statements for the provers, in the terms of Safety.lean. OBLIGATIONS.json gives each its rule.
-/

open Sys2Proof Sys2Proof.Machine

/-! ## The encoding (30_encoding) -/

/-- Every well-formed command, with every operand at every value the encoding admits, decodes from its own word. -/
def Obligations.EncodeThenDecode : Prop := ∀ i : Instr, i.wellFormed = true → decode (encode i) = .ok i

/-- A word that decodes is the one word of its command, and that command is well formed. -/
def Obligations.DecodeThenEncode : Prop :=
  ∀ (w : Word) (i : Instr), decode w = .ok i → encode i = w ∧ i.wellFormed = true

/-- The words that decode are exactly those a row of the opcode table allows: match, mask and the range of N. -/
def Obligations.LegalWordTable : Prop := ∀ w : Word, (∃ i, decode w = .ok i) ↔ legalWord w

/-- Words written out from R90, R93 and R97 decode to what they stand for, and R286's illegal word does not decode. -/
def Obligations.SampleWordsDecode : Prop :=
  decode 0x00000001#32 = .ok .reset ∧ decode 0x00000004#32 = .ok .pmWr ∧ decode 0x00002012#32 = .ok (.rdDirect 32#6) ∧
  decode 0x00000613#32 = .ok (.rdTree 6#6) ∧ decode 0x00048025#32 = .ok (.reLen 2#4 1#1) ∧
  decode 0x00000028#32 = .ok .reFlush ∧ decode 0x00000827#32 = .error .unusedBitSet ∧
  decode 0x00040038#32 = .ok (.lenPriceInit 1#1) ∧ decode 0x00000111#32 = .error .unusedBitSet ∧
  decode 0x00000913#32 = .error .countOutOfRange ∧ decode 0x00000005#32 = .error .unassignedOpcode

/-- A command line, a mnemonic of R93 and any of its fields in decimal, writes to CMD the mnemonic's word with each field at its
place, a field left out being 0; so a line whose N is then illegal assembles too, which is the model's choice (log 17). A line with
a field that its mnemonic does not use, at any place, is an assembly error. R97's three example lines give the words it
says. -/
def Obligations.LinesAssemble : Prop :=
  (∀ row ∈ plainLines ++ fieldLines, ∀ base : Nat,
    (∀ n ps l : Option Nat, (row.n = false → n = none) → (row.ps = false → ps = none) → (row.l = false → l = none) →
      n.getD 0 < 2 ^ 6 → ps.getD 0 < 2 ^ 4 → l.getD 0 < 2 →
      assembleLine base (row.name.toList ++ fieldText "n=" n ++ fieldText "ps=" ps ++ fieldText "l=" l) = .ok
        [.write base 4 (BitVec.ofNat 32
          (row.word.toNat + 2 ^ 8 * n.getD 0 + 2 ^ 14 * ps.getD 0 + 2 ^ 18 * l.getD 0))]) ∧
    (∀ (line v : Text) (before after : List Text) (field : Text),
      (row.n = false ∧ field = 'n' :: '=' :: v) ∨ (row.ps = false ∧ field = 'p' :: 's' :: '=' :: v) ∨
        (row.l = false ∧ field = 'l' :: '=' :: v) →
      wordsFrom [] line = row.name.toList :: (before ++ field :: after) → ∃ e, assembleLine base line = .error e)) ∧
  (∀ base, assembleLine base "RD_TREE n=6".toList = .ok [.write base 4 0x00000613#32]) ∧
  (∀ base, assembleLine base "RE_LEN ps=2 l=1".toList = .ok [.write base 4 0x00048025#32]) ∧
  (∀ base, assembleLine base "LEN_PRICE_INIT l=1".toList = .ok [.write base 4 0x00040038#32])

/-! ## The host and the step (10_state, 60_exceptions) -/

/-- A step whose host event is a write of a legal word to CMD is the decoded command run at the state with that event taken;
while ERR = 1 this holds of NOP and RESET (R23, R283, R285). -/
def Obligations.StepRunsDecodedCommand : Prop :=
  ∀ (s : State) (w : Word) (rest : List HostEvent) (i : Instr), s.hostWrites 0x00 w rest → decode w = .ok i →
    (s.err = false ∨ i = .nop ∨ i = .reset) → step s = exec i { s with host := rest }

/-- A word that is not legal raises ILLEGAL_CMD with itself in FAULTINFO and does nothing else; while ERR = 1 it is ignored
(R95, R283). -/
def Obligations.IllegalWordRaises : Prop :=
  ∀ (s : State) (w : Word) (rest : List HostEvent), s.hostWrites 0x00 w rest → ¬ legalWord w →
    (s.err = false → step s = .next (State.faulted { s with host := rest } ⟨.illegalCmd, w⟩)) ∧
    (s.err = true → step s = .next { s with host := rest })

/-- While ERR = 1 every word but NOP's and RESET's is ignored, those two run, and the host's register writes still take effect
with their side effects on PV0 and PV1 (R283). That a write of CFG or LENBASEl, which leaves the price tables it invalidates without
a defined value (R32), keeps their contents is the model's choice (log 6). -/
def Obligations.ErrIgnoresCommands : Prop :=
  ∀ (s : State) (w : Word) (rest : List HostEvent), s.err = true →
    (s.hostWrites 0x00 w rest → w ≠ 0x00000000#32 → w ≠ 0x00000001#32 → step s = .next { s with host := rest }) ∧
    (s.hostWrites 0x00 0x00000000#32 rest → step s = exec .nop { s with host := rest }) ∧
    (s.hostWrites 0x00 0x00000001#32 rest → step s = exec .reset { s with host := rest }) ∧
    (s.hostWrites 0x04 w rest → step s = .next { s with host := rest, a := w }) ∧
    (s.hostWrites 0x08 w rest → step s = .next { s with host := rest, b := w }) ∧
    (s.hostWrites 0x0C w rest → step s = .next { s with host := rest, c := w }) ∧
    (s.hostWrites 0x1C w rest → step s = .next
      { s with
        host := rest, pv0 := false, pv1 := false
        cfg := { lc := BitVec.ofNat 4 w.toNat, lp := BitVec.ofNat 3 (w.toNat / 2 ^ 4)
                 pb := BitVec.ofNat 3 (w.toNat / 2 ^ 8), tableSize := BitVec.ofNat 9 (w.toNat / 2 ^ 16) } }) ∧
    (s.hostWrites 0x20 w rest → step s = .next { s with host := rest, litBase := w }) ∧
    (s.hostWrites 0x24 w rest → step s = .next { s with host := rest, lenBase0 := w, pv0 := false }) ∧
    (s.hostWrites 0x28 w rest → step s = .next { s with host := rest, lenBase1 := w, pv1 := false })

/-- From ERR = 1 a step either keeps ERR, CAUSE and FAULTINFO, or is a reset that leaves nothing of the stream (R288). -/
def Obligations.OnlyResetLeavesErr : Prop :=
  ∀ s t : State, s.err = true → stepsTo s t →
    (t.err = true ∧ t.cause = s.cause ∧ t.faultInfo = s.faultInfo) ∨ (t.atReset ∧ sameSurroundings s t)

/-- A host write to each writable register stores the word, or CFG's fields of it, and clears the price valid bits the rules
name; nothing else changes (R21, R26, R27, R28). That the price tables whose valid bit is cleared, which then hold no defined value
(R32), keep their contents is the model's choice (log 6). -/
def Obligations.HostWritesStore : Prop :=
  ∀ (s : State) (w : Word) (rest : List HostEvent),
    (s.hostWrites 0x04 w rest → step s = .next { s with host := rest, a := w }) ∧
    (s.hostWrites 0x08 w rest → step s = .next { s with host := rest, b := w }) ∧
    (s.hostWrites 0x0C w rest → step s = .next { s with host := rest, c := w }) ∧
    (s.hostWrites 0x1C w rest → step s = .next
      { s with
        host := rest, pv0 := false, pv1 := false
        cfg := { lc := BitVec.ofNat 4 w.toNat, lp := BitVec.ofNat 3 (w.toNat / 2 ^ 4)
                 pb := BitVec.ofNat 3 (w.toNat / 2 ^ 8), tableSize := BitVec.ofNat 9 (w.toNat / 2 ^ 16) } }) ∧
    (s.hostWrites 0x20 w rest → step s = .next { s with host := rest, litBase := w }) ∧
    (s.hostWrites 0x24 w rest → step s = .next { s with host := rest, lenBase0 := w, pv0 := false }) ∧
    (s.hostWrites 0x28 w rest → step s = .next { s with host := rest, lenBase1 := w, pv1 := false })

/-- A host read returns the register's value, 0 at CMD and at an unassigned offset, and changes no state of the block. -/
def Obligations.HostReadsReturn : Prop :=
  ∀ (s : State) (rest : List HostEvent),
    (∀ x ∈ registerMap s, s.hostReadsAt x.1 rest →
      step s = .next { s with host := rest, hostReads := s.hostReads ++ [BitVec.ofNat 32 x.2] }) ∧
    (∀ off, unassignedOffset off → s.hostReadsAt off rest →
      step s = .next { s with host := rest, hostReads := s.hostReads ++ [0#32] })

/-- A host write to a read-only register or to an unassigned offset changes no state of the block (R35). -/
def Obligations.ReadOnlyWritesIgnored : Prop :=
  ∀ (s : State) (w : Word) (rest : List HostEvent) (off : Nat), off ∈ readOnlyOffsets ∨ unassignedOffset off →
    s.hostWrites off w rest → step s = .next { s with host := rest }

/-- ID reads as "LZRC", REVISION as 1, in every state, and a write to either is ignored (R33). -/
def Obligations.IdentityIsReadOnly : Prop :=
  ∀ (s : State) (w : Word) (rest : List HostEvent),
    (s.hostReadsAt 0x54 rest → step s = .next { s with host := rest, hostReads := s.hostReads ++ [0x4C5A5243#32] }) ∧
    (s.hostReadsAt 0x58 rest → step s = .next { s with host := rest, hostReads := s.hostReads ++ [0x00000001#32] }) ∧
    (s.hostWrites 0x54 w rest → step s = .next { s with host := rest }) ∧
    (s.hostWrites 0x58 w rest → step s = .next { s with host := rest })

/-- A host access in the window of another width than a word, or at an offset that is no multiple of 4, is refused (R35, R65). -/
def Obligations.OtherShapedAccessRefused : Prop :=
  ∀ (s : State) (off bytes : Nat) (w : Word) (rest : List HostEvent), s.request = none → off < 0x100 →
    bytes ≠ 4 ∨ off % 4 ≠ 0 →
    (s.host = .write (s.params.regBase + off) bytes w :: rest → step s = .refused .accessNotAWord) ∧
    (s.host = .read (s.params.regBase + off) bytes :: rest → step s = .refused .accessNotAWord)

/-- While a command waits on a port that never answers, every host access waits and the step changes nothing; only the
hardware reset acts (R35, R320, R331). That it acts then, if it is the host's next event, is log 13's reading; that one behind a
waiting access does not act, so that the step changes nothing then too, is log 13's choice, since R35 and R320 are silent. -/
def Obligations.WaitingBlocksHost : Prop :=
  ∀ (s : State) (q : PortRequest), s.request = some q →
    ((∀ rest, s.host ≠ .hardReset :: rest) → step s = .next s) ∧
    (∀ rest, s.host = .hardReset :: rest → ∃ t, step s = .next t ∧ t.atReset ∧ t.host = rest ∧ sameSurroundings s t)

/-! ## Reset and NOP (40, 70) -/

/-- The state after reset has every register at the value of R36. -/
def Obligations.ResetState : Prop := State.reset.atReset

/-- RESET completes in every state, ERR = 1 included, and leaves the state of R36; the ports and what they did stay; the
hardware reset does the same (R111, R320); that it acts also while a command waits on a port is log 13's reading. -/
def Obligations.ResetCommand : Prop :=
  ∀ s : State,
    (∃ t, exec .reset s = .next t ∧ t.atReset ∧ sameSurroundings s t ∧ t.host = s.host) ∧
    (∀ rest, s.host = .hardReset :: rest → ∃ t, step s = .next t ∧ t.atReset ∧ sameSurroundings s t ∧ t.host = rest)

/-- NOP leaves every state unchanged, ERR = 1 included; any other word with OP = 0 is illegal (R110). -/
def Obligations.NopDoesNothing : Prop :=
  (∀ s : State, exec .nop s = .next s) ∧ decode 0x00000000#32 = .ok .nop ∧
  (∀ (s : State) (rest : List HostEvent), s.hostWrites 0x00 0x00000000#32 rest → step s = .next { s with host := rest }) ∧
  (∀ w : Word, w.toNat % 2 ^ 8 = 0 → w ≠ 0#32 → ∃ e, decode w = .error e)

/-! ## Faults (60_exceptions) -/

/-- Steps 3 to 6 of R285: the first check that fails decides the fault, which writes ERR, CAUSE and FAULTINFO and nothing
else; where none fails, the command runs, and a fault after that is a port's. -/
def Obligations.FirstFaultDecides : Prop :=
  ∀ (i : Instr) (s : State),
    (∀ r, firstFault s i = some r → exec i s = .next (s.faulted r)) ∧
    (firstFault s i = none → ∃ t, exec i s = .next t ∧
      (t.err = true → s.err = true ∨ ((t.cause = 8#8 ∨ t.cause = 9#8) ∧ t.faultInfo = 0#32)))

/-- A fault of step 7 is UNEXPECTED_EOF or IO_ERROR with FAULTINFO 0; RES, the operands A, B and C, the ready bits and the price tables
are as before; after RD_INIT so are the decoder's registers; only a decoder's command raises UNEXPECTED_EOF (R130, R284).
When each command raises which of the two is said by RdInitStarts to RdLiteralDecodes and ReBitEncodes to ReFlushEmits. -/
def Obligations.PortFaultLeaves : Prop :=
  ∀ (i : Instr) (s t : State), s.err = false → firstFault s i = none → runsTo i s t → t.err = true →
    (t.cause = 8#8 ∨ t.cause = 9#8) ∧ t.faultInfo = 0#32 ∧ t.res = s.res ∧ t.a = s.a ∧ t.b = s.b ∧ t.c = s.c ∧ t.rdReady = s.rdReady ∧ t.reReady = s.reReady ∧
    t.pv0 = s.pv0 ∧ t.pv1 = s.pv1 ∧ t.lenPrice = s.lenPrice ∧ t.lenCnt = s.lenCnt ∧
    (i = .rdInit → t.rdRange = s.rdRange ∧ t.rdCode = s.rdCode ∧ t.pm = s.pm) ∧
    (t.cause = 8#8 → i = .rdInit ∨ needsDecoder i = true)

/-! ## Which command writes what -/

/-- Only the commands of R22's list write RES, RESET apart (R36); one that faults or waits leaves it. -/
def Obligations.ResWriters : Prop :=
  ∀ (i : Instr) (s t : State), i ≠ .reset → runsTo i s t →
    (writesRes i = false ∨ (s.err = false ∧ t.err = true) ∨ (s.request = none ∧ t.request ≠ none)) → t.res = s.res

/-- No command but RESET writes the operand registers, CFG, the model bases, the host's side or the parameters
(R21, R26, R27, R28). -/
def Obligations.HostOnlyRegisters : Prop :=
  ∀ (i : Instr) (s t : State), i ≠ .reset → runsTo i s t →
    t.a = s.a ∧ t.b = s.b ∧ t.c = s.c ∧ t.cfg = s.cfg ∧ t.litBase = s.litBase ∧ t.lenBase0 = s.lenBase0 ∧
    t.lenBase1 = s.lenBase1 ∧ t.params = s.params ∧ t.host = s.host ∧ t.hostReads = s.hostReads

/-- Only the RD_ commands write the decoder's registers or take input, RESET apart (R29, R138). -/
def Obligations.DecoderWriters : Prop :=
  ∀ (i : Instr) (s t : State), i ≠ .reset → i ≠ .rdInit → needsDecoder i = false → runsTo i s t →
    t.rdRange = s.rdRange ∧ t.rdCode = s.rdCode ∧ t.input = s.input

/-- Only the RE_ commands write the encoder's registers or reach the sink, RESET apart; RE_INIT emits nothing (R30, R150). -/
def Obligations.EncoderWriters : Prop :=
  ∀ (i : Instr) (s t : State), i ≠ .reset → needsEncoder i = false → runsTo i s t →
    t.sink = s.sink ∧ t.output = s.output ∧
    (i ≠ .reInit → t.reRange = s.reRange ∧ t.reLow = s.reLow ∧ t.reCache = s.reCache ∧ t.reCacheSize = s.reCacheSize ∧
      t.rePos = s.rePos)

/-- No command but RESET writes STATUS except to set ERR and CAUSE on a fault, RD_READY (RD_INIT), RE_READY (RE_INIT) or PVl
(LEN_PRICE_INIT); FAULTINFO changes only with a fault (R38). -/
def Obligations.StatusWriters : Prop :=
  ∀ (i : Instr) (s t : State), i ≠ .reset → runsTo i s t →
    (t.rdReady = s.rdReady ∨ (i = .rdInit ∧ t.rdReady = true)) ∧
    (t.reReady = s.reReady ∨ (i = .reInit ∧ t.reReady = true)) ∧
    (t.pv0 = s.pv0 ∨ (i = .lenPriceInit 0#1 ∧ t.pv0 = true)) ∧
    (t.pv1 = s.pv1 ∨ (i = .lenPriceInit 1#1 ∧ t.pv1 = true)) ∧
    ((t.err = s.err ∧ t.cause = s.cause ∧ t.faultInfo = s.faultInfo) ∨ t.err = true)

/-- No command but RESET changes a cell outside its footprint, in value or written bit; the commands that only read change no
cell at all (R64, R115). -/
def Obligations.ModelFrame : Prop :=
  ∀ (i : Instr) (s t : State), i ≠ .reset → i.wellFormed = true → runsTo i s t →
    agreeOutside (spanCells (footprint s i)) s.pm t.pm ∧
    (readsOnly i = true ∨ i = .nop ∨ i = .rdInit ∨ i = .reInit ∨ i = .reFlush ∨ (∃ n, i = .rdDirect n) ∨ (∃ n, i = .reDirect n) ∨
      (∃ l, i = .lenPriceInit l) → t.pm = s.pm)

/-- Only LEN_PRICE_INIT and RE_LEN write the length price tables and counters, RESET apart, and only those of their L; RE_LEN
only those of its PS, and only while PV[L] = 1 (R32, R79, R205, R206). -/
def Obligations.PriceTableWriters : Prop :=
  ∀ (i : Instr) (s t : State), i ≠ .reset → runsTo i s t → ∀ (l : BitVec 1) (ps : BitVec 4),
    i ≠ .lenPriceInit l → (s.pv l = true → i ≠ .reLen ps l) →
    t.lenPrice.get? (16 * l.toNat + ps.toNat) = s.lenPrice.get? (16 * l.toNat + ps.toNat) ∧
    t.lenCnt.get? (16 * l.toNat + ps.toNat) = s.lenCnt.get? (16 * l.toNat + ps.toNat)

/-- PM_RD, the indexers and the price queries change RES only, or raise a fault that changes no more than R282 says
(R113, R188, R200, R210, R231, R262). -/
def Obligations.ReadersChangeRes : Prop :=
  ∀ (i : Instr) (s t : State), readsOnly i = true → runsTo i s t →
    t = { s with res := t.res } ∨ ∃ r, firstFault s i = some r ∧ t = s.faulted r

/-! ## Invariants -/

/-- The state after reset satisfies the invariants. -/
def Obligations.ResetInvariants : Prop :=
  State.reset.modelsInv ∧ State.reset.statusInv ∧ State.reset.decoderInv ∧ State.reset.encoderInv ∧ State.reset.countersInv

/-- Every step keeps PM in canonical form and every written cell in [31, 2017] and below PM_SIZE (R61, R116). -/
def Obligations.StepKeepsModels : Prop := ∀ s t : State, s.modelsInv → stepsTo s t → t.modelsInv

/-- Every step keeps CAUSE 0 while ERR = 0 and in 1..9 while ERR = 1 (R24, R280). -/
def Obligations.StepKeepsStatus : Prop := ∀ s t : State, s.statusInv → stepsTo s t → t.statusInv

/-- Every step keeps RD_RANGE of a started decoder in [2^24, 2^32) while the block runs (R134). -/
def Obligations.StepKeepsDecoder : Prop := ∀ s t : State, s.decoderInv → stepsTo s t → t.decoderInv

/-- Every step keeps RE_RANGE of a started encoder in [2^24, 2^32) and RE_LOW + RE_RANGE below 2^33 while the block runs
(R153). -/
def Obligations.StepKeepsEncoder : Prop :=
  ∀ s t : State, s.modelsInv → s.encoderInv → stepsTo s t → t.encoderInv

/-- Every step keeps, while PVl = 1, the counters in 1..tableSize and the tables filled (R206, R209). -/
def Obligations.StepKeepsCounters : Prop := ∀ s t : State, s.countersInv → stepsTo s t → t.countersInv

/-! ## Model memory (40) -/

/-- PM_INIT sets exactly the cells of its run to 1024, modulo 2^32 and B = 0 included, and changes nothing else; if some cell of
the run does not exist, it raises PM_RANGE with the first such one and writes no cell (R112). -/
def Obligations.PmInitFills : Prop :=
  decode 0x00000002#32 = .ok .pmInit ∧
  ∀ s : State,
    ((∀ k < s.b.toNat, (s.a.toNat + k) % 2 ^ 32 < s.params.pmSize) →
      ∃ t, exec .pmInit s = .next t ∧ t = { s with pm := t.pm } ∧
        ∀ k, t.pm.get? k = if ∃ i < s.b.toNat, (s.a.toNat + i) % 2 ^ 32 = k then some 1024#16 else s.pm.get? k) ∧
    (∀ k < s.b.toNat, s.params.pmSize ≤ (s.a.toNat + k) % 2 ^ 32 →
      (∀ i < k, (s.a.toNat + i) % 2 ^ 32 < s.params.pmSize) →
      exec .pmInit s = .next (s.faulted ⟨.pmRange, BitVec.ofNat 32 (s.a.toNat + k)⟩))

/-- PM_RD puts the cell A + B, modulo 2^32, into RES and changes nothing else; a cell that does not exist raises PM_RANGE, one
that is unwritten UNINIT_MODEL, with its index (R113). -/
def Obligations.PmRdReads : Prop :=
  decode 0x00000003#32 = .ok .pmRd ∧ ∀ (s : State) (cell : Nat), cell = (s.a.toNat + s.b.toNat) % 2 ^ 32 →
    (∀ v, cell < s.params.pmSize → s.pm.get? cell = some v →
      exec .pmRd s = .next { s with res := BitVec.ofNat 32 v.toNat }) ∧
    (s.params.pmSize ≤ cell → exec .pmRd s = .next (s.faulted ⟨.pmRange, BitVec.ofNat 32 cell⟩)) ∧
    (cell < s.params.pmSize → s.pm.get? cell = none →
      exec .pmRd s = .next (s.faulted ⟨.uninitModel, BitVec.ofNat 32 cell⟩))

/-- PM_WR writes C into the cell A + B, modulo 2^32, and changes nothing else; a C outside [31, 2017] raises BAD_OPERAND before
a cell that does not exist raises PM_RANGE (R114). -/
def Obligations.PmWrWrites : Prop :=
  ∀ (s : State) (cell : Nat), cell = (s.a.toNat + s.b.toNat) % 2 ^ 32 →
    (31 ≤ s.c.toNat → s.c.toNat ≤ 2017 → cell < s.params.pmSize →
      ∃ t, exec .pmWr s = .next t ∧ t = { s with pm := t.pm } ∧
        ∀ k, t.pm.get? k = if k = cell then some (BitVec.ofNat 16 s.c.toNat) else s.pm.get? k) ∧
    (s.c.toNat < 31 ∨ 2017 < s.c.toNat → exec .pmWr s = .next (s.faulted ⟨.badOperand, s.c⟩)) ∧
    (31 ≤ s.c.toNat → s.c.toNat ≤ 2017 → s.params.pmSize ≤ cell →
      exec .pmWr s = .next (s.faulted ⟨.pmRange, BitVec.ofNat 32 cell⟩))

/-! ## The range decoder (41, 43, 44, 45) -/

/-- RD_INIT takes 5 bytes; RD_CODE is the last 4 of them, the first having no effect; nothing else changes but RD_RANGE and
RD_READY. With fewer than 5 bytes to come it takes them and ends as the missing byte says, in UNEXPECTED_EOF, in IO_ERROR or
waiting, with its registers as before (R66, R130, R284, R331; waiting: log 4). -/
def Obligations.RdInitStarts : Prop :=
  (∀ (s : State) (b0 b1 b2 b3 b4 : Byte) (rest : List InAnswer),
    s.input.answers = .byte b0 :: .byte b1 :: .byte b2 :: .byte b3 :: .byte b4 :: rest →
    exec .rdInit s = .next
      { s with
        input := { s.input with answers := rest }, rdRange := 0xFFFFFFFF#32, rdReady := true
        rdCode := BitVec.ofNat 32 (2 ^ 24 * b1.toNat + 2 ^ 16 * b2.toNat + 2 ^ 8 * b3.toNat + b4.toNat) }) ∧
  (∀ (s t : State) (bs : List Byte) (rest : List InAnswer), bs.length < 5 → s.input.answers = bs.map .byte ++ rest →
    noByte { s with input := { s.input with answers := rest } } t → exec .rdInit s = .next t)

/-- RD_BIT decodes one bit with the cell A + B into RES: the interval splits at (RD_RANGE >> 11) * p and the cell adapts; no other
cell and no other register changes. It takes no byte where RD_RANGE stays at 2^24 or more, and one byte else; where that byte
does not come it ends as the missing byte says (R66, R115, R131, R132, R284, R331; waiting: log 4). -/
def Obligations.RdBitDecodes : Prop :=
  ∀ s : State, s.rdReady = true → s.decoderInterval → s.readable [s.a + s.b] →
    ∃ (bit : Bool) (v : State), bitFound (s.a + s.b, bit) s ∧ v = bitTaken (s.a + s.b, bit) s ∧
      (2 ^ 24 ≤ v.rdRange.toNat → exec .rdBit s = .next { v with res := BitVec.ofNat 32 bit.toNat }) ∧
      (2 ^ 24 ≤ v.rdRange.toNat ∨ s.hasBytes 1 → ∃ u, decodesBit (s.a + s.b, bit) s u ∧ decoderOnly s u ∧
        agreeOutside [s.a + s.b] s.pm u.pm ∧ exec .rdBit s = .next { u with res := BitVec.ofNat 32 bit.toNat }) ∧
      (∀ t, v.rdRange.toNat < 2 ^ 24 → noByte v t → exec .rdBit s = .next t)

/-- RD_DIRECT decodes N direct bits, the most significant first, into RES, which is below 2^N; PM is unchanged. N bytes to come are
always enough; whatever is to come, it completes, or ends at the first byte that it asks for and does not get
(R66, R131, R133, R284, R331; waiting: log 4). -/
def Obligations.RdDirectDecodes : Prop :=
  ∀ (s : State) (n : BitVec 6), legalCount n → s.rdReady = true → s.decoderInterval →
    (s.hasBytes n.toNat →
      ∃ bits u, bits.length = n.toNat ∧ bitsValue bits < 2 ^ n.toNat ∧ decodesHalves bits s u ∧ decoderOnly s u ∧
        u.pm = s.pm ∧ exec (.rdDirect n) s = .next { u with res := BitVec.ofNat 32 (bitsValue bits) }) ∧
    (∃ bits t, bits.length = n.toNat ∧ exec (.rdDirect n) s = .next t ∧
      ((∃ u, decodesHalves bits s u ∧ t = { u with res := BitVec.ofNat 32 (bitsValue bits) }) ∨
        decodeStarves halfFound halfTaken bits s t))

/-- RD_TREE and RD_RTREE decode a depth-N symbol below 2^N into RES, with one DecodeBit at each node of its path, MSB first
and LSB first; cells off the path and other registers are unchanged. N bytes to come are always enough; whatever is to come, they
complete, or end at the first byte that they ask for and do not get (R66, R131, R182, R183, R284, R331; waiting: log 4). -/
def Obligations.RdTreeDecodes : Prop :=
  ∀ (s : State) (n : BitVec 6), legalDepth n → s.rdReady = true → s.decoderInterval →
    s.readable (spanCells (treeSpan s.a n.toNat)) →
    (s.hasBytes n.toNat →
      (∃ sym < 2 ^ n.toNat, ∃ u, decodesAs (treeCode s.a n.toNat sym) s u ∧ decoderOnly s u ∧
        agreeOutside (codeCells (treeCode s.a n.toNat sym)) s.pm u.pm ∧
        exec (.rdTree n) s = .next { u with res := BitVec.ofNat 32 sym }) ∧
      (∃ sym < 2 ^ n.toNat, ∃ u, decodesAs (treeCodeRev s.a n.toNat sym) s u ∧ decoderOnly s u ∧
        agreeOutside (codeCells (treeCodeRev s.a n.toNat sym)) s.pm u.pm ∧
        exec (.rdRtree n) s = .next { u with res := BitVec.ofNat 32 sym })) ∧
    (∃ sym < 2 ^ n.toNat, ∃ t, exec (.rdTree n) s = .next t ∧ decodeEnds (treeCode s.a n.toNat sym) sym s t) ∧
    (∃ sym < 2 ^ n.toNat, ∃ t, exec (.rdRtree n) s = .next t ∧ decodeEnds (treeCodeRev s.a n.toNat sym) sym s t)

/-- RD_LEN decodes a length symbol in 0..271 into RES by the three tiers of R202, under pos_state PS with length coder L; other
cells, other registers and the price tables are unchanged. 10 bytes to come are always enough; whatever is to come, it completes,
or ends at the first byte that it asks for and does not get (R66, R131, R204, R284, R331; waiting: log 4). -/
def Obligations.RdLenDecodes : Prop :=
  ∀ (s : State) (ps : BitVec 4) (l : BitVec 1), s.rdReady = true → s.legalPs ps → s.decoderInterval →
    s.readable (spanCells (lenSpan (s.lenBase l) ps.toNat)) →
    (s.hasBytes 10 →
      ∃ sym ≤ 271, ∃ u, decodesAs (lenCode (s.lenBase l) ps.toNat sym) s u ∧ decoderOnly s u ∧
        agreeOutside (codeCells (lenCode (s.lenBase l) ps.toNat sym)) s.pm u.pm ∧
        exec (.rdLen ps l) s = .next { u with res := BitVec.ofNat 32 sym }) ∧
    (∃ sym ≤ 271, ∃ t, exec (.rdLen ps l) s = .next t ∧ decodeEnds (lenCode (s.lenBase l) ps.toNat sym) sym s t)

/-- RD_LIT and RD_LITM decode a byte into RES, in the sub-coder of LitBase, plain or against the match byte C[15:8]; other
cells and other registers are unchanged. 8 bytes to come are always enough; whatever is to come, they complete, or end at the
first byte that they ask for and do not get (R66, R131, R232, R234, R284, R331; waiting: log 4). -/
def Obligations.RdLiteralDecodes : Prop :=
  ∀ s : State, s.rdReady = true → s.legalLcLp → s.decoderInterval →
    (s.readable (spanCells (plainSpan s.litCell)) →
      (s.hasBytes 8 → ∃ byte < 256, ∃ u, decodesAs (litCode s.litCell byte) s u ∧ decoderOnly s u ∧
        agreeOutside (codeCells (litCode s.litCell byte)) s.pm u.pm ∧
        exec .rdLit s = .next { u with res := BitVec.ofNat 32 byte }) ∧
      (∃ byte < 256, ∃ t, exec .rdLit s = .next t ∧ decodeEnds (litCode s.litCell byte) byte s t)) ∧
    (s.readable (spanCells (matchedSpan s.litCell)) →
      (s.hasBytes 8 → ∃ byte < 256, ∃ u, decodesAs (matchedCode s.litCell (s.c.toNat / 2 ^ 8 % 2 ^ 8) byte) s u ∧
        decoderOnly s u ∧ agreeOutside (codeCells (matchedCode s.litCell (s.c.toNat / 2 ^ 8 % 2 ^ 8) byte)) s.pm u.pm ∧
        exec .rdLitm s = .next { u with res := BitVec.ofNat 32 byte }) ∧
      (∃ byte < 256, ∃ t, exec .rdLitm s = .next t ∧
        decodeEnds (matchedCode s.litCell (s.c.toNat / 2 ^ 8 % 2 ^ 8) byte) byte s t))

/-- A bit decoded with a cell in [31, 2017] leaves RD_RANGE at least 2^13 * 31 and a direct bit at least 2^23, so the
renormalisation loop runs at most once after either (R135); and a command reads no more input answers than R341 bounds, one a
decoded bit and 5 for RD_INIT, however it ends. -/
def Obligations.ByteBudget : Prop :=
  (∀ (s : State) (ea : Word), s.decoderInterval → s.modelCell ea →
    2 ^ 13 * 31 ≤ (decodeSplit ea s).2.rdRange.toNat ∧
    decNormalize (decodeSplit ea s).2 = decNormalizeOnce (decodeSplit ea s).2) ∧
  (∀ s : State, s.decoderInterval →
    2 ^ 23 ≤ (directSplit s).2.rdRange.toNat ∧ decNormalize (directSplit s).2 = decNormalizeOnce (directSplit s).2) ∧
  (∀ (i : Instr) (s t : State), i.wellFormed = true → i ≠ .reset → s.modelsInv → (s.rdReady = true → s.decoderInterval) →
    runsTo i s t →
    ∃ k ≤ byteBudget i, t.input = { s.input with answers := s.input.answers.drop k })

/-! ## The range encoder (42, 43, 44, 45) -/

/-- RE_INIT gives the five encoder registers their start values and sets RE_READY, from every state; nothing is emitted and
nothing else changes; every other word of its opcode is illegal (R150). -/
def Obligations.ReInitStarts : Prop :=
  decode 0x00000020#32 = .ok .reInit ∧
  (∀ w : Word, w.toNat % 2 ^ 8 = 0x20 → w ≠ 0x00000020#32 → ∃ e, decode w = .error e) ∧
  ∀ s : State, exec .reInit s = .next
    { s with
      reRange := 0xFFFFFFFF#32, reLow := 0#33, reCache := 0#8, reCacheSize := 1#64, rePos := 0#64, reReady := true }

/-- RE_BIT encodes C[0] with the cell A + B: the interval splits at (RE_RANGE >> 11) * p, the cell adapts, at most one ShiftLow
runs; no other cell and no other register changes. It completes where the sink accepts what that ShiftLow emits, and on any sink
where none runs; else it ends as the sink's answer says (R67, R115, R151, R152, R154, R284, R331; waiting: log 4). -/
def Obligations.ReBitEncodes : Prop :=
  ∀ s : State, s.reReady = true → s.readable [s.a + s.b] →
    (codingAccepted bitCoded [(s.a + s.b, s.c.toNat.testBit 0)] s →
      ∃ t, exec .reBit s = .next t ∧ t = s.encodedBit (s.a + s.b, s.c.toNat.testBit 0) ∧ encoderOnly s t ∧
        agreeOutside [s.a + s.b] s.pm t.pm) ∧
    (∀ t, codingStops bitCoded [(s.a + s.b, s.c.toNat.testBit 0)] s t → exec .reBit s = .next t)

/-- RE_DIRECT encodes the N low bits of B, bit N - 1 first, at one half each; PM and the other registers are unchanged. It completes
where the sink accepts every byte emitted, and else ends as the sink's answer says (R67, R151, R152, R155, R284, R331; waiting: log 4). -/
def Obligations.ReDirectEncodes : Prop :=
  ∀ (s : State) (n : BitVec 6) (bits : List Bool), legalCount n → s.reReady = true →
    bits = (List.range n.toNat).map (fun i => s.b.toNat.testBit (n.toNat - 1 - i)) →
    (codingAccepted halfCoded bits s →
      ∃ t, exec (.reDirect n) s = .next t ∧ encoderOnly s t ∧ t.pm = s.pm ∧ t = bits.foldl State.encodedHalf s) ∧
    (∀ t, codingStops halfCoded bits s t → exec (.reDirect n) s = .next t)

/-- RE_TREE and RE_RTREE encode the N low bits of B with one EncodeBit at each node of the symbol's path, MSB first and LSB
first; cells off the path and other registers are unchanged. They complete where the sink accepts every byte emitted, and else end
as the sink's answer says (R67, R151, R152, R184, R185, R284, R331; waiting: log 4). -/
def Obligations.ReTreeEncodes : Prop :=
  ∀ (s : State) (n : BitVec 6), legalDepth n → s.reReady = true → s.readable (spanCells (treeSpan s.a n.toNat)) →
    (codingAccepted bitCoded (treeCode s.a n.toNat s.b.toNat) s →
      ∃ t, exec (.reTree n) s = .next t ∧ t = s.encodedAs (treeCode s.a n.toNat s.b.toNat) ∧ encoderOnly s t ∧
        agreeOutside (codeCells (treeCode s.a n.toNat s.b.toNat)) s.pm t.pm) ∧
    (∀ t, codingStops bitCoded (treeCode s.a n.toNat s.b.toNat) s t → exec (.reTree n) s = .next t) ∧
    (codingAccepted bitCoded (treeCodeRev s.a n.toNat s.b.toNat) s →
      ∃ t, exec (.reRtree n) s = .next t ∧ t = s.encodedAs (treeCodeRev s.a n.toNat s.b.toNat) ∧ encoderOnly s t ∧
        agreeOutside (codeCells (treeCodeRev s.a n.toNat s.b.toNat)) s.pm t.pm) ∧
    (∀ t, codingStops bitCoded (treeCodeRev s.a n.toNat s.b.toNat) s t → exec (.reRtree n) s = .next t)

/-- RE_LEN encodes length symbol B by the three tiers of R202. Where the sink accepts every byte emitted: while PV[L] = 0 it touches
no counter; while PV[L] = 1 it counts LENCNT[L][PS] down and, at 0, refills the prices of that pos_state from the cells as they
then are. Else it ends as the sink's answer says, the counter not updated (R67, R151, R152, R205, R206, R284, R331; waiting: log 4). -/
def Obligations.ReLenEncodes : Prop :=
  ∀ (s : State) (ps : BitVec 4) (l : BitVec 1), s.reReady = true → s.legalPs ps → s.b.toNat ≤ 271 →
    (s.pv l = true → s.legalTableSize) → s.readable (spanCells (lenSpan (s.lenBase l) ps.toNat)) →
    (codingAccepted bitCoded (lenCode (s.lenBase l) ps.toNat s.b.toNat) s →
      ∃ u, u = s.encodedAs (lenCode (s.lenBase l) ps.toNat s.b.toNat) ∧ encoderOnly s u ∧
        agreeOutside (codeCells (lenCode (s.lenBase l) ps.toNat s.b.toNat)) s.pm u.pm ∧
        (s.pv l = false → exec (.reLen ps l) s = .next u) ∧
        (∀ n : BitVec 9, s.pv l = true → s.lenCnt.get? (16 * l.toNat + ps.toNat) = some n →
          (2 ≤ n.toNat → exec (.reLen ps l) s = .next
            { u with lenCnt := s.lenCnt.set (16 * l.toNat + ps.toNat) (BitVec.ofNat 9 (n.toNat - 1)) }) ∧
          (n.toNat = 1 → exec (.reLen ps l) s = .next
            { u with
              lenCnt := s.lenCnt.set (16 * l.toNat + ps.toNat) s.cfg.tableSize
              lenPrice := s.lenPrice.set (16 * l.toNat + ps.toNat)
                (lenPrices u (s.lenBase l) ps.toNat s.cfg.tableSize.toNat) }))) ∧
    (∀ t, codingStops bitCoded (lenCode (s.lenBase l) ps.toNat s.b.toNat) s t → exec (.reLen ps l) s = .next t)

/-- RE_LIT and RE_LITM encode the byte C[23:16] in the sub-coder of LitBase, plain or against the match byte C[15:8]; other
cells and other registers are unchanged. They complete where the sink accepts every byte emitted, and else end as the sink's
answer says (R67, R151, R152, R233, R235, R284, R331; waiting: log 4). -/
def Obligations.ReLiteralEncodes : Prop :=
  ∀ (s : State) (plain matched : List Decision), s.reReady = true → s.legalLcLp →
    plain = litCode s.litCell (s.c.toNat / 2 ^ 16 % 2 ^ 8) →
    matched = matchedCode s.litCell (s.c.toNat / 2 ^ 8 % 2 ^ 8) (s.c.toNat / 2 ^ 16 % 2 ^ 8) →
    (s.readable (spanCells (plainSpan s.litCell)) →
      (codingAccepted bitCoded plain s → ∃ t, exec .reLit s = .next t ∧ t = s.encodedAs plain ∧ encoderOnly s t ∧
        agreeOutside (codeCells plain) s.pm t.pm) ∧
      (∀ t, codingStops bitCoded plain s t → exec .reLit s = .next t)) ∧
    (s.readable (spanCells (matchedSpan s.litCell)) →
      (codingAccepted bitCoded matched s → ∃ t, exec .reLitm s = .next t ∧ t = s.encodedAs matched ∧ encoderOnly s t ∧
        agreeOutside (codeCells matched) s.pm t.pm) ∧
      (∀ t, codingStops bitCoded matched s t → exec .reLitm s = .next t))

/-- RE_FLUSH runs ShiftLow five times and then flushes the sink: RE_LOW ends 0 and RE_CACHESIZE 1; PM and the registers outside
the encoder are unchanged. Where the sink refuses a byte or never answers it, it ends at that ShiftLow; where it refuses the flush
or never answers it, all five are done (R67, R152, R156, R284, R331; waiting: log 4). -/
def Obligations.ReFlushEmits : Prop :=
  ∀ s : State, s.reReady = true →
    (shiftsAccepted 5 s → ∃ u, u = s.shifted.shifted.shifted.shifted.shifted ∧
      (u.sink.answerAt 0 = some .ok → ∃ t, exec .reFlush s = .next t ∧
        t = { u with sink := { u.sink with answers := u.sink.answers.drop 1 }, output := u.output ++ [.flush] } ∧
        t.reLow = 0#33 ∧ t.reCacheSize = 1#64 ∧ encoderOnly s t ∧ t.pm = s.pm) ∧
      (u.sink.answerAt 0 = some .err → exec .reFlush s = .next
        (State.faulted { u with sink := { u.sink with answers := u.sink.answers.drop 1 } } ⟨.ioError, 0#32⟩)) ∧
      (u.sink.answerAt 0 = none → exec .reFlush s = .next { u with request := some .outFlush })) ∧
    (∀ t, shiftsStop 5 s t → exec .reFlush s = .next t)

/-- Round trip: RE_INIT, any legal sequence of the RE_ commands that code, RE_FLUSH; then, on a block whose cells start the same,
with the same CFG and bases, and whose input is the bytes emitted, RD_INIT and the matching decode commands. Each decode command
returns the value that was coded; after each one the cells equal the encoder's and RD_CODE is below RD_RANGE, as it is after
RD_INIT; every emitted byte is consumed, and RE_POS counts them (R137, R159; the number of commands is kept below 2^32, so that
the 64-bit count of pending bytes cannot wrap). -/
def Obligations.RoundTrip : Prop :=
  ∀ (ops : List Coded) (s d : State), ops.length < 2 ^ 32 → s.running → d.running → s.sinkAccepts →
    (∀ op ∈ ops, op.legal s) → d.params = s.params → d.pm = s.pm → d.cfg = s.cfg → d.litBase = s.litBase →
    d.lenBase0 = s.lenBase0 → d.lenBase1 = s.lenBase1 →
    ∃ (bytes : List Byte) (e : State),
      e = afterCommand .reFlush (ops.foldl Coded.encode (afterCommand .reInit s)) ∧ e.running ∧
      e.output = s.output ++ bytes.map .byte ++ [.flush] ∧ e.rePos = BitVec.ofNat 64 bytes.length ∧
      ∀ rest, d.input.answers = bytes.map .byte ++ rest →
        ∃ d0 ts, d0 = afterCommand .rdInit d ∧ ts = streamStates Coded.decode ops d0 ∧
          ts.map (·.res) = (ops.map fun op => BitVec.ofNat 32 op.value) ∧
          ts.map (·.pm) = (streamStates Coded.encode ops (afterCommand .reInit s)).map (·.pm) ∧
          (∀ t ∈ d0 :: ts, t.running ∧ t.rdCode.toNat < t.rdRange.toNat) ∧
          (ts.getLast?.getD d0).input.answers = rest

/-! ## Indexers and prices (43, 44, 45, 46) -/

/-- IDX_PS puts B modulo 2^pb into RES, whatever the ready bits, and changes nothing else; it is below 2^pb,
so below 16, and the same for the low 32 bits of a longer position; PB > 4 raises
INVALID_OPTION with CFG (R200). -/
def Obligations.IdxPsIndexes : Prop :=
  decode 0x00000031#32 = .ok .idxPs ∧
  ∀ s : State,
    (s.cfg.pb.toNat ≤ 4 → exec .idxPs s = .next { s with res := BitVec.ofNat 32 (s.b.toNat % 2 ^ s.cfg.pb.toNat) } ∧
      s.b.toNat % 2 ^ s.cfg.pb.toNat < 2 ^ s.cfg.pb.toNat ∧ 2 ^ s.cfg.pb.toNat ≤ 16 ∧
      ∀ pos : Nat, s.b = BitVec.ofNat 32 pos → s.b.toNat % 2 ^ s.cfg.pb.toNat = pos % 2 ^ s.cfg.pb.toNat) ∧
    (4 < s.cfg.pb.toNat → exec .idxPs s = .next (s.faulted ⟨.invalidOption, s.cfg.word⟩))

/-- IDX_LIT puts LitBase of position B and previous byte C[7:0] into RES and changes nothing else; an LC above 8 or an LP above
4 raises INVALID_OPTION with CFG (R230, R231). -/
def Obligations.IdxLitIndexes : Prop :=
  decode 0x00000030#32 = .ok .idxLit ∧
  ∀ s : State,
    (s.legalLcLp → exec .idxLit s = .next { s with res := s.litCell }) ∧
    (¬ s.legalLcLp → exec .idxLit s = .next (s.faulted ⟨.invalidOption, s.cfg.word⟩))

/-- PRICE[j] is the formula of R260 at every index of every layer. -/
def Obligations.PriceTableFormula : Prop :=
  ∀ k ≤ 8, ∀ j : Nat, 2 ^ (8 - k) ≤ j → j < 2 ^ (9 - k) →
    (priceRom (BitVec.ofNat 9 j)).toNat = k * 2 ^ 6 + (2 ^ (9 - k) - j) * 2 ^ 6 / 2 ^ (8 - k)

/-- The price of a bit is PRICE at the index `((((p - b) ^ (-b)) mod 2^32) & 2047) >> 2`; for p in 1..2047 that is p >> 2 for a
0 and (2048 - p) >> 2 for a 1 (R261). -/
def Obligations.BitPriceIndex : Prop :=
  ∀ p : Prob,
    (∀ bit : Bool, priceBit p bit = (priceRom (((((p.setWidth 32 - BitVec.ofNat 32 bit.toNat) ^^^
      (0#32 - BitVec.ofNat 32 bit.toNat)) &&& 2047#32) >>> 2).setWidth 9)).toNat) ∧
    (p.toNat ≤ 2047 → priceBit p false = (priceRom (BitVec.ofNat 9 (p.toNat / 2 ^ 2))).toNat) ∧
    (1 ≤ p.toNat → p.toNat ≤ 2047 → priceBit p true = (priceRom (BitVec.ofNat 9 ((2048 - p.toNat) / 2 ^ 2))).toNat)

/-- PRICE falls from index 1 on. A cell in [31, 2017] has its index in [7, 504] and is priced in [2, 400], so a symbol coded in d decisions costs at most 400 d: a literal at most 3200, a
length symbol at most 4000 (R264). -/
def Obligations.PriceBounds : Prop :=
  (∀ j : Nat, 1 ≤ j → j < 511 → (priceRom (BitVec.ofNat 9 (j + 1))).toNat ≤ (priceRom (BitVec.ofNat 9 j)).toNat) ∧
  (∀ (p : Prob) (bit : Bool), 31 ≤ p.toNat → p.toNat ≤ 2017 →
    7 ≤ (priceIndex p bit).toNat ∧ (priceIndex p bit).toNat ≤ 504 ∧ 2 ≤ priceBit p bit ∧ priceBit p bit ≤ 400) ∧
  (∀ (s : State) (base : Word) (d sym : Nat), s.readable (codeCells (treeCode base d sym)) →
    codePrice s (treeCode base d sym) ≤ 400 * d) ∧
  (∀ (s : State) (sub : Word) (byte : Nat), s.readable (codeCells (litCode sub byte)) →
    codePrice s (litCode sub byte) ≤ 3200) ∧
  (∀ (s : State) (sub : Word) (mb byte : Nat), s.readable (codeCells (matchedCode sub mb byte)) →
    codePrice s (matchedCode sub mb byte) ≤ 3200) ∧
  (∀ (s : State) (base : Word) (ps sym : Nat), s.readable (codeCells (lenCode base ps sym)) →
    codePrice s (lenCode base ps sym) ≤ 4000)

/-- PR_BIT, PR_TREE, PR_RTREE, PR_LIT and PR_LITM put into RES the sum of the bit prices of the decisions the encode command
would take, with the cells as they are, and change nothing else (R186, R187, R188, R236, R237, R262). -/
def Obligations.PriceQueriesSum : Prop :=
  ∀ s : State,
    (s.readable [s.a + s.b] → exec .prBit s = .next
      { s with res := BitVec.ofNat 32 (priceBit (s.pmRead (s.a + s.b)) (s.c.toNat.testBit 0)) }) ∧
    (∀ n, legalDepth n → s.readable (spanCells (treeSpan s.a n.toNat)) →
      exec (.prTree n) s = .next
        { s with res := BitVec.ofNat 32 (codePrice s (treeCode s.a n.toNat s.b.toNat)) } ∧
      exec (.prRtree n) s = .next
        { s with res := BitVec.ofNat 32 (codePrice s (treeCodeRev s.a n.toNat s.b.toNat)) }) ∧
    (s.legalLcLp → s.readable (spanCells (plainSpan s.litCell)) → exec .prLit s = .next
      { s with res := BitVec.ofNat 32 (codePrice s (litCode s.litCell (s.c.toNat / 2 ^ 16 % 2 ^ 8))) }) ∧
    (s.legalLcLp → s.readable (spanCells (matchedSpan s.litCell)) → exec .prLitm s = .next
      { s with res := BitVec.ofNat 32 (codePrice s
          (matchedCode s.litCell (s.c.toNat / 2 ^ 8 % 2 ^ 8) (s.c.toNat / 2 ^ 16 % 2 ^ 8))) })

/-- LEN_PRICE_INIT fills, for every q below 2^pb, the prices of the symbols below tableSize and the counter, and sets PV[L]; the
other entries of the tables, the cells, RES and every other register are unchanged (R206, R208, R209). That the sub-tables from
2^pb up, which hold no defined value, are unchanged is the model's choice (log 6). -/
def Obligations.LenPriceInitFills : Prop :=
  ∀ (s : State) (l : BitVec 1), s.cfg.pb.toNat ≤ 4 → s.legalTableSize →
    s.readable (spanCells (lenPriceSpan (s.lenBase l) (2 ^ s.cfg.pb.toNat))) →
    ∃ t, exec (.lenPriceInit l) s = .next t ∧
      t = { s with
        lenPrice := t.lenPrice, lenCnt := t.lenCnt
        pv0 := if l = 0#1 then true else s.pv0, pv1 := if l = 1#1 then true else s.pv1 } ∧
      (∀ q < 2 ^ s.cfg.pb.toNat,
        t.lenPrice.get? (16 * l.toNat + q) = some (lenPrices s (s.lenBase l) q s.cfg.tableSize.toNat) ∧
        t.lenCnt.get? (16 * l.toNat + q) = some s.cfg.tableSize) ∧
      (∀ k, (∀ q < 2 ^ s.cfg.pb.toNat, k ≠ 16 * l.toNat + q) →
        t.lenPrice.get? k = s.lenPrice.get? k ∧ t.lenCnt.get? k = s.lenCnt.get? k)

/-- PR_LEN puts the cached price LENPRICE[L][PS][B] into RES, reads no cell and changes nothing else; PV[L] = 0 raises
PRICE_INVALID before a B at or above tableSize raises BAD_OPERAND (R210, R285). -/
def Obligations.PrLenReads : Prop :=
  ∀ (s : State) (ps : BitVec 4) (l : BitVec 1), s.legalPs ps → s.legalTableSize →
    (∀ prices v, s.pv l = true → s.b.toNat < s.cfg.tableSize.toNat →
      s.lenPrice.get? (16 * l.toNat + ps.toNat) = some prices → prices[s.b.toNat]? = some v →
      exec (.prLen ps l) s = .next { s with res := v }) ∧
    (s.pv l = false → exec (.prLen ps l) s = .next (s.faulted ⟨.priceInvalid, encode (.prLen ps l)⟩)) ∧
    (s.pv l = true → s.cfg.tableSize.toNat ≤ s.b.toNat → exec (.prLen ps l) s = .next (s.faulted ⟨.badOperand, s.b⟩))
end

