-- ==== Sys2Proof/Laws/Memory.lean ====
section
/-!
SUPPORT. The laws of the sparse tables and of the probability memory: read after write, the canonical form, and filling a run.
-/

namespace Sys2Proof.Machine

variable {β : Type}

/-! ## Read after write -/

@[simp] theorem Cells.get?_nil (k : Nat) : Cells.get? ([] : Cells β) k = none := rfl

/-- Reading the index that was written gives the value written. -/
@[simp] theorem Cells.get?_set_self (m : Cells β) (k : Nat) (v : β) : (Cells.set k v m).get? k = some v := by
  induction m with
  | nil => simp [Cells.set, Cells.get?]
  | cons x rest ih =>
    obtain ⟨j, w⟩ := x
    unfold Cells.set
    split
    · simp [Cells.get?]
    · split
      · simp [Cells.get?]
      · rename_i h1 h2
        have : j ≠ k := fun h => h2 h.symm
        simp [Cells.get?, this, h1, ih]

/-- Reading another index gives what it gave before. -/
theorem Cells.get?_set_ne (m : Cells β) {k k' : Nat} (v : β) (h : k' ≠ k) :
    (Cells.set k v m).get? k' = m.get? k' := by
  have hk : ¬ k = k' := fun e => h e.symm
  induction m with
  | nil => simp [Cells.set, Cells.get?, hk]
  | cons x rest ih =>
    obtain ⟨j, w⟩ := x
    unfold Cells.set
    split
    · rename_i h1
      by_cases h2 : k' < k
      · have : ¬ j = k' := by omega
        have : k' < j := by omega
        simp [Cells.get?, *]
      · simp [Cells.get?, hk, h2]
    · split
      · rename_i h1 h2
        subst h2
        by_cases h3 : k' < k <;> simp [Cells.get?, hk, h3]
      · simp only [Cells.get?, ih]

theorem Cells.get?_set (m : Cells β) (k k' : Nat) (v : β) :
    (Cells.set k v m).get? k' = if k' = k then some v else m.get? k' := by
  split
  · subst_vars; simp
  · exact Cells.get?_set_ne m v ‹_›

/-! ## The canonical form -/

/-- Every entry after a write was there before or is the one written. -/
theorem Cells.mem_set {m : Cells β} {k : Nat} {v : β} {x : Nat × β} (h : x ∈ Cells.set k v m) :
    x = (k, v) ∨ x ∈ m := by
  induction m with
  | nil => simpa [Cells.set] using h
  | cons y rest ih =>
    obtain ⟨j, w⟩ := y
    unfold Cells.set at h
    split at h
    · simpa using h
    · split at h
      · rcases List.mem_cons.mp h with h | h
        · exact .inl h
        · exact .inr (List.mem_cons_of_mem _ h)
      · rcases List.mem_cons.mp h with h | h
        · exact .inr (h ▸ List.mem_cons_self)
        · exact (ih h).imp id (List.mem_cons_of_mem _)

/-- A write keeps the canonical form. -/
theorem Cells.set_wf {m : Cells β} (k : Nat) (v : β) (h : m.wf) : (Cells.set k v m).wf := by
  induction m with
  | nil => simp [Cells.set, Cells.wf]
  | cons x rest ih =>
    obtain ⟨j, w⟩ := x
    obtain ⟨h1, h2⟩ := List.pairwise_cons.mp h
    unfold Cells.set
    split
    · rename_i hk
      refine List.pairwise_cons.mpr ⟨?_, h⟩
      intro y hy
      rcases List.mem_cons.mp hy with rfl | hy
      · exact hk
      · exact Nat.lt_trans hk (h1 y hy)
    · split
      · rename_i hk hkj
        subst hkj
        exact List.pairwise_cons.mpr ⟨h1, h2⟩
      · rename_i hk hkj
        refine List.pairwise_cons.mpr ⟨?_, ih h2⟩
        intro y hy
        rcases Cells.mem_set hy with rfl | hy
        · show j < k
          omega
        · exact h1 y hy

/-- An entry that reading finds is in the list. -/
theorem Cells.mem_of_get? {m : Cells β} {k : Nat} {v : β} (h : m.get? k = some v) : (k, v) ∈ m := by
  induction m with
  | nil => simp at h
  | cons x rest ih =>
    obtain ⟨j, w⟩ := x
    unfold Cells.get? at h
    split at h
    · simp_all
    · split at h
      · simp at h
      · exact List.mem_cons_of_mem _ (ih h)

/-! ## Reading and writing cells -/

@[simp] theorem State.pmRead_pmWrite_self (s : State) (ea : Word) (v : Prob) : (s.pmWrite ea v).pmRead ea = v := by
  simp [State.pmRead, State.pmWrite]

theorem State.pmRead_pmWrite_ne (s : State) {ea ea' : Word} (v : Prob) (h : ea' ≠ ea) :
    (s.pmWrite ea v).pmRead ea' = s.pmRead ea' := by
  have : ea'.toNat ≠ ea.toNat := fun e => h (BitVec.eq_of_toNat_eq e)
  simp [State.pmRead, State.pmWrite, Cells.get?_set_ne _ _ this]

@[simp] theorem State.pmWritten_pmWrite_self (s : State) (ea : Word) (v : Prob) :
    (s.pmWrite ea v).pmWritten ea = true := by
  simp [State.pmWritten, State.pmWrite]

/-- A write clears no written bit. -/
theorem State.pmWritten_pmWrite {s : State} {ea' : Word} (ea : Word) (v : Prob) (h : s.pmWritten ea' = true) :
    (s.pmWrite ea v).pmWritten ea' = true := by
  simp only [State.pmWritten, State.pmWrite, Cells.get?_set] at h ⊢
  split <;> simp_all

/-- A written cell reads as the value listed for it. -/
theorem State.get?_of_pmWritten {s : State} {ea : Word} (h : s.pmWritten ea = true) :
    s.pm.get? ea.toNat = some (s.pmRead ea) := by
  obtain ⟨v, hv⟩ := Option.isSome_iff_exists.mp h
  simp [State.pmRead, hv]

/-! ## Filling a run -/

/-- A run of writes keeps the canonical form. -/
theorem fillRun_wf (v : Prob) (n : Nat) (ea : Word) {m : Memory} (h : m.wf) : (fillRun v n ea m).wf := by
  induction n generalizing ea with
  | zero => exact h
  | succ n ih => exact Cells.set_wf _ _ (ih _)

/-- After a run of writes, the cells of the run hold the value and every other cell is as before. -/
theorem get?_fillRun (v : Prob) (n : Nat) (ea : Word) (m : Memory) (k : Nat) :
    (fillRun v n ea m).get? k =
      if ∃ i < n, (ea + BitVec.ofNat 32 i).toNat = k then some v else m.get? k := by
  induction n generalizing ea with
  | zero => simp [fillRun]
  | succ n ih =>
    have hstep : (∃ i < n + 1, (ea + BitVec.ofNat 32 i).toNat = k) ↔
        (k = ea.toNat ∨ ∃ i < n, (ea + 1#32 + BitVec.ofNat 32 i).toNat = k) := by
      have shift : ∀ i : Nat, ea + 1#32 + BitVec.ofNat 32 i = ea + BitVec.ofNat 32 (i + 1) := by
        intro i
        rw [BitVec.add_assoc]
        congr 1
        apply BitVec.eq_of_toNat_eq
        simp [BitVec.toNat_ofNat, Nat.add_comm]
      constructor
      · rintro ⟨i, hi, h⟩
        cases i with
        | zero => left; simpa using h.symm
        | succ i => exact .inr ⟨i, by omega, by rw [shift]; exact h⟩
      · rintro (h | ⟨i, hi, h⟩)
        · exact ⟨0, by omega, by simpa using h.symm⟩
        · exact ⟨i + 1, by omega, by rw [← shift]; exact h⟩
    simp only [fillRun, Cells.get?_set, ih, hstep]
    by_cases h1 : k = ea.toNat <;> simp [h1]

/-- Every entry after a run of writes was there before or is a written cell of the run. -/
theorem mem_fillRun {v : Prob} {n : Nat} {ea : Word} {m : Memory} {x : Nat × Prob} (h : x ∈ fillRun v n ea m) :
    (x.2 = v ∧ ∃ i < n, (ea + BitVec.ofNat 32 i).toNat = x.1) ∨ x ∈ m := by
  induction n generalizing ea with
  | zero => exact .inr h
  | succ n ih =>
    rcases Cells.mem_set h with rfl | h
    · exact .inl ⟨rfl, 0, by omega, by simp⟩
    · rcases ih h with ⟨h1, i, hi, h2⟩ | h
      · refine .inl ⟨h1, i + 1, by omega, ?_⟩
        rw [← h2, BitVec.add_assoc]
        congr 2
        apply BitVec.eq_of_toNat_eq
        simp [BitVec.toNat_ofNat, Nat.add_comm]
      · exact .inr h

end Sys2Proof.Machine
end

