-- ==== Sys2Proof/Laws/State.lean ====
section
/-!
SUPPORT. What each named update of the state does to each field, one lemma a field, so that no proof unfolds a record update.
-/

namespace Sys2Proof.Machine

variable (s : State)

/-! ## raise -/

@[simp] theorem State.raise_params (r : Raise) : (s.raise r).params = s.params := rfl
@[simp] theorem State.raise_a (r : Raise) : (s.raise r).a = s.a := rfl
@[simp] theorem State.raise_b (r : Raise) : (s.raise r).b = s.b := rfl
@[simp] theorem State.raise_c (r : Raise) : (s.raise r).c = s.c := rfl
@[simp] theorem State.raise_res (r : Raise) : (s.raise r).res = s.res := rfl
@[simp] theorem State.raise_err (r : Raise) : (s.raise r).err = true := rfl
@[simp] theorem State.raise_rdReady (r : Raise) : (s.raise r).rdReady = s.rdReady := rfl
@[simp] theorem State.raise_reReady (r : Raise) : (s.raise r).reReady = s.reReady := rfl
@[simp] theorem State.raise_pv0 (r : Raise) : (s.raise r).pv0 = s.pv0 := rfl
@[simp] theorem State.raise_pv1 (r : Raise) : (s.raise r).pv1 = s.pv1 := rfl
@[simp] theorem State.raise_cause (r : Raise) : (s.raise r).cause = r.cause.code := rfl
@[simp] theorem State.raise_faultInfo (r : Raise) : (s.raise r).faultInfo = r.info := rfl
@[simp] theorem State.raise_cfg (r : Raise) : (s.raise r).cfg = s.cfg := rfl
@[simp] theorem State.raise_litBase (r : Raise) : (s.raise r).litBase = s.litBase := rfl
@[simp] theorem State.raise_lenBase0 (r : Raise) : (s.raise r).lenBase0 = s.lenBase0 := rfl
@[simp] theorem State.raise_lenBase1 (r : Raise) : (s.raise r).lenBase1 = s.lenBase1 := rfl
@[simp] theorem State.raise_rdRange (r : Raise) : (s.raise r).rdRange = s.rdRange := rfl
@[simp] theorem State.raise_rdCode (r : Raise) : (s.raise r).rdCode = s.rdCode := rfl
@[simp] theorem State.raise_reRange (r : Raise) : (s.raise r).reRange = s.reRange := rfl
@[simp] theorem State.raise_reLow (r : Raise) : (s.raise r).reLow = s.reLow := rfl
@[simp] theorem State.raise_reCache (r : Raise) : (s.raise r).reCache = s.reCache := rfl
@[simp] theorem State.raise_reCacheSize (r : Raise) : (s.raise r).reCacheSize = s.reCacheSize := rfl
@[simp] theorem State.raise_rePos (r : Raise) : (s.raise r).rePos = s.rePos := rfl
@[simp] theorem State.raise_pm (r : Raise) : (s.raise r).pm = s.pm := rfl
@[simp] theorem State.raise_lenPrice (r : Raise) : (s.raise r).lenPrice = s.lenPrice := rfl
@[simp] theorem State.raise_lenCnt (r : Raise) : (s.raise r).lenCnt = s.lenCnt := rfl
@[simp] theorem State.raise_request (r : Raise) : (s.raise r).request = s.request := rfl
@[simp] theorem State.raise_input (r : Raise) : (s.raise r).input = s.input := rfl
@[simp] theorem State.raise_sink (r : Raise) : (s.raise r).sink = s.sink := rfl
@[simp] theorem State.raise_output (r : Raise) : (s.raise r).output = s.output := rfl
@[simp] theorem State.raise_host (r : Raise) : (s.raise r).host = s.host := rfl
@[simp] theorem State.raise_hostReads (r : Raise) : (s.raise r).hostReads = s.hostReads := rfl

/-! ## setRes -/

@[simp] theorem State.setRes_params (v : Word) : (s.setRes v).params = s.params := rfl
@[simp] theorem State.setRes_a (v : Word) : (s.setRes v).a = s.a := rfl
@[simp] theorem State.setRes_b (v : Word) : (s.setRes v).b = s.b := rfl
@[simp] theorem State.setRes_c (v : Word) : (s.setRes v).c = s.c := rfl
@[simp] theorem State.setRes_res (v : Word) : (s.setRes v).res = v := rfl
@[simp] theorem State.setRes_err (v : Word) : (s.setRes v).err = s.err := rfl
@[simp] theorem State.setRes_rdReady (v : Word) : (s.setRes v).rdReady = s.rdReady := rfl
@[simp] theorem State.setRes_reReady (v : Word) : (s.setRes v).reReady = s.reReady := rfl
@[simp] theorem State.setRes_pv0 (v : Word) : (s.setRes v).pv0 = s.pv0 := rfl
@[simp] theorem State.setRes_pv1 (v : Word) : (s.setRes v).pv1 = s.pv1 := rfl
@[simp] theorem State.setRes_cause (v : Word) : (s.setRes v).cause = s.cause := rfl
@[simp] theorem State.setRes_faultInfo (v : Word) : (s.setRes v).faultInfo = s.faultInfo := rfl
@[simp] theorem State.setRes_cfg (v : Word) : (s.setRes v).cfg = s.cfg := rfl
@[simp] theorem State.setRes_litBase (v : Word) : (s.setRes v).litBase = s.litBase := rfl
@[simp] theorem State.setRes_lenBase0 (v : Word) : (s.setRes v).lenBase0 = s.lenBase0 := rfl
@[simp] theorem State.setRes_lenBase1 (v : Word) : (s.setRes v).lenBase1 = s.lenBase1 := rfl
@[simp] theorem State.setRes_rdRange (v : Word) : (s.setRes v).rdRange = s.rdRange := rfl
@[simp] theorem State.setRes_rdCode (v : Word) : (s.setRes v).rdCode = s.rdCode := rfl
@[simp] theorem State.setRes_reRange (v : Word) : (s.setRes v).reRange = s.reRange := rfl
@[simp] theorem State.setRes_reLow (v : Word) : (s.setRes v).reLow = s.reLow := rfl
@[simp] theorem State.setRes_reCache (v : Word) : (s.setRes v).reCache = s.reCache := rfl
@[simp] theorem State.setRes_reCacheSize (v : Word) : (s.setRes v).reCacheSize = s.reCacheSize := rfl
@[simp] theorem State.setRes_rePos (v : Word) : (s.setRes v).rePos = s.rePos := rfl
@[simp] theorem State.setRes_pm (v : Word) : (s.setRes v).pm = s.pm := rfl
@[simp] theorem State.setRes_lenPrice (v : Word) : (s.setRes v).lenPrice = s.lenPrice := rfl
@[simp] theorem State.setRes_lenCnt (v : Word) : (s.setRes v).lenCnt = s.lenCnt := rfl
@[simp] theorem State.setRes_request (v : Word) : (s.setRes v).request = s.request := rfl
@[simp] theorem State.setRes_input (v : Word) : (s.setRes v).input = s.input := rfl
@[simp] theorem State.setRes_sink (v : Word) : (s.setRes v).sink = s.sink := rfl
@[simp] theorem State.setRes_output (v : Word) : (s.setRes v).output = s.output := rfl
@[simp] theorem State.setRes_host (v : Word) : (s.setRes v).host = s.host := rfl
@[simp] theorem State.setRes_hostReads (v : Word) : (s.setRes v).hostReads = s.hostReads := rfl

/-! ## await -/

@[simp] theorem State.await_params (q : PortRequest) : (s.await q).params = s.params := rfl
@[simp] theorem State.await_a (q : PortRequest) : (s.await q).a = s.a := rfl
@[simp] theorem State.await_b (q : PortRequest) : (s.await q).b = s.b := rfl
@[simp] theorem State.await_c (q : PortRequest) : (s.await q).c = s.c := rfl
@[simp] theorem State.await_res (q : PortRequest) : (s.await q).res = s.res := rfl
@[simp] theorem State.await_err (q : PortRequest) : (s.await q).err = s.err := rfl
@[simp] theorem State.await_rdReady (q : PortRequest) : (s.await q).rdReady = s.rdReady := rfl
@[simp] theorem State.await_reReady (q : PortRequest) : (s.await q).reReady = s.reReady := rfl
@[simp] theorem State.await_pv0 (q : PortRequest) : (s.await q).pv0 = s.pv0 := rfl
@[simp] theorem State.await_pv1 (q : PortRequest) : (s.await q).pv1 = s.pv1 := rfl
@[simp] theorem State.await_cause (q : PortRequest) : (s.await q).cause = s.cause := rfl
@[simp] theorem State.await_faultInfo (q : PortRequest) : (s.await q).faultInfo = s.faultInfo := rfl
@[simp] theorem State.await_cfg (q : PortRequest) : (s.await q).cfg = s.cfg := rfl
@[simp] theorem State.await_litBase (q : PortRequest) : (s.await q).litBase = s.litBase := rfl
@[simp] theorem State.await_lenBase0 (q : PortRequest) : (s.await q).lenBase0 = s.lenBase0 := rfl
@[simp] theorem State.await_lenBase1 (q : PortRequest) : (s.await q).lenBase1 = s.lenBase1 := rfl
@[simp] theorem State.await_rdRange (q : PortRequest) : (s.await q).rdRange = s.rdRange := rfl
@[simp] theorem State.await_rdCode (q : PortRequest) : (s.await q).rdCode = s.rdCode := rfl
@[simp] theorem State.await_reRange (q : PortRequest) : (s.await q).reRange = s.reRange := rfl
@[simp] theorem State.await_reLow (q : PortRequest) : (s.await q).reLow = s.reLow := rfl
@[simp] theorem State.await_reCache (q : PortRequest) : (s.await q).reCache = s.reCache := rfl
@[simp] theorem State.await_reCacheSize (q : PortRequest) : (s.await q).reCacheSize = s.reCacheSize := rfl
@[simp] theorem State.await_rePos (q : PortRequest) : (s.await q).rePos = s.rePos := rfl
@[simp] theorem State.await_pm (q : PortRequest) : (s.await q).pm = s.pm := rfl
@[simp] theorem State.await_lenPrice (q : PortRequest) : (s.await q).lenPrice = s.lenPrice := rfl
@[simp] theorem State.await_lenCnt (q : PortRequest) : (s.await q).lenCnt = s.lenCnt := rfl
@[simp] theorem State.await_request (q : PortRequest) : (s.await q).request = some q := rfl
@[simp] theorem State.await_input (q : PortRequest) : (s.await q).input = s.input := rfl
@[simp] theorem State.await_sink (q : PortRequest) : (s.await q).sink = s.sink := rfl
@[simp] theorem State.await_output (q : PortRequest) : (s.await q).output = s.output := rfl
@[simp] theorem State.await_host (q : PortRequest) : (s.await q).host = s.host := rfl
@[simp] theorem State.await_hostReads (q : PortRequest) : (s.await q).hostReads = s.hostReads := rfl

/-! ## pmWrite -/

@[simp] theorem State.pmWrite_params (ea : Word) (v : Prob) : (s.pmWrite ea v).params = s.params := rfl
@[simp] theorem State.pmWrite_a (ea : Word) (v : Prob) : (s.pmWrite ea v).a = s.a := rfl
@[simp] theorem State.pmWrite_b (ea : Word) (v : Prob) : (s.pmWrite ea v).b = s.b := rfl
@[simp] theorem State.pmWrite_c (ea : Word) (v : Prob) : (s.pmWrite ea v).c = s.c := rfl
@[simp] theorem State.pmWrite_res (ea : Word) (v : Prob) : (s.pmWrite ea v).res = s.res := rfl
@[simp] theorem State.pmWrite_err (ea : Word) (v : Prob) : (s.pmWrite ea v).err = s.err := rfl
@[simp] theorem State.pmWrite_rdReady (ea : Word) (v : Prob) : (s.pmWrite ea v).rdReady = s.rdReady := rfl
@[simp] theorem State.pmWrite_reReady (ea : Word) (v : Prob) : (s.pmWrite ea v).reReady = s.reReady := rfl
@[simp] theorem State.pmWrite_pv0 (ea : Word) (v : Prob) : (s.pmWrite ea v).pv0 = s.pv0 := rfl
@[simp] theorem State.pmWrite_pv1 (ea : Word) (v : Prob) : (s.pmWrite ea v).pv1 = s.pv1 := rfl
@[simp] theorem State.pmWrite_cause (ea : Word) (v : Prob) : (s.pmWrite ea v).cause = s.cause := rfl
@[simp] theorem State.pmWrite_faultInfo (ea : Word) (v : Prob) : (s.pmWrite ea v).faultInfo = s.faultInfo := rfl
@[simp] theorem State.pmWrite_cfg (ea : Word) (v : Prob) : (s.pmWrite ea v).cfg = s.cfg := rfl
@[simp] theorem State.pmWrite_litBase (ea : Word) (v : Prob) : (s.pmWrite ea v).litBase = s.litBase := rfl
@[simp] theorem State.pmWrite_lenBase0 (ea : Word) (v : Prob) : (s.pmWrite ea v).lenBase0 = s.lenBase0 := rfl
@[simp] theorem State.pmWrite_lenBase1 (ea : Word) (v : Prob) : (s.pmWrite ea v).lenBase1 = s.lenBase1 := rfl
@[simp] theorem State.pmWrite_rdRange (ea : Word) (v : Prob) : (s.pmWrite ea v).rdRange = s.rdRange := rfl
@[simp] theorem State.pmWrite_rdCode (ea : Word) (v : Prob) : (s.pmWrite ea v).rdCode = s.rdCode := rfl
@[simp] theorem State.pmWrite_reRange (ea : Word) (v : Prob) : (s.pmWrite ea v).reRange = s.reRange := rfl
@[simp] theorem State.pmWrite_reLow (ea : Word) (v : Prob) : (s.pmWrite ea v).reLow = s.reLow := rfl
@[simp] theorem State.pmWrite_reCache (ea : Word) (v : Prob) : (s.pmWrite ea v).reCache = s.reCache := rfl
@[simp] theorem State.pmWrite_reCacheSize (ea : Word) (v : Prob) : (s.pmWrite ea v).reCacheSize = s.reCacheSize := rfl
@[simp] theorem State.pmWrite_rePos (ea : Word) (v : Prob) : (s.pmWrite ea v).rePos = s.rePos := rfl
@[simp] theorem State.pmWrite_pm (ea : Word) (v : Prob) : (s.pmWrite ea v).pm = s.pm.set ea.toNat v := rfl
@[simp] theorem State.pmWrite_lenPrice (ea : Word) (v : Prob) : (s.pmWrite ea v).lenPrice = s.lenPrice := rfl
@[simp] theorem State.pmWrite_lenCnt (ea : Word) (v : Prob) : (s.pmWrite ea v).lenCnt = s.lenCnt := rfl
@[simp] theorem State.pmWrite_request (ea : Word) (v : Prob) : (s.pmWrite ea v).request = s.request := rfl
@[simp] theorem State.pmWrite_input (ea : Word) (v : Prob) : (s.pmWrite ea v).input = s.input := rfl
@[simp] theorem State.pmWrite_sink (ea : Word) (v : Prob) : (s.pmWrite ea v).sink = s.sink := rfl
@[simp] theorem State.pmWrite_output (ea : Word) (v : Prob) : (s.pmWrite ea v).output = s.output := rfl
@[simp] theorem State.pmWrite_host (ea : Word) (v : Prob) : (s.pmWrite ea v).host = s.host := rfl
@[simp] theorem State.pmWrite_hostReads (ea : Word) (v : Prob) : (s.pmWrite ea v).hostReads = s.hostReads := rfl

/-! ## update -/

@[simp] theorem State.update_params (ea : Word) (p : Prob) (bit : Bool) : (s.update ea p bit).params = s.params := rfl
@[simp] theorem State.update_a (ea : Word) (p : Prob) (bit : Bool) : (s.update ea p bit).a = s.a := rfl
@[simp] theorem State.update_b (ea : Word) (p : Prob) (bit : Bool) : (s.update ea p bit).b = s.b := rfl
@[simp] theorem State.update_c (ea : Word) (p : Prob) (bit : Bool) : (s.update ea p bit).c = s.c := rfl
@[simp] theorem State.update_res (ea : Word) (p : Prob) (bit : Bool) : (s.update ea p bit).res = s.res := rfl
@[simp] theorem State.update_err (ea : Word) (p : Prob) (bit : Bool) : (s.update ea p bit).err = s.err := rfl
@[simp] theorem State.update_rdReady (ea : Word) (p : Prob) (bit : Bool) : (s.update ea p bit).rdReady = s.rdReady := rfl
@[simp] theorem State.update_reReady (ea : Word) (p : Prob) (bit : Bool) : (s.update ea p bit).reReady = s.reReady := rfl
@[simp] theorem State.update_pv0 (ea : Word) (p : Prob) (bit : Bool) : (s.update ea p bit).pv0 = s.pv0 := rfl
@[simp] theorem State.update_pv1 (ea : Word) (p : Prob) (bit : Bool) : (s.update ea p bit).pv1 = s.pv1 := rfl
@[simp] theorem State.update_cause (ea : Word) (p : Prob) (bit : Bool) : (s.update ea p bit).cause = s.cause := rfl
@[simp] theorem State.update_faultInfo (ea : Word) (p : Prob) (bit : Bool) : (s.update ea p bit).faultInfo = s.faultInfo := rfl
@[simp] theorem State.update_cfg (ea : Word) (p : Prob) (bit : Bool) : (s.update ea p bit).cfg = s.cfg := rfl
@[simp] theorem State.update_litBase (ea : Word) (p : Prob) (bit : Bool) : (s.update ea p bit).litBase = s.litBase := rfl
@[simp] theorem State.update_lenBase0 (ea : Word) (p : Prob) (bit : Bool) : (s.update ea p bit).lenBase0 = s.lenBase0 := rfl
@[simp] theorem State.update_lenBase1 (ea : Word) (p : Prob) (bit : Bool) : (s.update ea p bit).lenBase1 = s.lenBase1 := rfl
@[simp] theorem State.update_rdRange (ea : Word) (p : Prob) (bit : Bool) : (s.update ea p bit).rdRange = s.rdRange := rfl
@[simp] theorem State.update_rdCode (ea : Word) (p : Prob) (bit : Bool) : (s.update ea p bit).rdCode = s.rdCode := rfl
@[simp] theorem State.update_reRange (ea : Word) (p : Prob) (bit : Bool) : (s.update ea p bit).reRange = s.reRange := rfl
@[simp] theorem State.update_reLow (ea : Word) (p : Prob) (bit : Bool) : (s.update ea p bit).reLow = s.reLow := rfl
@[simp] theorem State.update_reCache (ea : Word) (p : Prob) (bit : Bool) : (s.update ea p bit).reCache = s.reCache := rfl
@[simp] theorem State.update_reCacheSize (ea : Word) (p : Prob) (bit : Bool) : (s.update ea p bit).reCacheSize = s.reCacheSize := rfl
@[simp] theorem State.update_rePos (ea : Word) (p : Prob) (bit : Bool) : (s.update ea p bit).rePos = s.rePos := rfl
@[simp] theorem State.update_pm (ea : Word) (p : Prob) (bit : Bool) : (s.update ea p bit).pm = s.pm.set ea.toNat (adapt p bit) := rfl
@[simp] theorem State.update_lenPrice (ea : Word) (p : Prob) (bit : Bool) : (s.update ea p bit).lenPrice = s.lenPrice := rfl
@[simp] theorem State.update_lenCnt (ea : Word) (p : Prob) (bit : Bool) : (s.update ea p bit).lenCnt = s.lenCnt := rfl
@[simp] theorem State.update_request (ea : Word) (p : Prob) (bit : Bool) : (s.update ea p bit).request = s.request := rfl
@[simp] theorem State.update_input (ea : Word) (p : Prob) (bit : Bool) : (s.update ea p bit).input = s.input := rfl
@[simp] theorem State.update_sink (ea : Word) (p : Prob) (bit : Bool) : (s.update ea p bit).sink = s.sink := rfl
@[simp] theorem State.update_output (ea : Word) (p : Prob) (bit : Bool) : (s.update ea p bit).output = s.output := rfl
@[simp] theorem State.update_host (ea : Word) (p : Prob) (bit : Bool) : (s.update ea p bit).host = s.host := rfl
@[simp] theorem State.update_hostReads (ea : Word) (p : Prob) (bit : Bool) : (s.update ea p bit).hostReads = s.hostReads := rfl

/-! ## refill -/

@[simp] theorem State.refill_params (l : BitVec 1) (ps : Nat) : (s.refill l ps).params = s.params := rfl
@[simp] theorem State.refill_a (l : BitVec 1) (ps : Nat) : (s.refill l ps).a = s.a := rfl
@[simp] theorem State.refill_b (l : BitVec 1) (ps : Nat) : (s.refill l ps).b = s.b := rfl
@[simp] theorem State.refill_c (l : BitVec 1) (ps : Nat) : (s.refill l ps).c = s.c := rfl
@[simp] theorem State.refill_res (l : BitVec 1) (ps : Nat) : (s.refill l ps).res = s.res := rfl
@[simp] theorem State.refill_err (l : BitVec 1) (ps : Nat) : (s.refill l ps).err = s.err := rfl
@[simp] theorem State.refill_rdReady (l : BitVec 1) (ps : Nat) : (s.refill l ps).rdReady = s.rdReady := rfl
@[simp] theorem State.refill_reReady (l : BitVec 1) (ps : Nat) : (s.refill l ps).reReady = s.reReady := rfl
@[simp] theorem State.refill_pv0 (l : BitVec 1) (ps : Nat) : (s.refill l ps).pv0 = s.pv0 := rfl
@[simp] theorem State.refill_pv1 (l : BitVec 1) (ps : Nat) : (s.refill l ps).pv1 = s.pv1 := rfl
@[simp] theorem State.refill_cause (l : BitVec 1) (ps : Nat) : (s.refill l ps).cause = s.cause := rfl
@[simp] theorem State.refill_faultInfo (l : BitVec 1) (ps : Nat) : (s.refill l ps).faultInfo = s.faultInfo := rfl
@[simp] theorem State.refill_cfg (l : BitVec 1) (ps : Nat) : (s.refill l ps).cfg = s.cfg := rfl
@[simp] theorem State.refill_litBase (l : BitVec 1) (ps : Nat) : (s.refill l ps).litBase = s.litBase := rfl
@[simp] theorem State.refill_lenBase0 (l : BitVec 1) (ps : Nat) : (s.refill l ps).lenBase0 = s.lenBase0 := rfl
@[simp] theorem State.refill_lenBase1 (l : BitVec 1) (ps : Nat) : (s.refill l ps).lenBase1 = s.lenBase1 := rfl
@[simp] theorem State.refill_rdRange (l : BitVec 1) (ps : Nat) : (s.refill l ps).rdRange = s.rdRange := rfl
@[simp] theorem State.refill_rdCode (l : BitVec 1) (ps : Nat) : (s.refill l ps).rdCode = s.rdCode := rfl
@[simp] theorem State.refill_reRange (l : BitVec 1) (ps : Nat) : (s.refill l ps).reRange = s.reRange := rfl
@[simp] theorem State.refill_reLow (l : BitVec 1) (ps : Nat) : (s.refill l ps).reLow = s.reLow := rfl
@[simp] theorem State.refill_reCache (l : BitVec 1) (ps : Nat) : (s.refill l ps).reCache = s.reCache := rfl
@[simp] theorem State.refill_reCacheSize (l : BitVec 1) (ps : Nat) : (s.refill l ps).reCacheSize = s.reCacheSize := rfl
@[simp] theorem State.refill_rePos (l : BitVec 1) (ps : Nat) : (s.refill l ps).rePos = s.rePos := rfl
@[simp] theorem State.refill_pm (l : BitVec 1) (ps : Nat) : (s.refill l ps).pm = s.pm := rfl
@[simp] theorem State.refill_request (l : BitVec 1) (ps : Nat) : (s.refill l ps).request = s.request := rfl
@[simp] theorem State.refill_input (l : BitVec 1) (ps : Nat) : (s.refill l ps).input = s.input := rfl
@[simp] theorem State.refill_sink (l : BitVec 1) (ps : Nat) : (s.refill l ps).sink = s.sink := rfl
@[simp] theorem State.refill_output (l : BitVec 1) (ps : Nat) : (s.refill l ps).output = s.output := rfl
@[simp] theorem State.refill_host (l : BitVec 1) (ps : Nat) : (s.refill l ps).host = s.host := rfl
@[simp] theorem State.refill_hostReads (l : BitVec 1) (ps : Nat) : (s.refill l ps).hostReads = s.hostReads := rfl

/-! ## resetBlock -/

@[simp] theorem State.resetBlock_params : s.resetBlock.params = s.params := rfl
@[simp] theorem State.resetBlock_a : s.resetBlock.a = State.reset.a := rfl
@[simp] theorem State.resetBlock_b : s.resetBlock.b = State.reset.b := rfl
@[simp] theorem State.resetBlock_c : s.resetBlock.c = State.reset.c := rfl
@[simp] theorem State.resetBlock_res : s.resetBlock.res = State.reset.res := rfl
@[simp] theorem State.resetBlock_err : s.resetBlock.err = State.reset.err := rfl
@[simp] theorem State.resetBlock_rdReady : s.resetBlock.rdReady = State.reset.rdReady := rfl
@[simp] theorem State.resetBlock_reReady : s.resetBlock.reReady = State.reset.reReady := rfl
@[simp] theorem State.resetBlock_pv0 : s.resetBlock.pv0 = State.reset.pv0 := rfl
@[simp] theorem State.resetBlock_pv1 : s.resetBlock.pv1 = State.reset.pv1 := rfl
@[simp] theorem State.resetBlock_cause : s.resetBlock.cause = State.reset.cause := rfl
@[simp] theorem State.resetBlock_faultInfo : s.resetBlock.faultInfo = State.reset.faultInfo := rfl
@[simp] theorem State.resetBlock_cfg : s.resetBlock.cfg = State.reset.cfg := rfl
@[simp] theorem State.resetBlock_litBase : s.resetBlock.litBase = State.reset.litBase := rfl
@[simp] theorem State.resetBlock_lenBase0 : s.resetBlock.lenBase0 = State.reset.lenBase0 := rfl
@[simp] theorem State.resetBlock_lenBase1 : s.resetBlock.lenBase1 = State.reset.lenBase1 := rfl
@[simp] theorem State.resetBlock_rdRange : s.resetBlock.rdRange = State.reset.rdRange := rfl
@[simp] theorem State.resetBlock_rdCode : s.resetBlock.rdCode = State.reset.rdCode := rfl
@[simp] theorem State.resetBlock_reRange : s.resetBlock.reRange = State.reset.reRange := rfl
@[simp] theorem State.resetBlock_reLow : s.resetBlock.reLow = State.reset.reLow := rfl
@[simp] theorem State.resetBlock_reCache : s.resetBlock.reCache = State.reset.reCache := rfl
@[simp] theorem State.resetBlock_reCacheSize : s.resetBlock.reCacheSize = State.reset.reCacheSize := rfl
@[simp] theorem State.resetBlock_rePos : s.resetBlock.rePos = State.reset.rePos := rfl
@[simp] theorem State.resetBlock_pm : s.resetBlock.pm = State.reset.pm := rfl
@[simp] theorem State.resetBlock_lenPrice : s.resetBlock.lenPrice = State.reset.lenPrice := rfl
@[simp] theorem State.resetBlock_lenCnt : s.resetBlock.lenCnt = State.reset.lenCnt := rfl
@[simp] theorem State.resetBlock_request : s.resetBlock.request = State.reset.request := rfl
@[simp] theorem State.resetBlock_input : s.resetBlock.input = s.input := rfl
@[simp] theorem State.resetBlock_sink : s.resetBlock.sink = s.sink := rfl
@[simp] theorem State.resetBlock_output : s.resetBlock.output = s.output := rfl
@[simp] theorem State.resetBlock_host : s.resetBlock.host = s.host := rfl
@[simp] theorem State.resetBlock_hostReads : s.resetBlock.hostReads = s.hostReads := rfl

/-! ## What reads only some fields -/

@[simp] theorem State.refill_lenCnt (l : BitVec 1) (ps : Nat) :
    (s.refill l ps).lenCnt = s.lenCnt.set (lenIndex l ps) s.cfg.tableSize := rfl

/-- A state is settled by its fields: two updates that write the same fields commute in the obvious way. -/
@[simp] theorem State.setRes_setRes (v w : Word) : (s.setRes v).setRes w = s.setRes w := rfl

end Sys2Proof.Machine
end

