-- ==== Sys2Proof/Laws/Ops.lean ====
section
/-!
SUPPORT. What each shared operation can do, said once: how acts are put together, what a check answers, which cell a footprint check names, and what a port request does.
-/

namespace Sys2Proof.Machine

variable {α β : Type}

/-! ## Acts -/

@[simp] theorem Act.bind_ok (v : α) (s : State) (f : α → State → Act β) : (Act.ok v s).bind f = f v s := rfl
@[simp] theorem Act.bind_raised (r : Raise) (s : State) (f : α → State → Act β) :
    (Act.raised r s).bind f = .raised r s := rfl
@[simp] theorem Act.bind_waiting (q : PortRequest) (s : State) (f : α → State → Act β) :
    (Act.waiting q s).bind f = .waiting q s := rfl
@[simp] theorem Act.state_ok (v : α) (s : State) : (Act.ok v s).state = s := rfl
@[simp] theorem Act.state_raised (r : Raise) (s : State) : (Act.raised r s : Act α).state = s := rfl
@[simp] theorem Act.state_waiting (q : PortRequest) (s : State) : (Act.waiting q s : Act α).state = s := rfl
@[simp] theorem Act.settle_ok (s : State) : (Act.ok () s).settle = s := rfl
@[simp] theorem Act.settle_raised (r : Raise) (s : State) : (Act.raised r s).settle = s.raise r := rfl
@[simp] theorem Act.settle_waiting (q : PortRequest) (s : State) : (Act.waiting q s).settle = s.await q := rfl

theorem Act.bind_assoc {γ : Type} (m : Act α) (f : α → State → Act β) (g : β → State → Act γ) :
    (m.bind f).bind g = m.bind fun v s => (f v s).bind g := by
  cases m <;> rfl

/-- A bind ends with a value exactly where both parts do. -/
theorem Act.bind_eq_ok {m : Act α} {f : α → State → Act β} {w : β} {u : State} :
    m.bind f = .ok w u ↔ ∃ v t, m = .ok v t ∧ f v t = .ok w u := by
  cases m <;> simp

/-- A relation that both parts keep holds of the state a bind leaves, however it ends. -/
theorem Act.bind_state {R : State → State → Prop} (trans : ∀ {a b c}, R a b → R b c → R a c)
    {s : State} {m : Act α} {f : α → State → Act β} (hm : R s m.state)
    (hf : ∀ v t, m = .ok v t → R t (f v t).state) : R s (m.bind f).state := by
  cases m with
  | ok v t => exact trans hm (hf v t rfl)
  | raised r t => exact hm
  | waiting q t => exact hm

/-- The faults a port can raise (R66, R67): always with FAULTINFO 0. -/
def portFault (r : Raise) : Prop := r = ⟨.unexpectedEof, 0#32⟩ ∨ r = ⟨.ioError, 0#32⟩

/-- The fault the output port can raise (R67). -/
def sinkFault (r : Raise) : Prop := r = ⟨.ioError, 0#32⟩

theorem sinkFault.port {r : Raise} (h : sinkFault r) : portFault r := .inr h

/-- Whatever the act raises satisfies P. -/
def Act.raises (P : Raise → Prop) : Act α → Prop
  | .ok _ _ => True
  | .raised r _ => P r
  | .waiting _ _ => True

/-- The act raises nothing but a port's fault. -/
abbrev Act.onlyPorts (m : Act α) : Prop := m.raises portFault

/-- The act raises nothing but the output port's fault. -/
abbrev Act.onlySink (m : Act α) : Prop := m.raises sinkFault

theorem Act.raises_bind {P : Raise → Prop} {m : Act α} {f : α → State → Act β} (hm : m.raises P)
    (hf : ∀ v t, (f v t).raises P) : (m.bind f).raises P := by
  cases m with
  | ok v t => exact hf v t
  | raised r t => exact hm
  | waiting q t => trivial

/-- The act does not complete: its fault, or its waiting for a port, leaves t. -/
def Act.endsAt (m : Act α) (t : State) : Prop :=
  (∃ r u, m = .raised r u ∧ t = u.raise r) ∨ ∃ q u, m = .waiting q u ∧ t = u.await q

/-- What does not complete is not gone on with. -/
theorem Act.endsAt_bind {m : Act α} {t : State} (h : m.endsAt t) (f : α → State → Act β) : (m.bind f).endsAt t := by
  rcases h with ⟨r, u, rfl, rfl⟩ | ⟨q, u, rfl, rfl⟩
  · exact .inl ⟨r, u, rfl, rfl⟩
  · exact .inr ⟨q, u, rfl, rfl⟩

theorem Act.bind_endsAt {m : Act α} {v : α} {u t : State} {f : α → State → Act β} (hm : m = .ok v u) (h : (f v u).endsAt t) :
    (m.bind f).endsAt t := by
  rw [hm]
  exact h

theorem Act.settle_endsAt {m : Act Unit} {t : State} (h : m.endsAt t) : m.settle = t := by
  rcases h with ⟨r, u, rfl, rfl⟩ | ⟨q, u, rfl, rfl⟩ <;> rfl

theorem Act.toRes_endsAt {m : Act Nat} {t : State} (h : m.endsAt t) : m.toRes.settle = t := settle_endsAt (endsAt_bind h _)

/-! ## The frame of a command -/

/-- A command always answers a next state: that of the check's fault, or the one its pseudocode leaves. -/
theorem command_eq (check : Option Raise) (body : State → Act Unit) (s : State) :
    command check body s = .next (match check with | some r => s.raise r | none => (body s).settle) := by
  cases check <;> rfl

@[simp] theorem command_none (body : State → Act Unit) (s : State) : command none body s = .next (body s).settle := rfl
@[simp] theorem command_some (r : Raise) (body : State → Act Unit) (s : State) :
    command (some r) body s = .next (s.raise r) := rfl

/-- The two ways a command reaches a next state. -/
theorem command_next {check : Option Raise} {body : State → Act Unit} {s t : State} (h : command check body s = .next t) :
    (∃ r, check = some r ∧ t = s.raise r) ∨ (check = none ∧ t = (body s).settle) := by
  cases check with
  | some r => exact .inl ⟨r, rfl, by simpa using h.symm⟩
  | none => exact .inr ⟨rfl, by simpa using h.symm⟩

/-- RES is written only where the act ends with a value. -/
theorem Act.toRes_settle (m : Act Nat) :
    m.toRes.settle = match m with
      | .ok v s => s.setRes (BitVec.ofNat 32 v)
      | .raised r s => s.raise r
      | .waiting q s => s.await q := by
  cases m <;> rfl

/-! ## Checks -/

theorem Option.or_eq_some_iff' {a b : Option α} {x : α} : a.or b = some x ↔ a = some x ∨ (a = none ∧ b = some x) := by
  cases a <;> simp

theorem rdReadyFault_none {s : State} {i : Instr} : s.rdReadyFault i = none ↔ s.rdReady = true := by
  simp [State.rdReadyFault]

theorem reReadyFault_none {s : State} {i : Instr} : s.reReadyFault i = none ↔ s.reReady = true := by
  simp [State.reReadyFault]

theorem lcLpFault_none {s : State} : s.lcLpFault = none ↔ s.cfg.lc.toNat ≤ 8 ∧ s.cfg.lp.toNat ≤ 4 := by
  simp [State.lcLpFault, State.optionFault, Option.or_eq_none_iff]

theorem pbFault_none {s : State} : s.pbFault = none ↔ s.cfg.pb.toNat ≤ 4 := by
  simp [State.pbFault, State.optionFault]

theorem tableSizeFault_none {s : State} :
    s.tableSizeFault = none ↔ 1 ≤ s.cfg.tableSize.toNat ∧ s.cfg.tableSize.toNat ≤ 272 := by
  simp [State.tableSizeFault, State.optionFault]

theorem psFault_none {s : State} {ps : BitVec 4} : s.psFault ps = none ↔ ps.toNat < 2 ^ s.cfg.pb.toNat := by
  simp [State.psFault, operandFault]

theorem operandFault_none {legal : Bool} {w : Word} : operandFault legal w = none ↔ legal = true := by
  simp [operandFault]

/-! ## Footprints -/

/-- The walk along a run finds the first of its cells that p picks. -/
theorem firstInRun_eq (p : Word → Bool) (n : Nat) (ea : Word) :
    firstInRun p n ea = ((List.range n).map fun k => ea + BitVec.ofNat 32 k).find? p := by
  induction n generalizing ea with
  | zero => rfl
  | succ n ih =>
    rw [List.range_succ_eq_map, List.map_cons, List.map_map, List.find?_cons]
    have shift : ((fun k => ea + BitVec.ofNat 32 k) ∘ Nat.succ) = fun k => ea + 1#32 + BitVec.ofNat 32 k := by
      funext k
      simp only [Function.comp, BitVec.add_assoc]
      congr 1
      apply BitVec.eq_of_toNat_eq
      simp [BitVec.toNat_ofNat, Nat.add_comm]
    rw [shift, ← ih]
    show (if p ea then some ea else firstInRun p n (ea + 1#32)) = _
    by_cases h : p ea <;> simp [h]

/-- The footprint check names the first cell of the footprint that p picks (R64). -/
theorem firstCell_eq (p : Word → Bool) (fp : List Span) : firstCell p fp = (spanCells fp).find? p := by
  induction fp with
  | nil => rfl
  | cons sp rest ih =>
    simp only [firstCell, spanCells, List.flatMap_cons, List.find?_append, firstInRun_eq, Span.cells, ih]

theorem rangeFault_none {s : State} {fp : List Span} :
    s.rangeFault fp = none ↔ ∀ ea ∈ spanCells fp, s.inRange ea = true := by
  simp [State.rangeFault, firstCell_eq, List.find?_eq_none]

/-- Both footprint checks pass exactly when every cell exists and is written. -/
theorem readFault_none {s : State} {fp : List Span} :
    s.readFault fp = none ↔ ∀ ea ∈ spanCells fp, s.inRange ea = true ∧ s.pmWritten ea = true := by
  simp only [State.readFault, Option.or_eq_none_iff, rangeFault_none]
  simp [State.uninitFault, firstCell_eq, List.find?_eq_none, forall_and]

/-- Cells that can be coded with pass the footprint check. -/
theorem readFault_none_of_readable {s : State} {fp : List Span} (h : s.readable (spanCells fp)) : s.readFault fp = none :=
  readFault_none.mpr fun ea hea => ⟨(h ea hea).1, (h ea hea).2.1⟩

/-- A footprint fault is PM_RANGE at a cell that does not exist, or UNINIT_MODEL at one that is unwritten. -/
theorem readFault_some {s : State} {fp : List Span} {r : Raise} (h : s.readFault fp = some r) :
    r.cause = .pmRange ∨ r.cause = .uninitModel := by
  rcases Option.or_eq_some_iff'.mp h with h | ⟨-, h⟩
  · left
    obtain ⟨ea, -, rfl⟩ := Option.map_eq_some_iff.mp h
    rfl
  · right
    obtain ⟨ea, -, rfl⟩ := Option.map_eq_some_iff.mp h
    rfl

/-- The cells of a tree are its nodes 1 .. 2^d - 1 (R180). -/
theorem mem_treeSpan {base ea : Word} {d : Nat} :
    ea ∈ spanCells (treeSpan base d) ↔ ∃ m, 1 ≤ m ∧ m < 2 ^ d ∧ ea = nodeCell base m := by
  have shift : ∀ k : Nat, base + 1#32 + BitVec.ofNat 32 k = base + BitVec.ofNat 32 (k + 1) := by
    intro k
    rw [BitVec.add_assoc]
    congr 1
    apply BitVec.eq_of_toNat_eq
    simp [BitVec.toNat_ofNat, Nat.add_comm]
  simp only [spanCells, treeSpan, List.flatMap_cons, List.flatMap_nil, List.append_nil, Span.cells, List.mem_map,
    List.mem_range, nodeCell, shift]
  constructor
  · rintro ⟨k, hk, rfl⟩
    exact ⟨k + 1, by omega, by omega, rfl⟩
  · rintro ⟨m, h1, h2, rfl⟩
    exact ⟨m - 1, by omega, by rw [Nat.sub_add_cancel h1]⟩

/-- The literal sub-coder's base cell, where LC and LP are legal (R230). -/
theorem litSub_eq {s : State} (h : s.legalLcLp) : s.litSub = s.litCell := by
  obtain ⟨h1, h2⟩ := h
  unfold State.litSub State.litCell State.subCoder State.prevByte
  rw [BitVec.ofNat_add, BitVec.ofNat_toNat, BitVec.setWidth_eq]
  congr 3
  rw [Nat.shiftLeft_eq, Nat.shiftLeft_eq, Nat.one_mul, Nat.and_two_pow_sub_one_eq_mod, Nat.shiftRight_eq_div_pow]
  simp [BitVec.extractLsb'_toNat]

theorem matchByte_toNat (s : State) : s.matchByte.toNat = s.c.toNat / 2 ^ 8 % 2 ^ 8 := by
  simp [State.matchByte, BitVec.extractLsb'_toNat, Nat.shiftRight_eq_div_pow]

theorem literal_toNat (s : State) : s.literal.toNat = s.c.toNat / 2 ^ 16 % 2 ^ 8 := by
  simp [State.literal, BitVec.extractLsb'_toNat, Nat.shiftRight_eq_div_pow]

theorem operandBit_eq (s : State) : s.operandBit = s.c.toNat.testBit 0 := by rw [State.operandBit, BitVec.testBit_toNat]

/-- Raising a fault writes the number of its cause (R280, R282). -/
theorem raise_eq_faulted (s : State) (r : Raise) : s.raise r = s.faulted r := by
  obtain ⟨c, x⟩ := r
  cases c <;> rfl

@[simp] theorem spanCells_append (fp fq : List Span) : spanCells (fp ++ fq) = spanCells fp ++ spanCells fq := by
  simp [spanCells]

@[simp] theorem spanCells_cellSpan (ea : Word) : spanCells (cellSpan ea) = [ea] := by
  simp [spanCells, cellSpan, Span.cells]

/-! ## The ports -/

/-- Everything a byte request can do. -/
theorem inByte_cases (s : State) :
    (∃ b rest, s.input.answers = .byte b :: rest ∧
        inByte s = .ok b { s with input := { s.input with answers := rest } }) ∨
      (∃ r p, portFault r ∧ inByte s = .raised r { s with input := p }) ∨ inByte s = .waiting .inByte s := by
  unfold inByte InPort.next
  split
  · exact .inr (.inr rfl)
  · rename_i b p h
    split at h
    · rename_i x rest h2
      simp only [Option.some.injEq, Prod.mk.injEq] at h
      obtain ⟨rfl, rfl⟩ := h
      exact .inl ⟨b, rest, h2, rfl⟩
    · split at h <;> simp at h
  · exact .inr (.inl ⟨_, _, .inl rfl, rfl⟩)
  · exact .inr (.inl ⟨_, _, .inr rfl, rfl⟩)

/-- A listed byte is returned and consumed (R66). -/
theorem inByte_byte {s : State} {b : Byte} {rest : List InAnswer} (h : s.input.answers = .byte b :: rest) :
    inByte s = .ok b { s with input := { s.input with answers := rest } } := by
  simp [inByte, InPort.next, h]

/-- A request that gets no byte does not complete, and this is what it leaves (R66, R331). -/
theorem inByte_noByte {s t : State} (h : noByte s t) : (inByte s).endsAt t := by
  unfold noByte at h
  unfold inByte InPort.next
  split at h
  · exact h.elim
  all_goals subst h
  all_goals simp only [*]
  · exact .inl ⟨_, _, rfl, (raise_eq_faulted _ _).symm⟩
  · exact .inl ⟨_, _, rfl, (raise_eq_faulted _ _).symm⟩
  · exact .inl ⟨_, _, rfl, (raise_eq_faulted _ _).symm⟩
  · exact .inl ⟨_, _, rfl, (raise_eq_faulted _ _).symm⟩
  · exact .inr ⟨_, _, rfl, rfl⟩

/-- A source has a byte to come, or a request gets none. -/
theorem byte_or_noByte (s : State) : (∃ b rest, s.input.answers = .byte b :: rest) ∨ ∃ t, noByte s t := by
  unfold noByte
  rcases h : s.input.answers with _ | ⟨_ | _ | _, rest⟩
  · cases s.input.last <;> exact .inr ⟨_, rfl⟩
  · exact .inl ⟨_, _, rfl⟩
  · exact .inr ⟨_, rfl⟩
  · exact .inr ⟨_, rfl⟩

/-- The next answer of a sink, and the sink after it. -/
theorem OutPort.next_eq (p : OutPort) :
    p.next = (p.answerAt 0).map fun x => (x, { p with answers := p.answers.drop 1 }) := by
  obtain ⟨answers, last⟩ := p
  cases answers <;> cases last <;> rfl

theorem OutPort.answerAt_drop (p : OutPort) (n k : Nat) :
    ({ p with answers := p.answers.drop n } : OutPort).answerAt k = p.answerAt (n + k) := by
  simp [OutPort.answerAt]

/-- A sink that accepts everything answers Ok to every request. -/
theorem answerAt_of_sinkAccepts {s : State} (h : s.sinkAccepts) (k : Nat) : s.sink.answerAt k = some .ok := by
  unfold OutPort.answerAt
  cases hk : s.sink.answers[k]? with
  | none => exact h.1
  | some x => rw [h.2 x (List.mem_of_getElem? hk)]; rfl

/-- An accepted byte is emitted and counted (R67). -/
theorem outByte_ok {s : State} (b : Byte) (h : s.sink.answerAt 0 = some .ok) :
    outByte b s = .ok ()
      { s with sink := { s.sink with answers := s.sink.answers.drop 1 }
               output := s.output ++ [.byte b], rePos := s.rePos + 1#64 } := by
  simp [outByte, OutPort.next_eq, h]

theorem outByte_err {s : State} (b : Byte) (h : s.sink.answerAt 0 = some .err) :
    outByte b s = .raised ⟨.ioError, 0#32⟩ { s with sink := { s.sink with answers := s.sink.answers.drop 1 } } := by
  simp [outByte, OutPort.next_eq, h]

theorem outByte_silent {s : State} (b : Byte) (h : s.sink.answerAt 0 = none) : outByte b s = .waiting (.outByte b) s := by
  simp [outByte, OutPort.next_eq, h]

/-- An accepted flush request is recorded (R67). -/
theorem outFlush_ok {s : State} (h : s.sink.answerAt 0 = some .ok) :
    outFlush s = .ok ()
      { s with sink := { s.sink with answers := s.sink.answers.drop 1 }, output := s.output ++ [.flush] } := by
  simp [outFlush, OutPort.next_eq, h]

theorem outFlush_err {s : State} (h : s.sink.answerAt 0 = some .err) :
    outFlush s = .raised ⟨.ioError, 0#32⟩ { s with sink := { s.sink with answers := s.sink.answers.drop 1 } } := by
  simp [outFlush, OutPort.next_eq, h]

theorem outFlush_silent {s : State} (h : s.sink.answerAt 0 = none) : outFlush s = .waiting .outFlush s := by
  simp [outFlush, OutPort.next_eq, h]

/-- Everything an offered byte can do. -/
theorem outByte_cases (b : Byte) (s : State) :
    (∃ p, outByte b s = .ok () { s with sink := p, output := s.output ++ [.byte b], rePos := s.rePos + 1#64 }) ∨
      (∃ r p, sinkFault r ∧ outByte b s = .raised r { s with sink := p }) ∨ outByte b s = .waiting (.outByte b) s := by
  unfold outByte
  split
  · exact .inr (.inr rfl)
  · exact .inl ⟨_, rfl⟩
  · exact .inr (.inl ⟨_, _, rfl, rfl⟩)

/-- Everything a flush request can do. -/
theorem outFlush_cases (s : State) :
    (∃ p, outFlush s = .ok () { s with sink := p, output := s.output ++ [.flush] }) ∨
      (∃ r p, sinkFault r ∧ outFlush s = .raised r { s with sink := p }) ∨ outFlush s = .waiting .outFlush s := by
  unfold outFlush
  split
  · exact .inr (.inr rfl)
  · exact .inl ⟨_, rfl⟩
  · exact .inr (.inl ⟨_, _, rfl, rfl⟩)

/-- It goes on accepting. -/
theorem sinkAccepts_drop (n : Nat) {s t : State} (h : s.sinkAccepts)
    (ht : t.sink = { s.sink with answers := s.sink.answers.drop n } := by rfl) : t.sinkAccepts := by
  rw [State.sinkAccepts, ht]
  exact ⟨h.1, fun x hx => h.2 x (List.mem_of_mem_drop hx)⟩

theorem inByte_onlyPorts (s : State) : (inByte s).onlyPorts := by
  rcases inByte_cases s with ⟨b, rest, -, h⟩ | ⟨r, p, hr, h⟩ | h <;> rw [h]
  · trivial
  · exact hr
  · trivial

theorem outByte_onlySink (b : Byte) (s : State) : (outByte b s).onlySink := by
  rcases outByte_cases b s with ⟨p, h⟩ | ⟨r, p, hr, h⟩ | h <;> rw [h]
  · trivial
  · exact hr
  · trivial

theorem outFlush_onlySink (s : State) : (outFlush s).onlySink := by
  rcases outFlush_cases s with ⟨p, h⟩ | ⟨r, p, hr, h⟩ | h <;> rw [h]
  · trivial
  · exact hr
  · trivial

end Sys2Proof.Machine
end

