-- ==== Sys2Proof/Laws/Decoder.lean ====
section
/-!
SUPPORT. What the range decoder's operations can do (41_range_decoder): their frames, the cells they write, the faults they raise, and the interval they leave.
-/

namespace Sys2Proof.Machine

/-! ## The decoder's frame -/

theorem decoderOnly.refl (s : State) : decoderOnly s s := rfl

theorem decoderOnly.trans {s t u : State} (h1 : decoderOnly s t) (h2 : decoderOnly t u) : decoderOnly s u := by
  unfold decoderOnly at *
  rw [h2, h1]

theorem inByte_frame (s : State) : decoderOnly s (inByte s).state ∧ (inByte s).state.pm = s.pm := by
  rcases inByte_cases s with ⟨b, rest, -, h⟩ | ⟨r, p, hr, h⟩ | h <;> rw [h] <;> exact ⟨rfl, rfl⟩

/-! ## Renormalisation (R131) -/

/-- Everything one round of the loop can do. -/
theorem decShift_cases (s : State) :
    (∃ b rest, s.input.answers = .byte b :: rest ∧
        decShift s = .ok ()
          { s with input := { s.input with answers := rest }
                   rdRange := s.rdRange <<< 8, rdCode := (s.rdCode <<< 8) ||| b.setWidth 32 }) ∨
      (∃ r p, portFault r ∧ decShift s = .raised r { s with input := p }) ∨ decShift s = .waiting .inByte s := by
  unfold decShift
  rcases inByte_cases s with ⟨b, rest, hin, h⟩ | ⟨r, p, hr, h⟩ | h
  · exact .inl ⟨b, rest, hin, by rw [h]; rfl⟩
  · exact .inr (.inl ⟨r, p, hr, by rw [h]; rfl⟩)
  · exact .inr (.inr (by rw [h]; rfl))

theorem decLoop_succ (fuel : Nat) (s : State) :
    decLoop (fuel + 1) s =
      if s.rdRange.toNat < 2 ^ 24 then (decShift s).bind fun _ s => decLoop fuel s else .ok () s := rfl

theorem decLoop_frame (fuel : Nat) (s : State) : decoderOnly s (decLoop fuel s).state ∧ (decLoop fuel s).state.pm = s.pm := by
  induction fuel generalizing s with
  | zero => exact ⟨rfl, rfl⟩
  | succ fuel ih =>
    rw [decLoop_succ]
    split
    · rcases decShift_cases s with ⟨b, rest, -, h⟩ | ⟨r, p, -, h⟩ | h <;> rw [h]
      · exact ⟨decoderOnly.trans (by rfl) (ih _).1, (ih _).2⟩
      · exact ⟨rfl, rfl⟩
      · exact ⟨rfl, rfl⟩
    · exact ⟨rfl, rfl⟩

theorem decLoop_onlyPorts (fuel : Nat) (s : State) : (decLoop fuel s).onlyPorts := by
  induction fuel generalizing s with
  | zero => trivial
  | succ fuel ih =>
    rw [decLoop_succ]
    split
    · rcases decShift_cases s with ⟨b, rest, -, h⟩ | ⟨r, p, hr, h⟩ | h <;> rw [h]
      · exact ih _
      · exact hr
      · trivial
    · trivial

/-- With one round more than the source has listed answers, the loop never runs out of fuel: more fuel changes nothing. -/
theorem decLoop_fuel {fuel : Nat} {s : State} (h : s.input.answers.length < fuel) :
    decLoop fuel s = decLoop (s.input.answers.length + 1) s := by
  induction fuel generalizing s with
  | zero => omega
  | succ fuel ih =>
    rw [decLoop_succ, decLoop_succ]
    split
    · rcases decShift_cases s with ⟨b, rest, hin, hs⟩ | ⟨r, p, -, hs⟩ | hs <;> rw [hs]
      · have hl : rest.length < s.input.answers.length := by simp [hin]
        simp only [Act.bind_ok]
        rw [ih (by simp; omega)]
        simp [hin]
      · rfl
      · rfl
    · rfl

/-- The loop ends only with RD_RANGE in [2^24, 2^32) (R134). -/
theorem decLoop_range {fuel : Nat} {s t : State} (hf : s.input.answers.length < fuel) (h : decLoop fuel s = .ok () t) :
    2 ^ 24 ≤ t.rdRange.toNat := by
  induction fuel generalizing s with
  | zero => omega
  | succ fuel ih =>
    rw [decLoop_succ] at h
    split at h
    · rcases decShift_cases s with ⟨b, rest, hin, hs⟩ | ⟨r, p, -, hs⟩ | hs <;> rw [hs] at h
      · exact ih (by simp only [hin, List.length_cons] at hf; simp only; omega) h
      · simp at h
      · simp at h
    · simp only [Act.ok.injEq, true_and] at h
      subst h
      omega

theorem decNormalize_frame (s : State) : decoderOnly s (decNormalize s).state ∧ (decNormalize s).state.pm = s.pm :=
  decLoop_frame _ s

theorem decNormalize_onlyPorts (s : State) : (decNormalize s).onlyPorts := decLoop_onlyPorts _ s

theorem decNormalize_range {s t : State} (h : decNormalize s = .ok () t) : 2 ^ 24 ≤ t.rdRange.toNat :=
  decLoop_range (Nat.lt_succ_self _) h

/-- Nothing to do while RD_RANGE is at least 2^24. -/
theorem decNormalize_of_le {s : State} (h : 2 ^ 24 ≤ s.rdRange.toNat) : decNormalize s = .ok () s := by
  rw [decNormalize, decLoop_succ, if_neg (by omega)]

/-- From 2^16 on, one round brings RD_RANGE to 2^24 or more, so the loop runs at most once, whatever the source
answers (R135). -/
theorem decNormalize_once {s : State} (h : 2 ^ 16 ≤ s.rdRange.toNat) : decNormalize s = decNormalizeOnce s := by
  unfold decNormalizeOnce
  split
  · next h2 =>
    rw [decNormalize, decLoop_succ, if_pos h2]
    rcases decShift_cases s with ⟨b, rest, hin, hs⟩ | ⟨r, p, -, hs⟩ | hs <;> rw [hs] <;> try rfl
    have hr : 2 ^ 24 ≤ (s.rdRange <<< 8).toNat := by
      rw [BitVec.toNat_shiftLeft, Nat.shiftLeft_eq, Nat.mod_eq_of_lt (by omega)]
      omega
    simp only [Act.bind_ok, hin, List.length_cons]
    rw [decLoop_succ, if_neg (by simp only; omega)]
  · exact decNormalize_of_le (by omega)

/-- One byte is enough from 2^16 on (R135). -/
theorem decNormalize_byte {s : State} {b : Byte} {rest : List InAnswer} (h1 : 2 ^ 16 ≤ s.rdRange.toNat)
    (h2 : s.rdRange.toNat < 2 ^ 24) (hin : s.input.answers = .byte b :: rest) :
    decNormalize s = .ok ()
      { s with input := { s.input with answers := rest }
               rdRange := s.rdRange <<< 8, rdCode := (s.rdCode <<< 8) ||| b.setWidth 32 } := by
  have hr : 2 ^ 24 ≤ (s.rdRange <<< 8).toNat := by
    rw [BitVec.toNat_shiftLeft, Nat.shiftLeft_eq, Nat.mod_eq_of_lt (by omega)]
    omega
  rw [decNormalize, decLoop_succ, if_pos h2, hin]
  rw [decShift, inByte_byte hin]
  simp only [Act.bind_ok, List.length_cons]
  rw [decLoop_succ, if_neg (by simp only; omega)]

/-- Everything renormalisation can do from 2^16 on: one round at most, which takes a byte or ends the command (R131, R135). -/
theorem decNormalize_ends {s : State} (h1 : 2 ^ 16 ≤ s.rdRange.toNat) :
    (∃ u, decNormalize s = .ok () u ∧ refilled s u ∧ u.decoderInterval ∧ ∀ n, s.hasBytes (n + 1) → u.hasBytes n) ∨
      (s.rdRange.toNat < 2 ^ 24 ∧ ∃ t, noByte s t ∧ (decNormalize s).endsAt t) := by
  by_cases h2 : s.rdRange.toNat < 2 ^ 24
  · rcases byte_or_noByte s with ⟨b, rest, h⟩ | ⟨t, h⟩
    · have hn := decNormalize_byte h1 h2 h
      refine .inl ⟨_, hn, .inr ⟨h2, b, rest, h, ?_⟩, decNormalize_range hn, fun n ⟨bs, rest', hin, hl⟩ => ?_⟩
      · simp only [State.mk.injEq, true_and, and_true]
        constructor <;> apply BitVec.eq_of_toNat_eq
        · simp [BitVec.toNat_shiftLeft, Nat.shiftLeft_eq]
        · have hb := b.isLt
          rw [BitVec.toNat_or, BitVec.toNat_setWidth, BitVec.toNat_shiftLeft, Nat.shiftLeft_eq,
            Nat.mod_eq_of_lt (a := b.toNat) (by omega)]
          rw [show s.rdCode.toNat * 2 ^ 8 % 2 ^ 32 = s.rdCode.toNat % 2 ^ 24 * 2 ^ 8 by omega, Nat.mul_comm _ (2 ^ 8),
            ← Nat.two_pow_add_eq_or_of_lt hb, BitVec.toNat_ofNat]
          omega
      · cases bs with
        | nil => simp at hl
        | cons c bs =>
          rw [h, List.map_cons, List.cons_append, List.cons.injEq] at hin
          exact ⟨bs, rest', hin.2, by simpa using hl⟩
    · refine .inr ⟨h2, t, h, ?_⟩
      rw [decNormalize_once h1, decNormalizeOnce, if_pos h2]
      exact Act.endsAt_bind (inByte_noByte h) _
  · exact .inl ⟨s, decNormalize_of_le (by omega), .inl ⟨by omega, rfl⟩, Nat.le_of_not_lt h2,
      fun n ⟨bs, rest, hin, hl⟩ => ⟨bs, rest, hin, by omega⟩⟩

theorem hasBytes_noByte {s t : State} {n : Nat} (h : s.hasBytes (n + 1)) : ¬ noByte s t := by
  obtain ⟨bs, rest, hin, hl⟩ := h
  cases bs with
  | nil => simp at hl
  | cons b bs => simp [noByte, hin]

/-! ## One bit (R132) -/

/-- Bit 0: RD_CODE is below the split point. -/
theorem decodeSplit_zero {ea : Word} {s : State} (h : s.rdCode.toNat < splitPoint s.rdRange (s.pmRead ea)) :
    decodeSplit ea s =
      (false, { s with rdRange := BitVec.ofNat 32 (splitPoint s.rdRange (s.pmRead ea)) }.update ea (s.pmRead ea) false) :=
  if_pos h

/-- Bit 1: RD_CODE is at or above the split point. -/
theorem decodeSplit_one {ea : Word} {s : State} (h : ¬ s.rdCode.toNat < splitPoint s.rdRange (s.pmRead ea)) :
    decodeSplit ea s =
      (true, { s with rdCode := s.rdCode - BitVec.ofNat 32 (splitPoint s.rdRange (s.pmRead ea))
                      rdRange := s.rdRange - BitVec.ofNat 32 (splitPoint s.rdRange (s.pmRead ea)) }.update
              ea (s.pmRead ea) true) :=
  if_neg h

/-- The bit DecodeBit returns: 0 exactly where RD_CODE is below the split point. -/
theorem decodeSplit_bit (ea : Word) (s : State) :
    (decodeSplit ea s).1 = decide (splitPoint s.rdRange (s.pmRead ea) ≤ s.rdCode.toNat) := by
  by_cases h : s.rdCode.toNat < splitPoint s.rdRange (s.pmRead ea)
  · rw [decodeSplit_zero h]
    simp [h]
  · rw [decodeSplit_one h]
    simpa using h

theorem decodeSplit_frame (ea : Word) (s : State) :
    decoderOnly s (decodeSplit ea s).2 ∧
      (decodeSplit ea s).2.pm = s.pm.set ea.toNat (adapt (s.pmRead ea) (decodeSplit ea s).1) ∧
      (decodeSplit ea s).2.input = s.input := by
  by_cases h : s.rdCode.toNat < splitPoint s.rdRange (s.pmRead ea)
  · rw [decodeSplit_zero h]
    exact ⟨rfl, rfl, rfl⟩
  · rw [decodeSplit_one h]
    exact ⟨rfl, rfl, rfl⟩

theorem decodeBit_frame (ea : Word) (s : State) :
    decoderOnly s (decodeBit ea s).state ∧
      (decodeBit ea s).state.pm = s.pm.set ea.toNat (adapt (s.pmRead ea) (decodeSplit ea s).1) := by
  have h1 := decodeSplit_frame ea s
  have h2 := decNormalize_frame (decodeSplit ea s).2
  unfold decodeBit
  cases h : decNormalize (decodeSplit ea s).2 <;> rw [h] at h2 <;>
    exact ⟨h1.1.trans h2.1, h2.2.trans h1.2.1⟩

/-- DecodeBit writes no cell but its own. -/
theorem decodeBit_agree (ea : Word) (s : State) : agreeOutside [ea] s.pm (decodeBit ea s).state.pm := by
  intro k hk
  rw [(decodeBit_frame ea s).2, Cells.get?_set_ne _ _ (fun h => hk ea (by simp) h.symm)]

theorem decodeBit_onlyPorts (ea : Word) (s : State) : (decodeBit ea s).onlyPorts :=
  Act.raises_bind (decNormalize_onlyPorts _) fun _ _ => trivial

theorem decodeBit_ok {ea : Word} {s t : State} {bit : Bool} (h : decodeBit ea s = .ok bit t) :
    bit = (decodeSplit ea s).1 ∧ decNormalize (decodeSplit ea s).2 = .ok () t := by
  obtain ⟨v, u, h1, h2⟩ := Act.bind_eq_ok.mp h
  simp only [Act.ok.injEq] at h2
  exact ⟨h2.1.symm, h2.2 ▸ h1⟩

theorem decodeBit_range {ea : Word} {s t : State} {bit : Bool} (h : decodeBit ea s = .ok bit t) :
    2 ^ 24 ≤ t.rdRange.toNat := decNormalize_range (decodeBit_ok h).2

/-! ## The split point and the update (R115, R116, R118) -/

/-- Both sub-intervals of a cell in [31, 2017] are wider than 2^16 (R118). -/
theorem splitPoint_bounds {range : Word} {p : Prob} (hr : 2 ^ 24 ≤ range.toNat) (h1 : 31 ≤ p.toNat)
    (h2 : p.toNat ≤ 2017) :
    2 ^ 13 * 31 ≤ splitPoint range p ∧ splitPoint range p + 2 ^ 13 * 31 ≤ range.toNat := by
  have hlt := range.isLt
  unfold splitPoint
  rw [BitVec.toNat_ushiftRight, Nat.shiftRight_eq_div_pow]
  have hq : 2 ^ 13 ≤ range.toNat / 2 ^ 11 := by omega
  have hm : range.toNat / 2 ^ 11 * 2048 ≤ range.toNat := by omega
  refine ⟨Nat.mul_le_mul hq h1, ?_⟩
  have : range.toNat / 2 ^ 11 * p.toNat + 2 ^ 13 * 31 ≤ range.toNat / 2 ^ 11 * 2048 := by
    have e : range.toNat / 2 ^ 11 * 2048 =
        range.toNat / 2 ^ 11 * p.toNat + range.toNat / 2 ^ 11 * (2048 - p.toNat) := by
      rw [← Nat.mul_add]
      congr 1
      omega
    rw [e]
    exact Nat.add_le_add_left (Nat.mul_le_mul hq (by omega)) _
  omega

/-- The update keeps a cell in [31, 2017] (R116). -/
theorem adapt_bounds {p : Prob} (bit : Bool) (h1 : 31 ≤ p.toNat) (h2 : p.toNat ≤ 2017) :
    31 ≤ (adapt p bit).toNat ∧ (adapt p bit).toNat ≤ 2017 := by
  unfold adapt
  cases bit
  · simp only [BitVec.toNat_ofNat, Nat.shiftRight_eq_div_pow, if_false, Bool.false_eq_true]
    rw [Nat.mod_eq_of_lt (by omega)]
    rcases Nat.lt_or_ge p.toNat 2017 with h | h <;> omega
  · simp only [BitVec.toNat_ofNat, Nat.shiftRight_eq_div_pow, if_true]
    rw [Nat.mod_eq_of_lt (by omega)]
    rcases Nat.lt_or_ge p.toNat 32 with h | h <;> omega

/-- The update in plain numbers (R115). -/
theorem adapt_eq (p : Prob) (bit : Bool) : adapt p bit = BitVec.ofNat 16 (adapted p.toNat bit) := by
  cases bit <;> simp [adapt, adapted, Nat.shiftRight_eq_div_pow]

/-- The split point in plain numbers, and that it stays inside the interval (R118). -/
theorem splitPoint_eq (range : Word) (p : Prob) : splitPoint range p = boundOf range.toNat p.toNat := by
  simp [splitPoint, boundOf, Nat.shiftRight_eq_div_pow]

theorem boundOf_le {range p : Nat} (h : p ≤ 2048) : boundOf range p ≤ range := by
  have h1 : range / 2 ^ 11 * p ≤ range / 2 ^ 11 * 2048 := Nat.mul_le_mul_left _ h
  unfold boundOf
  omega

/-- The interval DecodeBit leaves before renormalisation (R135). -/
theorem decodeSplit_wide {ea : Word} {s : State} (hr : 2 ^ 24 ≤ s.rdRange.toNat) (h1 : 31 ≤ (s.pmRead ea).toNat)
    (h2 : (s.pmRead ea).toNat ≤ 2017) : 2 ^ 13 * 31 ≤ (decodeSplit ea s).2.rdRange.toNat := by
  have hb := splitPoint_bounds hr h1 h2
  have hlt := s.rdRange.isLt
  by_cases h : s.rdCode.toNat < splitPoint s.rdRange (s.pmRead ea)
  · rw [decodeSplit_zero h]
    simp only [State.update_rdRange, BitVec.toNat_ofNat]
    omega
  · rw [decodeSplit_one h]
    simp only [State.update_rdRange, BitVec.toNat_sub, BitVec.toNat_ofNat]
    omega

/-- That interval is wider than 2^16 (R135). -/
theorem decodeSplit_range {ea : Word} {s : State} (hr : 2 ^ 24 ≤ s.rdRange.toNat) (h1 : 31 ≤ (s.pmRead ea).toNat)
    (h2 : (s.pmRead ea).toNat ≤ 2017) : 2 ^ 16 ≤ (decodeSplit ea s).2.rdRange.toNat := by
  have := decodeSplit_wide hr h1 h2
  omega

/-- A model bit renormalises in at most one round (R135). -/
theorem decodeBit_once {ea : Word} {s : State} (hr : s.decoderInterval) (hc : s.modelCell ea) :
    decodeBit ea s = (decNormalizeOnce (decodeSplit ea s).2).bind fun _ t => .ok (decodeSplit ea s).1 t := by
  rw [decodeBit, decNormalize_once (decodeSplit_range hr hc.2.2.1 hc.2.2.2)]

/-- The decision of DecodeBit in plain numbers. -/
theorem decodeSplit_taken {ea : Word} {s : State} (hp : (s.pmRead ea).toNat ≤ 2017) :
    bitFound (ea, (decodeSplit ea s).1) s ∧ (decodeSplit ea s).2 = bitTaken (ea, (decodeSplit ea s).1) s := by
  have hb : boundOf s.rdRange.toNat (s.pmRead ea).toNat ≤ s.rdRange.toNat := boundOf_le (by omega)
  have hlt := s.rdRange.isLt
  have hlt2 := s.rdCode.isLt
  refine ⟨by rw [bitFound, decodeSplit_bit, splitPoint_eq], ?_⟩
  by_cases hs : s.rdCode.toNat < splitPoint s.rdRange (s.pmRead ea)
  · rw [decodeSplit_zero hs]
    simp only [bitTaken, State.update, State.pmWrite, adapt_eq, splitPoint_eq, Bool.false_eq_true, if_false, BitVec.ofNat_toNat,
      BitVec.setWidth_eq]
  · rw [decodeSplit_one hs]
    rw [splitPoint_eq] at hs
    simp only [bitTaken, State.update, State.pmWrite, adapt_eq, splitPoint_eq, if_true, State.mk.injEq, true_and, and_true]
    constructor <;> apply BitVec.eq_of_toNat_eq <;> rw [BitVec.toNat_sub, BitVec.toNat_ofNat, BitVec.toNat_ofNat] <;> omega

/-- Everything DecodeBit can do with a cell in [31, 2017]: it finds its bit and completes, or asks for a byte that does not
come (R132). -/
theorem decodeBit_ends {ea : Word} {s : State} (hr : s.decoderInterval) (hc : s.modelCell ea) :
    ∃ bit, bitFound (ea, bit) s ∧
      ((∃ u, decodeBit ea s = .ok bit u ∧ refilled (bitTaken (ea, bit) s) u ∧ u.decoderInterval ∧
          ∀ n, s.hasBytes (n + 1) → u.hasBytes n) ∨
        ((bitTaken (ea, bit) s).rdRange.toNat < 2 ^ 24 ∧
          ∃ t, noByte (bitTaken (ea, bit) s) t ∧ (decodeBit ea s).endsAt t)) := by
  obtain ⟨h1, h2⟩ := decodeSplit_taken (ea := ea) (s := s) hc.2.2.2
  have hi := (decodeSplit_frame ea s).2.2
  refine ⟨_, h1, ?_⟩
  rw [← h2]
  rcases decNormalize_ends (decodeSplit_range hr hc.2.2.1 hc.2.2.2) with ⟨u, h, h3, h4, h5⟩ | ⟨h, t, h3, h4⟩
  · exact .inl ⟨u, by rw [decodeBit, h]; rfl, h3, h4, fun n hn => h5 n (by rw [State.hasBytes, hi]; exact hn)⟩
  · exact .inr ⟨h, t, h3, Act.endsAt_bind h4 _⟩

/-- DecodeBit completes where its cell is in [31, 2017] and a byte is to come, and this is all it does. -/
theorem decodeBit_completes {ea : Word} {s : State} {n : Nat} (hr : s.decoderInterval) (hc : s.modelCell ea)
    (hin : s.hasBytes (n + 1)) :
    ∃ bit u, decodeBit ea s = .ok bit u ∧ decodesBit (ea, bit) s u ∧ u.decoderInterval ∧ u.hasBytes n := by
  obtain ⟨bit, h1, ⟨u, h2, h3, h4, h5⟩ | ⟨-, t, h2, -⟩⟩ := decodeBit_ends hr hc
  · exact ⟨bit, u, h2, ⟨h1, h3⟩, h4, h5 n hin⟩
  · exact absurd h2 (hasBytes_noByte (n := n) hin)

/-! ## Direct bits (R133) -/

theorem directSplit_frame (s : State) :
    decoderOnly s (directSplit s).2 ∧ (directSplit s).2.pm = s.pm ∧ (directSplit s).2.input = s.input := ⟨rfl, rfl, rfl⟩

theorem decodeDirect_frame (n : Nat) (v : Word) (s : State) :
    decoderOnly s (decodeDirect n v s).state ∧ (decodeDirect n v s).state.pm = s.pm := by
  induction n generalizing v s with
  | zero => exact ⟨rfl, rfl⟩
  | succ n ih =>
    have h1 := directSplit_frame s
    have h2 := decNormalize_frame (directSplit s).2
    unfold decodeDirect
    cases h : decNormalize (directSplit s).2 <;> rw [h] at h2
    · exact ⟨(h1.1.trans h2.1).trans (ih _ _).1, (ih _ _).2.trans (h2.2.trans h1.2.1)⟩
    · exact ⟨h1.1.trans h2.1, h2.2.trans h1.2.1⟩
    · exact ⟨h1.1.trans h2.1, h2.2.trans h1.2.1⟩

theorem decodeDirect_onlyPorts (n : Nat) (v : Word) (s : State) : (decodeDirect n v s).onlyPorts := by
  induction n generalizing v s with
  | zero => trivial
  | succ n ih => exact Act.raises_bind (decNormalize_onlyPorts _) fun _ _ => ih _ _

theorem decodeDirect_range {n : Nat} {v w : Word} {s t : State} (hr : s.decoderInterval)
    (h : decodeDirect n v s = .ok w t) : t.decoderInterval := by
  induction n generalizing v s with
  | zero => simp only [decodeDirect, Act.ok.injEq] at h; exact h.2 ▸ hr
  | succ n ih =>
    obtain ⟨_, u, h1, h2⟩ := Act.bind_eq_ok.mp h
    exact ih (decNormalize_range h1) h2

/-- The interval one direct bit leaves before renormalisation (R135). -/
theorem directSplit_wide {s : State} (hr : s.decoderInterval) : 2 ^ 23 ≤ (directSplit s).2.rdRange.toNat := by
  have : 2 ^ 24 ≤ s.rdRange.toNat := hr
  simp only [directSplit, BitVec.toNat_ushiftRight, Nat.shiftRight_eq_div_pow]
  omega

theorem directSplit_range {s : State} (hr : s.decoderInterval) : 2 ^ 16 ≤ (directSplit s).2.rdRange.toNat := by
  have := directSplit_wide hr
  omega

/-- A direct bit renormalises in at most one round (R135). -/
theorem directBit_once {s : State} (hr : s.decoderInterval) :
    decNormalize (directSplit s).2 = decNormalizeOnce (directSplit s).2 := decNormalize_once (directSplit_range hr)

/-- The decision of one direct bit in plain numbers (R133). -/
theorem directSplit_taken (s : State) :
    ∃ bit : Bool, 1#32 - (directSplit s).1 = BitVec.ofNat 32 bit.toNat ∧ halfFound bit s ∧ (directSplit s).2 = halfTaken bit s := by
  have hlt := s.rdRange.isLt
  have hlt2 := s.rdCode.isLt
  have hh : (s.rdRange >>> 1).toNat = s.rdRange.toNat / 2 := by simp [Nat.shiftRight_eq_div_pow]
  have hrem : (s.rdCode - s.rdRange >>> 1).toNat = (s.rdCode.toNat + 2 ^ 32 - s.rdRange.toNat / 2) % 2 ^ 32 := by
    rw [BitVec.toNat_sub, hh]
    omega
  have ht : (directSplit s).1.toNat = (s.rdCode.toNat + 2 ^ 32 - s.rdRange.toNat / 2) % 2 ^ 32 / 2 ^ 31 := by
    simp only [directSplit, BitVec.toNat_ushiftRight, Nat.shiftRight_eq_div_pow, hrem]
  have hhalf : s.rdRange >>> 1 = BitVec.ofNat 32 (s.rdRange.toNat / 2) := by
    apply BitVec.eq_of_toNat_eq
    rw [hh, BitVec.toNat_ofNat]
    omega
  by_cases hb : (s.rdCode.toNat + 2 ^ 32 - s.rdRange.toNat / 2) % 2 ^ 32 < 2 ^ 31
  · have h0 : (directSplit s).1 = 0#32 := by
      apply BitVec.eq_of_toNat_eq
      rw [ht, Nat.div_eq_of_lt hb]
      rfl
    refine ⟨true, by rw [h0]; rfl, (decide_eq_true hb).symm, ?_⟩
    have e : (directSplit s).2 = { s with rdRange := s.rdRange >>> 1, rdCode := s.rdCode - (s.rdRange >>> 1) } := by
      have h0' : (s.rdCode - s.rdRange >>> 1) >>> 31 = 0#32 := h0
      simp only [directSplit, h0']
      congr 2
      exact BitVec.and_allOnes
    rw [e, hhalf]
    simp only [halfTaken, if_true, State.mk.injEq, true_and, and_true]
    rw [← hhalf]
    apply BitVec.eq_of_toNat_eq
    rw [hrem, BitVec.toNat_ofNat]
    omega
  · have h1 : (directSplit s).1 = 1#32 := by
      apply BitVec.eq_of_toNat_eq
      rw [ht]
      simp only [BitVec.toNat_ofNat]
      omega
    refine ⟨false, by rw [h1]; rfl, (decide_eq_false hb).symm, ?_⟩
    have e : (directSplit s).2 = { s with rdRange := s.rdRange >>> 1 } := by
      have h1' : (s.rdCode - s.rdRange >>> 1) >>> 31 = 1#32 := h1
      simp only [directSplit, h1']
      congr 1
      simp
    rw [e, hhalf]
    simp only [halfTaken, Bool.false_eq_true, if_false, BitVec.ofNat_toNat, BitVec.setWidth_eq]

/-- Everything one direct bit can do: it is found, and a byte that is asked for comes or does not (R133). -/
theorem directBit_ends {s : State} (hr : s.decoderInterval) :
    ∃ bit : Bool, 1#32 - (directSplit s).1 = BitVec.ofNat 32 bit.toNat ∧ halfFound bit s ∧
      ((∃ u, decNormalize (directSplit s).2 = .ok () u ∧ refilled (halfTaken bit s) u ∧ u.decoderInterval ∧
          ∀ n, s.hasBytes (n + 1) → u.hasBytes n) ∨
        ((halfTaken bit s).rdRange.toNat < 2 ^ 24 ∧
          ∃ t, noByte (halfTaken bit s) t ∧ (decNormalize (directSplit s).2).endsAt t)) := by
  obtain ⟨bit, h1, h2, h3⟩ := directSplit_taken s
  refine ⟨bit, h1, h2, ?_⟩
  rw [← h3]
  exact decNormalize_ends (directSplit_range hr)

theorem bitsValue_append (bits : List Bool) (v : Nat) :
    bits.foldl (fun v b => 2 * v + b.toNat) v = v * 2 ^ bits.length + bitsValue bits := by
  induction bits generalizing v with
  | nil => simp [bitsValue]
  | cons b bits ih =>
    simp only [bitsValue, List.foldl_cons, List.length_cons] at ih ⊢
    rw [ih, ih (2 * 0 + b.toNat), Nat.pow_succ]
    ring

/-- The value after one more direct bit. -/
theorem direct_push {s : State} {v : Nat} {b : Bool} (h : 1#32 - (directSplit s).1 = BitVec.ofNat 32 b.toNat) :
    (BitVec.ofNat 32 v <<< 1) ||| (1#32 - (directSplit s).1) = BitVec.ofNat 32 (2 * v + b.toNat) := by
  rw [h]
  apply BitVec.eq_of_toNat_eq
  have hb : b.toNat < 2 ^ 1 := by cases b <;> simp
  rw [BitVec.toNat_or, BitVec.toNat_shiftLeft, Nat.shiftLeft_eq]
  simp only [BitVec.toNat_ofNat]
  rw [Nat.mod_eq_of_lt (a := b.toNat) (by omega),
    show v % 2 ^ 32 * 2 ^ 1 % 2 ^ 32 = 2 ^ 1 * (v % 2 ^ 31) by omega, ← Nat.two_pow_add_eq_or_of_lt hb]
  omega

/-- Everything n direct bits can do: they complete, or one asks for a byte that does not come (R133). -/
theorem decodeDirect_ends {n : Nat} {v : Nat} {s : State} (hr : s.decoderInterval) :
    ∃ bits, bits.length = n ∧
      ((∃ u, decodeDirect n (BitVec.ofNat 32 v) s = .ok (BitVec.ofNat 32 (v * 2 ^ n + bitsValue bits)) u ∧
          decodesHalves bits s u ∧ u.decoderInterval ∧ ∀ k, s.hasBytes (n + k) → u.hasBytes k) ∨
        ((¬ s.hasBytes n) ∧
          ∃ t, decodeStarves halfFound halfTaken bits s t ∧ (decodeDirect n (BitVec.ofNat 32 v) s).endsAt t)) := by
  induction n generalizing v s with
  | zero => exact ⟨[], rfl, .inl ⟨s, by simp [decodeDirect, bitsValue], rfl, hr, fun k hk => by simpa using hk⟩⟩
  | succ n ih =>
    obtain ⟨b, h1, h2, ⟨u, h3, h4, h5, h6⟩ | ⟨h3, t, h4, h5⟩⟩ := directBit_ends hr
    · obtain ⟨bits, hl, h⟩ := ih (v := 2 * v + b.toNat) h5
      refine ⟨b :: bits, by simp [hl], ?_⟩
      rcases h with ⟨w, h7, h8, h9, h10⟩ | ⟨h7, t, h8, h9⟩
      · refine .inl ⟨w, ?_, ⟨u, ⟨h2, h4⟩, h8⟩, h9, fun k hk => h10 k (h6 _ (by convert hk using 1; omega))⟩
        rw [decodeDirect, h3, Act.bind_ok, direct_push h1, h7]
        congr 2
        have := bitsValue_append bits (2 * 0 + b.toNat)
        simp only [bitsValue, List.foldl_cons] at this ⊢
        rw [this, hl, Nat.pow_succ]
        ring
      · refine .inr ⟨fun hn => h7 (h6 n hn), t, ⟨h2, .inr ⟨u, h4, h8⟩⟩, ?_⟩
        rw [decodeDirect]
        refine Act.bind_endsAt h3 ?_
        rw [direct_push h1]
        exact h9
    · exact ⟨b :: List.replicate n false, by simp, .inr ⟨fun hn => hasBytes_noByte (s := halfTaken b s) hn h4, t,
        ⟨h2, .inl ⟨h3, h4⟩⟩, Act.endsAt_bind h5 _⟩⟩

/-- n direct bits complete where n bytes are to come, and this is all they do (R133). -/
theorem decodeDirect_completes {n : Nat} {v : Nat} {s : State} {k : Nat} (hr : s.decoderInterval) (hin : s.hasBytes (n + k)) :
    ∃ bits u, bits.length = n ∧ decodeDirect n (BitVec.ofNat 32 v) s = .ok (BitVec.ofNat 32 (v * 2 ^ n + bitsValue bits)) u ∧
      decodesHalves bits s u ∧ u.decoderInterval ∧ u.hasBytes k := by
  obtain ⟨bits, hl, ⟨u, h1, h2, h3, h4⟩ | ⟨h1, -⟩⟩ := decodeDirect_ends (n := n) (v := v) hr
  · exact ⟨bits, u, hl, h1, h2, h3, h4 k hin⟩
  · obtain ⟨bs, rest, hb, hle⟩ := hin
    exact absurd ⟨bs, rest, hb, by omega⟩ h1

/-! ## The start (R130) -/

theorem seedCode_frame (n : Nat) (code : Word) (s : State) :
    (seedCode n code s).state = { s with input := (seedCode n code s).state.input } := by
  induction n generalizing code s with
  | zero => rfl
  | succ n ih =>
    unfold seedCode
    rcases inByte_cases s with ⟨b, rest, -, h⟩ | ⟨r, p, -, h⟩ | h <;> rw [h]
    · simp only [Act.bind_ok]
      rw [ih]
    · rfl
    · rfl

/-- Where the source has fewer than n bytes to come, reading n of them does not complete, and only the input differs then
(R130). -/
theorem seedCode_ends {n : Nat} {code : Word} {s t : State} {bs : List Byte} {rest : List InAnswer} (hl : bs.length < n)
    (hin : s.input.answers = bs.map .byte ++ rest) (h : noByte { s with input := { s.input with answers := rest } } t) :
    (seedCode n code s).endsAt t := by
  induction n generalizing code s bs with
  | zero => omega
  | succ n ih =>
    unfold seedCode
    cases bs with
    | nil =>
      rw [List.map_nil, List.nil_append] at hin
      have e : { s with input := { s.input with answers := rest } } = s := by rw [← hin]
      exact Act.endsAt_bind (inByte_noByte (e ▸ h)) _
    | cons b bs =>
      exact Act.bind_endsAt (inByte_byte (by simpa using hin)) (ih (by simpa using hl) rfl h)

theorem seedCode_onlyPorts (n : Nat) (code : Word) (s : State) : (seedCode n code s).onlyPorts := by
  induction n generalizing code s with
  | zero => trivial
  | succ n ih => exact Act.raises_bind (inByte_onlyPorts _) fun _ _ => ih _ _

end Sys2Proof.Machine
end

