-- ==== Sys2Proof/Laws/Encoder.lean ====
section
/-!
SUPPORT. What the range encoder's operations can do (42_range_encoder): their frames, the cells they write, the bytes ShiftLow emits, and the interval they leave.
-/

namespace Sys2Proof.Machine

/-! ## The encoder's frame -/

theorem encoderOnly.refl (s : State) : encoderOnly s s := rfl

theorem encoderOnly.trans {s t u : State} (h1 : encoderOnly s t) (h2 : encoderOnly t u) : encoderOnly s u := by
  unfold encoderOnly at *
  rw [h2, h1]

/-- The encoder's frame, PM unchanged as well. -/
def portOnly (s t : State) : Prop := encoderOnly s t ∧ t.pm = s.pm

theorem portOnly.refl (s : State) : portOnly s s := ⟨rfl, rfl⟩

theorem portOnly.trans {s t u : State} (h1 : portOnly s t) (h2 : portOnly t u) : portOnly s u :=
  ⟨h1.1.trans h2.1, h2.2.trans h1.2⟩

theorem outByte_frame (b : Byte) (s : State) : portOnly s (outByte b s).state := by
  rcases outByte_cases b s with ⟨p, h⟩ | ⟨r, p, hr, h⟩ | h <;> rw [h] <;> exact ⟨rfl, rfl⟩

theorem outFlush_frame (s : State) : portOnly s (outFlush s).state := by
  rcases outFlush_cases s with ⟨p, h⟩ | ⟨r, p, hr, h⟩ | h <;> rw [h] <;> exact ⟨rfl, rfl⟩

/-! ## ShiftLow (R152) -/

theorem outBytes_frame (b : Byte) (n : Nat) (s : State) : portOnly s (outBytes b n s).state := by
  induction n generalizing s with
  | zero => exact portOnly.refl s
  | succ n ih =>
    unfold outBytes
    exact Act.bind_state (R := portOnly) portOnly.trans (outByte_frame b s) fun _ t _ => ih t

theorem outBytes_onlySink (b : Byte) (n : Nat) (s : State) : (outBytes b n s).onlySink := by
  induction n generalizing s with
  | zero => trivial
  | succ n ih => exact Act.raises_bind (outByte_onlySink b s) fun _ _ => ih _

theorem emitPending_frame (s : State) : portOnly s (emitPending s).state := by
  unfold emitPending
  refine Act.bind_state (R := portOnly) portOnly.trans (outByte_frame _ s) fun _ t _ => ?_
  exact Act.bind_state (R := portOnly) portOnly.trans (outBytes_frame _ _ t) fun _ u _ => ⟨rfl, rfl⟩

theorem shiftLow_frame (s : State) : portOnly s (shiftLow s).state := by
  unfold shiftLow
  refine Act.bind_state (R := portOnly) portOnly.trans ?_ fun _ t _ => ⟨rfl, rfl⟩
  split
  · exact emitPending_frame s
  · exact portOnly.refl s

theorem shiftLow_onlySink (s : State) : (shiftLow s).onlySink := by
  unfold shiftLow
  refine Act.raises_bind ?_ fun _ _ => trivial
  split
  · exact Act.raises_bind (outByte_onlySink _ _) fun _ _ =>
      Act.raises_bind (outBytes_onlySink _ _ _) fun _ _ => trivial
  · trivial

/-- The port operations leave the interval alone, whatever the sink answers. -/
def sameInterval (s t : State) : Prop := t.reRange = s.reRange ∧ t.reLow = s.reLow

theorem sameInterval.trans {s t u : State} (h1 : sameInterval s t) (h2 : sameInterval t u) : sameInterval s u :=
  ⟨h2.1.trans h1.1, h2.2.trans h1.2⟩

theorem outByte_interval (b : Byte) (s : State) : sameInterval s (outByte b s).state := by
  rcases outByte_cases b s with ⟨p, h⟩ | ⟨r, p, hr, h⟩ | h <;> rw [h] <;> exact ⟨rfl, rfl⟩

theorem outBytes_interval (b : Byte) (n : Nat) (s : State) : sameInterval s (outBytes b n s).state := by
  induction n generalizing s with
  | zero => exact ⟨rfl, rfl⟩
  | succ n ih =>
    unfold outBytes
    exact Act.bind_state (R := sameInterval) sameInterval.trans (outByte_interval b s) fun _ t _ => ih t

theorem emitPending_interval (s : State) : sameInterval s (emitPending s).state := by
  unfold emitPending
  refine Act.bind_state (R := sameInterval) sameInterval.trans (outByte_interval _ s) fun _ t _ => ?_
  exact Act.bind_state (R := sameInterval) sameInterval.trans (outBytes_interval _ _ t) fun _ u _ => ⟨rfl, rfl⟩

/-- What a completed ShiftLow leaves of the interval: RE_RANGE, and RE_LOW with its top byte and carry moved out. -/
theorem shiftLow_ok {s t : State} (h : shiftLow s = .ok () t) :
    t.reRange = s.reRange ∧ t.reLow.toNat = s.reLow.toNat % 2 ^ 24 * 2 ^ 8 := by
  obtain ⟨v, u, h1, h2⟩ := Act.bind_eq_ok.mp h
  simp only [Act.ok.injEq, true_and] at h2
  subst h2
  have hu : sameInterval s u := by
    split at h1
    · have := emitPending_interval s
      rwa [h1] at this
    · simp only [Act.ok.injEq, true_and] at h1
      subst h1
      exact ⟨rfl, rfl⟩
  refine ⟨hu.1, ?_⟩
  have hlt := s.reLow.isLt
  simp only [hu.2, BitVec.toNat_and, BitVec.toNat_shiftLeft, BitVec.toNat_ofNat, Nat.shiftLeft_eq]
  rw [show 0xFFFFFFFF % 2 ^ 33 = 2 ^ 32 - 1 from rfl, Nat.and_two_pow_sub_one_eq_mod]
  omega

/-- The carry as a number. -/
theorem carry_toNat (s : State) : s.carry.toNat = s.reLow.toNat / 2 ^ 32 := by
  have h := s.reLow.isLt
  simp only [State.carry, BitVec.toNat_setWidth, BitVec.toNat_ushiftRight, Nat.shiftRight_eq_div_pow]
  omega

/-- Offer these bytes to the sink, in order. -/
def offerAll : List Byte → State → Act Unit
  | [], s => .ok () s
  | b :: bs, s => (outByte b s).bind fun _ s => offerAll bs s

/-- The state after these bytes are accepted: emitted and counted (R67, R159). -/
def State.took (s : State) (bs : List Byte) : State :=
  { s with
    sink := { s.sink with answers := s.sink.answers.drop bs.length }
    output := s.output ++ bs.map .byte, rePos := BitVec.ofNat 64 (s.rePos.toNat + bs.length) }

theorem took_nil (s : State) : s.took [] = s := by simp [State.took]

theorem took_cons (s : State) (b : Byte) (bs : List Byte) :
    State.took { s with sink := { s.sink with answers := s.sink.answers.drop 1 }
                        output := s.output ++ [.byte b], rePos := s.rePos + 1#64 } bs = s.took (b :: bs) := by
  simp only [State.took, List.drop_drop, List.length_cons, List.map_cons, List.append_assoc, List.cons_append,
    List.nil_append, State.mk.injEq, true_and, and_true]
  refine ⟨?_, by rw [Nat.add_comm]⟩
  apply BitVec.eq_of_toNat_eq
  simp only [BitVec.toNat_add, BitVec.toNat_ofNat]
  omega

/-- Bytes the sink accepts are taken. -/
theorem offerAll_ok {bs : List Byte} {s : State} (h : ∀ k < bs.length, s.sink.answerAt k = some .ok) :
    offerAll bs s = .ok () (s.took bs) := by
  induction bs generalizing s with
  | nil => rw [took_nil]; rfl
  | cons b bs ih =>
    rw [offerAll, outByte_ok b (h 0 (by simp)), Act.bind_ok, ih, took_cons]
    intro k hk
    rw [OutPort.answerAt_drop, Nat.add_comm]
    exact h _ (by simpa using hk)

/-- Bytes up to one that is refused or never answered (R67, R331). -/
theorem offerAll_stop {bs : List Byte} {s : State} {k : Nat} {b : Byte} (hb : bs[k]? = some b)
    (h : ∀ j < k, s.sink.answerAt j = some .ok) :
    (s.sink.answerAt k = some .err → offerAll bs s = .raised ⟨.ioError, 0#32⟩
      { s.took (bs.take k) with sink := { s.sink with answers := s.sink.answers.drop (k + 1) } }) ∧
    (s.sink.answerAt k = none → offerAll bs s = .waiting (.outByte b) (s.took (bs.take k))) := by
  induction bs generalizing s k with
  | nil => simp at hb
  | cons c bs ih =>
    cases k with
    | zero =>
      simp only [List.getElem?_cons_zero, Option.some.injEq] at hb
      subst hb
      rw [List.take_zero, took_nil, offerAll]
      exact ⟨fun he => by rw [outByte_err c he]; rfl, fun he => by rw [outByte_silent c he]; rfl⟩
    | succ k =>
      have step := ih (s := { s with
        sink := { s.sink with answers := s.sink.answers.drop 1 }
        output := s.output ++ [.byte c], rePos := s.rePos + 1#64 }) (k := k) (by simpa using hb)
        (fun j hj => by rw [OutPort.answerAt_drop, Nat.add_comm]; exact h _ (by omega))
      rw [OutPort.answerAt_drop, Nat.add_comm 1 k, took_cons] at step
      rw [offerAll, outByte_ok c (h 0 (by omega)), Act.bind_ok, List.take_succ_cons]
      refine ⟨fun he => (step.1 he).trans ?_, step.2⟩
      simp only [List.drop_drop, Nat.add_comm 1]

theorem outBytes_eq (b : Byte) (n : Nat) (s : State) : outBytes b n s = offerAll (List.replicate n b) s := by
  induction n generalizing s with
  | zero => rfl
  | succ n ih => simp only [outBytes, List.replicate_succ, offerAll, ih]

/-- What ShiftLow does once its bytes are accepted. -/
def shiftEnd (s u : State) : State :=
  { u with
    reCache := if s.leavingBytes = [] then u.reCache else (s.reLow >>> 24).setWidth 8
    reCacheSize := (if s.leavingBytes = [] then u.reCacheSize else 0#64) + 1#64
    reLow := (u.reLow <<< 8) &&& 0xFFFFFFFF#33 }

/-- ShiftLow offers its bytes and then updates its registers (R152). -/
theorem shiftLow_eq (s : State) : shiftLow s = (offerAll s.leavingBytes s).bind fun _ u => .ok () (shiftEnd s u) := by
  have hc := carry_toNat s
  have hlt := s.reLow.isLt
  have hne : s.carry ≠ 0#8 ↔ s.reLow.toNat / 2 ^ 32 ≠ 0 := by
    rw [← hc, Ne, Ne, ← BitVec.toNat_inj]
    simp
  have hcar : s.carry = BitVec.ofNat 8 (s.reLow.toNat / 2 ^ 32) := by
    apply BitVec.eq_of_toNat_eq
    rw [hc, BitVec.toNat_ofNat]
    omega
  unfold shiftLow shiftEnd State.leavingBytes
  by_cases ht : s.reLow.toNat / 2 ^ 32 ≠ 0 ∨ s.reLow.toNat < 0xFF000000
  · rw [if_pos (ht.imp hne.mpr id)]
    simp only [if_pos ht, reduceCtorEq, if_false]
    simp only [emitPending, outBytes_eq, offerAll, Act.bind_assoc, Act.bind_ok, hcar, BitVec.ofNat_add, BitVec.ofNat_toNat,
      BitVec.setWidth_eq]
  · rw [if_neg (fun h => ht (h.imp hne.mp id))]
    simp only [if_neg ht, offerAll, Act.bind_ok, if_true]

/-- Where the sink accepts its bytes ShiftLow completes, and this is all it does (R152). -/
theorem shiftLow_ok_of_accepted {s : State} (h : s.shiftAccepted) : shiftLow s = .ok () s.shifted := by
  have hlow : (s.reLow <<< 8) &&& 0xFFFFFFFF#33 = BitVec.ofNat 33 (s.reLow.toNat % 2 ^ 24 * 2 ^ 8) := by
    have hlt := s.reLow.isLt
    apply BitVec.eq_of_toNat_eq
    simp only [BitVec.toNat_and, BitVec.toNat_shiftLeft, BitVec.toNat_ofNat, Nat.shiftLeft_eq]
    rw [show 0xFFFFFFFF % 2 ^ 33 = 2 ^ 32 - 1 from rfl, Nat.and_two_pow_sub_one_eq_mod]
    omega
  rw [shiftLow_eq, offerAll_ok h, Act.bind_ok]
  congr 1
  simp only [shiftEnd, State.took, State.shifted, State.mk.injEq, true_and, and_true]
  refine ⟨hlow, ?_, ?_⟩
  · split
    · rfl
    · apply BitVec.eq_of_toNat_eq
      simp only [BitVec.toNat_setWidth, BitVec.toNat_ushiftRight, Nat.shiftRight_eq_div_pow, BitVec.toNat_ofNat]
  · split
    · apply BitVec.eq_of_toNat_eq
      simp [BitVec.toNat_add, BitVec.toNat_ofNat]
    · rfl

/-- Where the sink refuses one of its bytes, or never answers it, ShiftLow ends there (R152, R284). -/
theorem shiftLow_stops {s t : State} (h : shiftStops s t) : (shiftLow s).endsAt t := by
  obtain ⟨k, b, hb, hk, h⟩ := h
  have ho := offerAll_stop hb hk
  have hlen : (s.leavingBytes.take k).length = k := by
    have := (List.getElem?_eq_some_iff.mp hb).1
    rw [List.length_take]
    omega
  have he : s.took (s.leavingBytes.take k) = s.emitted k := by rw [State.took, State.emitted, hlen]
  rw [he] at ho
  rw [shiftLow_eq]
  refine Act.endsAt_bind ?_ _
  rcases h with ⟨ha, rfl⟩ | ⟨ha, rfl⟩
  · exact .inl ⟨_, _, ho.1 ha, (raise_eq_faulted _ _).symm⟩
  · exact .inr ⟨_, _, ho.2 ha, rfl⟩

theorem shiftAccepted_of_sinkAccepts {s : State} (h : s.sinkAccepts) : s.shiftAccepted := fun k _ => answerAt_of_sinkAccepts h k

/-- Every ShiftLow is accepted or ends its command. -/
theorem shift_accepted_or_stops (s : State) : s.shiftAccepted ∨ ∃ t, shiftStops s t := by
  have key : ∀ n ≤ s.leavingBytes.length, (∀ k < n, s.sink.answerAt k = some .ok) ∨ ∃ t, shiftStops s t := by
    intro n
    induction n with
    | zero => exact fun _ => .inl fun k hk => absurd hk (Nat.not_lt_zero k)
    | succ n ih =>
      intro hn
      rcases ih (by omega) with h | h
      · have hb := List.getElem?_eq_getElem (l := s.leavingBytes) (i := n) (by omega)
        rcases ha : s.sink.answerAt n with _ | _ | _
        · exact .inr ⟨_, n, _, hb, h, .inr ⟨ha, rfl⟩⟩
        · refine .inl fun k hk => ?_
          rcases Nat.lt_succ_iff_lt_or_eq.mp hk with h' | rfl
          · exact h k h'
          · exact ha
        · exact .inr ⟨_, n, _, hb, h, .inl ⟨ha, rfl⟩⟩
      · exact .inr h
  exact key _ (Nat.le_refl _)

theorem sinkAccepts_shifted {s : State} (h : s.sinkAccepts) : s.shifted.sinkAccepts := sinkAccepts_drop _ h

/-! ## Renormalisation (R151) -/

theorem encNormalize_frame (s : State) : portOnly s (encNormalize s).state := by
  unfold encNormalize
  split
  · exact portOnly.trans (t := { s with reRange := s.reRange <<< 8 }) ⟨rfl, rfl⟩ (shiftLow_frame _)
  · exact portOnly.refl s

theorem encNormalize_onlySink (s : State) : (encNormalize s).onlySink := by
  unfold encNormalize
  split
  · exact shiftLow_onlySink _
  · trivial

/-- From 2^16 on, one shift is enough, and the interval stays below 2^33 (R153). -/
theorem encNormalize_interval {s t : State} (h1 : 2 ^ 16 ≤ s.reRange.toNat)
    (h2 : s.reLow.toNat + s.reRange.toNat < 2 ^ 33) (h : encNormalize s = .ok () t) :
    2 ^ 24 ≤ t.reRange.toNat ∧ t.reLow.toNat + t.reRange.toNat < 2 ^ 33 := by
  unfold encNormalize at h
  split at h
  · rename_i h3
    have := shiftLow_ok h
    have hlt := t.reRange.isLt
    rw [this.2, this.1]
    rw [this.1] at hlt
    simp only [BitVec.toNat_shiftLeft, Nat.shiftLeft_eq] at hlt ⊢
    omega
  · simp only [Act.ok.injEq, true_and] at h
    subst h
    omega

theorem reRange_shift (s : State) : s.reRange <<< 8 = BitVec.ofNat 32 (s.reRange.toNat * 2 ^ 8) := by
  apply BitVec.eq_of_toNat_eq
  simp [BitVec.toNat_shiftLeft, Nat.shiftLeft_eq]

/-- Where the ShiftLow it may run is accepted, renormalisation completes, and this is all it does (R151). -/
theorem encNormalize_ok {s : State} (h : s.reRange.toNat < 2 ^ 24 → s.shiftAccepted) :
    encNormalize s = .ok () s.renormalised := by
  unfold encNormalize State.renormalised
  split
  · rw [reRange_shift]
    exact shiftLow_ok_of_accepted (h ‹_›)
  · rfl

/-- Where that ShiftLow ends the command, so does renormalisation (R151). -/
theorem encNormalize_stops {s t : State} (h1 : s.reRange.toNat < 2 ^ 24)
    (h2 : shiftStops { s with reRange := BitVec.ofNat 32 (s.reRange.toNat * 2 ^ 8) } t) : (encNormalize s).endsAt t := by
  rw [encNormalize, if_pos h1, reRange_shift]
  exact shiftLow_stops h2

theorem sinkAccepts_renormalised {s : State} (h : s.sinkAccepts) : s.renormalised.sinkAccepts := by
  unfold State.renormalised
  split
  · exact sinkAccepts_shifted h
  · exact h

/-! ## One bit (R154) -/

theorem encodeSplit_zero (ea : Word) (s : State) :
    encodeSplit ea false s =
      { s with reRange := BitVec.ofNat 32 (splitPoint s.reRange (s.pmRead ea)) }.update ea (s.pmRead ea) false := rfl

theorem encodeSplit_one (ea : Word) (s : State) :
    encodeSplit ea true s =
      { s with reLow := s.reLow + BitVec.ofNat 33 (splitPoint s.reRange (s.pmRead ea))
               reRange := s.reRange - BitVec.ofNat 32 (splitPoint s.reRange (s.pmRead ea)) }.update
        ea (s.pmRead ea) true := rfl

theorem encodeSplit_frame (ea : Word) (bit : Bool) (s : State) :
    encoderOnly s (encodeSplit ea bit s) ∧
      (encodeSplit ea bit s).pm = s.pm.set ea.toNat (adapt (s.pmRead ea) bit) ∧
      (encodeSplit ea bit s).sink = s.sink := by
  cases bit <;> exact ⟨rfl, rfl, rfl⟩

theorem encodeBit_frame (ea : Word) (bit : Bool) (s : State) :
    encoderOnly s (encodeBit ea bit s).state ∧
      (encodeBit ea bit s).state.pm = s.pm.set ea.toNat (adapt (s.pmRead ea) bit) := by
  have h1 := encodeSplit_frame ea bit s
  have h2 := encNormalize_frame (encodeSplit ea bit s)
  exact ⟨h1.1.trans h2.1, h2.2.trans h1.2.1⟩

/-- EncodeBit writes no cell but its own. -/
theorem encodeBit_agree (ea : Word) (bit : Bool) (s : State) : agreeOutside [ea] s.pm (encodeBit ea bit s).state.pm := by
  intro k hk
  rw [(encodeBit_frame ea bit s).2, Cells.get?_set_ne _ _ (fun h => hk ea (by simp) h.symm)]

theorem encodeBit_onlySink (ea : Word) (bit : Bool) (s : State) : (encodeBit ea bit s).onlySink :=
  encNormalize_onlySink _

/-- The interval EncodeBit leaves before renormalisation (R153). -/
theorem encodeSplit_interval {ea : Word} (bit : Bool) {s : State} (hr : 2 ^ 24 ≤ s.reRange.toNat)
    (hl : s.reLow.toNat + s.reRange.toNat < 2 ^ 33) (h1 : 31 ≤ (s.pmRead ea).toNat) (h2 : (s.pmRead ea).toNat ≤ 2017) :
    2 ^ 16 ≤ (encodeSplit ea bit s).reRange.toNat ∧
      (encodeSplit ea bit s).reLow.toNat + (encodeSplit ea bit s).reRange.toNat < 2 ^ 33 := by
  have hb := splitPoint_bounds hr h1 h2
  have hlt := s.reRange.isLt
  cases bit
  · rw [encodeSplit_zero]
    simp only [State.update_reRange, State.update_reLow, BitVec.toNat_ofNat]
    omega
  · rw [encodeSplit_one]
    simp only [State.update_reRange, State.update_reLow, BitVec.toNat_sub, BitVec.toNat_add, BitVec.toNat_ofNat]
    omega

/-- A completed EncodeBit keeps the encoder's interval invariants (R153). -/
theorem encodeBit_interval {ea : Word} {bit : Bool} {s t : State} (hr : 2 ^ 24 ≤ s.reRange.toNat)
    (hl : s.reLow.toNat + s.reRange.toNat < 2 ^ 33) (hc : s.modelCell ea) (h : encodeBit ea bit s = .ok () t) :
    2 ^ 24 ≤ t.reRange.toNat ∧ t.reLow.toNat + t.reRange.toNat < 2 ^ 33 :=
  let hs := encodeSplit_interval bit hr hl hc.2.2.1 hc.2.2.2
  encNormalize_interval hs.1 hs.2 h

/-- The decision of EncodeBit in plain numbers (R154). -/
theorem encodeSplit_coded {ea : Word} (bit : Bool) {s : State} (hp : (s.pmRead ea).toNat ≤ 2017) :
    encodeSplit ea bit s = bitCoded (ea, bit) s := by
  have hb : boundOf s.reRange.toNat (s.pmRead ea).toNat ≤ s.reRange.toNat := boundOf_le (by omega)
  have hlt := s.reRange.isLt
  cases bit
  · simp only [encodeSplit_zero, bitCoded, State.update, State.pmWrite, adapt_eq, splitPoint_eq, Bool.false_eq_true, if_false,
      BitVec.ofNat_toNat, BitVec.setWidth_eq]
  · simp only [encodeSplit_one, bitCoded, State.update, State.pmWrite, adapt_eq, splitPoint_eq, if_true, State.mk.injEq,
      true_and, and_true]
    constructor
    · apply BitVec.eq_of_toNat_eq
      rw [BitVec.toNat_sub, BitVec.toNat_ofNat, BitVec.toNat_ofNat]
      omega
    · rw [BitVec.ofNat_add, BitVec.ofNat_toNat, BitVec.setWidth_eq]

/-- Where the ShiftLow it may run is accepted, EncodeBit completes, and this is all it does (R154). -/
theorem encodeBit_ok {ea : Word} {bit : Bool} {s : State} (hp : (s.pmRead ea).toNat ≤ 2017)
    (h : (bitCoded (ea, bit) s).reRange.toNat < 2 ^ 24 → (bitCoded (ea, bit) s).shiftAccepted) :
    encodeBit ea bit s = .ok () (s.encodedBit (ea, bit)) := by
  rw [encodeBit, encodeSplit_coded bit hp]
  exact encNormalize_ok h

/-- Where that ShiftLow ends the command, so does EncodeBit. -/
theorem encodeBit_stops {ea : Word} {bit : Bool} {s t : State} (hp : (s.pmRead ea).toNat ≤ 2017)
    (h1 : (bitCoded (ea, bit) s).reRange.toNat < 2 ^ 24)
    (h2 : shiftStops { bitCoded (ea, bit) s with reRange := BitVec.ofNat 32 ((bitCoded (ea, bit) s).reRange.toNat * 2 ^ 8) } t) :
    (encodeBit ea bit s).endsAt t := by
  rw [encodeBit, encodeSplit_coded bit hp]
  exact encNormalize_stops h1 h2

theorem sinkAccepts_encodedBit {x : Decision} {s : State} (h : s.sinkAccepts) : (s.encodedBit x).sinkAccepts :=
  sinkAccepts_renormalised h

/-! ## Direct bits (R155) -/

theorem directShrink_frame (bit : Bool) (s : State) : portOnly s (directShrink bit s) := ⟨rfl, rfl⟩

theorem encodeDirect_frame (v : Word) (n : Nat) (s : State) : portOnly s (encodeDirect v n s).state := by
  induction n generalizing s with
  | zero => exact portOnly.refl s
  | succ n ih =>
    unfold encodeDirect
    exact Act.bind_state (R := portOnly) portOnly.trans ((directShrink_frame _ s).trans (encNormalize_frame _)) fun _ t _ => ih t

theorem encodeDirect_onlySink (v : Word) (n : Nat) (s : State) : (encodeDirect v n s).onlySink := by
  induction n generalizing s with
  | zero => trivial
  | succ n ih => exact Act.raises_bind (encNormalize_onlySink _) fun _ _ => ih _

/-- The interval one direct bit leaves before renormalisation (R153). -/
theorem directShrink_interval (bit : Bool) {s : State} (hr : 2 ^ 24 ≤ s.reRange.toNat)
    (hl : s.reLow.toNat + s.reRange.toNat < 2 ^ 33) :
    2 ^ 16 ≤ (directShrink bit s).reRange.toNat ∧
      (directShrink bit s).reLow.toNat + (directShrink bit s).reRange.toNat < 2 ^ 33 := by
  have hlt := s.reRange.isLt
  cases bit <;>
    simp only [directShrink, BitVec.toNat_ushiftRight, Nat.shiftRight_eq_div_pow, BitVec.toNat_add,
      BitVec.toNat_setWidth, if_true, if_false, Bool.false_eq_true] <;>
    omega

theorem encodeDirect_interval {v : Word} {n : Nat} {s t : State} (hr : 2 ^ 24 ≤ s.reRange.toNat)
    (hl : s.reLow.toNat + s.reRange.toNat < 2 ^ 33) (h : encodeDirect v n s = .ok () t) :
    2 ^ 24 ≤ t.reRange.toNat ∧ t.reLow.toNat + t.reRange.toNat < 2 ^ 33 := by
  induction n generalizing s with
  | zero => simp only [encodeDirect, Act.ok.injEq, true_and] at h; exact h ▸ ⟨hr, hl⟩
  | succ n ih =>
    obtain ⟨_, u, h1, h2⟩ := Act.bind_eq_ok.mp h
    have hs := directShrink_interval (v.getLsbD n) hr hl
    have hu := encNormalize_interval hs.1 hs.2 h1
    exact ih hu.1 hu.2 h2

/-- The step of one direct bit in plain numbers (R155). -/
theorem directShrink_coded (bit : Bool) (s : State) : directShrink bit s = halfCoded bit s := by
  have hr : s.reRange >>> 1 = BitVec.ofNat 32 (s.reRange.toNat / 2) := by
    apply BitVec.eq_of_toNat_eq
    have := s.reRange.isLt
    simp only [BitVec.toNat_ushiftRight, Nat.shiftRight_eq_div_pow, BitVec.toNat_ofNat]
    omega
  have hlt := s.reRange.isLt
  cases bit
  · simp only [directShrink, halfCoded, hr, Bool.false_eq_true, if_false, BitVec.ofNat_toNat, BitVec.setWidth_eq]
  · simp only [directShrink, halfCoded, hr, if_true, State.mk.injEq, true_and, and_true]
    apply BitVec.eq_of_toNat_eq
    simp only [BitVec.toNat_add, BitVec.toNat_setWidth, BitVec.toNat_ofNat]
    omega

theorem sinkAccepts_encodedHalf {bit : Bool} {s : State} (h : s.sinkAccepts) : (s.encodedHalf bit).sinkAccepts :=
  sinkAccepts_renormalised h

/-- The bits n - 1 down to 0 of v. -/
def topBits (v : Word) (n : Nat) : List Bool := (List.range n).map fun i => v.toNat.testBit (n - 1 - i)

theorem topBits_succ (v : Word) (n : Nat) : topBits v (n + 1) = v.toNat.testBit n :: topBits v n := by
  rw [topBits, List.range_succ_eq_map, List.map_cons, List.map_map]
  congr 1
  apply List.map_congr_left
  intro i _
  simp only [Function.comp]
  congr 1
  omega

/-- Where the sink accepts every byte EncodeDirect completes, and this is all it does (R155). -/
theorem encodeDirect_ok (v : Word) (n : Nat) {s : State} (h : codingAccepted halfCoded (topBits v n) s) :
    encodeDirect v n s = .ok () ((topBits v n).foldl State.encodedHalf s) := by
  induction n generalizing s with
  | zero => rfl
  | succ n ih =>
    rw [topBits_succ] at h ⊢
    rw [encodeDirect, directShrink_coded, ← BitVec.testBit_toNat, encNormalize_ok h.1, Act.bind_ok]
    exact ih h.2

/-- Where one of its ShiftLows ends the command, so does EncodeDirect (R155). -/
theorem encodeDirect_stops (v : Word) (n : Nat) {s t : State} (h : codingStops halfCoded (topBits v n) s t) :
    (encodeDirect v n s).endsAt t := by
  induction n generalizing s with
  | zero => exact h.elim
  | succ n ih =>
    rw [topBits_succ] at h
    rw [encodeDirect, directShrink_coded, ← BitVec.testBit_toNat]
    rcases h with ⟨h1, h2⟩ | ⟨h1, h2⟩
    · exact Act.endsAt_bind (encNormalize_stops h1 h2) _
    · exact Act.bind_endsAt (encNormalize_ok h1) (ih h2)

/-! ## Stream end (R156) -/

theorem shiftLows_frame (n : Nat) (s : State) : portOnly s (shiftLows n s).state := by
  induction n generalizing s with
  | zero => exact portOnly.refl s
  | succ n ih =>
    unfold shiftLows
    exact Act.bind_state (R := portOnly) portOnly.trans (shiftLow_frame s) fun _ t _ => ih t

theorem shiftLows_onlySink (n : Nat) (s : State) : (shiftLows n s).onlySink := by
  induction n generalizing s with
  | zero => trivial
  | succ n ih => exact Act.raises_bind (shiftLow_onlySink s) fun _ _ => ih _

/-- The shifts of RE_FLUSH keep RE_RANGE and leave RE_LOW below 2^32 (R152). -/
theorem shiftLows_interval {n : Nat} {s t : State} (h : shiftLows (n + 1) s = .ok () t) :
    t.reRange = s.reRange ∧ t.reLow.toNat < 2 ^ 32 := by
  induction n generalizing s with
  | zero =>
    obtain ⟨_, u, h1, h2⟩ := Act.bind_eq_ok.mp h
    simp only [shiftLows, Act.ok.injEq, true_and] at h2
    obtain ⟨h3, h4⟩ := shiftLow_ok h1
    exact h2 ▸ ⟨h3, by omega⟩
  | succ n ih =>
    obtain ⟨_, u, h1, h2⟩ := Act.bind_eq_ok.mp h
    obtain ⟨h3, h4⟩ := ih h2
    exact ⟨h3.trans (shiftLow_ok h1).1, h4⟩

theorem shifted_frame (s : State) : portOnly s s.shifted := ⟨rfl, rfl⟩

theorem shifted_reLow (s : State) : s.shifted.reLow.toNat = s.reLow.toNat % 2 ^ 24 * 2 ^ 8 := by
  simp only [State.shifted, BitVec.toNat_ofNat]
  omega

/-- A ShiftLow of RE_LOW = 0 leaves nothing pending but the cached byte (R152). -/
theorem shifted_idle {s : State} (h : s.reLow.toNat = 0) : s.shifted.reLow = 0#33 ∧ s.shifted.reCacheSize = 1#64 :=
  ⟨BitVec.eq_of_toNat_eq (by rw [shifted_reLow, h]; rfl), by simp [State.shifted, State.leavingBytes, h]⟩

/-- The state after n ShiftLows. -/
theorem shifted_repeat (n : Nat) (s : State) : Nat.repeat State.shifted n s.shifted = (Nat.repeat State.shifted n s).shifted := by
  induction n with
  | zero => rfl
  | succ n ih => rw [Nat.repeat, ih, Nat.repeat]

/-- Where the sink accepts every byte the shifts of RE_FLUSH complete (R156). -/
theorem shiftLows_ok {n : Nat} {s : State} (h : shiftsAccepted n s) :
    shiftLows n s = .ok () (Nat.repeat State.shifted n s) := by
  induction n generalizing s with
  | zero => rfl
  | succ n ih => rw [shiftLows, shiftLow_ok_of_accepted h.1, Act.bind_ok, ih h.2, shifted_repeat, Nat.repeat]

/-- Where one of them ends the command, so do they. -/
theorem shiftLows_stops {n : Nat} {s t : State} (h : shiftsStop n s t) : (shiftLows n s).endsAt t := by
  induction n generalizing s with
  | zero => exact h.elim
  | succ n ih =>
    rcases h with h | ⟨h1, h2⟩
    · exact Act.endsAt_bind (shiftLow_stops h) _
    · exact Act.bind_endsAt (shiftLow_ok_of_accepted h1) (ih h2)

theorem shiftsAccepted_of_sinkAccepts (n : Nat) {s : State} (h : s.sinkAccepts) : shiftsAccepted n s := by
  induction n generalizing s with
  | zero => trivial
  | succ n ih => exact ⟨shiftAccepted_of_sinkAccepts h, ih (sinkAccepts_shifted h)⟩

/-! ## Every coding is accepted or stops -/

theorem codingAccepted_of_sinkAccepts {α : Type} {coded : α → State → State} (hc : ∀ x s, (coded x s).sink = s.sink)
    (code : List α) {s : State} (h : s.sinkAccepts) : codingAccepted coded code s := by
  induction code generalizing s with
  | nil => trivial
  | cons x rest ih =>
    have h1 : (coded x s).sinkAccepts := by rw [State.sinkAccepts, hc]; exact h
    exact ⟨fun _ => shiftAccepted_of_sinkAccepts h1, ih (sinkAccepts_renormalised h1)⟩

theorem coding_accepted_or_stops {α : Type} (coded : α → State → State) (code : List α) (s : State) :
    codingAccepted coded code s ∨ ∃ t, codingStops coded code s t := by
  induction code generalizing s with
  | nil => exact .inl trivial
  | cons x rest ih =>
    by_cases hr : (coded x s).reRange.toNat < 2 ^ 24
    · rcases shift_accepted_or_stops (coded x s) with h | ⟨t, h⟩
      · rcases ih (coded x s).renormalised with h2 | ⟨t, h2⟩
        · exact .inl ⟨fun _ => h, h2⟩
        · exact .inr ⟨t, .inr ⟨fun _ => h, h2⟩⟩
      · rcases shift_accepted_or_stops { coded x s with reRange := BitVec.ofNat 32 ((coded x s).reRange.toNat * 2 ^ 8) } with h2 | ⟨t, h2⟩
        · rcases ih (coded x s).renormalised with h3 | ⟨t, h3⟩
          · exact .inl ⟨fun _ => h2, h3⟩
          · exact .inr ⟨t, .inr ⟨fun _ => h2, h3⟩⟩
        · exact .inr ⟨t, .inl ⟨hr, h2⟩⟩
    · rcases ih (coded x s).renormalised with h2 | ⟨t, h2⟩
      · exact .inl ⟨fun h => absurd h hr, h2⟩
      · exact .inr ⟨t, .inr ⟨fun h => absurd h hr, h2⟩⟩

end Sys2Proof.Machine
end

