-- ==== Sys2Proof/Laws/Walks.lean ====
section
/-!
SUPPORT. The multi-bit walks (43, 44, 45) as lists of decisions: what they keep, which decisions a symbol is coded with, and when decoding completes.
-/

namespace Sys2Proof.Machine

/-! ## Relations a coded bit keeps -/

/-- A relation between states that DecodeBit keeps, on the cells P admits. -/
structure DecKept (R : State → State → Prop) (P : State → Word → Prop) : Prop where
  refl  : ∀ s, R s s
  trans : ∀ {s t u}, R s t → R t u → R s u
  mono  : ∀ {s t ea}, R s t → P s ea → P t ea
  bit   : ∀ {s ea}, P s ea → R s (decodeBit ea s).state

/-- A relation between states that EncodeBit keeps, on the cells P admits. -/
structure EncKept (R : State → State → Prop) (P : State → Word → Prop) : Prop where
  refl  : ∀ s, R s s
  trans : ∀ {s t u}, R s t → R t u → R s u
  mono  : ∀ {s t ea}, R s t → P s ea → P t ea
  bit   : ∀ {s ea} (b : Bool), P s ea → R s (encodeBit ea b s).state

/-- The cells in use stay in use, and the models' invariant stays (R116). -/
def modelsKept (s t : State) : Prop :=
  t.params = s.params ∧ (∀ ea, s.modelCell ea → t.modelCell ea) ∧ (s.modelsInv → t.modelsInv)

/-- Adapting a cell in use keeps every cell in use. -/
theorem modelsKept_of_adapt {s t : State} {ea : Word} {bit : Bool} (hc : s.modelCell ea) (hp : t.params = s.params)
    (hm : t.pm = s.pm.set ea.toNat (adapt (s.pmRead ea) bit)) : modelsKept s t := by
  have hb := adapt_bounds bit hc.2.2.1 hc.2.2.2
  have hr : ∀ ea', t.inRange ea' = s.inRange ea' := fun ea' => by simp [State.inRange, hp]
  refine ⟨hp, fun ea' h => ?_, fun h => ?_⟩
  · refine ⟨by rw [hr]; exact h.1, ?_⟩
    simp only [State.pmWritten, State.pmRead, hm, Cells.get?_set]
    split
    · exact ⟨rfl, hb⟩
    · exact h.2
  · refine ⟨hm ▸ Cells.set_wf _ _ h.1, fun x hx => ?_⟩
    rw [hm] at hx
    rw [hp]
    rcases Cells.mem_set hx with rfl | hx
    · exact ⟨by simpa [State.inRange] using hc.1, hb⟩
    · exact h.2 x hx

theorem decFrame_kept : DecKept decoderOnly fun _ _ => True where
  refl := decoderOnly.refl
  trans := decoderOnly.trans
  mono := fun _ h => h
  bit := fun _ => (decodeBit_frame _ _).1

theorem agreeOutside_trans {cells : List Word} {m m' m'' : Memory} (h1 : agreeOutside cells m m')
    (h2 : agreeOutside cells m' m'') : agreeOutside cells m m'' := fun k hk => (h2 k hk).trans (h1 k hk)

theorem decAgree_kept (cells : List Word) :
    DecKept (fun s t => agreeOutside cells s.pm t.pm) fun _ ea => ea ∈ cells where
  refl := fun _ _ _ => rfl
  trans := agreeOutside_trans
  mono := fun _ h => h
  bit := fun {s ea} h k hk => decodeBit_agree ea s k fun ea' h' => hk ea' (by simp at h'; exact h' ▸ h)

theorem decModels_kept : DecKept modelsKept fun s ea => s.modelCell ea where
  refl := fun _ => ⟨rfl, fun _ h => h, fun h => h⟩
  trans := fun h1 h2 => ⟨h2.1.trans h1.1, fun ea h => h2.2.1 ea (h1.2.1 ea h), fun h => h2.2.2 (h1.2.2 h)⟩
  mono := fun h hc => h.2.1 _ hc
  bit := fun {s ea} h =>
    modelsKept_of_adapt h (by have := (decodeBit_frame ea s).1; rw [decoderOnly] at this; rw [this])
      (decodeBit_frame ea s).2

theorem encFrame_kept : EncKept encoderOnly fun _ _ => True where
  refl := encoderOnly.refl
  trans := encoderOnly.trans
  mono := fun _ h => h
  bit := fun b _ => (encodeBit_frame _ b _).1

theorem encAgree_kept (cells : List Word) :
    EncKept (fun s t => agreeOutside cells s.pm t.pm) fun _ ea => ea ∈ cells where
  refl := fun _ _ _ => rfl
  trans := agreeOutside_trans
  mono := fun _ h => h
  bit := fun {s ea} b h k hk => encodeBit_agree ea b s k fun ea' h' => hk ea' (by simp at h'; exact h' ▸ h)

theorem encModels_kept : EncKept modelsKept fun s ea => s.modelCell ea where
  refl := decModels_kept.refl
  trans := decModels_kept.trans
  mono := fun h hc => h.2.1 _ hc
  bit := fun {s ea} b h =>
    modelsKept_of_adapt h (by have := (encodeBit_frame ea b s).1; rw [encoderOnly] at this; rw [this])
      (encodeBit_frame ea b s).2

/-- The models stay where no cell is written. -/
theorem modelsKept_of_pm {s t : State} (hp : t.params = s.params) (hm : t.pm = s.pm) : modelsKept s t := by
  refine ⟨hp, fun ea h => ?_, fun h => ?_⟩
  · simpa [State.modelCell, State.inRange, State.pmWritten, State.pmRead, hp, hm] using h
  · simpa [State.modelsInv, hp, hm] using h

/-- A decoder's act on these cells: the decoder's frame, no other cell, and the models stay in range; with no cell, PM is unchanged. -/
def decoderOn (cells : List Word) (s t : State) : Prop :=
  decoderOnly s t ∧ agreeOutside cells s.pm t.pm ∧ ((∀ ea ∈ cells, s.modelCell ea) → modelsKept s t) ∧
    (cells = [] → t.pm = s.pm)

/-- An encoder's act on these cells: the encoder's frame, no other cell, and the models stay in range; with no cell, PM is unchanged. -/
def encoderOn (cells : List Word) (s t : State) : Prop :=
  encoderOnly s t ∧ agreeOutside cells s.pm t.pm ∧ ((∀ ea ∈ cells, s.modelCell ea) → modelsKept s t) ∧
    (cells = [] → t.pm = s.pm)

theorem decoderOn.of_pm {s t : State} (cells : List Word) (h : decoderOnly s t) (hm : t.pm = s.pm) : decoderOn cells s t :=
  ⟨h, fun _ _ => by rw [hm], fun _ => modelsKept_of_pm (by rw [decoderOnly] at h; rw [h]) hm, fun _ => hm⟩

theorem encoderOn.of_pm {s t : State} (cells : List Word) (h : encoderOnly s t) (hm : t.pm = s.pm) : encoderOn cells s t :=
  ⟨h, fun _ _ => by rw [hm], fun _ => modelsKept_of_pm (by rw [encoderOnly] at h; rw [h]) hm, fun _ => hm⟩

theorem decOn_kept (cells : List Word) : DecKept (decoderOn cells) fun _ ea => ea ∈ cells where
  refl := fun s => .of_pm cells (decoderOnly.refl s) rfl
  trans := fun h1 h2 => ⟨h1.1.trans h2.1, agreeOutside_trans h1.2.1 h2.2.1, fun hc =>
    decModels_kept.trans (h1.2.2.1 hc) (h2.2.2.1 fun ea hea => (h1.2.2.1 hc).2.1 ea (hc ea hea)),
    fun h => (h2.2.2.2 h).trans (h1.2.2.2 h)⟩
  mono := fun _ h => h
  bit := fun h => ⟨decFrame_kept.bit trivial, (decAgree_kept cells).bit h, fun hc => decModels_kept.bit (hc _ h),
    fun hn => by rw [hn] at h; cases h⟩

theorem encOn_kept (cells : List Word) : EncKept (encoderOn cells) fun _ ea => ea ∈ cells where
  refl := fun s => .of_pm cells (encoderOnly.refl s) rfl
  trans := fun h1 h2 => ⟨h1.1.trans h2.1, agreeOutside_trans h1.2.1 h2.2.1, fun hc =>
    encModels_kept.trans (h1.2.2.1 hc) (h2.2.2.1 fun ea hea => (h1.2.2.1 hc).2.1 ea (hc ea hea)),
    fun h => (h2.2.2.2 h).trans (h1.2.2.2 h)⟩
  mono := fun _ h => h
  bit := fun b h => ⟨encFrame_kept.bit b trivial, (encAgree_kept cells).bit b h, fun hc => encModels_kept.bit b (hc _ h),
    fun hn => by rw [hn] at h; cases h⟩

theorem agreeOutside_mono {c c' : List Word} {m m' : Memory} (hc : ∀ ea ∈ c, ea ∈ c') (h : agreeOutside c m m') :
    agreeOutside c' m m' := fun k hk => h k fun ea hea => hk ea (hc ea hea)

/-! ## The frames of the semantics in plain numbers -/

theorem refilled_frame {s u : State} (h : refilled s u) : decoderOnly s u ∧ u.pm = s.pm := by
  rcases h with ⟨-, rfl⟩ | ⟨-, b, rest, -, rfl⟩ <;> exact ⟨rfl, rfl⟩

theorem decodesBit_frame {x : Decision} {s u : State} (h : decodesBit x s u) :
    decoderOnly s u ∧ agreeOutside [x.1] s.pm u.pm := by
  obtain ⟨h1, h2⟩ := refilled_frame h.2
  refine ⟨decoderOnly.trans (t := bitTaken x s) (by rfl) h1, fun k hk => ?_⟩
  rw [h2]
  exact Cells.get?_set_ne _ _ fun e => hk _ (List.mem_singleton_self _) e.symm

/-- Decoding a code writes its cells and the decoder's registers only. -/
theorem decodesAs_frame {code : List Decision} {s u : State} (h : decodesAs code s u) :
    decoderOnly s u ∧ agreeOutside (codeCells code) s.pm u.pm := by
  induction code generalizing s with
  | nil => rw [decodesAs] at h; subst h; exact ⟨rfl, fun _ _ => rfl⟩
  | cons x rest ih =>
    obtain ⟨t, h1, h2⟩ := h
    obtain ⟨f1, a1⟩ := decodesBit_frame h1
    obtain ⟨f2, a2⟩ := ih h2
    exact ⟨f1.trans f2, agreeOutside_trans (agreeOutside_mono (by simp) a1)
      (agreeOutside_mono (fun _ => List.mem_cons_of_mem _) a2)⟩

theorem decodesHalves_frame {bits : List Bool} {s u : State} (h : decodesHalves bits s u) : decoderOnly s u ∧ u.pm = s.pm := by
  induction bits generalizing s with
  | nil => rw [decodesHalves] at h; subst h; exact ⟨rfl, rfl⟩
  | cons b rest ih =>
    obtain ⟨t, h1, h2⟩ := h
    obtain ⟨f1, p1⟩ := refilled_frame h1.2
    obtain ⟨f2, p2⟩ := ih h2
    exact ⟨decoderOnly.trans (decoderOnly.trans (t := halfTaken b s) (by rfl) f1) f2, p2.trans p1⟩

theorem renormalised_frame (s : State) : portOnly s s.renormalised := by
  unfold State.renormalised
  split <;> exact ⟨rfl, rfl⟩

theorem encoderOnly.renormalised {s t : State} (h : encoderOnly s t) : encoderOnly s t.renormalised :=
  h.trans (renormalised_frame t).1

theorem encodedBit_frame (s : State) (x : Decision) :
    encoderOnly s (s.encodedBit x) ∧ agreeOutside [x.1] s.pm (s.encodedBit x).pm := by
  unfold State.encodedBit
  refine ⟨encoderOnly.renormalised (by rfl), fun k hk => ?_⟩
  simp only [(renormalised_frame _).2]
  exact Cells.get?_set_ne _ _ fun e => hk _ (List.mem_singleton_self _) e.symm

/-- Encoding a code writes its cells and the encoder's registers only. -/
theorem encodedAs_frame (code : List Decision) (s : State) :
    encoderOnly s (s.encodedAs code) ∧ agreeOutside (codeCells code) s.pm (s.encodedAs code).pm := by
  induction code generalizing s with
  | nil => exact ⟨rfl, fun _ _ => rfl⟩
  | cons x rest ih =>
    obtain ⟨f1, a1⟩ := encodedBit_frame s x
    obtain ⟨f2, a2⟩ := ih (s.encodedBit x)
    exact ⟨f1.trans f2, agreeOutside_trans (agreeOutside_mono (by simp) a1)
      (agreeOutside_mono (fun _ => List.mem_cons_of_mem _) a2)⟩

theorem encodedHalves_frame (bits : List Bool) (s : State) : portOnly s (bits.foldl State.encodedHalf s) := by
  induction bits generalizing s with
  | nil => exact portOnly.refl s
  | cons b rest ih =>
    have h : portOnly s (s.encodedHalf b) := by
      unfold State.encodedHalf
      exact ⟨encoderOnly.renormalised (by rfl), (renormalised_frame _).2⟩
    exact h.trans (ih _)

/-! ## Decisions of a tree symbol -/

/-- The decisions of the low d bits of a symbol, MSB first, from node m. -/
def treeCodeFrom (base : Word) (sym : Nat) : Nat → Nat → List Decision
  | 0, _ => []
  | d + 1, m => (nodeCell base m, sym.testBit d) :: treeCodeFrom base sym d (child m (sym.testBit d))

/-- The top bit of the low d + 1 bits. -/
theorem mod_two_pow_succ' (sym d : Nat) : sym % 2 ^ (d + 1) = (sym.testBit d).toNat * 2 ^ d + sym % 2 ^ d := by
  have h : (sym.testBit d).toNat = sym / 2 ^ d % 2 := by
    rw [Nat.testBit_eq_decide_div_mod_eq]
    rcases Nat.mod_two_eq_zero_or_one (sym / 2 ^ d) with h | h <;> simp [h]
  rw [h, Nat.pow_succ, Nat.mod_mul, Nat.mul_comm, Nat.add_comm]

/-- The closed form of the nodes of a forward walk. -/
theorem treeCodeFrom_eq (base : Word) (sym d m : Nat) :
    treeCodeFrom base sym d m = (List.range d).map fun i =>
      (nodeCell base (m * 2 ^ i + (sym % 2 ^ d) / 2 ^ (d - i)), sym.testBit (d - 1 - i)) := by
  induction d generalizing m with
  | zero => rfl
  | succ d ih =>
    rw [List.range_succ_eq_map, List.map_cons, List.map_map]
    unfold treeCodeFrom
    congr 1
    · have : sym % 2 ^ (d + 1) / 2 ^ (d + 1) = 0 := Nat.div_eq_of_lt (Nat.mod_lt _ (by positivity))
      simp [this]
    · rw [ih]
      apply List.map_congr_left
      intro i hi
      have hi := List.mem_range.mp hi
      simp only [Function.comp]
      have e1 : d + 1 - (i + 1) = d - i := by omega
      have e2 : d + 1 - 1 - (i + 1) = d - 1 - i := by omega
      have e3 : 2 ^ d = 2 ^ (d - i) * 2 ^ i := by rw [← Nat.pow_add]; congr 1; omega
      rw [Nat.succ_eq_add_one, e1, e2, mod_two_pow_succ', child]
      congr 2
      have : ((sym.testBit d).toNat * 2 ^ d + sym % 2 ^ d) / 2 ^ (d - i) =
          (sym.testBit d).toNat * 2 ^ i + sym % 2 ^ d / 2 ^ (d - i) := by
        conv_lhs => rw [show (sym.testBit d).toNat * 2 ^ d = 2 ^ (d - i) * ((sym.testBit d).toNat * 2 ^ i) by
          rw [e3]; ring]
        rw [Nat.mul_add_div (by positivity)]
      rw [this]
      ring

theorem treeCode_eq (base : Word) (d sym : Nat) : treeCode base d sym = treeCodeFrom base sym d 1 := by
  rw [treeCodeFrom_eq, treeCode]
  simp

/-- Only the low d bits of the symbol matter. -/
theorem treeCodeFrom_congr (base : Word) {sym sym' d : Nat} (m : Nat) (h : sym % 2 ^ d = sym' % 2 ^ d) :
    treeCodeFrom base sym d m = treeCodeFrom base sym' d m := by
  induction d generalizing m with
  | zero => rfl
  | succ d ih =>
    have hb : sym.testBit d = sym'.testBit d := by
      have := congrArg (fun x => x.testBit d) h
      simpa [Nat.testBit_mod_two_pow] using this
    have hm : sym % 2 ^ d = sym' % 2 ^ d := by
      have h1 := mod_two_pow_succ' sym d
      have h2 := mod_two_pow_succ' sym' d
      rw [hb] at h1
      omega
    simp only [treeCodeFrom, hb, ih _ hm]

/-- The decisions of d bits of a symbol, bit i first, from node m. -/
def treeCodeRevFrom (base : Word) (sym : Nat) : Nat → Nat → Nat → List Decision
  | 0, _, _ => []
  | d + 1, i, m => (nodeCell base m, sym.testBit i) :: treeCodeRevFrom base sym d (i + 1) (child m (sym.testBit i))

theorem treeCodeRevFrom_eq (base : Word) (sym d i : Nat) :
    treeCodeRevFrom base sym d i (revNode sym i) =
      (List.range d).map fun j => (nodeCell base (revNode sym (i + j)), sym.testBit (i + j)) := by
  induction d generalizing i with
  | zero => rfl
  | succ d ih =>
    rw [List.range_succ_eq_map, List.map_cons, List.map_map]
    unfold treeCodeRevFrom
    congr 1
    have : child (revNode sym i) (sym.testBit i) = revNode sym (i + 1) := rfl
    rw [this, ih]
    apply List.map_congr_left
    intro j _
    simp only [Function.comp, Nat.succ_eq_add_one, Nat.add_assoc, Nat.add_comm 1]

theorem treeCodeRev_eq (base : Word) (d sym : Nat) : treeCodeRev base d sym = treeCodeRevFrom base sym d 0 1 := by
  have := treeCodeRevFrom_eq base sym d 0
  simp only [revNode, Nat.zero_add] at this
  exact this.symm

/-! ## Decisions of a matched literal -/

/-- The decisions of the low d bits of a byte against a match byte, from node m. -/
def matchedCodeFrom (sub : Word) (mb byte : Nat) : Nat → Nat → Bool → List Decision
  | 0, _, _ => []
  | d + 1, m, same =>
    (nodeCell sub (litNode same (mb.testBit d) m), byte.testBit d) ::
      matchedCodeFrom sub mb byte d (child m (byte.testBit d)) (same && (mb.testBit d == byte.testBit d))

theorem matchedNode_eq (mbit : Bool) (m : Nat) : matchedNode mbit m = 256 * (1 + mbit.toNat) + m := by
  rw [matchedNode, Nat.shiftLeft_eq, Nat.mul_comm]

theorem div_two_pow (x d : Nat) : x / 2 ^ d = 2 * (x / 2 ^ (d + 1)) + (x.testBit d).toNat := by
  have h : (x.testBit d).toNat = x / 2 ^ d % 2 := by
    rw [Nat.testBit_eq_decide_div_mod_eq]
    rcases Nat.mod_two_eq_zero_or_one (x / 2 ^ d) with h | h <;> simp [h]
  rw [h, Nat.pow_succ, ← Nat.div_div_eq_div_mul]
  omega

/-- The closed form of the cells of a matched walk, d bits before its end. -/
theorem matchedCodeFrom_eq (sub : Word) (mb byte : Nat) {d : Nat} (hd : d ≤ 8) :
    matchedCodeFrom sub mb byte d (2 ^ (8 - d) + byte % 256 / 2 ^ d) (decide (mb / 2 ^ d = byte / 2 ^ d)) =
      (List.range d).map fun j => (fun i =>
        (nodeCell sub
          (if mb / 2 ^ (8 - i) = byte / 2 ^ (8 - i) then
            256 * (1 + (mb.testBit (7 - i)).toNat) + (2 ^ i + byte % 256 / 2 ^ (8 - i))
          else 2 ^ i + byte % 256 / 2 ^ (8 - i)), byte.testBit (7 - i))) (8 - d + j) := by
  induction d with
  | zero => rfl
  | succ d ih =>
    rw [List.range_succ_eq_map, List.map_cons, List.map_map]
    unfold matchedCodeFrom
    have e0 : 8 - (8 - (d + 1)) = d + 1 := by omega
    have e1 : 7 - (8 - (d + 1)) = d := by omega
    congr 1
    · simp only [Nat.add_zero, e0, e1, litNode, matchedNode_eq, decide_eq_true_eq]
    · have hnode : child (2 ^ (8 - (d + 1)) + byte % 256 / 2 ^ (d + 1)) (byte.testBit d) =
          2 ^ (8 - d) + byte % 256 / 2 ^ d := by
        have hb : (byte % 256).testBit d = byte.testBit d := by
          rw [show (256 : Nat) = 2 ^ 8 from rfl, Nat.testBit_mod_two_pow]
          simp [show d < 8 by omega]
        have hp : 2 ^ (8 - d) = 2 * 2 ^ (8 - (d + 1)) := by
          rw [← Nat.pow_succ']
          congr 1
          omega
        rw [child, div_two_pow (byte % 256) d, hb, hp]
        ring
      have hsame : (decide (mb / 2 ^ (d + 1) = byte / 2 ^ (d + 1)) && (mb.testBit d == byte.testBit d)) =
          decide (mb / 2 ^ d = byte / 2 ^ d) := by
        rw [div_two_pow mb d, div_two_pow byte d]
        have b1 : (mb.testBit d).toNat ≤ 1 := Bool.toNat_le _
        have b2 : (byte.testBit d).toNat ≤ 1 := Bool.toNat_le _
        by_cases h : mb.testBit d = byte.testBit d
        · rw [h]
          simp
        · have : (mb.testBit d).toNat ≠ (byte.testBit d).toNat := fun e => h (by
            revert e
            cases mb.testBit d <;> cases byte.testBit d <;> simp)
          have hne : ¬ 2 * (mb / 2 ^ (d + 1)) + (mb.testBit d).toNat =
              2 * (byte / 2 ^ (d + 1)) + (byte.testBit d).toNat := by omega
          simp [h, hne]
      rw [hnode, hsame, ih (by omega)]
      apply List.map_congr_left
      intro j _
      have : 8 - (d + 1) + (j + 1) = 8 - d + j := by omega
      simp only [Function.comp, Nat.succ_eq_add_one, this]

theorem matchedCode_eq (sub : Word) {mb byte : Nat} (h1 : mb < 256) (h2 : byte < 256) :
    matchedCode sub mb byte = matchedCodeFrom sub mb byte 8 1 true := by
  have := matchedCodeFrom_eq sub mb byte (d := 8) (by omega)
  have e1 : byte % 256 / 2 ^ 8 = 0 := by omega
  have e2 : mb / 2 ^ 8 = byte / 2 ^ 8 := by omega
  simp only [e1, e2, decide_true, Nat.sub_self, Nat.pow_zero, Nat.add_zero, Nat.zero_add] at this
  exact this.symm

/-! ## Encoding is encoding the decisions -/

/-- Encode the decisions in order with EncodeBit (R154). -/
def encodeAll : List Decision → State → Act Unit
  | [], s => .ok () s
  | x :: rest, s => (encodeBit x.1 x.2 s).bind fun _ s => encodeAll rest s

theorem encodeAll_cons (x : Decision) (rest : List Decision) (s : State) :
    encodeAll (x :: rest) s = (encodeBit x.1 x.2 s).bind fun _ s => encodeAll rest s := rfl

theorem treeEncodeFrom_eq (base : Word) (sym d m : Nat) (s : State) :
    treeEncodeFrom base sym d m s = encodeAll (treeCodeFrom base sym d m) s := by
  induction d generalizing m s with
  | zero => rfl
  | succ d ih => simp only [treeEncodeFrom, treeCodeFrom, encodeAll_cons, ih]

theorem treeEncodeRevFrom_eq (base : Word) (sym d i m : Nat) (s : State) :
    treeEncodeRevFrom base sym d i m s = encodeAll (treeCodeRevFrom base sym d i m) s := by
  induction d generalizing i m s with
  | zero => rfl
  | succ d ih => simp only [treeEncodeRevFrom, treeCodeRevFrom, encodeAll_cons, ih]

theorem treeEncode_eq (base : Word) (d sym : Nat) (s : State) :
    treeEncode base d sym s = encodeAll (treeCode base d sym) s := by
  rw [treeEncode, treeEncodeFrom_eq, treeCode_eq]

theorem treeEncodeRev_eq (base : Word) (d sym : Nat) (s : State) :
    treeEncodeRev base d sym s = encodeAll (treeCodeRev base d sym) s := by
  rw [treeEncodeRev, treeEncodeRevFrom_eq, treeCodeRev_eq]

theorem lenEncode_eq (base : Word) (ps sym : Nat) (s : State) :
    lenEncode base ps sym s = encodeAll (lenCode base ps sym) s := by
  unfold lenEncode lenCode lowTree midTree highTree
  split
  · simp only [encodeAll_cons, treeEncode_eq]
  · split <;> simp only [encodeAll_cons, treeEncode_eq]

theorem litEncode_eq (sub : Word) (byte : Byte) (s : State) :
    litEncode sub byte s = encodeAll (litCode sub byte.toNat) s := by
  rw [litEncode, treeEncodeFrom_eq, litCode, treeCode_eq]

theorem litEncodeMatchedFrom_eq (sub : Word) (mb byte : Byte) (d m : Nat) (same : Bool) (s : State) :
    litEncodeMatchedFrom sub mb byte d m same s = encodeAll (matchedCodeFrom sub mb.toNat byte.toNat d m same) s := by
  induction d generalizing m same s with
  | zero => rfl
  | succ d ih =>
    simp only [litEncodeMatchedFrom, matchedCodeFrom, encodeAll_cons, ih, BitVec.testBit_toNat]

theorem litEncodeMatched_eq (sub : Word) (mb byte : Byte) (s : State) :
    litEncodeMatched sub mb byte s = encodeAll (matchedCode sub mb.toNat byte.toNat) s := by
  rw [litEncodeMatched, litEncodeMatchedFrom_eq, matchedCode_eq sub mb.isLt byte.isLt]

/-- What encoding decisions keeps. -/
theorem encodeAll_kept {R : State → State → Prop} {P : State → Word → Prop} (k : EncKept R P) (code : List Decision)
    {s : State} (h : ∀ x ∈ code, P s x.1) : R s (encodeAll code s).state := by
  induction code generalizing s with
  | nil => exact k.refl s
  | cons x rest ih =>
    rw [encodeAll_cons]
    have h1 := k.bit x.2 (h x List.mem_cons_self)
    refine Act.bind_state (R := R) k.trans h1 fun _ t ht => ih fun y hy => ?_
    rw [ht] at h1
    exact k.mono h1 (h y (List.mem_cons_of_mem _ hy))

theorem encodeAll_onlySink (code : List Decision) (s : State) : (encodeAll code s).onlySink := by
  induction code generalizing s with
  | nil => trivial
  | cons x rest ih => exact Act.raises_bind (encodeBit_onlySink _ _ _) fun _ t => ih t

/-- A coded bit leaves every cell one that can be coded with. -/
theorem encodedBit_modelCell {x : Decision} {s : State} {ea : Word} (hx : s.modelCell x.1) (h : s.modelCell ea) :
    (s.encodedBit x).modelCell ea := by
  have hk := modelsKept_of_adapt (bit := x.2) hx (t := s.encodedBit x)
    (by rw [(encodedBit_frame s x).1]) (by rw [State.encodedBit, (renormalised_frame _).2, bitCoded, adapt_eq])
  exact hk.2.1 ea h

/-- Where the sink accepts every byte every decision is encoded, and this is all it does. -/
theorem encodeAll_ok {code : List Decision} {s : State} (h : codingAccepted bitCoded code s) (hc : s.readable (codeCells code)) :
    encodeAll code s = .ok () (s.encodedAs code) := by
  induction code generalizing s with
  | nil => rfl
  | cons x rest ih =>
    have hx := hc x.1 (by simp)
    rw [encodeAll_cons, encodeBit_ok hx.2.2.2 h.1, Act.bind_ok]
    exact ih h.2 fun ea hea => encodedBit_modelCell hx (hc ea (List.mem_cons_of_mem _ hea))

/-- Where a ShiftLow on the way ends the command, so does the encoding. -/
theorem encodeAll_stops {code : List Decision} {s t : State} (h : codingStops bitCoded code s t)
    (hc : s.readable (codeCells code)) : (encodeAll code s).endsAt t := by
  induction code generalizing s with
  | nil => exact h.elim
  | cons x rest ih =>
    have hx := hc x.1 (by simp)
    rw [encodeAll_cons]
    rcases h with ⟨h1, h2⟩ | ⟨h1, h2⟩
    · exact Act.endsAt_bind (encodeBit_stops hx.2.2.2 h1 h2) _
    · exact Act.bind_endsAt (encodeBit_ok hx.2.2.2 h1)
        (ih h2 fun ea hea => encodedBit_modelCell hx (hc ea (List.mem_cons_of_mem _ hea)))

/-- A completed encoding keeps the encoder's interval invariants (R153). -/
theorem encodeAll_interval (code : List Decision) {s t : State} (hr : 2 ^ 24 ≤ s.reRange.toNat)
    (hl : s.reLow.toNat + s.reRange.toNat < 2 ^ 33) (hc : ∀ x ∈ code, s.modelCell x.1)
    (h : encodeAll code s = .ok () t) :
    2 ^ 24 ≤ t.reRange.toNat ∧ t.reLow.toNat + t.reRange.toNat < 2 ^ 33 := by
  induction code generalizing s with
  | nil =>
    simp only [encodeAll, Act.ok.injEq, true_and] at h
    exact h ▸ ⟨hr, hl⟩
  | cons x rest ih =>
    rw [encodeAll_cons] at h
    obtain ⟨v, u, h1, h2⟩ := Act.bind_eq_ok.mp h
    have hi := encodeBit_interval hr hl (hc x List.mem_cons_self) h1
    have hk := encModels_kept.bit x.2 (hc x List.mem_cons_self)
    rw [h1] at hk
    exact ih hi.1 hi.2 (fun y hy => hk.2.1 _ (hc y (List.mem_cons_of_mem _ hy))) h2

/-! ## Prices are the prices of the decisions -/

theorem treePriceFrom_eq (s : State) (base : Word) (sym d m : Nat) :
    treePriceFrom s base sym d m = codePrice s (treeCodeFrom base sym d m) := by
  induction d generalizing m with
  | zero => rfl
  | succ d ih => simp only [treePriceFrom, treeCodeFrom, codePrice, List.map_cons, List.sum_cons, ih]; rfl

theorem treePriceRevFrom_eq (s : State) (base : Word) (sym d i m : Nat) :
    treePriceRevFrom s base sym d i m = codePrice s (treeCodeRevFrom base sym d i m) := by
  induction d generalizing i m with
  | zero => rfl
  | succ d ih => simp only [treePriceRevFrom, treeCodeRevFrom, codePrice, List.map_cons, List.sum_cons, ih]; rfl

theorem treePrice_eq (s : State) (base : Word) (d sym : Nat) :
    treePrice s base d sym = codePrice s (treeCode base d sym) := by
  rw [treePrice, treePriceFrom_eq, treeCode_eq]

theorem treePriceRev_eq (s : State) (base : Word) (d sym : Nat) :
    treePriceRev s base d sym = codePrice s (treeCodeRev base d sym) := by
  rw [treePriceRev, treePriceRevFrom_eq, treeCodeRev_eq]

theorem lenPrice_eq (s : State) (base : Word) (ps sym : Nat) :
    lenPrice s base ps sym = codePrice s (lenCode base ps sym) := by
  unfold lenPrice lenCode lowTree midTree highTree
  split
  · simp only [codePrice, List.map_cons, List.sum_cons, treePrice_eq]; rfl
  · split <;> simp only [codePrice, List.map_cons, List.sum_cons, treePrice_eq, State.cellPrice, Nat.add_assoc]

theorem litPrice_eq (s : State) (sub : Word) (byte : Byte) :
    litPrice s sub byte = codePrice s (litCode sub byte.toNat) := by
  rw [litPrice, treePriceFrom_eq, litCode, treeCode_eq]

theorem litPriceMatchedFrom_eq (s : State) (sub : Word) (mb byte : Byte) (d m : Nat) (same : Bool) :
    litPriceMatchedFrom s sub mb byte d m same = codePrice s (matchedCodeFrom sub mb.toNat byte.toNat d m same) := by
  induction d generalizing m same with
  | zero => rfl
  | succ d ih =>
    simp only [litPriceMatchedFrom, matchedCodeFrom, codePrice, List.map_cons, List.sum_cons, ih, BitVec.testBit_toNat]
    rfl

theorem litPriceMatched_eq (s : State) (sub : Word) (mb byte : Byte) :
    litPriceMatched s sub mb byte = codePrice s (matchedCode sub mb.toNat byte.toNat) := by
  rw [litPriceMatched, litPriceMatchedFrom_eq, matchedCode_eq sub mb.isLt byte.isLt]

end Sys2Proof.Machine
end

