-- ==== Sys2Proof/Laws/Decoding.lean ====
section
/-!
SUPPORT. The decoding walks of 43, 44 and 45 as trees of questions: each asks one bit at a time, and which symbol comes out is settled by the decisions taken. Said once: what a walk keeps, which faults it raises, when it completes and how many bytes it reads.
-/

namespace Sys2Proof.Machine

/-! ## Trees of questions -/

/-- A walk: answer a value, or decode a bit with a cell and go on. -/
inductive Walk where
  | done (v : Nat)
  | ask (ea : Word) (next : Bool → Walk)

namespace Walk

/-- Run the walk with DecodeBit. -/
def run : Walk → State → Act Nat
  | done v, s => .ok v s
  | ask ea next, s => (decodeBit ea s).bind fun b s => (next b).run s

/-- The decisions of one way through the walk, and the value at its end. -/
def path : Walk → List Decision → Nat → Prop
  | done v, code, w => code = [] ∧ w = v
  | ask ea next, code, w => ∃ b rest, code = (ea, b) :: rest ∧ (next b).path rest w

/-- The value at the end goes through f. -/
def map (f : Nat → Nat) : Walk → Walk
  | done v => done (f v)
  | ask ea next => ask ea fun b => (next b).map f

/-- No way through the walk is longer than n. -/
def within (n : Nat) (w : Walk) : Prop := ∀ code v, w.path code v → code.length ≤ n

theorem run_map (f : Nat → Nat) (w : Walk) (s : State) : (w.map f).run s = (w.run s).bind fun v s => .ok (f v) s := by
  induction w generalizing s with
  | done v => rfl
  | ask ea next ih => simp only [map, run, Act.bind_assoc, ih]

theorem path_map (f : Nat → Nat) {w : Walk} {code : List Decision} {v : Nat} :
    (w.map f).path code v ↔ ∃ u, w.path code u ∧ v = f u := by
  induction w generalizing code with
  | done u => simp [map, path]
  | ask ea next ih =>
    simp only [map, path, ih]
    grind

theorem exists_path (w : Walk) : ∃ code v, w.path code v := by
  induction w with
  | done v => exact ⟨[], v, rfl, rfl⟩
  | ask ea next ih =>
    obtain ⟨code, v, h⟩ := ih true
    exact ⟨(ea, true) :: code, v, true, code, rfl, h⟩

/-- What DecodeBit keeps on the cells of the ways through a walk, the walk keeps. -/
theorem kept {R : State → State → Prop} {P : State → Word → Prop} (k : DecKept R P) (w : Walk) {s : State}
    (h : ∀ code v, w.path code v → ∀ ea ∈ codeCells code, P s ea) : R s (w.run s).state := by
  induction w generalizing s with
  | done v => exact k.refl s
  | ask ea next ih =>
    obtain ⟨code, v, hp⟩ := (next true).exists_path
    have h1 := k.bit (h ((ea, true) :: code) v ⟨true, code, rfl, hp⟩ ea (by simp))
    unfold run
    refine Act.bind_state (R := R) k.trans h1 fun b t ht => ih b fun code v hp ea' hea' => ?_
    rw [ht] at h1
    exact k.mono h1 (h ((ea, b) :: code) v ⟨b, code, rfl, hp⟩ ea' (List.mem_cons_of_mem _ hea'))

theorem onlyPorts (w : Walk) (s : State) : (w.run s).onlyPorts := by
  induction w generalizing s with
  | done v => trivial
  | ask ea next ih => exact Act.raises_bind (decodeBit_onlyPorts ea s) fun b t => ih b t

/-- A walk that ends with a value took one of its ways, with RD_RANGE at least 2^24 at the end if it was at the start. -/
theorem run_range (w : Walk) {s t : State} {v : Nat} (hr : s.decoderInterval) (h : w.run s = .ok v t) : t.decoderInterval := by
  induction w generalizing s with
  | done u => simp only [run, Act.ok.injEq] at h; exact h.2 ▸ hr
  | ask ea next ih =>
    obtain ⟨b, u, h1, h2⟩ := Act.bind_eq_ok.mp h
    exact ih b (decodeBit_range h1) h2

/-- Everything a walk can do where its cells are in [31, 2017]: it takes one of its ways and completes, or one of the decisions on
it asks for a byte that does not come. -/
theorem ends (w : Walk) {s : State} (hr : s.decoderInterval)
    (hc : ∀ code v, w.path code v → ∀ ea ∈ codeCells code, s.modelCell ea) :
    ∃ code v, w.path code v ∧ ((∃ u, w.run s = .ok v u ∧ decodesAs code s u) ∨
      ∃ t, decodeStarves bitFound bitTaken code s t ∧ (w.run s).endsAt t) := by
  induction w generalizing s with
  | done v => exact ⟨[], v, ⟨rfl, rfl⟩, .inl ⟨s, rfl, rfl⟩⟩
  | ask ea next ih =>
    obtain ⟨code, v, hp⟩ := (next true).exists_path
    have hea := hc ((ea, true) :: code) v ⟨true, code, rfl, hp⟩ ea (by simp)
    obtain ⟨b, h1, ⟨u, h2, h3, h4, -⟩ | ⟨h2, t, h3, h4⟩⟩ := decodeBit_ends hr hea
    · have hk := decModels_kept.bit hea
      rw [h2] at hk
      obtain ⟨code, v, h5, h⟩ := ih b h4
        (fun code v hp x hx => hk.2.1 x (hc ((ea, b) :: code) v ⟨b, code, rfl, hp⟩ x (List.mem_cons_of_mem _ hx)))
      refine ⟨(ea, b) :: code, v, ⟨b, code, rfl, h5⟩, ?_⟩
      rcases h with ⟨t, h6, h7⟩ | ⟨t, h6, h7⟩
      · exact .inl ⟨t, by rw [run, h2]; exact h6, ⟨u, ⟨h1, h3⟩, h7⟩⟩
      · exact .inr ⟨t, ⟨h1, .inr ⟨u, h3, h6⟩⟩, Act.bind_endsAt h2 h7⟩
    · obtain ⟨code, v, hp⟩ := (next b).exists_path
      exact ⟨(ea, b) :: code, v, ⟨b, code, rfl, hp⟩, .inr ⟨t, ⟨h1, .inl ⟨h2, h3⟩⟩, Act.endsAt_bind h4 _⟩⟩

/-- A walk completes where its cells are in [31, 2017] and enough bytes are to come, and this is all it does. -/
theorem completes (w : Walk) {s : State} {n k : Nat} (hr : s.decoderInterval) (hin : s.hasBytes (n + k)) (hw : w.within n)
    (hc : ∀ code v, w.path code v → ∀ ea ∈ codeCells code, s.modelCell ea) :
    ∃ code v u, w.path code v ∧ w.run s = .ok v u ∧ decodesAs code s u ∧ u.decoderInterval ∧ u.hasBytes k := by
  induction w generalizing s n with
  | done v =>
    refine ⟨[], v, s, ⟨rfl, rfl⟩, rfl, rfl, hr, ?_⟩
    obtain ⟨bs, rest, h1, h2⟩ := hin
    exact ⟨bs, rest, h1, by omega⟩
  | ask ea next ih =>
    obtain ⟨code, v, hp⟩ := (next true).exists_path
    have hea := hc ((ea, true) :: code) v ⟨true, code, rfl, hp⟩ ea (by simp)
    have hn := hw ((ea, true) :: code) v ⟨true, code, rfl, hp⟩
    obtain ⟨n, rfl⟩ : ∃ m, n = m + 1 := ⟨n - 1, by simp at hn; omega⟩
    obtain ⟨b, u, h1, h2, h3, h4⟩ := decodeBit_completes (n := n + k) hr hea (by convert hin using 1; omega)
    have hk := decModels_kept.bit hea
    rw [h1] at hk
    obtain ⟨code, v, t, h5, h6, h7, h8⟩ := ih b h3 h4
      (fun code v hp => by have := hw ((ea, b) :: code) v ⟨b, code, rfl, hp⟩; simpa using this)
      (fun code v hp x hx => hk.2.1 x (hc ((ea, b) :: code) v ⟨b, code, rfl, hp⟩ x (List.mem_cons_of_mem _ hx)))
    exact ⟨(ea, b) :: code, v, t, ⟨b, code, rfl, h5⟩, by rw [run, h1]; exact h6, ⟨u, h2, h7⟩, h8⟩

end Walk

/-! ## The walks of the spec -/

/-- Decode d bits from node m down; the node reached (R182). -/
def walkTree (base : Word) : Nat → Nat → Walk
  | 0, m => .done m
  | d + 1, m => .ask (nodeCell base m) fun b => walkTree base d (child m b)

/-- Decode d bits from node m down, the first into bit i of the symbol (R183). -/
def walkTreeRev (base : Word) : Nat → Nat → Nat → Nat → Walk
  | 0, _, _, sym => .done sym
  | d + 1, i, m, sym =>
    .ask (nodeCell base m) fun b => walkTreeRev base d (i + 1) (child m b) (sym ||| (b.toNat <<< i))

/-- Decode the three tiers of a length symbol (R204). -/
def walkLen (base : Word) (ps : Nat) : Walk :=
  .ask base fun c0 =>
    if c0 = false then (walkTree (lowTree base ps) 3 1).map (· - 2 ^ 3)
    else .ask (base + 1#32) fun c1 =>
      if c1 = false then ((walkTree (midTree base ps) 3 1).map (· - 2 ^ 3)).map (8 + ·)
      else ((walkTree (highTree base) 8 1).map (· - 2 ^ 8)).map (16 + ·)

/-- Decode a byte against a match byte (R234). -/
def walkMatched (sub : Word) : Nat → Byte → Nat → Walk
  | 0, _, sym => .done sym
  | d + 1, mb, sym =>
    .ask (nodeCell sub (matchedNode (mb.getLsbD 7) sym)) fun b =>
      if b = mb.getLsbD 7 then walkMatched sub d (mb <<< 1) (child sym b) else walkTree sub d (child sym b)

theorem treeWalk_run (base : Word) (d m : Nat) (s : State) : treeWalk base d m s = (walkTree base d m).run s := by
  induction d generalizing m s with
  | zero => rfl
  | succ d ih => simp only [treeWalk, walkTree, Walk.run, ih]

theorem treeDecode_run (base : Word) (d : Nat) (s : State) :
    treeDecode base d s = ((walkTree base d 1).map (· - 2 ^ d)).run s := by
  rw [Walk.run_map, treeDecode, treeWalk_run]

theorem treeWalkRev_run (base : Word) (d i m sym : Nat) (s : State) :
    treeWalkRev base d i m sym s = (walkTreeRev base d i m sym).run s := by
  induction d generalizing i m sym s with
  | zero => rfl
  | succ d ih => simp only [treeWalkRev, walkTreeRev, Walk.run, ih]

theorem treeDecodeRev_run (base : Word) (d : Nat) (s : State) : treeDecodeRev base d s = (walkTreeRev base d 0 1 0).run s :=
  treeWalkRev_run base d 0 1 0 s

theorem lenDecode_run (base : Word) (ps : Nat) (s : State) : lenDecode base ps s = (walkLen base ps).run s := by
  unfold lenDecode walkLen
  rw [Walk.run]
  congr 1
  funext c0 s
  cases c0
  · simp only [if_true, treeDecode_run]
  · simp only [Bool.true_eq_false, if_false, Walk.run]
    congr 1
    funext c1 s
    cases c1
    · simp only [if_true, treeDecode_run, Walk.run_map]
    · simp only [Bool.true_eq_false, if_false, treeDecode_run, Walk.run_map]

theorem matchedWalk_run (sub : Word) (d : Nat) (mb : Byte) (sym : Nat) (s : State) :
    matchedWalk sub d mb sym s = (walkMatched sub d mb sym).run s := by
  induction d generalizing mb sym s with
  | zero => rfl
  | succ d ih =>
    rw [matchedWalk, walkMatched, Walk.run]
    congr 1
    funext b s
    split
    · exact ih _ _ _
    · exact treeWalk_run _ _ _ _

theorem litDecode_run (sub : Word) (s : State) : litDecode sub s = ((walkTree sub 8 1).map (· &&& 0xFF)).run s := by
  rw [Walk.run_map, litDecode, treeWalk_run]

theorem litDecodeMatched_run (sub : Word) (mb : Byte) (s : State) :
    litDecodeMatched sub mb s = ((walkMatched sub 8 mb 1).map (· &&& 0xFF)).run s := by
  rw [Walk.run_map, litDecodeMatched, matchedWalk_run]

/-! ## Which symbol comes out -/

theorem testBit_top {b : Bool} {d sym : Nat} (h : sym < 2 ^ d) : (b.toNat * 2 ^ d + sym).testBit d = b := by
  rw [Nat.testBit_eq_decide_div_mod_eq, Nat.mul_comm, Nat.mul_add_div (by positivity), Nat.div_eq_of_lt h]
  cases b <;> simp

theorem treeCodeFrom_top (base : Word) {b : Bool} {d sym : Nat} (m : Nat) :
    treeCodeFrom base (b.toNat * 2 ^ d + sym) d m = treeCodeFrom base sym d m :=
  treeCodeFrom_congr base m (by rw [Nat.add_comm, Nat.add_mul_mod_self_right])

/-- The ways through a forward tree are the codes of its symbols. -/
theorem walkTree_path {base : Word} {d m : Nat} {code : List Decision} {v : Nat} (h : (walkTree base d m).path code v) :
    ∃ sym < 2 ^ d, code = treeCodeFrom base sym d m ∧ v = m * 2 ^ d + sym := by
  induction d generalizing m code with
  | zero =>
    obtain ⟨rfl, rfl⟩ := h
    exact ⟨0, by simp, rfl, by simp⟩
  | succ d ih =>
    obtain ⟨b, rest, rfl, h⟩ := h
    obtain ⟨sym, hs, rfl, rfl⟩ := ih h
    have hb : b.toNat ≤ 1 := Bool.toNat_le _
    have hb' : b.toNat * 2 ^ d ≤ 1 * 2 ^ d := Nat.mul_le_mul_right _ hb
    refine ⟨b.toNat * 2 ^ d + sym, by rw [Nat.pow_succ]; omega, ?_, by rw [child, Nat.pow_succ]; ring⟩
    rw [treeCodeFrom, testBit_top hs, treeCodeFrom_top]

/-- The ways through a tree from its root. -/
theorem walkTree_path_root {base : Word} {d : Nat} {code : List Decision} {v : Nat} (h : (walkTree base d 1).path code v) :
    ∃ sym < 2 ^ d, code = treeCode base d sym ∧ v = 2 ^ d + sym := by
  obtain ⟨sym, hs, rfl, rfl⟩ := walkTree_path h
  exact ⟨sym, hs, (treeCode_eq base d sym).symm, by rw [Nat.one_mul]⟩

theorem treeCodeRevFrom_low (base : Word) {d i m sym sym' : Nat} (h : ∀ j < d, sym.testBit (i + j) = sym'.testBit (i + j)) :
    treeCodeRevFrom base sym d i m = treeCodeRevFrom base sym' d i m := by
  induction d generalizing i m with
  | zero => rfl
  | succ d ih =>
    have h0 := h 0 (by omega)
    rw [Nat.add_zero] at h0
    rw [treeCodeRevFrom, treeCodeRevFrom, h0, ih]
    intro j hj
    have := h (j + 1) (by omega)
    rwa [show i + 1 + j = i + (j + 1) by omega]

/-- The ways through a reverse tree are the codes of its symbols. -/
theorem walkTreeRev_path {base : Word} {d i m sym : Nat} {code : List Decision} {v : Nat} (hs : sym < 2 ^ i)
    (h : (walkTreeRev base d i m sym).path code v) :
    v < 2 ^ (i + d) ∧ v % 2 ^ i = sym ∧ code = treeCodeRevFrom base v d i m := by
  induction d generalizing i m sym code with
  | zero =>
    obtain ⟨rfl, rfl⟩ := h
    exact ⟨hs, Nat.mod_eq_of_lt hs, rfl⟩
  | succ d ih =>
    obtain ⟨b, rest, rfl, h⟩ := h
    have e : sym ||| (b.toNat <<< i) = b.toNat * 2 ^ i + sym := by
      rw [Nat.shiftLeft_eq, Nat.or_comm, Nat.mul_comm, ← Nat.two_pow_add_eq_or_of_lt hs]
    have hb : b.toNat ≤ 1 := Bool.toNat_le _
    have hb' : b.toNat * 2 ^ i ≤ 1 * 2 ^ i := Nat.mul_le_mul_right _ hb
    beta_reduce at h
    rw [e] at h
    obtain ⟨h1, h2, rfl⟩ := ih (by rw [Nat.pow_succ]; omega) h
    have hbit : v.testBit i = b := by
      have := congrArg (fun x => x.testBit i) h2
      simp only [Nat.testBit_mod_two_pow] at this
      rw [testBit_top hs] at this
      simpa using this
    refine ⟨by rwa [show i + (d + 1) = i + 1 + d by omega], ?_, by rw [treeCodeRevFrom, hbit]⟩
    have := Nat.mod_mod_of_dvd v (Nat.pow_dvd_pow 2 (Nat.le_succ i))
    rw [h2, Nat.add_comm, Nat.add_mul_mod_self_right, Nat.mod_eq_of_lt hs] at this
    exact this.symm

theorem walkTreeRev_path_root {base : Word} {d : Nat} {code : List Decision} {v : Nat}
    (h : (walkTreeRev base d 0 1 0).path code v) : v < 2 ^ d ∧ code = treeCodeRev base d v := by
  obtain ⟨h1, -, h2⟩ := walkTreeRev_path (by simp) h
  exact ⟨by simpa using h1, by rw [h2, treeCodeRev_eq]⟩

/-- A tree that codes the symbol less its root, moved up by k. -/
theorem walkTree_path_shift {base : Word} {d k : Nat} {code : List Decision} {v : Nat}
    (h : (((walkTree base d 1).map (· - 2 ^ d)).map (k + ·)).path code v) :
    ∃ sym < 2 ^ d, code = treeCode base d sym ∧ v = k + sym := by
  obtain ⟨u, h1, rfl⟩ := (Walk.path_map _).mp h
  obtain ⟨w, h2, rfl⟩ := (Walk.path_map _).mp h1
  obtain ⟨sym, hs, rfl, rfl⟩ := walkTree_path_root h2
  exact ⟨sym, hs, rfl, by rw [Nat.add_sub_cancel_left]⟩

/-- The ways through the length decoder are the codes of the symbols 0 .. 271 (R202). -/
theorem walkLen_path {base : Word} {ps : Nat} {code : List Decision} {v : Nat} (h : (walkLen base ps).path code v) :
    v ≤ 271 ∧ code = lenCode base ps v := by
  obtain ⟨c0, rest, rfl, h⟩ := h
  cases c0
  · obtain ⟨u, h1, rfl⟩ := (Walk.path_map _).mp h
    obtain ⟨sym, hs, rfl, rfl⟩ := walkTree_path_root h1
    rw [Nat.add_sub_cancel_left]
    exact ⟨by omega, by rw [lenCode, if_pos (by omega)]; rfl⟩
  · obtain ⟨c1, rest, rfl, h⟩ := h
    cases c1
    · obtain ⟨sym, hs, rfl, rfl⟩ := walkTree_path_shift h
      exact ⟨by omega, by rw [lenCode, if_neg (by omega), if_pos (by omega), Nat.add_sub_cancel_left]; rfl⟩
    · obtain ⟨sym, hs, rfl, rfl⟩ := walkTree_path_shift h
      exact ⟨by omega, by rw [lenCode, if_neg (by omega), if_neg (by omega), Nat.add_sub_cancel_left]; rfl⟩

theorem matchedCodeFrom_plain (sub : Word) (mb byte d m : Nat) :
    matchedCodeFrom sub mb byte d m false = treeCodeFrom sub byte d m := by
  induction d generalizing m with
  | zero => rfl
  | succ d ih => simp [matchedCodeFrom, treeCodeFrom, litNode, ih]

theorem matchedCodeFrom_congr (sub : Word) (mb : Nat) {byte byte' d : Nat} (m : Nat) (same : Bool)
    (h : byte % 2 ^ d = byte' % 2 ^ d) : matchedCodeFrom sub mb byte d m same = matchedCodeFrom sub mb byte' d m same := by
  induction d generalizing m same with
  | zero => rfl
  | succ d ih =>
    have hb : byte.testBit d = byte'.testBit d := by
      have := congrArg (fun x => x.testBit d) h
      simpa [Nat.testBit_mod_two_pow] using this
    have hm : byte % 2 ^ d = byte' % 2 ^ d := by
      have h1 := mod_two_pow_succ' byte d
      have h2 := mod_two_pow_succ' byte' d
      rw [hb] at h1
      omega
    simp only [matchedCodeFrom, hb, ih _ _ hm]

/-- The ways through the matched literal decoder are the matched codes of the bytes (R234, R235). -/
theorem walkMatched_path {sub : Word} {mb : Byte} {d m : Nat} {code : List Decision} {v : Nat} (hd : d ≤ 8)
    (h : (walkMatched sub d (mb <<< (8 - d)) m).path code v) :
    ∃ sym < 2 ^ d, code = matchedCodeFrom sub mb.toNat sym d m true ∧ v = m * 2 ^ d + sym := by
  induction d generalizing m code with
  | zero =>
    obtain ⟨rfl, rfl⟩ := h
    exact ⟨0, by simp, rfl, by simp⟩
  | succ d ih =>
    obtain ⟨b, rest, rfl, h⟩ := h
    have hbit : (mb <<< (8 - (d + 1))).getLsbD 7 = mb.toNat.testBit d := by
      rw [BitVec.getLsbD_shiftLeft, BitVec.testBit_toNat, show 7 - (8 - (d + 1)) = d by omega]
      simp
    have hshift : mb <<< (8 - (d + 1)) <<< 1 = mb <<< (8 - d) := by
      rw [← BitVec.shiftLeft_add]
      congr 1
      omega
    have hb : b.toNat ≤ 1 := Bool.toNat_le _
    have hb' : b.toNat * 2 ^ d ≤ 1 * 2 ^ d := Nat.mul_le_mul_right _ hb
    beta_reduce at h
    rw [hbit, hshift] at h
    have key : ∃ sym < 2 ^ d, rest = matchedCodeFrom sub mb.toNat sym d (child m b) (mb.toNat.testBit d == b) ∧
        v = child m b * 2 ^ d + sym := by
      split at h
      · rename_i e
        obtain ⟨sym, hs, h1, h2⟩ := ih (by omega) h
        exact ⟨sym, hs, by rw [h1, e]; simp, h2⟩
      · rename_i e
        obtain ⟨sym, hs, h1, h2⟩ := walkTree_path h
        have : (mb.toNat.testBit d == b) = false := by simpa using fun e' => e e'.symm
        exact ⟨sym, hs, by rw [h1, this, matchedCodeFrom_plain], h2⟩
    obtain ⟨sym, hs, rfl, rfl⟩ := key
    refine ⟨b.toNat * 2 ^ d + sym, by rw [Nat.pow_succ]; omega, ?_, by rw [child, Nat.pow_succ]; ring⟩
    rw [matchedCodeFrom, testBit_top hs, hbit, Bool.true_and]
    congr 1
    exact matchedCodeFrom_congr sub _ _ _ (by rw [Nat.add_comm, Nat.add_mul_mod_self_right])

theorem walkLit_path {sub : Word} {code : List Decision} {v : Nat} (h : ((walkTree sub 8 1).map (· &&& 0xFF)).path code v) :
    v < 256 ∧ code = litCode sub v := by
  obtain ⟨u, h1, rfl⟩ := (Walk.path_map _).mp h
  obtain ⟨sym, hs, rfl, rfl⟩ := walkTree_path_root h1
  have : (2 ^ 8 + sym) &&& 0xFF = sym := by
    rw [show (0xFF : Nat) = 2 ^ 8 - 1 from rfl, Nat.and_two_pow_sub_one_eq_mod]
    omega
  exact ⟨by omega, by rw [this]; rfl⟩

theorem walkLitm_path {sub : Word} {mb : Byte} {code : List Decision} {v : Nat}
    (h : ((walkMatched sub 8 mb 1).map (· &&& 0xFF)).path code v) : v < 256 ∧ code = matchedCode sub mb.toNat v := by
  obtain ⟨u, h1, rfl⟩ := (Walk.path_map _).mp h
  obtain ⟨sym, hs, rfl, rfl⟩ := walkMatched_path (d := 8) (mb := mb) (by omega) (by simpa using h1)
  have : (1 * 2 ^ 8 + sym) &&& 0xFF = sym := by
    rw [show (0xFF : Nat) = 2 ^ 8 - 1 from rfl, Nat.and_two_pow_sub_one_eq_mod]
    omega
  exact ⟨by omega, by rw [this, matchedCode_eq sub mb.isLt (by omega)]⟩

/-! ## The cells of a code lie in the command's footprint -/

theorem treeCode_cells {base ea : Word} {d sym : Nat} (h : ea ∈ codeCells (treeCode base d sym)) :
    ea ∈ spanCells (treeSpan base d) := by
  simp only [codeCells, treeCode, List.map_map, List.mem_map, List.mem_range, Function.comp] at h
  obtain ⟨i, hi, rfl⟩ := h
  have h1 : sym % 2 ^ d / 2 ^ (d - i) < 2 ^ i := by
    rw [Nat.div_lt_iff_lt_mul (by positivity), ← Nat.pow_add, show i + (d - i) = d by omega]
    exact Nat.mod_lt _ (by positivity)
  have h2 : 2 ^ (i + 1) ≤ 2 ^ d := Nat.pow_le_pow_right (by omega) (by omega)
  have h3 : 1 ≤ 2 ^ i := Nat.one_le_two_pow
  rw [Nat.pow_succ] at h2
  exact mem_treeSpan.mpr ⟨_, Nat.le_trans h3 (Nat.le_add_right _ _), by have := h1; have := h2; omega, rfl⟩

theorem revNode_bounds (sym i : Nat) : 2 ^ i ≤ revNode sym i ∧ revNode sym i < 2 ^ (i + 1) := by
  induction i with
  | zero => simp [revNode]
  | succ i ih =>
    have hb : (sym.testBit i).toNat ≤ 1 := Bool.toNat_le _
    rw [revNode]
    rw [Nat.pow_succ] at ih ⊢
    rw [Nat.pow_succ]
    omega

theorem treeCodeRev_cells {base ea : Word} {d sym : Nat} (h : ea ∈ codeCells (treeCodeRev base d sym)) :
    ea ∈ spanCells (treeSpan base d) := by
  simp only [codeCells, treeCodeRev, List.map_map, List.mem_map, List.mem_range, Function.comp] at h
  obtain ⟨i, hi, rfl⟩ := h
  have h1 := revNode_bounds sym i
  have h2 : 2 ^ (i + 1) ≤ 2 ^ d := Nat.pow_le_pow_right (by omega) (by omega)
  have h3 : 1 ≤ 2 ^ i := Nat.one_le_two_pow
  exact mem_treeSpan.mpr ⟨revNode sym i, by omega, by omega, rfl⟩

theorem mem_lenSpan {base ea : Word} {ps : Nat} :
    ea ∈ spanCells (lenSpan base ps) ↔ (((ea = base ∨ ea = base + 1#32) ∨ ea ∈ spanCells (treeSpan (lowTree base ps) 3)) ∨
      ea ∈ spanCells (treeSpan (midTree base ps) 3)) ∨ ea ∈ spanCells (treeSpan (highTree base) 8) := by
  have : ea ∈ spanCells [⟨base, 1⟩, ⟨base + 1#32, 1⟩] ↔ ea = base ∨ ea = base + 1#32 := by
    simp [spanCells, Span.cells]
  rw [lenSpan, spanCells_append, spanCells_append, spanCells_append, List.mem_append, List.mem_append, List.mem_append, this]

theorem lenCode_cells {base ea : Word} {ps sym : Nat} (h : ea ∈ codeCells (lenCode base ps sym)) :
    ea ∈ spanCells (lenSpan base ps) := by
  rw [mem_lenSpan]
  unfold lenCode at h
  split at h
  · rcases List.mem_cons.mp h with rfl | h
    · exact .inl (.inl (.inl (.inl rfl)))
    · exact .inl (.inl (.inr (treeCode_cells h)))
  · split at h
    · rcases List.mem_cons.mp h with rfl | h
      · exact .inl (.inl (.inl (.inl rfl)))
      rcases List.mem_cons.mp h with rfl | h
      · exact .inl (.inl (.inl (.inr rfl)))
      · exact .inl (.inr (treeCode_cells h))
    · rcases List.mem_cons.mp h with rfl | h
      · exact .inl (.inl (.inl (.inl rfl)))
      rcases List.mem_cons.mp h with rfl | h
      · exact .inl (.inl (.inl (.inr rfl)))
      · exact .inr (treeCode_cells h)

theorem litCode_cells {sub ea : Word} {byte : Nat} (h : ea ∈ codeCells (litCode sub byte)) :
    ea ∈ spanCells (plainSpan sub) := treeCode_cells h

theorem matchedCode_cells {sub ea : Word} {mb byte : Nat} (h : ea ∈ codeCells (matchedCode sub mb byte)) :
    ea ∈ spanCells (matchedSpan sub) := by
  simp only [codeCells, matchedCode, List.map_map, List.mem_map, List.mem_range, Function.comp] at h
  obtain ⟨i, hi, rfl⟩ := h
  have h1 : byte % 256 / 2 ^ (8 - i) < 2 ^ i := by
    rw [Nat.div_lt_iff_lt_mul (by positivity), ← Nat.pow_add, show i + (8 - i) = 8 by omega]
    exact Nat.mod_lt _ (by positivity)
  have h2 : 2 ^ (i + 1) ≤ 2 ^ 8 := Nat.pow_le_pow_right (by omega) (by omega)
  have h3 : 1 ≤ 2 ^ i := Nat.one_le_two_pow
  rw [Nat.pow_succ] at h2
  have shift : ∀ k m : Nat, nodeCell sub (k + m) = nodeCell (sub + BitVec.ofNat 32 k) m := fun k m => by
    rw [nodeCell, nodeCell, BitVec.ofNat_add, BitVec.add_assoc]
  simp only [matchedSpan, spanCells_append, List.mem_append]
  split
  · cases mb.testBit (7 - i)
    · refine .inl (.inr ?_)
      rw [show 256 * (1 + false.toNat) = 256 from rfl, shift]
      exact mem_treeSpan.mpr ⟨_, Nat.le_trans h3 (Nat.le_add_right _ _), by have := h1; have := h2; omega, rfl⟩
    · refine .inr ?_
      rw [show 256 * (1 + true.toNat) = 512 from rfl, shift]
      exact mem_treeSpan.mpr ⟨_, Nat.le_trans h3 (Nat.le_add_right _ _), by have := h1; have := h2; omega, rfl⟩
  · exact .inl (.inl (mem_treeSpan.mpr ⟨_, Nat.le_trans h3 (Nat.le_add_right _ _), by have := h1; have := h2; omega, rfl⟩))

/-! ## How long the codes are (R135) -/

@[simp] theorem treeCode_length (base : Word) (d sym : Nat) : (treeCode base d sym).length = d := by simp [treeCode]
@[simp] theorem treeCodeRev_length (base : Word) (d sym : Nat) : (treeCodeRev base d sym).length = d := by simp [treeCodeRev]
@[simp] theorem matchedCode_length (sub : Word) (mb byte : Nat) : (matchedCode sub mb byte).length = 8 := by simp [matchedCode]
@[simp] theorem litCode_length (sub : Word) (byte : Nat) : (litCode sub byte).length = 8 := by simp [litCode]

theorem lenCode_length (base : Word) (ps sym : Nat) : (lenCode base ps sym).length ≤ 10 := by
  unfold lenCode
  split
  · simp
  · split <;> simp

end Sys2Proof.Machine
end

