-- ==== Sys2Proof/Laws/Commands.lean ====
section
/-!
SUPPORT. Every command but RESET is its checks and its pseudocode (60_exceptions R285), and what the pseudocode of each kind of command can do.
-/

namespace Sys2Proof.Machine

/-- The checks of steps 3 to 6, as the meanings make them. -/
def execCheck (s : State) : Instr → Option Raise
  | .nop => none
  | .reset => none
  | .pmInit => s.rangeFault [⟨s.a, s.b.toNat⟩]
  | .pmRd => s.readFault (cellSpan s.operandCell)
  | .pmWr =>
    (operandFault (decide (31 ≤ s.c.toNat ∧ s.c.toNat ≤ 2017)) s.c).or (s.rangeFault (cellSpan s.operandCell))
  | .rdInit => none
  | .rdBit => (s.rdReadyFault .rdBit).or (s.readFault (cellSpan s.operandCell))
  | .rdDirect n => s.rdReadyFault (.rdDirect n)
  | .rdTree n => (s.rdReadyFault (.rdTree n)).or (s.readFault (treeSpan s.a n.toNat))
  | .rdRtree n => (s.rdReadyFault (.rdRtree n)).or (s.readFault (treeSpan s.a n.toNat))
  | .rdLen ps l =>
    (s.rdReadyFault (.rdLen ps l)).or (s.pbFault.or ((s.psFault ps).or (s.readFault (lenSpan (s.lenBase l) ps.toNat))))
  | .rdLit => (s.rdReadyFault .rdLit).or (s.lcLpFault.or (s.readFault (plainSpan s.litSub)))
  | .rdLitm => (s.rdReadyFault .rdLitm).or (s.lcLpFault.or (s.readFault (matchedSpan s.litSub)))
  | .reInit => none
  | .reBit => (s.reReadyFault .reBit).or (s.readFault (cellSpan s.operandCell))
  | .reDirect n => s.reReadyFault (.reDirect n)
  | .reTree n => (s.reReadyFault (.reTree n)).or (s.readFault (treeSpan s.a n.toNat))
  | .reRtree n => (s.reReadyFault (.reRtree n)).or (s.readFault (treeSpan s.a n.toNat))
  | .reLen ps l =>
    (s.reReadyFault (.reLen ps l)).or (s.pbFault.or ((if s.pv l then s.tableSizeFault else none).or
      ((s.psFault ps).or ((operandFault (decide (s.b.toNat ≤ 271)) s.b).or
        (s.readFault (lenSpan (s.lenBase l) ps.toNat))))))
  | .reLit => (s.reReadyFault .reLit).or (s.lcLpFault.or (s.readFault (plainSpan s.litSub)))
  | .reLitm => (s.reReadyFault .reLitm).or (s.lcLpFault.or (s.readFault (matchedSpan s.litSub)))
  | .reFlush => s.reReadyFault .reFlush
  | .idxLit => s.lcLpFault
  | .idxPs => s.pbFault
  | .prBit => s.readFault (cellSpan s.operandCell)
  | .prTree n => s.readFault (treeSpan s.a n.toNat)
  | .prRtree n => s.readFault (treeSpan s.a n.toNat)
  | .prLit => s.lcLpFault.or (s.readFault (plainSpan s.litSub))
  | .prLitm => s.lcLpFault.or (s.readFault (matchedSpan s.litSub))
  | .prLen ps l =>
    s.pbFault.or (s.tableSizeFault.or ((s.psFault ps).or ((s.pvFault l (.prLen ps l)).or
      (operandFault (decide (s.b.toNat < s.cfg.tableSize.toNat)) s.b))))
  | .lenPriceInit l => s.pbFault.or (s.tableSizeFault.or (s.readFault (lenPriceSpan (s.lenBase l) (2 ^ s.cfg.pb.toNat))))

/-- The pseudocode of step 7. -/
def execBody (s : State) : Instr → Act Unit
  | .nop => .ok () s
  | .reset => .ok () s.resetBlock
  | .pmInit => .ok () { s with pm := fillRun 1024#16 s.b.toNat s.a s.pm }
  | .pmRd => .ok () (s.setRes ((s.pmRead s.operandCell).setWidth 32))
  | .pmWr => .ok () (s.pmWrite s.operandCell s.operandProb)
  | .rdInit => (seedCode 5 0#32 s).bind fun code s =>
      .ok () { s with rdCode := code, rdRange := 0xFFFFFFFF#32, rdReady := true }
  | .rdBit => ((decodeBit s.operandCell s).bind fun bit s => .ok bit.toNat s).toRes
  | .rdDirect n => (decodeDirect n.toNat 0#32 s).bind fun v s => .ok () (s.setRes v)
  | .rdTree n => (treeDecode s.a n.toNat s).toRes
  | .rdRtree n => (treeDecodeRev s.a n.toNat s).toRes
  | .rdLen ps l => (lenDecode (s.lenBase l) ps.toNat s).toRes
  | .rdLit => (litDecode s.litSub s).toRes
  | .rdLitm => (litDecodeMatched s.litSub s.matchByte s).toRes
  | .reInit => .ok ()
      { s with reRange := 0xFFFFFFFF#32, reLow := 0#33, reCache := 0#8, reCacheSize := 1#64, rePos := 0#64
               reReady := true }
  | .reBit => encodeBit s.operandCell s.operandBit s
  | .reDirect n => encodeDirect s.b n.toNat s
  | .reTree n => treeEncode s.a n.toNat s.b.toNat s
  | .reRtree n => treeEncodeRev s.a n.toNat s.b.toNat s
  | .reLen ps l => (lenEncode (s.lenBase l) ps.toNat s.b.toNat s).bind fun _ s =>
      .ok () (if s.pv l then s.countAndRefill l ps.toNat else s)
  | .reLit => litEncode s.litSub s.literal s
  | .reLitm => litEncodeMatched s.litSub s.matchByte s.literal s
  | .reFlush => (shiftLows 5 s).bind fun _ s => outFlush s
  | .idxLit => .ok () (s.setRes s.litSub)
  | .idxPs => .ok () (s.setRes s.posState)
  | .prBit => .ok () (s.setRes (BitVec.ofNat 32 (priceBit (s.pmRead s.operandCell) s.operandBit)))
  | .prTree n => .ok () (s.setRes (BitVec.ofNat 32 (treePrice s s.a n.toNat s.b.toNat)))
  | .prRtree n => .ok () (s.setRes (BitVec.ofNat 32 (treePriceRev s s.a n.toNat s.b.toNat)))
  | .prLit => .ok () (s.setRes (BitVec.ofNat 32 (litPrice s s.litSub s.literal)))
  | .prLitm => .ok () (s.setRes (BitVec.ofNat 32 (litPriceMatched s s.litSub s.matchByte s.literal)))
  | .prLen ps l => .ok () (s.setRes (s.lenPriceAt l ps.toNat s.b.toNat))
  | .lenPriceInit l => .ok () ((s.refills l (2 ^ s.cfg.pb.toNat)).setPv l)

/-- A command is its checks and its pseudocode. -/
theorem exec_eq (i : Instr) (s : State) : exec i s = command (execCheck s i) (fun s => execBody s i) s := by
  cases i <;> rfl

/-- The two ways a command reaches its next state. -/
theorem exec_cases {i : Instr} {s t : State} (h : exec i s = .next t) :
    (∃ r, execCheck s i = some r ∧ t = s.raise r) ∨ (execCheck s i = none ∧ t = (execBody s i).settle) := by
  rw [exec_eq] at h
  exact command_next h

/-- A command always answers a next state. -/
theorem runsTo_afterCommand (i : Instr) (s : State) : runsTo i s (afterCommand i s) := by
  unfold afterCommand
  rw [runsTo, exec_eq, command_eq]

theorem exec_of_none {i : Instr} {s : State} (h : execCheck s i = none) : exec i s = .next (execBody s i).settle := by
  rw [exec_eq, h]
  rfl

theorem exec_of_some {i : Instr} {s : State} {r : Raise} (h : execCheck s i = some r) : exec i s = .next (s.raise r) := by
  rw [exec_eq, h]
  rfl

/-! ## The kinds of pseudocode -/

/-- A command that only reads writes RES and nothing else. -/
theorem execBody_reader {i : Instr} {s : State} (h : readsOnly i = true) : ∃ v, execBody s i = .ok () (s.setRes v) := by
  cases i <;> simp [readsOnly] at h <;> exact ⟨_, rfl⟩

/-- A decoder's command is an act in the decoder's frame, on its footprint, that puts its value into RES. -/
theorem execBody_decoder {i : Instr} {s : State} (h : needsDecoder i = true) :
    ∃ act : Act Nat, execBody s i = act.toRes ∧ decoderOn (spanCells (footprint s i)) s act.state ∧ act.onlyPorts ∧
      ∀ v u, act = .ok v u → s.decoderInterval → u.decoderInterval := by
  cases i <;> simp [needsDecoder] at h
  case rdBit =>
    refine ⟨_, rfl, ?_, Act.raises_bind (decodeBit_onlyPorts _ _) fun _ _ => trivial, fun v u h _ => ?_⟩
    rotate_left
    · obtain ⟨_, w, h1, h2⟩ := Act.bind_eq_ok.mp h
      simp only [Act.ok.injEq] at h2
      exact h2.2 ▸ decodeBit_range h1
    have k := decOn_kept (spanCells (footprint s .rdBit))
    exact Act.bind_state (R := decoderOn _) k.trans (k.bit (by simp [footprint, spanCells, Span.cells, State.operandCell]))
      fun _ t _ => k.refl t
  case rdDirect n =>
    refine ⟨(decodeDirect n.toNat 0#32 s).bind fun v s => .ok v.toNat s, ?_, ?_,
      Act.raises_bind (decodeDirect_onlyPorts _ _ _) fun _ _ => trivial, fun v u h hr => ?_⟩
    rotate_right
    · obtain ⟨_, w, h1, h2⟩ := Act.bind_eq_ok.mp h
      simp only [Act.ok.injEq] at h2
      exact h2.2 ▸ decodeDirect_range hr h1
    · simp only [execBody, Act.toRes, Act.bind_assoc, Act.bind_ok, BitVec.ofNat_toNat, BitVec.setWidth_eq]
    · have k := decOn_kept (spanCells (footprint s (.rdDirect n)))
      have hd := decodeDirect_frame n.toNat 0#32 s
      exact Act.bind_state (R := decoderOn _) k.trans (.of_pm _ hd.1 hd.2) fun _ t _ => k.refl t
  case rdTree n =>
    refine ⟨_, rfl, ?_, by rw [treeDecode_run]; exact Walk.onlyPorts _ _, fun v u h hr => Walk.run_range _ hr (treeDecode_run .. ▸ h)⟩
    rw [treeDecode_run]
    refine Walk.kept (decOn_kept _) _ fun code v hp ea hea => ?_
    obtain ⟨u, h1, rfl⟩ := (Walk.path_map _).mp hp
    obtain ⟨sym, -, rfl, -⟩ := walkTree_path_root h1
    exact treeCode_cells hea
  case rdRtree n =>
    refine ⟨_, rfl, ?_, by rw [treeDecodeRev_run]; exact Walk.onlyPorts _ _, fun v u h hr => Walk.run_range _ hr (treeDecodeRev_run .. ▸ h)⟩
    rw [treeDecodeRev_run]
    refine Walk.kept (decOn_kept _) _ fun code v hp ea hea => ?_
    obtain ⟨-, rfl⟩ := walkTreeRev_path_root hp
    exact treeCodeRev_cells hea
  case rdLen ps l =>
    refine ⟨_, rfl, ?_, by rw [lenDecode_run]; exact Walk.onlyPorts _ _, fun v u h hr => Walk.run_range _ hr (lenDecode_run .. ▸ h)⟩
    rw [lenDecode_run]
    refine Walk.kept (decOn_kept _) _ fun code v hp ea hea => ?_
    obtain ⟨-, rfl⟩ := walkLen_path hp
    exact lenCode_cells hea
  case rdLit =>
    refine ⟨_, rfl, ?_, by rw [litDecode_run]; exact Walk.onlyPorts _ _, fun v u h hr => Walk.run_range _ hr (litDecode_run .. ▸ h)⟩
    rw [litDecode_run]
    refine Walk.kept (decOn_kept _) _ fun code v hp ea hea => ?_
    obtain ⟨-, rfl⟩ := walkLit_path hp
    exact litCode_cells hea
  case rdLitm =>
    refine ⟨_, rfl, ?_, by rw [litDecodeMatched_run]; exact Walk.onlyPorts _ _, fun v u h hr => Walk.run_range _ hr (litDecodeMatched_run .. ▸ h)⟩
    rw [litDecodeMatched_run]
    refine Walk.kept (decOn_kept _) _ fun code v hp ea hea => ?_
    obtain ⟨-, rfl⟩ := walkLitm_path hp
    exact matchedCode_cells hea

/-- The encoding part of an encoder's command: the whole of it but for RE_LEN's counter. -/
def encodePart (s : State) : Instr → Act Unit
  | .reLen ps l => lenEncode (s.lenBase l) ps.toNat s.b.toNat s
  | i => execBody s i

/-- An encoder's command encodes in the encoder's frame, on its footprint; RE_LEN then counts. -/
theorem encodePart_frame {i : Instr} {s : State} (h : needsEncoder i = true) :
    encoderOn (spanCells (footprint s i)) s (encodePart s i).state ∧ (encodePart s i).onlySink := by
  have coded : ∀ cells code, (∀ ea ∈ codeCells code, ea ∈ cells) →
      encoderOn cells s (encodeAll code s).state ∧ (encodeAll code s).onlySink := fun cells code hc =>
    ⟨encodeAll_kept (encOn_kept cells) code fun _ hx => hc _ (List.mem_map_of_mem hx), encodeAll_onlySink code s⟩
  cases i <;> simp [needsEncoder] at h
  case reBit =>
    exact ⟨(encOn_kept _).bit _ (by simp [footprint, spanCells, Span.cells, State.operandCell]), encodeBit_onlySink _ _ _⟩
  case reDirect n => exact ⟨.of_pm _ (encodeDirect_frame _ _ _).1 (encodeDirect_frame _ _ _).2, encodeDirect_onlySink _ _ _⟩
  case reTree n => simp only [encodePart, execBody, treeEncode_eq]; exact coded _ _ fun _ => treeCode_cells
  case reRtree n => simp only [encodePart, execBody, treeEncodeRev_eq]; exact coded _ _ fun _ => treeCodeRev_cells
  case reLen ps l => simp only [encodePart, lenEncode_eq]; exact coded _ _ fun _ => lenCode_cells
  case reLit => simp only [encodePart, execBody, litEncode_eq]; exact coded _ _ fun _ => litCode_cells
  case reLitm => simp only [encodePart, execBody, litEncodeMatched_eq]; exact coded _ _ fun _ => matchedCode_cells
  case reFlush =>
    have hf : portOnly s (execBody s .reFlush).state :=
      Act.bind_state (R := portOnly) portOnly.trans (shiftLows_frame _ s) fun _ t _ => outFlush_frame t
    exact ⟨.of_pm _ hf.1 hf.2, Act.raises_bind (shiftLows_onlySink _ _) fun _ t => outFlush_onlySink t⟩

/-- The encoding part keeps the encoder's interval (R153). -/
theorem encodePart_interval {i : Instr} {s t : State} (h : needsEncoder i = true) (hs : s.encoderInterval)
    (hc : s.readable (spanCells (footprint s i))) (hp : encodePart s i = .ok () t) : t.encoderInterval := by
  have coded : ∀ code, (∀ ea ∈ codeCells code, ea ∈ spanCells (footprint s i)) → encodeAll code s = .ok () t →
      t.encoderInterval := fun code hm he =>
    encodeAll_interval code hs.1 hs.2 (fun x hx => hc _ (hm _ (List.mem_map_of_mem hx))) he
  cases i <;> simp [needsEncoder] at h
  case reBit =>
    exact encodeBit_interval hs.1 hs.2 (hc _ (by simp [footprint, spanCells, Span.cells, State.operandCell])) hp
  case reDirect n => exact encodeDirect_interval hs.1 hs.2 hp
  case reTree n => simp only [encodePart, execBody, treeEncode_eq] at hp; exact coded _ (fun _ => treeCode_cells) hp
  case reRtree n => simp only [encodePart, execBody, treeEncodeRev_eq] at hp; exact coded _ (fun _ => treeCodeRev_cells) hp
  case reLen ps l => simp only [encodePart, lenEncode_eq] at hp; exact coded _ (fun _ => lenCode_cells) hp
  case reLit => simp only [encodePart, execBody, litEncode_eq] at hp; exact coded _ (fun _ => litCode_cells) hp
  case reLitm => simp only [encodePart, execBody, litEncodeMatched_eq] at hp; exact coded _ (fun _ => matchedCode_cells) hp
  case reFlush =>
    obtain ⟨_, u, h1, h2⟩ := Act.bind_eq_ok.mp hp
    have h3 := shiftLows_interval h1
    have ht : t.reRange = u.reRange ∧ t.reLow = u.reLow := by
      rcases outFlush_cases u with ⟨p, e⟩ | ⟨r, p, -, e⟩ | e <;> rw [e] at h2 <;> simp at h2
      exact h2 ▸ ⟨rfl, rfl⟩
    have hlt := u.reRange.isLt
    rw [State.encoderInterval, ht.1, ht.2]
    refine ⟨by rw [h3.1]; exact hs.1, by omega⟩

theorem execBody_encoder {i : Instr} {s : State} (h : needsEncoder i = true) :
    execBody s i = encodePart s i ∨ ∃ ps l, i = .reLen ps l ∧
      execBody s i = (encodePart s i).bind fun _ s => .ok () (if s.pv l then s.countAndRefill l ps.toNat else s) := by
  cases i <;> simp [needsEncoder] at h
  case reLen ps l => exact .inr ⟨ps, l, rfl, rfl⟩
  all_goals exact .inl rfl

/-- The kinds of commands. -/
theorem instr_kinds (i : Instr) :
    i = .nop ∨ i = .reset ∨ i = .pmInit ∨ i = .pmWr ∨ i = .rdInit ∨ i = .reInit ∨ (∃ l, i = .lenPriceInit l) ∨
      readsOnly i = true ∨ needsDecoder i = true ∨ needsEncoder i = true := by
  cases i <;> simp [readsOnly, needsDecoder, needsEncoder]

/-- Everything a decoder's command leaves after its checks: its value in RES, a port's fault, or waiting for a byte. -/
theorem decoder_settled {i : Instr} {s : State} (h : needsDecoder i = true) :
    ∃ u, decoderOn (spanCells (footprint s i)) s u ∧
      ((∃ v, (s.decoderInterval → u.decoderInterval) ∧ (execBody s i).settle = u.setRes v) ∨ (∃ r, portFault r ∧ (execBody s i).settle = u.raise r) ∨
        ∃ q, (execBody s i).settle = u.await q) := by
  obtain ⟨act, h1, h2, h3, h4⟩ := execBody_decoder (s := s) h
  rw [h1, Act.toRes_settle]
  cases act with
  | ok v u => exact ⟨u, h2, .inl ⟨_, h4 v u rfl, rfl⟩⟩
  | raised r u => exact ⟨u, h2, .inr (.inl ⟨r, h3, rfl⟩)⟩
  | waiting q u => exact ⟨u, h2, .inr (.inr ⟨q, rfl⟩)⟩

/-- Everything an encoder's command leaves after its checks: the encoder's part done, with RE_LEN's count after it; a port's
fault; or waiting for the sink. -/
theorem encoder_settled {i : Instr} {s : State} (h : needsEncoder i = true) :
    ∃ u, encoderOn (spanCells (footprint s i)) s u ∧
      ((encodePart s i = .ok () u ∧ ((execBody s i).settle = u ∨
          ∃ ps l, i = .reLen ps l ∧ s.pv l = true ∧ (execBody s i).settle = u.countAndRefill l ps.toNat)) ∨
        (∃ r, sinkFault r ∧ (execBody s i).settle = u.raise r) ∨ ∃ q, (execBody s i).settle = u.await q) := by
  obtain ⟨h2, h3⟩ := encodePart_frame (s := s) h
  refine ⟨_, h2, ?_⟩
  rcases execBody_encoder (s := s) h with h1 | ⟨ps, l, rfl, h1⟩
  · rw [h1]
    cases e : encodePart s i with
    | ok v u => exact .inl ⟨rfl, .inl rfl⟩
    | raised r u => exact .inr (.inl ⟨r, by rw [e] at h3; exact h3, rfl⟩)
    | waiting q u => exact .inr (.inr ⟨q, rfl⟩)
  · rw [h1]
    cases e : encodePart s (.reLen ps l) with
    | ok v u =>
      refine .inl ⟨rfl, ?_⟩
      rw [e] at h2
      have hpv : u.pv l = s.pv l := by
        have h4 := h2.1
        unfold encoderOnly at h4
        simp only [Act.state_ok] at h4
        rw [h4]
        rfl
      simp only [Act.bind_ok, Act.settle_ok, Act.state_ok]
      by_cases hp : u.pv l = true
      · exact .inr ⟨ps, l, rfl, hpv ▸ hp, by rw [if_pos hp]⟩
      · exact .inl (by rw [if_neg hp])
    | raised r u => exact .inr (.inl ⟨r, by rw [e] at h3; exact h3, rfl⟩)
    | waiting q u => exact .inr (.inr ⟨q, rfl⟩)

/-- Everything RD_INIT leaves: the decoder started, a port's fault, or waiting for a byte; only the input differs then (R130). -/
theorem rdInit_settled (s : State) :
    ∃ p, (∃ code, (execBody s .rdInit).settle =
          { s with input := p, rdCode := code, rdRange := 0xFFFFFFFF#32, rdReady := true }) ∨
      (∃ r, portFault r ∧ (execBody s .rdInit).settle = State.raise { s with input := p } r) ∨
      ∃ q, (execBody s .rdInit).settle = State.await { s with input := p } q := by
  have h1 := seedCode_frame 5 0#32 s
  have h2 := seedCode_onlyPorts 5 0#32 s
  simp only [execBody]
  cases e : seedCode 5 0#32 s with
  | ok code u =>
    rw [e] at h1
    simp only [Act.state_ok] at h1
    exact ⟨u.input, .inl ⟨code, by rw [Act.bind_ok, Act.settle_ok]; rw [h1]⟩⟩
  | raised r u =>
    rw [e] at h1 h2
    simp only [Act.state_raised] at h1
    exact ⟨u.input, .inr (.inl ⟨r, h2, by rw [Act.bind_raised, Act.settle_raised]; rw [h1]⟩)⟩
  | waiting q u =>
    rw [e] at h1
    simp only [Act.state_waiting] at h1
    exact ⟨u.input, .inr (.inr ⟨q, by rw [Act.bind_waiting, Act.settle_waiting]; rw [h1]⟩)⟩

/-! ## What passed checks give -/

/-- In a state of the models' invariant, a footprint that passed its check can be coded with. -/
theorem readable_of_readFault {s : State} {fp : List Span} (hm : s.modelsInv) (h : s.readFault fp = none) :
    s.readable (spanCells fp) := by
  intro ea hea
  obtain ⟨h1, h2⟩ := readFault_none.mp h ea hea
  exact ⟨h1, h2, (hm.2 _ (Cells.mem_of_get? (s.get?_of_pmWritten h2))).2⟩

/-- A coding command that passed its checks codes with cells in [31, 2017]. -/
theorem footprint_readable {s : State} {i : Instr} (hm : s.modelsInv) (hi : needsDecoder i = true ∨ needsEncoder i = true)
    (h : execCheck s i = none) : s.readable (spanCells (footprint s i)) := by
  rcases hi with hi | hi <;> cases i <;> simp [needsDecoder, needsEncoder] at hi <;>
    simp only [execCheck, Option.or_eq_none_iff] at h <;>
    first
      | exact readable_of_readFault hm h.2
      | exact readable_of_readFault hm h.2.2
      | exact readable_of_readFault hm h.2.2.2
      | exact readable_of_readFault hm h.2.2.2.2.2
      | (intro ea hea; simp [footprint, spanCells] at hea)

/-! ## Everything a command can do -/

/-- Everything a command but RESET can leave of s, by kind. Where a port decides, u is the state at that moment, in the frame of
its coder. -/
inductive CommandEffect (s : State) : Instr → State → Prop where
  | refused (i : Instr) (r : Raise) (h : execCheck s i = some r) : CommandEffect s i (s.raise r)
  | nop : CommandEffect s .nop s
  | pmInit (h : execCheck s .pmInit = none) :
      CommandEffect s .pmInit { s with pm := fillRun 1024#16 s.b.toNat s.a s.pm }
  | pmWr (h : execCheck s .pmWr = none) : CommandEffect s .pmWr (s.pmWrite s.operandCell s.operandProb)
  | reInit : CommandEffect s .reInit
      { s with reRange := 0xFFFFFFFF#32, reLow := 0#33, reCache := 0#8, reCacheSize := 1#64, rePos := 0#64
               reReady := true }
  | lenPriceInit (l : BitVec 1) (h : execCheck s (.lenPriceInit l) = none) :
      CommandEffect s (.lenPriceInit l) ((s.refills l (2 ^ s.cfg.pb.toNat)).setPv l)
  | reader (i : Instr) (v : Word) (hi : readsOnly i = true) (h : execCheck s i = none) : CommandEffect s i (s.setRes v)
  | rdInit (p : InPort) (code : Word) : CommandEffect s .rdInit
      { s with input := p, rdCode := code, rdRange := 0xFFFFFFFF#32, rdReady := true }
  | decoded (i : Instr) (u : State) (v : Word) (hi : needsDecoder i = true) (h : execCheck s i = none)
      (hu : decoderOn (spanCells (footprint s i)) s u) (hr : s.decoderInterval → u.decoderInterval) :
      CommandEffect s i (u.setRes v)
  | encoded (i : Instr) (u : State) (hi : needsEncoder i = true) (h : execCheck s i = none) (hu : encoderOn (spanCells (footprint s i)) s u)
      (hp : encodePart s i = .ok () u) : CommandEffect s i u
  | counted (ps : BitVec 4) (l : BitVec 1) (u : State) (h : execCheck s (.reLen ps l) = none) (hu : encoderOn (spanCells (footprint s (.reLen ps l))) s u)
      (hp : encodePart s (.reLen ps l) = .ok () u) (hv : s.pv l = true) :
      CommandEffect s (.reLen ps l) (u.countAndRefill l ps.toNat)
  | initFault (p : InPort) (r : Raise) (hr : portFault r) : CommandEffect s .rdInit (State.raise { s with input := p } r)
  | initWaits (p : InPort) (q : PortRequest) : CommandEffect s .rdInit (State.await { s with input := p } q)
  | decodeFault (i : Instr) (u : State) (r : Raise) (hi : needsDecoder i = true) (h : execCheck s i = none)
      (hu : decoderOn (spanCells (footprint s i)) s u) (hr : portFault r) : CommandEffect s i (u.raise r)
  | decodeWaits (i : Instr) (u : State) (q : PortRequest) (hi : needsDecoder i = true) (h : execCheck s i = none)
      (hu : decoderOn (spanCells (footprint s i)) s u) : CommandEffect s i (u.await q)
  | encodeFault (i : Instr) (u : State) (r : Raise) (hi : needsEncoder i = true) (h : execCheck s i = none)
      (hu : encoderOn (spanCells (footprint s i)) s u) (hr : sinkFault r) : CommandEffect s i (u.raise r)
  | encodeWaits (i : Instr) (u : State) (q : PortRequest) (hi : needsEncoder i = true) (h : execCheck s i = none)
      (hu : encoderOn (spanCells (footprint s i)) s u) : CommandEffect s i (u.await q)

theorem exec_effect {i : Instr} {s t : State} (hi : i ≠ .reset) (h : exec i s = .next t) : CommandEffect s i t := by
  rcases exec_cases h with ⟨r, hr, rfl⟩ | ⟨hc, rfl⟩
  · exact .refused i r hr
  rcases instr_kinds i with rfl | rfl | rfl | rfl | rfl | rfl | ⟨l, rfl⟩ | hk | hk | hk
  · exact .nop
  · exact absurd rfl hi
  · exact .pmInit hc
  · exact .pmWr hc
  · obtain ⟨p, ⟨code, e⟩ | ⟨r, hr, e⟩ | ⟨q, e⟩⟩ := rdInit_settled s <;> rw [e]
    · exact .rdInit p code
    · exact .initFault p r hr
    · exact .initWaits p q
  · exact .reInit
  · exact .lenPriceInit l hc
  · obtain ⟨v, e⟩ := execBody_reader (s := s) hk
    rw [e]
    exact .reader i v hk hc
  · obtain ⟨u, hu, ⟨v, hr, e⟩ | ⟨r, hr, e⟩ | ⟨q, e⟩⟩ := decoder_settled (s := s) hk <;> rw [e]
    · exact .decoded i u v hk hc hu hr
    · exact .decodeFault i u r hk hc hu hr
    · exact .decodeWaits i u q hk hc hu
  · obtain ⟨u, hu, ⟨hp, e | ⟨ps, l, rfl, hv, e⟩⟩ | ⟨r, hr, e⟩ | ⟨q, e⟩⟩ := encoder_settled (s := s) hk <;> rw [e]
    · exact .encoded i u hk hc hu hp
    · exact .counted ps l u hc hu hp hv
    · exact .encodeFault i u r hk hc hu hr
    · exact .encodeWaits i u q hk hc hu

/-! ## The price tables -/

/-- CountAndRefill writes only the tables, at the index of (l, ps). -/
theorem countAndRefill_frame (s : State) (l : BitVec 1) (ps : Nat) :
    s.countAndRefill l ps =
        { s with lenPrice := (s.countAndRefill l ps).lenPrice, lenCnt := (s.countAndRefill l ps).lenCnt } ∧
      ∀ k, k ≠ lenIndex l ps → (s.countAndRefill l ps).lenPrice.get? k = s.lenPrice.get? k ∧
        (s.countAndRefill l ps).lenCnt.get? k = s.lenCnt.get? k := by
  unfold State.countAndRefill
  simp only
  split
  · exact ⟨rfl, fun k hk => by simp [State.refill, Cells.get?_set_ne _ _ hk]⟩
  · exact ⟨rfl, fun k hk => by simp [Cells.get?_set_ne _ _ hk]⟩

/-- The refills of LEN_PRICE_INIT: the tables below n are filled, everything else is as before (R209). -/
theorem refills_eq (s : State) (l : BitVec 1) (n : Nat) :
    s.refills l n = { s with lenPrice := (s.refills l n).lenPrice, lenCnt := (s.refills l n).lenCnt } ∧
      (∀ q < n, (s.refills l n).lenPrice.get? (lenIndex l q) = some (lenPrices s (s.lenBase l) q s.cfg.tableSize.toNat) ∧
        (s.refills l n).lenCnt.get? (lenIndex l q) = some s.cfg.tableSize) ∧
      (∀ k, (∀ q < n, k ≠ lenIndex l q) → (s.refills l n).lenPrice.get? k = s.lenPrice.get? k ∧
        (s.refills l n).lenCnt.get? k = s.lenCnt.get? k) := by
  induction n with
  | zero => exact ⟨rfl, by simp, fun k _ => ⟨rfl, rfl⟩⟩
  | succ n ih =>
    obtain ⟨h1, h2, h3⟩ := ih
    have hb : (s.refills l n).lenBase l = s.lenBase l := by rw [h1]; rfl
    have hc : (s.refills l n).cfg = s.cfg := by rw [h1]
    have hp : ∀ sym, Machine.lenPrice (s.refills l n) ((s.refills l n).lenBase l) n sym =
        codePrice s (lenCode (s.lenBase l) n sym) := fun sym => by
      rw [lenPrice_eq, hb]
      simp only [codePrice]
      congr 2
      funext x
      rw [h1]
      rfl
    have hl : ((List.range (s.refills l n).cfg.tableSize.toNat).map fun sym =>
        BitVec.ofNat 32 (Machine.lenPrice (s.refills l n) ((s.refills l n).lenBase l) n sym)) =
        lenPrices s (s.lenBase l) n s.cfg.tableSize.toNat := by
      rw [hc, lenPrices]
      exact List.map_congr_left fun sym _ => by rw [hp]
    have hr : s.refills l (n + 1) = { s.refills l n with
        lenPrice := (s.refills l n).lenPrice.set (lenIndex l n) (lenPrices s (s.lenBase l) n s.cfg.tableSize.toNat)
        lenCnt := (s.refills l n).lenCnt.set (lenIndex l n) s.cfg.tableSize } := by
      show (s.refills l n).refill l n = _
      have ht : (s.refills l n).cfg.tableSize = s.cfg.tableSize := by rw [hc]
      rw [State.refill, hl, ht]
    refine ⟨?_, fun q hq => ?_, fun k hk => ?_⟩
    · rw [hr, h1]
    · rw [hr]
      simp only [Cells.get?_set, lenIndex, Nat.add_left_cancel_iff]
      by_cases hqn : q = n
      · subst hqn
        exact ⟨if_pos rfl, if_pos rfl⟩
      · rw [if_neg hqn, if_neg hqn]
        exact h2 q (by omega)
    · rw [hr]
      simp only [Cells.get?_set_ne _ _ (hk n (by omega))]
      exact h3 k fun q hq => hk q (by omega)

end Sys2Proof.Machine
end

