-- ==== Sys2Proof/Laws/Decode.lean ====
section
/-!
SUPPORT. The fields of a command word that was put together from fields (30_encoding R90).
-/

namespace Sys2Proof

variable (op : BitVec 8) (n : BitVec 6) (ps : BitVec 4) (l : BitVec 1)

/-- A command word as a number. -/
theorem commandWord_toNat :
    (commandWord op n ps l).toNat = op.toNat + 2 ^ 8 * n.toNat + 2 ^ 14 * ps.toNat + 2 ^ 18 * l.toNat := by
  have h0 := op.isLt; have h1 := n.isLt; have h2 := ps.isLt; have h3 := l.isLt
  have key : ∀ (a k b : Nat), b < 2 ^ k → a * 2 ^ k ||| b = a * 2 ^ k + b := fun a k b h => by
    rw [Nat.mul_comm, ← Nat.two_pow_add_eq_or_of_lt h]
  simp only [commandWord, BitVec.toNat_append, BitVec.toNat_ofNat, Nat.shiftLeft_eq]
  rw [key _ _ _ h0, key _ _ _ h1, key _ _ _ h2, key _ _ _ h3]
  omega

@[simp] theorem fieldOp_commandWord : fieldOp (commandWord op n ps l) = op := by
  apply BitVec.eq_of_toNat_eq
  have h0 := op.isLt
  simp only [fieldOp, BitVec.extractLsb'_toNat, commandWord_toNat, Nat.shiftRight_eq_div_pow]
  omega

@[simp] theorem fieldN_commandWord : fieldN (commandWord op n ps l) = n := by
  apply BitVec.eq_of_toNat_eq
  have h0 := op.isLt; have h1 := n.isLt
  simp only [fieldN, BitVec.extractLsb'_toNat, commandWord_toNat, Nat.shiftRight_eq_div_pow]
  omega

@[simp] theorem fieldPs_commandWord : fieldPs (commandWord op n ps l) = ps := by
  apply BitVec.eq_of_toNat_eq
  have h0 := op.isLt; have h1 := n.isLt; have h2 := ps.isLt
  simp only [fieldPs, BitVec.extractLsb'_toNat, commandWord_toNat, Nat.shiftRight_eq_div_pow]
  omega

@[simp] theorem fieldL_commandWord : fieldL (commandWord op n ps l) = l := by
  apply BitVec.eq_of_toNat_eq
  have h0 := op.isLt; have h1 := n.isLt; have h2 := ps.isLt; have h3 := l.isLt
  simp only [fieldL, BitVec.extractLsb'_toNat, commandWord_toNat, Nat.shiftRight_eq_div_pow]
  omega

/-! ## Taking a word apart -/

/-- A word with bits 31:19 clear is put together from its fields. -/
theorem commandWord_fields {w : Word} (h : w.toNat < 2 ^ 19) : commandWord (fieldOp w) (fieldN w) (fieldPs w) (fieldL w) = w := by
  apply BitVec.eq_of_toNat_eq
  simp only [commandWord_toNat, fieldOp, fieldN, fieldPs, fieldL, BitVec.extractLsb'_toNat, Nat.shiftRight_eq_div_pow]
  omega

/-- The used bits, by the three fields. -/
def usedMask (n ps l : Bool) : Word :=
  0x000000FF#32 ||| (if n then 0x00003F00#32 else 0#32) ||| (if ps then 0x0003C000#32 else 0#32)
    ||| (if l then 0x00040000#32 else 0#32)

theorem usedMask_bits : ∀ (n ps l : Bool) (i : Fin 32),
    (19 ≤ i.val → (usedMask n ps l).getLsbD i = false) ∧
    (8 ≤ i.val → i.val < 14 → (usedMask false ps l).getLsbD i = false) ∧
    (14 ≤ i.val → i.val < 18 → (usedMask n false l).getLsbD i = false) ∧
    (i.val = 18 → (usedMask n ps false).getLsbD i = false) := by decide

/-- A bit that the opcode does not use is clear in a word that passes R94's test. -/
theorem unused_bit {u w : Word} (h : w &&& ~~~u = 0#32) {k : Nat} (hk : k < 32) (hu : u.getLsbD k = false) :
    w.getLsbD k = false := by
  have := congrArg (fun x : Word => x.getLsbD k) h
  rw [BitVec.getLsbD_and, BitVec.getLsbD_not, hu, decide_eq_true hk] at this
  simpa using this

/-- What R94's test leaves: bits 31:19 clear, and every field that the opcode does not use 0. -/
theorem unused_fields {r : OpRow} {w : Word} (h : w &&& ~~~r.used = 0#32) :
    w.toNat < 2 ^ 19 ∧ (r.n = none → fieldN w = 0) ∧ (r.ps = false → fieldPs w = 0) ∧ (r.l = false → fieldL w = 0) := by
  have hr : r.used = usedMask r.n.isSome r.ps r.l := rfl
  have bits := usedMask_bits r.n.isSome r.ps r.l
  rw [hr] at h
  refine ⟨?_, fun hn => ?_, fun hp => ?_, fun hl => ?_⟩
  · apply Nat.lt_pow_two_of_testBit
    intro i hi
    by_cases h32 : i < 32
    · rw [BitVec.testBit_toNat]
      exact unused_bit h h32 ((bits ⟨i, h32⟩).1 hi)
    · exact Nat.testBit_lt_two_pow (Nat.lt_of_lt_of_le w.isLt (Nat.pow_le_pow_right (by omega) (by omega)))
  · rw [hn] at h
    apply BitVec.eq_of_getLsbD_eq
    intro i hi
    have := unused_bit h (k := 8 + i) (by omega) ((bits ⟨8 + i, by omega⟩).2.1 (by simp) (by simp; omega))
    simp [fieldN, BitVec.getLsbD_extractLsb', this]
  · rw [hp] at h
    apply BitVec.eq_of_getLsbD_eq
    intro i hi
    have := unused_bit h (k := 14 + i) (by omega) ((bits ⟨14 + i, by omega⟩).2.2.1 (by simp) (by simp; omega))
    simp [fieldPs, BitVec.getLsbD_extractLsb', this]
  · rw [hl] at h
    apply BitVec.eq_of_getLsbD_eq
    intro i hi
    have := unused_bit h (k := 18 + i) (by omega) ((bits ⟨18 + i, by omega⟩).2.2.2 (by simp; omega))
    simp [fieldL, BitVec.getLsbD_extractLsb', this]

/-- A bit of a command word, by the field it stands in. -/
theorem commandWord_bit (op : BitVec 8) (n : BitVec 6) (ps : BitVec 4) (l : BitVec 1) {k : Nat} :
    (commandWord op n ps l).getLsbD k =
      if k < 8 then op.getLsbD k else if k < 14 then n.getLsbD (k - 8) else if k < 18 then ps.getLsbD (k - 14)
      else if k < 19 then l.getLsbD (k - 18) else false := by
  simp only [commandWord, BitVec.getLsbD_append, BitVec.getLsbD_zero]
  by_cases h1 : k < 8
  · simp [h1]
  by_cases h2 : k < 14
  · simp [h1, h2, show k - 8 < 6 by omega]
  by_cases h3 : k < 18
  · simp [h1, h2, h3, show ¬ k - 8 < 6 by omega, show k - 8 - 6 = k - 14 by omega, show k - 14 < 4 by omega]
  · have e : k - 8 - 6 - 4 = k - 18 := by omega
    by_cases h4 : k < 19
    · simp [h1, h2, h3, h4, show ¬ k - 8 < 6 by omega, show ¬ k - 8 - 6 < 4 by omega, e, show k - 18 < 1 by omega]
    · simp [h1, h2, h3, h4, show ¬ k - 8 < 6 by omega, show ¬ k - 8 - 6 < 4 by omega, e, show ¬ k - 18 < 1 by omega]

theorem usedMask_set : ∀ (n ps l : Bool) (i : Fin 32),
    (i.val < 8 → (usedMask n ps l).getLsbD i = true) ∧
    (8 ≤ i.val → i.val < 14 → (usedMask true ps l).getLsbD i = true) ∧
    (14 ≤ i.val → i.val < 18 → (usedMask n true l).getLsbD i = true) ∧
    (i.val = 18 → (usedMask n ps true).getLsbD i = true) := by decide

/-- A command word with its unused fields 0 passes R94's test. -/
theorem commandWord_used (op : BitVec 8) {n : BitVec 6} {ps : BitVec 4} {l : BitVec 1} (a b c : Bool)
    (hn : a = false → n = 0) (hp : b = false → ps = 0) (hl : c = false → l = 0) :
    commandWord op n ps l &&& ~~~usedMask a b c = 0#32 := by
  apply BitVec.eq_of_getLsbD_eq
  intro k hk
  rw [BitVec.getLsbD_and, BitVec.getLsbD_not, commandWord_bit, decide_eq_true hk, BitVec.getLsbD_zero]
  have set := usedMask_set a b c ⟨k, hk⟩
  by_cases h1 : k < 8
  · simp [set.1 h1]
  by_cases h2 : k < 14
  · cases a
    · simp [h1, h2, hn rfl]
    · simp [set.2.1 (by simpa using h1) h2]
  by_cases h3 : k < 18
  · cases b
    · simp [h1, h2, h3, hp rfl]
    · simp [set.2.2.1 (by simpa using h2) h3]
  by_cases h4 : k < 19
  · cases c
    · simp [h1, h2, h3, h4, hl rfl]
    · simp [set.2.2.2 (by simp; omega)]
  · simp [h1, h2, h3, h4]

/-- A word put together from legal fields of a row decodes to the row's command. -/
theorem decode_commandWord {op : BitVec 8} {n : BitVec 6} {ps : BitVec 4} {l : BitVec 1} {r : OpRow} {i : Instr}
    (h : opRow op = some r) (ha : r.admits n = true) (hn : r.n.isSome = false → n = 0) (hp : r.ps = false → ps = 0)
    (hl : r.l = false → l = 0) (hi : r.make n ps l = i) : decode (commandWord op n ps l) = .ok i := by
  have hu : commandWord op n ps l &&& ~~~r.used = 0#32 := commandWord_used op _ _ _ hn hp hl
  unfold decode
  simp [h, hu, ha, hi]

/-- Everything a word that decodes says. -/
theorem decode_ok {w : Word} {i : Instr} (h : decode w = .ok i) :
    ∃ r, opRow (fieldOp w) = some r ∧ w &&& ~~~r.used = 0#32 ∧ r.admits (fieldN w) = true ∧
      i = r.make (fieldN w) (fieldPs w) (fieldL w) := by
  unfold decode at h
  split at h
  · simp at h
  · rename_i r hr
    split at h
    · simp at h
    · rename_i hu
      split at h
      · simp at h
      · rename_i ha
        simp only [Except.ok.injEq] at h
        exact ⟨r, hr, not_not.mp hu, by simpa using ha, h.symm⟩

end Sys2Proof
end

