-- ==== Sys2Proof/Laws/PerInstr.lean ====
section
/-!
SUPPORT. Two facts about every command as syntax, one lemma a constructor: its word has the reserved bits 31:19 zero (30_encoding R90), and the opcode map finds the command's row from the word (R93).
-/

namespace Sys2Proof.Laws

/-- The reserved bits 31:19 of the command's word are 0 (R90). -/
def ReservedZero.Statement (i : Instr) : Prop := (encode i).toNat < 2 ^ 19

theorem commandWord_reserved (op : BitVec 8) (n : BitVec 6) (ps : BitVec 4) (l : BitVec 1) :
    (commandWord op n ps l).toNat < 2 ^ 19 := by
  have h0 := op.isLt; have h1 := n.isLt; have h2 := ps.isLt; have h3 := l.isLt
  rw [commandWord_toNat]
  omega

theorem ReservedZero.nop : ReservedZero.Statement .nop := commandWord_reserved _ _ _ _
theorem ReservedZero.reset : ReservedZero.Statement .reset := commandWord_reserved _ _ _ _
theorem ReservedZero.pmInit : ReservedZero.Statement .pmInit := commandWord_reserved _ _ _ _
theorem ReservedZero.pmRd : ReservedZero.Statement .pmRd := commandWord_reserved _ _ _ _
theorem ReservedZero.pmWr : ReservedZero.Statement .pmWr := commandWord_reserved _ _ _ _
theorem ReservedZero.rdInit : ReservedZero.Statement .rdInit := commandWord_reserved _ _ _ _
theorem ReservedZero.rdBit : ReservedZero.Statement .rdBit := commandWord_reserved _ _ _ _
theorem ReservedZero.rdDirect (n : BitVec 6) : ReservedZero.Statement (.rdDirect n) := commandWord_reserved _ _ _ _
theorem ReservedZero.rdTree (n : BitVec 6) : ReservedZero.Statement (.rdTree n) := commandWord_reserved _ _ _ _
theorem ReservedZero.rdRtree (n : BitVec 6) : ReservedZero.Statement (.rdRtree n) := commandWord_reserved _ _ _ _
theorem ReservedZero.rdLen (ps : BitVec 4) (l : BitVec 1) : ReservedZero.Statement (.rdLen ps l) := commandWord_reserved _ _ _ _
theorem ReservedZero.rdLit : ReservedZero.Statement .rdLit := commandWord_reserved _ _ _ _
theorem ReservedZero.rdLitm : ReservedZero.Statement .rdLitm := commandWord_reserved _ _ _ _
theorem ReservedZero.reInit : ReservedZero.Statement .reInit := commandWord_reserved _ _ _ _
theorem ReservedZero.reBit : ReservedZero.Statement .reBit := commandWord_reserved _ _ _ _
theorem ReservedZero.reDirect (n : BitVec 6) : ReservedZero.Statement (.reDirect n) := commandWord_reserved _ _ _ _
theorem ReservedZero.reTree (n : BitVec 6) : ReservedZero.Statement (.reTree n) := commandWord_reserved _ _ _ _
theorem ReservedZero.reRtree (n : BitVec 6) : ReservedZero.Statement (.reRtree n) := commandWord_reserved _ _ _ _
theorem ReservedZero.reLen (ps : BitVec 4) (l : BitVec 1) : ReservedZero.Statement (.reLen ps l) := commandWord_reserved _ _ _ _
theorem ReservedZero.reLit : ReservedZero.Statement .reLit := commandWord_reserved _ _ _ _
theorem ReservedZero.reLitm : ReservedZero.Statement .reLitm := commandWord_reserved _ _ _ _
theorem ReservedZero.reFlush : ReservedZero.Statement .reFlush := commandWord_reserved _ _ _ _
theorem ReservedZero.idxLit : ReservedZero.Statement .idxLit := commandWord_reserved _ _ _ _
theorem ReservedZero.idxPs : ReservedZero.Statement .idxPs := commandWord_reserved _ _ _ _
theorem ReservedZero.prBit : ReservedZero.Statement .prBit := commandWord_reserved _ _ _ _
theorem ReservedZero.prTree (n : BitVec 6) : ReservedZero.Statement (.prTree n) := commandWord_reserved _ _ _ _
theorem ReservedZero.prRtree (n : BitVec 6) : ReservedZero.Statement (.prRtree n) := commandWord_reserved _ _ _ _
theorem ReservedZero.prLit : ReservedZero.Statement .prLit := commandWord_reserved _ _ _ _
theorem ReservedZero.prLitm : ReservedZero.Statement .prLitm := commandWord_reserved _ _ _ _
theorem ReservedZero.prLen (ps : BitVec 4) (l : BitVec 1) : ReservedZero.Statement (.prLen ps l) := commandWord_reserved _ _ _ _
theorem ReservedZero.lenPriceInit (l : BitVec 1) : ReservedZero.Statement (.lenPriceInit l) := commandWord_reserved _ _ _ _

/-- The opcode map's row for the word's OP makes the command from the word's fields (R93). -/
def OpcodeRow.Statement (i : Instr) : Prop :=
  ∃ r, opRow (fieldOp (encode i)) = some r ∧ r.make (fieldN (encode i)) (fieldPs (encode i)) (fieldL (encode i)) = i

/-- What a row gives for a word put together from fields. -/
theorem opcodeRow_of {op : BitVec 8} {n : BitVec 6} {ps : BitVec 4} {l : BitVec 1} {r : OpRow} {i : Instr}
    (he : encode i = commandWord op n ps l) (hr : opRow op = some r) (hm : r.make n ps l = i) : OpcodeRow.Statement i :=
  ⟨r, by rw [he, fieldOp_commandWord, hr], by rw [he, fieldN_commandWord, fieldPs_commandWord, fieldL_commandWord, hm]⟩

theorem OpcodeRow.nop : OpcodeRow.Statement .nop := opcodeRow_of rfl rfl rfl
theorem OpcodeRow.reset : OpcodeRow.Statement .reset := opcodeRow_of rfl rfl rfl
theorem OpcodeRow.pmInit : OpcodeRow.Statement .pmInit := opcodeRow_of rfl rfl rfl
theorem OpcodeRow.pmRd : OpcodeRow.Statement .pmRd := opcodeRow_of rfl rfl rfl
theorem OpcodeRow.pmWr : OpcodeRow.Statement .pmWr := opcodeRow_of rfl rfl rfl
theorem OpcodeRow.rdInit : OpcodeRow.Statement .rdInit := opcodeRow_of rfl rfl rfl
theorem OpcodeRow.rdBit : OpcodeRow.Statement .rdBit := opcodeRow_of rfl rfl rfl
theorem OpcodeRow.rdDirect (n : BitVec 6) : OpcodeRow.Statement (.rdDirect n) := opcodeRow_of rfl rfl rfl
theorem OpcodeRow.rdTree (n : BitVec 6) : OpcodeRow.Statement (.rdTree n) := opcodeRow_of rfl rfl rfl
theorem OpcodeRow.rdRtree (n : BitVec 6) : OpcodeRow.Statement (.rdRtree n) := opcodeRow_of rfl rfl rfl
theorem OpcodeRow.rdLen (ps : BitVec 4) (l : BitVec 1) : OpcodeRow.Statement (.rdLen ps l) := opcodeRow_of rfl rfl rfl
theorem OpcodeRow.rdLit : OpcodeRow.Statement .rdLit := opcodeRow_of rfl rfl rfl
theorem OpcodeRow.rdLitm : OpcodeRow.Statement .rdLitm := opcodeRow_of rfl rfl rfl
theorem OpcodeRow.reInit : OpcodeRow.Statement .reInit := opcodeRow_of rfl rfl rfl
theorem OpcodeRow.reBit : OpcodeRow.Statement .reBit := opcodeRow_of rfl rfl rfl
theorem OpcodeRow.reDirect (n : BitVec 6) : OpcodeRow.Statement (.reDirect n) := opcodeRow_of rfl rfl rfl
theorem OpcodeRow.reTree (n : BitVec 6) : OpcodeRow.Statement (.reTree n) := opcodeRow_of rfl rfl rfl
theorem OpcodeRow.reRtree (n : BitVec 6) : OpcodeRow.Statement (.reRtree n) := opcodeRow_of rfl rfl rfl
theorem OpcodeRow.reLen (ps : BitVec 4) (l : BitVec 1) : OpcodeRow.Statement (.reLen ps l) := opcodeRow_of rfl rfl rfl
theorem OpcodeRow.reLit : OpcodeRow.Statement .reLit := opcodeRow_of rfl rfl rfl
theorem OpcodeRow.reLitm : OpcodeRow.Statement .reLitm := opcodeRow_of rfl rfl rfl
theorem OpcodeRow.reFlush : OpcodeRow.Statement .reFlush := opcodeRow_of rfl rfl rfl
theorem OpcodeRow.idxLit : OpcodeRow.Statement .idxLit := opcodeRow_of rfl rfl rfl
theorem OpcodeRow.idxPs : OpcodeRow.Statement .idxPs := opcodeRow_of rfl rfl rfl
theorem OpcodeRow.prBit : OpcodeRow.Statement .prBit := opcodeRow_of rfl rfl rfl
theorem OpcodeRow.prTree (n : BitVec 6) : OpcodeRow.Statement (.prTree n) := opcodeRow_of rfl rfl rfl
theorem OpcodeRow.prRtree (n : BitVec 6) : OpcodeRow.Statement (.prRtree n) := opcodeRow_of rfl rfl rfl
theorem OpcodeRow.prLit : OpcodeRow.Statement .prLit := opcodeRow_of rfl rfl rfl
theorem OpcodeRow.prLitm : OpcodeRow.Statement .prLitm := opcodeRow_of rfl rfl rfl
theorem OpcodeRow.prLen (ps : BitVec 4) (l : BitVec 1) : OpcodeRow.Statement (.prLen ps l) := opcodeRow_of rfl rfl rfl
theorem OpcodeRow.lenPriceInit (l : BitVec 1) : OpcodeRow.Statement (.lenPriceInit l) := opcodeRow_of rfl rfl rfl

end Sys2Proof.Laws
end

