-- ==== Sys2Proof/Laws/Step.lean ====
section
/-!
SUPPORT. Everything a step can do, said once (10_state R35, 60_exceptions R283, 70 R320), and what each host access does.
-/

namespace Sys2Proof.Machine

/-! ## One event -/

/-- A block that waits on no port takes the host's next event. -/
theorem step_idle {s : State} {e : HostEvent} {rest : List HostEvent} (h : s.request = none) (hh : s.host = e :: rest) :
    step s = hostEvent e { s with host := rest } := by
  simp [step, h, idleStep, hh]

/-- A word write in the window. -/
theorem step_write {s : State} {off : Nat} {w : Word} {rest : List HostEvent} (h : s.hostWrites off w rest)
    (ho : off < 0x100) (h4 : off % 4 = 0) : step s = writeReg off w { s with host := rest } := by
  rw [step_idle h.1 h.2]
  simp [hostEvent, State.inWindow, State.wordAccess, ho, h4]

/-- A word read in the window. -/
theorem step_read {s : State} {off : Nat} {rest : List HostEvent} (h : s.hostReadsAt off rest) (ho : off < 0x100)
    (h4 : off % 4 = 0) :
    step s = .next { s with host := rest, hostReads := s.hostReads ++ [State.readReg { s with host := rest } off] } := by
  rw [step_idle h.1 h.2]
  simp [hostEvent, State.inWindow, State.wordAccess, ho, h4]

theorem decode_nop : decode 0x00000000#32 = .ok .nop := by decide
theorem decode_reset : decode 0x00000001#32 = .ok .reset := by decide

theorem atReset_resetBlock (s : State) : s.resetBlock.atReset := by simp [State.atReset, State.reset, State.pmWritten]

/-! ## Everything a step can do -/

/-- What one host event can leave of s. -/
inductive HostEffect (s : State) : State → Prop where
  | ignored : HostEffect s s
  | setA (w : Word) : HostEffect s { s with a := w }
  | setB (w : Word) : HostEffect s { s with b := w }
  | setC (w : Word) : HostEffect s { s with c := w }
  | setCfg (g : Cfg) : HostEffect s { s with cfg := g, pv0 := false, pv1 := false }
  | setLitBase (w : Word) : HostEffect s { s with litBase := w }
  | setLenBase0 (w : Word) : HostEffect s { s with lenBase0 := w, pv0 := false }
  | setLenBase1 (w : Word) : HostEffect s { s with lenBase1 := w, pv1 := false }
  | read (w : Word) : HostEffect s { s with hostReads := s.hostReads ++ [w] }
  | reset : HostEffect s s.resetBlock
  | illegal (w : Word) (h : s.err = false) : HostEffect s (s.raise ⟨.illegalCmd, w⟩)
  | command (w : Word) (i : Instr) (t : State) (hd : decode w = .ok i) (he : s.err = false ∨ i = .nop ∨ i = .reset)
      (h : exec i s = .next t) : HostEffect s t

theorem writeCmd_effect {w : Word} {s t : State} (h : writeCmd w s = .next t) : HostEffect s t := by
  unfold writeCmd at h
  split at h
  · simp only [Host.Outcome.next.injEq] at h
    exact h ▸ .ignored
  · rename_i hw
    have he : s.err = false ∨ w = 0#32 ∨ w = 1#32 := by
      by_cases h0 : s.err = true <;> by_cases h1 : w = 0#32 <;> by_cases h2 : w = 1#32 <;> simp_all
    split at h
    · rename_i e hd
      simp only [Host.Outcome.next.injEq] at h
      refine h ▸ .illegal w ?_
      rcases he with he | rfl | rfl
      · exact he
      · simp [decode_nop] at hd
      · simp [decode_reset] at hd
    · rename_i i hd
      refine .command w i t hd ?_ h
      rcases he with he | rfl | rfl
      · exact .inl he
      · exact .inr (.inl (by simpa [decode_nop] using hd.symm))
      · exact .inr (.inr (by simpa [decode_reset] using hd.symm))

theorem hostEvent_effect {e : HostEvent} {s t : State} (h : hostEvent e s = .next t) : HostEffect s t := by
  unfold hostEvent at h
  split at h
  · split at h
    · simp at h
    split at h
    · simp at h
    unfold writeReg at h
    split at h
    · exact writeCmd_effect h
    all_goals
      simp only [Host.Outcome.next.injEq] at h
      subst h
      constructor
  · split at h
    · simp at h
    split at h
    · simp at h
    simp only [Host.Outcome.next.injEq] at h
    subst h
    constructor
  · simp only [Host.Outcome.next.injEq] at h
    subst h
    exact .reset

/-- Everything a step can do: nothing, or take one host event; while a command waits on a port, only a hardware reset. -/
theorem step_cases {s t : State} (h : step s = .next t) :
    t = s ∨ (∃ rest, t = State.resetBlock { s with host := rest }) ∨
      (s.request = none ∧ ∃ rest, HostEffect { s with host := rest } t) := by
  unfold step at h
  split at h
  · unfold waitingStep at h
    split at h
    · simp only [hostEvent, Host.Outcome.next.injEq] at h
      exact .inr (.inl ⟨_, h.symm⟩)
    · simp only [Host.Outcome.next.injEq] at h
      exact .inl h.symm
  · rename_i hr
    unfold idleStep at h
    split at h
    · simp only [Host.Outcome.next.injEq] at h
      exact .inl h.symm
    · exact .inr (.inr ⟨hr, _, hostEvent_effect h⟩)

end Sys2Proof.Machine
end

