-- ==== Sys2Proof/Tests/Slice0.lean ====
section
/-!
SUPPORT. Tests: ill-formed commands are refused, words written out from R90 and R93 decode, single steps give the results of 95_test_vectors.md (each test names its row), and a witness for every obligation that has hypotheses.
-/

namespace Sys2Proof.Tests

-- One theorem after another: a `decide +kernel` waits for every declaration before it, and many waiting at once
-- take a thread each.
set_option Elab.async false

open Sys2Proof Sys2Proof.Machine

/-! ## WellFormed refuses (R91) -/

theorem test_wellFormed_rdDirect : (Instr.rdDirect 33#6).wellFormed = false := by decide
theorem test_wellFormed_reDirect : (Instr.reDirect 33#6).wellFormed = false := by decide
theorem test_wellFormed_rdTree : (Instr.rdTree 0#6).wellFormed = false ∧ (Instr.rdTree 9#6).wellFormed = false := by decide
theorem test_wellFormed_rdRtree : (Instr.rdRtree 0#6).wellFormed = false ∧ (Instr.rdRtree 9#6).wellFormed = false := by decide
theorem test_wellFormed_reTree : (Instr.reTree 0#6).wellFormed = false ∧ (Instr.reTree 9#6).wellFormed = false := by decide
theorem test_wellFormed_reRtree : (Instr.reRtree 0#6).wellFormed = false ∧ (Instr.reRtree 9#6).wellFormed = false := by decide
theorem test_wellFormed_prTree : (Instr.prTree 0#6).wellFormed = false ∧ (Instr.prTree 9#6).wellFormed = false := by decide
theorem test_wellFormed_prRtree : (Instr.prRtree 0#6).wellFormed = false ∧ (Instr.prRtree 9#6).wellFormed = false := by decide

/-! ## Decoding words written out bit by bit: 31:19 zero, L 18, PS 17:14, N 13:8, OP 7:0 (R90, R93) -/

theorem test_decode_control :
    decode 0b0000000000000_0_0000_000000_00000000#32 = .ok .nop ∧
    decode 0b0000000000000_0_0000_000000_00000001#32 = .ok .reset ∧
    decode 0b0000000000000_0_0000_000000_00000010#32 = .ok .pmInit ∧
    decode 0b0000000000000_0_0000_000000_00000011#32 = .ok .pmRd ∧
    decode 0b0000000000000_0_0000_000000_00000100#32 = .ok .pmWr := by decide

theorem test_decode_decoder :
    decode 0b0000000000000_0_0000_000000_00010000#32 = .ok .rdInit ∧
    decode 0b0000000000000_0_0000_000000_00010001#32 = .ok .rdBit ∧
    decode 0b0000000000000_0_0000_100000_00010010#32 = .ok (.rdDirect 32#6) ∧
    decode 0b0000000000000_0_0000_000110_00010011#32 = .ok (.rdTree 6#6) ∧
    decode 0b0000000000000_0_0000_001000_00010100#32 = .ok (.rdRtree 8#6) ∧
    decode 0b0000000000000_1_1010_000000_00010101#32 = .ok (.rdLen 10#4 1#1) ∧
    decode 0b0000000000000_0_0000_000000_00010110#32 = .ok .rdLit ∧
    decode 0b0000000000000_0_0000_000000_00010111#32 = .ok .rdLitm := by decide

theorem test_decode_encoder :
    decode 0b0000000000000_0_0000_000000_00100000#32 = .ok .reInit ∧
    decode 0b0000000000000_0_0000_000000_00100001#32 = .ok .reBit ∧
    decode 0b0000000000000_0_0000_000000_00100010#32 = .ok (.reDirect 0#6) ∧
    decode 0b0000000000000_0_0000_000001_00100011#32 = .ok (.reTree 1#6) ∧
    decode 0b0000000000000_0_0000_000101_00100100#32 = .ok (.reRtree 5#6) ∧
    decode 0b0000000000000_1_0010_000000_00100101#32 = .ok (.reLen 2#4 1#1) ∧
    decode 0b0000000000000_0_0000_000000_00100110#32 = .ok .reLit ∧
    decode 0b0000000000000_0_0000_000000_00100111#32 = .ok .reLitm ∧
    decode 0b0000000000000_0_0000_000000_00101000#32 = .ok .reFlush := by decide

theorem test_decode_prices :
    decode 0b0000000000000_0_0000_000000_00110000#32 = .ok .idxLit ∧
    decode 0b0000000000000_0_0000_000000_00110001#32 = .ok .idxPs ∧
    decode 0b0000000000000_0_0000_000000_00110010#32 = .ok .prBit ∧
    decode 0b0000000000000_0_0000_000011_00110011#32 = .ok (.prTree 3#6) ∧
    decode 0b0000000000000_0_0000_000100_00110100#32 = .ok (.prRtree 4#6) ∧
    decode 0b0000000000000_0_0000_000000_00110101#32 = .ok .prLit ∧
    decode 0b0000000000000_0_0000_000000_00110110#32 = .ok .prLitm ∧
    decode 0b0000000000000_1_1111_000000_00110111#32 = .ok (.prLen 15#4 1#1) ∧
    decode 0b0000000000000_1_0000_000000_00111000#32 = .ok (.lenPriceInit 1#1) := by decide

/-- V110 to V119, V39a, V58, V58a. -/
theorem test_decode_vectors :
    encode (.rdTree 6#6) = 0x00000613#32 ∧ encode (.reLen 2#4 1#1) = 0x00048025#32 ∧
    encode (.lenPriceInit 1#1) = 0x00040038#32 ∧ encode (.rdDirect 32#6) = 0x00002012#32 ∧
    encode (.prLen 15#4 1#1) = 0x0007C037#32 ∧
    decode 0x00000005#32 = .error .unassignedOpcode ∧ decode 0x00080025#32 = .error .unusedBitSet ∧
    decode 0x00000137#32 = .error .unusedBitSet ∧ decode 0x00000111#32 = .error .unusedBitSet ∧
    decode 0x00040125#32 = .error .unusedBitSet ∧ decode 0x00002112#32 = .error .countOutOfRange ∧
    decode 0x00000023#32 = .error .countOutOfRange ∧ decode 0x00000923#32 = .error .countOutOfRange := by decide

/-- The host's two entry points agree: the first step after placing a word runs it. -/
theorem test_withFetchWord : decodeTableWord 32 0x20 = some .reInit ∧
    (match step (State.reset.withFetchWord 32 0x20) with | .next t => t.reReady && t.reRange == 0xFFFFFFFF#32 | _ => false) = true := by
  decide

/-! ## Single steps -/

/-- `n` fresh cells from `a`. -/
def fresh (a n : Nat) : Memory := fillRun 1024#16 n (BitVec.ofNat 32 a) []

/-- A decoder just started on a stream whose first byte is followed by `code`, with these bytes after. -/
def decoder (code : Word) (bytes : List Byte) : State :=
  { State.reset with rdReady := true, rdRange := 0xFFFFFFFF#32, rdCode := code, input := ⟨bytes.map .byte, .eof⟩ }

/-- An encoder just started. -/
def encoder : State := { State.reset with reReady := true, reRange := 0xFFFFFFFF#32, reCacheSize := 1#64 }

/-- The value an act ends with. -/
def resOf : Act Nat → Option Nat
  | .ok v _ => some v
  | _ => none

/-- The listed values of these cells. -/
def values (s : State) (cells : List Nat) : List (Option Nat) := cells.map fun k => (s.pm.get? k).map BitVec.toNat

/-- V10. -/
theorem test_nop : afterCommand .nop State.reset = State.reset := by decide +kernel
/-- V11. -/
theorem test_reset : (afterCommand .reset (afterCommand .rdBit { State.reset with pm := fresh 0 1 })).statusWord = 0#32 := by decide +kernel
/-- V12. -/
theorem test_pmInit : values (afterCommand .pmInit { State.reset with a := 0x100#32, b := 4#32 })
    [0xFF, 0x100, 0x103, 0x104] = [none, some 1024, some 1024, none] := by decide +kernel
/-- V14. -/
theorem test_pmInit_range : let t := afterCommand .pmInit { State.reset with a := 0xFFFE#32, b := 4#32 }
    t.statusWord = 0x501#32 ∧ t.faultInfo = 0x10000#32 ∧ t.pm = [] := by decide +kernel
/-- V15. -/
theorem test_pmRd : (afterCommand .pmRd { State.reset with a := 0x100#32, b := 2#32, pm := fresh 0x100 4 }).res = 1024#32 := by decide +kernel
/-- V16. -/
theorem test_pmRd_unwritten : let t := afterCommand .pmRd { State.reset with b := 7#32 }
    t.statusWord = 0x601#32 ∧ t.faultInfo = 7#32 := by decide +kernel
/-- V17. -/
theorem test_pmWr : values (afterCommand .pmWr { State.reset with b := 5#32, c := 2017#32 }) [5] = [some 2017] := by decide +kernel
/-- V19b. -/
theorem test_pmWr_operand : let t := afterCommand .pmWr { State.reset with b := 5#32, c := 0x10000400#32 }
    t.statusWord = 0x301#32 ∧ t.faultInfo = 0x10000400#32 ∧ t.pm = [] := by decide +kernel

/-- V32. -/
theorem test_rdInit :
    let t := afterCommand .rdInit { State.reset with input := ⟨[.byte 0xAB#8, .byte 1#8, .byte 2#8, .byte 3#8, .byte 4#8], .eof⟩ }
    t.rdCode = 0x01020304#32 ∧ t.rdRange = 0xFFFFFFFF#32 ∧ t.statusWord = 2#32 ∧ t.input.answers = [] := by decide +kernel
/-- V31. -/
theorem test_rdInit_eof :
    let t := afterCommand .rdInit { State.reset with input := ⟨[.byte 0#8, .byte 0#8, .byte 0#8, .byte 0#8], .eof⟩ }
    t.statusWord = 0x801#32 ∧ t.faultInfo = 0#32 ∧ t.rdRange = 0#32 ∧ t.rdCode = 0#32 := by decide +kernel
/-- V33. -/
theorem test_rdBit : let t := afterCommand .rdBit { decoder 0x80000000#32 [] with pm := fresh 0 1 }
    t.res = 1#32 ∧ values t [0] = [some 992] ∧ t.rdRange = 0x800003FF#32 ∧ t.rdCode = 0x400#32 := by decide +kernel
/-- V39. -/
theorem test_rdBit_notInit : let t := afterCommand .rdBit { State.reset with pm := fresh 0 1 }
    t.statusWord = 0x201#32 ∧ t.faultInfo = 0x11#32 := by decide +kernel
/-- V37. -/
theorem test_rdDirect : let t := afterCommand (.rdDirect 32#6) (decoder 0x12345678#32 [0#8, 0#8, 0#8, 0#8])
    t.res = 0x1234567A#32 ∧ t.rdRange = 0xFFFFFF00#32 ∧ t.rdCode = 0x34567A00#32 ∧ t.input.answers = [] := by decide +kernel
/-- V38. -/
theorem test_rdDirect_eof : let t := afterCommand (.rdDirect 9#6) (decoder 0x12345678#32 [])
    t.statusWord = 0x803#32 ∧ t.res = 0#32 ∧ t.rdRange = 0x00FFFFFF#32 ∧ t.rdCode = 0x0034567A#32 := by decide +kernel
/-- V51. -/
theorem test_rdTree : let t := afterCommand (.rdTree 3#6) { decoder 0x9FFFFC00#32 [] with a := 0x10#32, pm := fresh 0x10 8 }
    t.res = 5#32 ∧ values t [0x11, 0x13, 0x16] = [some 992, some 1056, some 992] ∧ t.rdRange = 0x20000000#32 := by decide +kernel
/-- V92. -/
theorem test_rdTree_range : let t := afterCommand (.rdTree 3#6) { decoder 0#32 [] with a := 0xFFFC#32 }
    t.statusWord = 0x503#32 ∧ t.faultInfo = 0x10000#32 := by decide +kernel
/-- V53. -/
theorem test_rdRtree : (afterCommand (.rdRtree 3#6)
    { decoder 0x5FFFFC00#32 [] with a := 0x10#32, pm := fresh 0x10 8 }).res = 6#32 := by decide +kernel
/-- V65d, the decoding itself, on the cells it uses. -/
theorem test_rdLen : resOf (lenDecode 0x100#32 1 { decoder 0xB7FFFC00#32 [] with
    pm := [(0x100, 1024#16), (0x101, 1024#16), (0x18B, 1024#16), (0x18D, 1024#16), (0x191, 1024#16)] }) = some 15 := by
  decide +kernel
/-- A PS that is not below 2^pb. -/
theorem test_rdLen_ps : let t := afterCommand (.rdLen 4#4 0#1) { decoder 0#32 [] with cfg := ⟨0, 0, 2, 0⟩ }
    t.statusWord = 0x303#32 ∧ t.faultInfo = 4#32 := by decide +kernel
/-- V75, the decoding itself. -/
theorem test_rdLit : resOf (litDecode 0x1000#32 { decoder 0x40FFFC00#32 [] with
    pm := [0x1001, 0x1002, 0x1005, 0x100A, 0x1014, 0x1028, 0x1050, 0x10A0].map fun k => (k, 1024#16) }) = some 0x41 := by
  decide +kernel
/-- V77b, the decoding itself. -/
theorem test_rdLitm : resOf (litDecodeMatched 0x1000#32 0#8 { decoder 0xFEFFFC00#32 [] with
    pm := [0x1003, 0x1007, 0x100F, 0x101F, 0x103F, 0x107F, 0x10FF, 0x1101].map fun k => (k, 1024#16) }) = some 0xFF := by
  decide +kernel

/-- V1, the registers that RE_INIT sets. -/
theorem test_reInit : afterCommand .reInit State.reset = encoder := by decide +kernel
/-- V40. -/
theorem test_reBit : let t := afterCommand .reBit { encoder with c := 1#32, pm := fresh 0 1 }
    t.reRange = 0x800003FF#32 ∧ t.reLow = 0x7FFFFC00#33 ∧ values t [0] = [some 992] ∧ t.output = [] := by decide +kernel
/-- V41. -/
theorem test_reBit_zero : let t := afterCommand .reBit { encoder with pm := fresh 0 1 }
    t.reRange = 0x7FFFFC00#32 ∧ t.reLow = 0#33 ∧ values t [0] = [some 1056] := by decide +kernel
/-- V42. -/
theorem test_reDirect : let t := afterCommand (.reDirect 3#6) { encoder with b := 5#32 }
    t.reRange = 0x1FFFFFFF#32 ∧ t.reLow = 0x9FFFFFFE#33 := by decide +kernel
/-- V20: a carry. -/
theorem test_reDirect_carry : let t := afterCommand (.reDirect 24#6) { encoder with b := 0xFA0090#32 }
    t.output = [.byte 0#8, .byte 0xFA#8, .byte 0#8] ∧ t.reLow = 0xF9FF7000#33 ∧ t.reCache = 0x8F#8 ∧ t.rePos = 3#64 := by decide +kernel
/-- V50. -/
theorem test_reTree : let t := afterCommand (.reTree 3#6) { encoder with a := 0x10#32, b := 5#32, pm := fresh 0x10 8 }
    values t [0x11, 0x12, 0x13, 0x16] = [some 992, some 1024, some 1056, some 992] ∧ t.reLow = 0x9FFFFC00#33 := by decide +kernel
/-- V59. -/
theorem test_reTree_unwritten :
    let t := afterCommand (.reTree 3#6) { encoder with a := 0x10#32, b := 5#32, pm := fresh 0x10 7 }
    t.faultInfo = 0x17#32 ∧ t.pm = fresh 0x10 7 ∧ t.reRange = 0xFFFFFFFF#32 := by decide +kernel
/-- V52. -/
theorem test_reRtree : values (afterCommand (.reRtree 3#6) { encoder with a := 0x10#32, b := 6#32, pm := fresh 0x10 8 })
    [0x11, 0x12, 0x15] = [some 1056, some 992, some 992] := by decide +kernel
/-- V64, the encoding itself, on the cells it uses. -/
theorem test_reLen : let t := (lenEncode 0x100#32 1 8 { encoder with
      pm := [0x100, 0x101, 0x18B, 0x18C, 0x18E].map fun k => (k, 1024#16) }).state
    t.reRange = 0x08000000#32 ∧ values t [0x100, 0x101, 0x18B, 0x18C, 0x18E] =
      [some 992, some 1056, some 1056, some 1056, some 1056] := by decide +kernel
/-- V68a. -/
theorem test_reLen_ps : let t := afterCommand (.reLen 4#4 0#1) { encoder with cfg := ⟨0, 0, 2, 0⟩, b := 8#32 }
    t.statusWord = 0x305#32 ∧ t.faultInfo = 4#32 := by decide +kernel
/-- V74, the encoding itself. -/
theorem test_reLit : (litEncode 0x1000#32 0x41#8 { encoder with
    pm := [0x1001, 0x1002, 0x1005, 0x100A, 0x1014, 0x1028, 0x1050, 0x10A0].map fun k => (k, 1024#16) }).state.reRange =
      0x01000000#32 := by decide +kernel
/-- V76, the encoding itself: the matched model for all 8 bits, the mismatching last bit included. -/
theorem test_reLitm : values (litEncodeMatched 0x1000#32 0x40#8 0x41#8 { encoder with
    pm := [0x1101, 0x1105, 0x110A, 0x1114, 0x1128, 0x1150, 0x11A0, 0x1202].map fun k => (k, 1024#16) }).state
    [0x1101, 0x1202, 0x1150, 0x11A0] = [some 1056, some 992, some 1056, some 992] := by decide +kernel
/-- V77, the encoding itself: after the first differing bit, the plain model. -/
theorem test_reLitm_plain : values (litEncodeMatched 0x1000#32 0xC1#8 0x41#8 { encoder with
    pm := [0x1002, 0x1005, 0x100A, 0x1014, 0x1028, 0x1050, 0x10A0, 0x1201].map fun k => (k, 1024#16) }).state
    [0x1201, 0x1002, 0x10A0] = [some 1056, some 992, some 992] := by decide +kernel
/-- V1. -/
theorem test_reFlush : let t := afterCommand .reFlush encoder
    t.output = [.byte 0#8, .byte 0#8, .byte 0#8, .byte 0#8, .byte 0#8, .flush] ∧ t.rePos = 5#64 ∧ t.reCacheSize = 1#64 := by decide +kernel
/-- V99a. -/
theorem test_reFlush_error : let t := afterCommand .reFlush { encoder with sink := ⟨[.err], some .ok⟩ }
    t.statusWord = 0x905#32 ∧ t.faultInfo = 0#32 ∧ t.rePos = 0#64 ∧ t.output = [] := by decide +kernel

/-- V71. -/
theorem test_idxLit : (afterCommand .idxLit { State.reset with
    cfg := ⟨3, 2, 0, 0⟩, litBase := 0x1000#32, b := 5#32, c := 0x6C#32 }).res = 0x3100#32 := by decide +kernel
/-- V95. -/
theorem test_idxLit_option : let t := afterCommand .idxLit { State.reset with cfg := ⟨9, 5, 0, 0⟩ }
    t.statusWord = 0x401#32 ∧ t.faultInfo = 0x59#32 := by decide +kernel
/-- V60. -/
theorem test_idxPs : (afterCommand .idxPs { State.reset with cfg := ⟨0, 0, 2, 0⟩, b := 0x1235#32 }).res = 1#32 := by decide +kernel
/-- V96. -/
theorem test_idxPs_lc : let t := afterCommand .idxPs { State.reset with cfg := ⟨9, 0, 0, 0⟩, b := 7#32 }
    t.statusWord = 0#32 ∧ t.res = 0#32 := by decide +kernel
/-- V82. -/
theorem test_prBit : (afterCommand .prBit { State.reset with b := 5#32, pm := [(5, 31#16)] }).res = 400#32 := by decide +kernel
/-- V83. -/
theorem test_prBit_one : (afterCommand .prBit { State.reset with b := 5#32, c := 1#32, pm := [(5, 31#16)] }).res = 2#32 := by decide +kernel
/-- V55. -/
theorem test_prTree : (afterCommand (.prTree 3#6) { State.reset with
    a := 0x10#32, b := 5#32, pm := ((fresh 0x10 8).set 0x11 992#16 |>.set 0x13 1056#16 |>.set 0x16 992#16) }).res = 186#32 := by decide +kernel
/-- V56: the base wraps. -/
theorem test_prRtree : (afterCommand (.prRtree 4#6) { State.reset with
    a := 0xFFFFFFFF#32, b := 3#32, pm := fresh 0 16 }).res = 256#32 := by decide +kernel
/-- V78a, the price itself, of a literal coded once before. -/
theorem test_prLit : litPrice { State.reset with
    pm := [(0x1001, 1056#16), (0x1002, 992#16), (0x1005, 1056#16), (0x100A, 1056#16), (0x1014, 1056#16), (0x1028, 1056#16),
      (0x1050, 1056#16), (0x10A0, 992#16)] } 0x1000#32 0x41#8 = 496 := by decide +kernel
/-- V79b with a short sub-coder: the first cell of a matched footprint that is unwritten. -/
theorem test_prLitm : (afterCommand .prLitm { State.reset with
    litBase := 0x1000#32, pm := fresh 0x1000 4 }).faultInfo = 0x1004#32 := by decide +kernel
/-- V69c, the prices a refill computes: a length symbol 0 coded twice before, TABLESIZE 2. -/
theorem test_refill : let t := State.refill { State.reset with
      cfg := ⟨0, 0, 0, 2⟩, lenBase0 := 0x100#32
      pm := [(0x100, 1087#16), (0x103, 1087#16), (0x104, 1087#16), (0x106, 1087#16)] } 0#1 0
    t.lenCnt.get? 0 = some 2#9 ∧ (t.lenPrice.get? 0).map List.head? = some (some 240#32) := by decide +kernel
/-- V69f. -/
theorem test_lenPriceInit_option : let t := afterCommand (.lenPriceInit 0#1) { State.reset with cfg := ⟨0, 0, 0, 273⟩ }
    t.statusWord = 0x401#32 ∧ t.faultInfo = 0x01110000#32 := by decide +kernel
/-- V69d. -/
theorem test_prLen_symbol :
    let t := afterCommand (.prLen 0#4 0#1) { State.reset with cfg := ⟨0, 0, 0, 2⟩, pv0 := true, b := 2#32, lenPrice := [(0, [256#32, 256#32])] }
    t.statusWord = 0x309#32 ∧ t.faultInfo = 2#32 := by decide +kernel
/-- V91. -/
theorem test_prLen_ps : let t := afterCommand (.prLen 5#4 0#1) { State.reset with cfg := ⟨0, 0, 2, 16⟩ }
    t.statusWord = 0x301#32 ∧ t.faultInfo = 5#32 := by decide +kernel

/-- The state a step answers, or the reset state. -/
def stepped (s : State) : State := match step s with | .next t => t | _ => State.reset

/-- V97: while ERR = 1 RE_INIT is ignored and a register write takes effect. -/
theorem test_step_err : let s := { (afterCommand .reBit State.reset) with host := [.write 0 4 0x20#32, .write 4 4 0x1234#32] }
    let t := stepped (stepped s)
    t.statusWord = 0x201#32 ∧ t.faultInfo = 0x21#32 ∧ t.reRange = 0#32 ∧ t.a = 0x1234#32 := by decide +kernel
/-- V101. -/
theorem test_step_id : (stepped (stepped (State.reset.withProgram [.rd .id, .rd .revision]))).hostReads =
    [0x4C5A5243#32, 0x00000001#32] := by decide +kernel

/-! ## Text lines (R97, and the lines of program P1 of 95_test_vectors) -/

theorem test_assemble_ld : assembleLine 0x1000 "ld CFG, 0x203                ; lc=3 lp=0 pb=2".toList =
    .ok [.write 0x101C 4 0x203#32] := by decide +kernel
theorem test_assemble_rd : assembleLine 0x1000 "rd STATUS                    ; = 0x00000004".toList =
    .ok [.read 0x1014 4] := by decide +kernel
theorem test_assemble_unusedField : assembleLine 0 "RD_BIT n=0".toList = .error .fieldNotUsed := by decide +kernel
theorem test_assemble_fieldLeftOut : assembleLine 0 "RE_LEN l=1".toList = .ok [.write 0 4 0x00040025#32] := by decide +kernel
theorem test_mnemonicOps : (mnemonicOps.all fun row => (opRow row.2).isSome) = true ∧ mnemonicOps.length = 31 := by decide

/-! ## Witnesses: a state and operands that meet all hypotheses of each obligation -/

/-- A block whose host writes this word at this offset next. -/
def writes (off : Nat) (w : Word) : State := { State.reset with host := [.write off 4 w] }

/-- A block whose host reads this offset next. -/
def reads (off : Nat) : State := { State.reset with host := [.read off 4] }

/-- An encoder whose sink answers Err, and a decoder whose source never answers. -/
def badSink : State := { encoder with sink := ⟨[], some .err⟩ }
def silent : State := { decoder 0#32 [] with input := ⟨[], .silent⟩ }

theorem writes_hostWrites (off : Nat) (w : Word) : (writes off w).hostWrites off w [] :=
  ⟨rfl, by simp [writes, State.reset, Params.default]⟩

theorem reads_hostReadsAt (off : Nat) : (reads off).hostReadsAt off [] := ⟨rfl, by simp [reads, State.reset, Params.default]⟩

/-- A running decoder and encoder with 4096 fresh cells, legal options, valid price tables of coder 0, and 32 bytes to come. -/
def ready : State :=
  { State.reset with
    cfg := ⟨3, 0, 2, 2⟩, litBase := 0x400#32, lenBase0 := 0x100#32, a := 0x10#32, c := 0x414000#32, pv0 := true
    rdReady := true, rdRange := 0xFFFFFFFF#32, reReady := true, reRange := 0xFFFFFFFF#32, reCacheSize := 1#64
    pm := fresh 0 4096, input := ⟨List.replicate 32 (.byte 0x55#8), .eof⟩
    lenPrice := [(0, [256#32, 256#32]), (1, [256#32, 256#32]), (2, [256#32, 256#32]), (3, [256#32, 256#32])]
    lenCnt := [(0, 2#9), (1, 1#9), (2, 2#9), (3, 2#9)] }

/-- A block with the cells of `ready` codes with every cell below 4096. -/
theorem fresh_modelCell {s : State} (hm : s.pm = ready.pm) (hp : s.params = ready.params) {ea : Word} (h : ea.toNat < 4096) :
    s.modelCell ea ∧ s.pmRead ea = 1024#16 := by
  have hg : ready.pm.get? ea.toNat = some 1024#16 := by
    rw [show ready.pm = fillRun 1024#16 4096 (BitVec.ofNat 32 0) [] by simp only [ready, fresh], get?_fillRun,
      if_pos ⟨ea.toNat, h, by simp⟩]
  have hr : ready.params.pmSize = 65536 := rfl
  have hv : s.pmRead ea = 1024#16 := by simp [State.pmRead, hm, hg]
  refine ⟨⟨by simp only [State.inRange, hp, hr, decide_eq_true_eq]; omega, by simp [State.pmWritten, hm, hg], ?_⟩, hv⟩
  simp [hv]

theorem fresh_readable {s : State} (hm : s.pm = ready.pm) (hp : s.params = ready.params) {cells : List Word}
    (h : cells.all (fun ea => decide (ea.toNat < 4096)) = true) : s.readable cells :=
  fun ea hea => (fresh_modelCell hm hp (by simpa using List.all_eq_true.mp h ea hea)).1

/-- Every cell below 4096 of `ready` can be coded with. -/
theorem ready_modelCell {ea : Word} (h : ea.toNat < 4096) : ready.modelCell ea := (fresh_modelCell rfl rfl h).1
theorem ready_readable {cells : List Word} (h : cells.all (fun ea => decide (ea.toNat < 4096)) = true) :
    ready.readable cells := fresh_readable rfl rfl h

theorem ready_decoderInterval : ready.decoderInterval := by decide +kernel
theorem ready_encoderInterval : ready.encoderInterval := by decide +kernel
theorem ready_running : ready.running := ⟨rfl, rfl⟩
theorem ready_sinkAccepts : ready.sinkAccepts := ⟨rfl, by simp [ready, State.reset]⟩

theorem ready_hasBytes : ready.hasBytes 32 := ⟨List.replicate 32 0x55#8, [], by simp [ready], by simp⟩

/-- `ready` with no byte to come and an interval that every bit takes below 2^24. -/
def starved (last : InEnd) : State := { ready with rdRange := 0x01000000#32, input := ⟨[], last⟩ }

/-- `ready` with a sink that accepts nothing and an interval that every bit takes below 2^24. -/
def crowded (last : Option OutAnswer) : State := { ready with reRange := 0x01000000#32, sink := ⟨[], last⟩ }

/-- Either bit takes the interval of `starved` below 2^24, and neither that of `ready`. -/
theorem starved_short (last : InEnd) (bit : Bool) : (bitTaken (0x10#32, bit) (starved last)).rdRange.toNat < 2 ^ 24 ∧
    2 ^ 24 ≤ (bitTaken (0x10#32, bit) ready).rdRange.toNat := by
  have h1 : (starved last).pmRead 0x10#32 = 1024#16 := (fresh_modelCell (by simp only [starved]) (by simp only [starved]) (by decide)).2
  have h2 : ready.pmRead 0x10#32 = 1024#16 := (fresh_modelCell rfl rfl (by decide)).2
  have h3 : (starved last).rdRange = 0x01000000#32 := by simp only [starved]
  have h4 : ready.rdRange = 0xFFFFFFFF#32 := by simp only [ready]
  simp only [bitTaken, h1, h2, h3, h4]
  revert bit; decide

/-- A sink that does not accept the cached byte of a ShiftLow ends the command there. -/
theorem head_stops {α : Type} {coded : α → State → State} {x : α} {s : State} (rest : List α)
    (hr : (coded x s).reRange.toNat < 2 ^ 24) (hl : (coded x s).reLow.toNat < 0xFF000000)
    (ha : (coded x s).sink.answerAt 0 ≠ some .ok) : ∃ t, codingStops coded (x :: rest) s t := by
  have hb : { coded x s with reRange := BitVec.ofNat 32 ((coded x s).reRange.toNat * 2 ^ 8) }.leavingBytes[0]? =
      some (BitVec.ofNat 8 ((coded x s).reCache.toNat + (coded x s).reLow.toNat / 2 ^ 32)) := by
    simp only [State.leavingBytes, if_pos (Or.inr hl), List.getElem?_cons_zero]
  rcases h : (coded x s).sink.answerAt 0 with _ | _ | _
  · exact ⟨_, .inl ⟨hr, 0, _, hb, fun j hj => absurd hj (Nat.not_lt_zero j), .inr ⟨h, rfl⟩⟩⟩
  · exact absurd h ha
  · exact ⟨_, .inl ⟨hr, 0, _, hb, fun j hj => absurd hj (Nat.not_lt_zero j), .inl ⟨h, rfl⟩⟩⟩

/-- Whatever `crowded` codes, a sink that refuses or never answers ends it. -/
theorem crowded_stops {last : Option OutAnswer} (hl : last ≠ some .ok) (x : Decision) (rest : List Decision)
    (hx : x.1.toNat < 4096) : ∃ t, codingStops bitCoded (x :: rest) (crowded last) t := by
  obtain ⟨ea, bit⟩ := x
  have h1 : (crowded last).pmRead ea = 1024#16 := (fresh_modelCell (by simp only [crowded]) (by simp only [crowded]) hx).2
  have h2 : (crowded last).reRange = 0x01000000#32 := by simp only [crowded]
  have h3 : (crowded last).reLow = 0#33 := by simp only [crowded, ready, State.reset]
  have h4 : (crowded last).sink = ⟨[], last⟩ := by simp only [crowded]
  refine head_stops rest ?_ ?_ (by simpa [bitCoded, h4, OutPort.answerAt] using hl)
  all_goals simp only [bitCoded, h1, h2, h3]; cases bit <;> decide

/-- `ready` with another sink. -/
def ready.into (p : OutPort) : State := { ready with sink := p }

/-- One bit is coded without the sink. -/
theorem into_accepted (p : OutPort) (bit : Bool) : codingAccepted bitCoded [(0x10#32, bit)] (ready.into p) := by
  have h1 : (ready.into p).pmRead 0x10#32 = 1024#16 :=
    (fresh_modelCell (by simp only [ready.into]) (by simp only [ready.into]) (by decide)).2
  have h2 : (ready.into p).reRange = 0xFFFFFFFF#32 := by simp only [ready.into, ready]
  refine ⟨fun h => absurd h ?_, trivial⟩
  simp only [bitCoded, h1, h2]
  cases bit <;> decide

theorem ready_bitsAccepted (code : List Decision) : codingAccepted bitCoded code ready :=
  codingAccepted_of_sinkAccepts (coded := bitCoded) (fun _ _ => rfl) code ready_sinkAccepts
theorem ready_halvesAccepted (bits : List Bool) : codingAccepted halfCoded bits ready :=
  codingAccepted_of_sinkAccepts (coded := halfCoded) (fun _ _ => rfl) bits ready_sinkAccepts

theorem ready_modelsInv : ready.modelsInv := by
  have hp : ready.pm = fillRun 1024#16 4096 (BitVec.ofNat 32 0) [] := by simp only [ready, fresh]
  refine ⟨hp ▸ fillRun_wf _ _ _ (by simp [Memory.wf, Cells.wf]), fun x hx => ?_⟩
  rw [hp] at hx
  rcases mem_fillRun hx with ⟨h1, i, hi, h2⟩ | h
  · have hr : ready.params.pmSize = 65536 := rfl
    rw [h1, ← h2, hr]
    refine ⟨?_, by decide, by decide⟩
    simp only [BitVec.toNat_add, BitVec.toNat_ofNat]
    omega
  · cases h

/-- LinesAssemble: a line with every field its mnemonic uses, at their greatest values, and one with an unused field that
does not stand first. -/
theorem test_witness_LinesAssemble : (⟨"RD_LEN", 0x15#32, false, true, true⟩ : LineRow) ∈ plainLines ++ fieldLines ∧
    (15 < 2 ^ 4 ∧ 1 < 2) ∧
    "RD_LEN".toList ++ fieldText "n=" none ++ fieldText "ps=" (some 15) ++ fieldText "l=" (some 1) = "RD_LEN ps=15 l=1".toList ∧
    wordsFrom [] "RD_LEN ps=1 n=6".toList = "RD_LEN".toList :: (["ps=1".toList] ++ ('n' :: '=' :: "6".toList) :: []) := by
  exact ⟨by simp [plainLines, fieldLines], by decide, rfl, rfl⟩

/-- EncodeThenDecode: the ends of the range of N, and a command without fields. -/
theorem test_witness_EncodeThenDecode : (Instr.rdDirect 0#6).wellFormed = true ∧ (Instr.rdDirect 32#6).wellFormed = true ∧
    (Instr.reTree 1#6).wellFormed = true ∧ (Instr.reTree 8#6).wellFormed = true ∧ Instr.reset.wellFormed = true := by decide

theorem test_witness_DecodeThenEncode : decode 0x0007C037#32 = .ok (.prLen 15#4 1#1) := by decide

/-- StepRunsDecodedCommand: a running block, and NOP and RESET while ERR = 1. -/
theorem test_witness_StepRunsDecodedCommand : (writes 0x00 0x04#32).hostWrites 0x00 0x04#32 [] ∧ decode 0x04#32 = .ok .pmWr ∧
    (writes 0x00 0x04#32).err = false ∧ decode 0#32 = .ok .nop ∧ decode 1#32 = .ok .reset := by
  exact ⟨writes_hostWrites _ _, by decide, rfl, by decide, by decide⟩

theorem test_witness_IllegalWordRaises : (writes 0x00 0x05#32).hostWrites 0x00 0x05#32 [] ∧ ¬ legalWord 0x05#32 ∧
    (writes 0x00 0x05#32).err = false ∧ { writes 0x00 0x05#32 with err := true }.hostWrites 0x00 0x05#32 [] := by
  refine ⟨writes_hostWrites _ _, by unfold legalWord; decide, rfl, writes_hostWrites _ _⟩

/-- ErrIgnoresCommands and HostWritesStore: every offset and word, in either case of ERR. -/
theorem test_witness_ErrIgnoresCommands (off : Nat) (w : Word) : { writes off w with err := true }.hostWrites off w [] :=
  writes_hostWrites off w

theorem test_witness_OnlyResetLeavesErr :
    let s := { writes 0x00 1#32 with err := true }
    s.err = true ∧ stepsTo s (stepped s) := ⟨rfl, rfl⟩

theorem test_witness_HostWritesStore (off : Nat) (w : Word) : (writes off w).hostWrites off w [] := writes_hostWrites off w

theorem test_witness_HostReadsReturn : (0x50, ready.rePos.toNat / 2 ^ 32) ∈ registerMap ready ∧
    (∀ off, (reads off).hostReadsAt off []) ∧ unassignedOffset 0x5C ∧ unassignedOffset 0xFC :=
  ⟨by simp [registerMap], reads_hostReadsAt, by decide, by decide⟩

theorem test_witness_ReadOnlyWritesIgnored : 0x10 ∈ readOnlyOffsets ∧ 0x58 ∈ readOnlyOffsets ∧ unassignedOffset 0x5C ∧
    unassignedOffset 0xFC ∧ (writes 0xFC 7#32).hostWrites 0xFC 7#32 [] :=
  ⟨by decide, by decide, by decide, by decide, writes_hostWrites _ _⟩

theorem test_witness_IdentityIsReadOnly : (reads 0x54).hostReadsAt 0x54 [] ∧ (writes 0x58 1#32).hostWrites 0x58 1#32 [] :=
  ⟨reads_hostReadsAt _, writes_hostWrites _ _⟩

/-- A byte access at an aligned offset, and a word access at the last unaligned one. -/
theorem test_witness_OtherShapedAccessRefused : State.reset.request = none ∧ (0 < 0x100 ∧ (1 ≠ 4 ∨ 0 % 4 ≠ 0)) ∧
    (0xFF < 0x100 ∧ (4 ≠ 4 ∨ 0xFF % 4 ≠ 0)) ∧
    { State.reset with host := [.read 0xFF 4] }.host = .read ({ State.reset with host := [.read 0xFF 4] }.params.regBase + 0xFF) 4 :: [] := by
  decide

theorem test_witness_WaitingBlocksHost : let s := { State.reset with request := some .inByte, host := [.read 0x14 4] }
    let r := { State.reset with request := some .inByte, host := [.hardReset] }
    s.request = some .inByte ∧ (∀ rest, s.host ≠ .hardReset :: rest) ∧ r.request = some .inByte ∧ r.host = .hardReset :: [] := by
  simp

theorem test_witness_ResetCommand : { State.reset with host := [.hardReset] }.host = .hardReset :: [] := rfl

theorem test_witness_NopDoesNothing : (writes 0x00 0#32).hostWrites 0x00 0#32 [] ∧ (0x100#32).toNat % 2 ^ 8 = 0 ∧
    0x100#32 ≠ 0#32 := ⟨writes_hostWrites _ _, by decide, by decide⟩

/-- FirstFaultDecides: a command that a check stops, and one that no check stops. -/
theorem test_witness_FirstFaultDecides : firstFault { State.reset with b := 7#32 } .pmRd = some ⟨.uninitModel, 7#32⟩ ∧
    firstFault State.reset .rdInit = none := by decide +kernel

/-- PortFaultLeaves: end of input in RD_INIT and in a decoder's command, and a sink error. -/
theorem test_witness_PortFaultLeaves :
    (firstFault State.reset .rdInit = none ∧ (afterCommand .rdInit State.reset).err = true) ∧
    (firstFault (decoder 0#32 []) (.rdDirect 9#6) = none ∧ (afterCommand (.rdDirect 9#6) (decoder 0#32 [])).err = true) ∧
    (firstFault badSink .reFlush = none ∧ (afterCommand .reFlush badSink).err = true) ∧
    (State.reset.err = false ∧ (decoder 0#32 []).err = false ∧ badSink.err = false) ∧
    ∀ i s, runsTo i s (afterCommand i s) :=
  ⟨by decide +kernel, by decide +kernel, by decide +kernel, by decide +kernel, runsTo_afterCommand⟩

/-- ResWriters: a command that does not write RES, one that faults, one that waits. -/
theorem test_witness_ResWriters :
    writesRes .pmWr = false ∧ (State.reset.err = false ∧ (afterCommand .rdBit State.reset).err = true) ∧
    (silent.request = none ∧ (afterCommand (.rdDirect 9#6) silent).request ≠ none) ∧
    ∀ i s, runsTo i s (afterCommand i s) :=
  ⟨by decide +kernel, by decide +kernel, by decide +kernel, runsTo_afterCommand⟩

/-- The frames: a command answers a next state. -/
theorem test_witness_HostOnlyRegisters (i : Instr) (s : State) : runsTo i s (afterCommand i s) := runsTo_afterCommand i s
theorem test_witness_DecoderWriters (s : State) : Instr.reInit ≠ .reset ∧ Instr.reInit ≠ .rdInit ∧ needsDecoder .reInit = false ∧
    runsTo .reInit s (afterCommand .reInit s) := ⟨by decide, by decide, rfl, runsTo_afterCommand _ _⟩
theorem test_witness_EncoderWriters (s : State) : Instr.pmWr ≠ .reset ∧ needsEncoder .reInit = false ∧ needsEncoder .pmWr = false ∧
    runsTo .pmWr s (afterCommand .pmWr s) := ⟨by decide, rfl, rfl, runsTo_afterCommand _ _⟩
theorem test_witness_StatusWriters (i : Instr) (s : State) : runsTo i s (afterCommand i s) := runsTo_afterCommand i s
theorem test_witness_ModelFrame (s : State) : Instr.reDirect 32#6 ≠ .reset ∧ (Instr.reDirect 32#6).wellFormed = true ∧
    runsTo (.reDirect 32#6) s (afterCommand (.reDirect 32#6) s) := ⟨by decide, rfl, runsTo_afterCommand _ _⟩
theorem test_witness_PriceTableWriters (s : State) : Instr.reInit ≠ .reset ∧ Instr.reInit ≠ .lenPriceInit 0#1 ∧
    Instr.reInit ≠ .reLen 0#4 0#1 ∧ runsTo .reInit s (afterCommand .reInit s) :=
  ⟨by decide, by decide, by decide, runsTo_afterCommand _ _⟩
theorem test_witness_ReadersChangeRes (s : State) : readsOnly .idxPs = true ∧ runsTo .idxPs s (afterCommand .idxPs s) :=
  ⟨rfl, runsTo_afterCommand _ _⟩

/-- The invariants hold in `ready`, and a step from it answers a next state. -/
theorem test_witness_StepKeepsModels : ready.modelsInv ∧ stepsTo ready ready := ⟨ready_modelsInv, rfl⟩
theorem test_witness_StepKeepsStatus : ready.statusInv ∧ stepsTo ready ready := ⟨by decide, rfl⟩
theorem test_witness_StepKeepsDecoder : ready.decoderInv ∧ ready.running ∧ ready.rdReady = true ∧ stepsTo ready ready :=
  ⟨fun _ _ => ready_decoderInterval, ready_running, rfl, rfl⟩
theorem test_witness_StepKeepsEncoder : ready.modelsInv ∧ ready.encoderInv ∧ ready.reReady = true ∧ stepsTo ready ready :=
  ⟨ready_modelsInv, fun _ _ => ready_encoderInterval, rfl, rfl⟩
theorem test_witness_StepKeepsCounters : ready.countersInv ∧ ready.pv 0#1 = true ∧ stepsTo ready ready := by
  refine ⟨fun l hl => ?_, rfl, rfl⟩
  have h0 : ∀ l : BitVec 1, l = 0#1 ∨ l = 1#1 := by decide
  rcases h0 l with rfl | rfl
  · have key : ∀ ps < 4, ∃ n, ready.lenCnt.get? (lenIndex 0#1 ps) = some n ∧ 1 ≤ n.toNat ∧ n.toNat ≤ 2 ∧
        ready.lenPrice.get? (lenIndex 0#1 ps) = some [256#32, 256#32] := by
      intro ps hps
      have : ps = 0 ∨ ps = 1 ∨ ps = 2 ∨ ps = 3 := by omega
      rcases this with rfl | rfl | rfl | rfl
      exacts [⟨2#9, rfl, by decide, by decide, rfl⟩, ⟨1#9, rfl, by decide, by decide, rfl⟩,
        ⟨2#9, rfl, by decide, by decide, rfl⟩, ⟨2#9, rfl, by decide, by decide, rfl⟩]
    refine ⟨by decide, by decide, by decide, fun ps hps => ?_⟩
    obtain ⟨n, h1, h2, h3, h4⟩ := key ps hps
    exact ⟨⟨n, h1, h2, h3⟩, ⟨_, h4, rfl⟩⟩
  · simp [State.pv, ready, State.reset] at hl

/-- PmInitFills: a run of four cells that ends at PM_SIZE, one of no cell, and one whose last cell does not exist. -/
theorem test_witness_PmInitFills : let s := { State.reset with a := 0xFFFC#32, b := 4#32 }
    let r := { State.reset with a := 0xFFFC#32, b := 5#32 }
    (∀ k < s.b.toNat, (s.a.toNat + k) % 2 ^ 32 < s.params.pmSize) ∧ State.reset.b.toNat = 0 ∧
    (4 < r.b.toNat ∧ r.params.pmSize ≤ (r.a.toNat + 4) % 2 ^ 32 ∧
      ∀ i < 4, (r.a.toNat + i) % 2 ^ 32 < r.params.pmSize) := by decide +kernel

/-- PmRdReads and PmWrWrites: the last cell that exists, the first that does not, and an unwritten one. -/
theorem test_witness_PmRdReads : let s := { State.reset with a := 0xFFFF#32, b := 0#32, pm := [(0xFFFF, 1024#16)] }
    (0xFFFF = (s.a.toNat + s.b.toNat) % 2 ^ 32 ∧ 0xFFFF < s.params.pmSize ∧ s.pm.get? 0xFFFF = some 1024#16) ∧
    (0x10000 = ((0xFFFF#32).toNat + (1#32).toNat) % 2 ^ 32 ∧ s.params.pmSize ≤ 0x10000) ∧ s.pm.get? 0 = none := by
  decide +kernel
theorem test_witness_PmWrWrites : 0 = ((0xFFFFFFFF#32).toNat + (1#32).toNat) % 2 ^ 32 ∧ 31 ≤ (31#32).toNat ∧
    (2017#32).toNat ≤ 2017 ∧ (30#32).toNat < 31 ∧ 2017 < (2018#32).toNat ∧ State.reset.params.pmSize ≤ 0x10000 := by
  decide +kernel

/-- RdInitStarts: five bytes; and none and four, before each answer that is no byte, listed and for ever. -/
theorem test_witness_RdInitStarts (s : State) :
    { s with input := ⟨List.replicate 5 (.byte 1#8), .eof⟩ }.input.answers =
      .byte 1#8 :: .byte 1#8 :: .byte 1#8 :: .byte 1#8 :: .byte 1#8 :: [] ∧
    (([] : List Byte).length < 5 ∧ { s with input := ⟨[], .eof⟩ }.input.answers = [].map .byte ++ [] ∧
      noByte { s with input := ⟨[], .eof⟩ } (State.faulted { s with input := ⟨[], .eof⟩ } ⟨.unexpectedEof, 0#32⟩)) ∧
    (([1#8, 2#8, 3#8, 4#8] : List Byte).length < 5 ∧
      { s with input := ⟨[.byte 1#8, .byte 2#8, .byte 3#8, .byte 4#8, .err], .eof⟩ }.input.answers =
        ([1#8, 2#8, 3#8, 4#8] : List Byte).map .byte ++ [.err] ∧
      noByte { s with input := ⟨[.err], .eof⟩ } (State.faulted { s with input := ⟨[], .eof⟩ } ⟨.ioError, 0#32⟩)) ∧
    noByte { s with input := ⟨[.eof], .err⟩ } (State.faulted { s with input := ⟨[], .err⟩ } ⟨.unexpectedEof, 0#32⟩) ∧
    noByte { s with input := ⟨[], .err⟩ } (State.faulted { s with input := ⟨[], .err⟩ } ⟨.ioError, 0#32⟩) ∧
    noByte { s with input := ⟨[], .silent⟩ } { s with input := ⟨[], .silent⟩, request := some .inByte } :=
  ⟨rfl, ⟨by decide, rfl, rfl⟩, ⟨by decide, rfl, rfl⟩, rfl, rfl, rfl⟩

/-- RdBitDecodes: no byte needed, a byte to come, and each way in which a byte that is needed does not come. -/
theorem test_witness_RdBitDecodes : (ready.rdReady = true ∧ ready.decoderInterval ∧ ready.readable [ready.a + ready.b] ∧
      ready.hasBytes 1 ∧ ∀ bit, 2 ^ 24 ≤ (bitTaken (ready.a + ready.b, bit) ready).rdRange.toNat) ∧
    ∀ last, (starved last).rdReady = true ∧ (starved last).decoderInterval ∧
      (starved last).readable [(starved last).a + (starved last).b] ∧
      ∀ bit, let v := bitTaken ((starved last).a + (starved last).b, bit) (starved last)
        v.rdRange.toNat < 2 ^ 24 ∧ ∃ t, noByte v t := by
  refine ⟨⟨rfl, ready_decoderInterval, ready_readable (by decide +kernel), ?_, fun bit => (starved_short .eof bit).2⟩, fun last => ?_⟩
  · obtain ⟨bs, r, h1, h2⟩ := ready_hasBytes
    exact ⟨bs, r, h1, by omega⟩
  · have he : (starved last).a + (starved last).b = 0x10#32 := by simp only [starved, ready, State.reset]; decide
    rw [he]
    refine ⟨by simp only [starved, ready], by simp only [starved, State.decoderInterval]; decide,
      fresh_readable (by simp only [starved]) (by simp only [starved]) (by decide), fun bit => ⟨(starved_short last bit).1, ?_⟩⟩
    have hi : (bitTaken (0x10#32, bit) (starved last)).input = ⟨[], last⟩ := by simp only [bitTaken, starved]
    unfold noByte
    rw [hi]
    cases last <;> exact ⟨_, rfl⟩

/-- RdDirectDecodes: N = 0 and N = 32. -/
theorem test_witness_RdDirectDecodes : legalCount 0#6 ∧ legalCount 32#6 ∧ ready.rdReady = true ∧ ready.decoderInterval ∧
    ready.hasBytes (32#6).toNat := ⟨by decide, by decide, rfl, ready_decoderInterval, ready_hasBytes⟩

/-- The commands that decode several bits, with no byte to come: their conditions hold. -/
theorem test_witness_starved (last : InEnd) : (starved last).rdReady = true ∧ (starved last).decoderInterval ∧
    (starved last).readable (spanCells (treeSpan (starved last).a (8#6).toNat)) ∧ (starved last).legalPs 3#4 ∧
    (starved last).readable (spanCells (lenSpan ((starved last).lenBase 0#1) (3#4).toNat)) ∧ (starved last).legalLcLp ∧
    (starved last).readable (spanCells (plainSpan (starved last).litCell)) ∧
    (starved last).readable (spanCells (matchedSpan (starved last).litCell)) := by
  have h1 : (starved last).pm = ready.pm := by simp only [starved]
  have h2 : (starved last).params = ready.params := by simp only [starved]
  have h3 : (starved last).a = 0x10#32 := by simp only [starved, ready]
  have h4 : (starved last).lenBase 0#1 = 0x100#32 := by simp only [starved, ready, State.lenBase]; rfl
  have h5 : (starved last).litCell = ready.litCell := by simp only [starved, State.litCell]
  have h6 : (starved last).cfg = ready.cfg := by simp only [starved]
  refine ⟨by simp only [starved, ready], by simp only [starved, State.decoderInterval]; decide,
    fresh_readable h1 h2 (by rw [h3]; decide +kernel), ?_, fresh_readable h1 h2 (by rw [h4]; decide +kernel), ?_,
    fresh_readable h1 h2 (by rw [h5]; decide +kernel), fresh_readable h1 h2 (by rw [h5]; decide +kernel)⟩
  · simp only [State.legalPs, h6]; decide
  · simp only [State.legalLcLp, h6]; decide

/-- RdTreeDecodes: depths 1 and 8. -/
theorem test_witness_RdTreeDecodes : legalDepth 1#6 ∧ legalDepth 8#6 ∧ ready.rdReady = true ∧ ready.decoderInterval ∧
    ready.readable (spanCells (treeSpan ready.a (8#6).toNat)) ∧ ready.hasBytes (8#6).toNat :=
  ⟨by decide, by decide, rfl, ready_decoderInterval, ready_readable (by decide +kernel), by
    obtain ⟨bs, r, h1, h2⟩ := ready_hasBytes; exact ⟨bs, r, h1, Nat.le_trans (by decide) h2⟩⟩

theorem test_witness_RdLenDecodes : ready.rdReady = true ∧ ready.legalPs 3#4 ∧ ready.decoderInterval ∧
    ready.readable (spanCells (lenSpan (ready.lenBase 0#1) (3#4).toNat)) ∧ ready.hasBytes 10 :=
  ⟨rfl, by decide, ready_decoderInterval, ready_readable (by decide +kernel), by
    obtain ⟨bs, r, h1, h2⟩ := ready_hasBytes; exact ⟨bs, r, h1, by omega⟩⟩

theorem test_witness_RdLiteralDecodes : ready.rdReady = true ∧ ready.legalLcLp ∧ ready.decoderInterval ∧ ready.hasBytes 8 ∧
    ready.readable (spanCells (plainSpan ready.litCell)) ∧ ready.readable (spanCells (matchedSpan ready.litCell)) :=
  ⟨rfl, by decide, ready_decoderInterval, by
    obtain ⟨bs, r, h1, h2⟩ := ready_hasBytes; exact ⟨bs, r, h1, by omega⟩,
    ready_readable (by decide +kernel), ready_readable (by decide +kernel)⟩

/-- ByteBudget: a state for the clauses on one decoded bit, and one for a command with and without RD_READY. -/
theorem test_witness_ByteBudget : Instr.idxPs.wellFormed = true ∧ ready.modelsInv ∧ ready.decoderInterval ∧
    ready.modelCell 5#32 ∧ runsTo .idxPs ready (afterCommand .idxPs ready) ∧ State.reset.modelsInv ∧
    State.reset.rdReady = false ∧ runsTo .rdInit State.reset (afterCommand .rdInit State.reset) :=
  ⟨rfl, ready_modelsInv, ready_decoderInterval, ready_modelCell (by decide), runsTo_afterCommand _ _, by decide, rfl,
    runsTo_afterCommand _ _⟩

theorem crowded_reReady (last : Option OutAnswer) : (crowded last).reReady = true := by simp only [crowded, ready]

/-- ReBitEncodes: a sink that accepts, any sink where no ShiftLow runs, and one that refuses or never answers. -/
theorem test_witness_ReBitEncodes :
    (ready.reReady = true ∧ ready.readable [ready.a + ready.b] ∧
      codingAccepted bitCoded [(ready.a + ready.b, ready.c.toNat.testBit 0)] ready) ∧
    (∀ p, codingAccepted bitCoded [(0x10#32, false)] (ready.into p)) ∧
    ∀ last, last ≠ some .ok → (crowded last).reReady = true ∧ (crowded last).readable [0x10#32] ∧
      ∃ t, codingStops bitCoded [(0x10#32, false)] (crowded last) t :=
  ⟨⟨rfl, ready_readable (by decide +kernel), ready_bitsAccepted _⟩, fun p => into_accepted p false,
    fun last hl => ⟨crowded_reReady last, fresh_readable (by simp only [crowded]) (by simp only [crowded]) (by decide),
      crowded_stops hl _ _ (by decide)⟩⟩

/-- ReDirectEncodes: N = 0 and N = 32, and a sink that refuses or never answers. -/
theorem test_witness_ReDirectEncodes : legalCount 0#6 ∧ legalCount 32#6 ∧ ready.reReady = true ∧
    (∀ bits, codingAccepted halfCoded bits ready) ∧
    ∀ last, last ≠ some .ok → (crowded last).reReady = true ∧
      ∃ bits t, bits = (List.range (1#6).toNat).map (fun i => (crowded last).b.toNat.testBit ((1#6).toNat - 1 - i)) ∧
        codingStops halfCoded bits (crowded last) t := by
  refine ⟨by decide, by decide, rfl, ready_halvesAccepted, fun last hl => ⟨crowded_reReady last, [false], ?_⟩⟩
  have h2 : (crowded last).reRange = 0x01000000#32 := by simp only [crowded]
  have h3 : (crowded last).reLow = 0#33 := by simp only [crowded, ready, State.reset]
  have h4 : (crowded last).sink = ⟨[], last⟩ := by simp only [crowded]
  have h5 : (crowded last).b = 0#32 := by simp only [crowded, ready, State.reset]
  obtain ⟨t, h⟩ := head_stops (coded := halfCoded) (x := false) (s := crowded last) []
    (by simp only [halfCoded, h2]; decide) (by simp only [halfCoded, h2, h3]; decide)
    (by simpa [halfCoded, h4, OutPort.answerAt] using hl)
  exact ⟨t, by rw [h5]; decide, h⟩

/-- ReTreeEncodes: depths 1 and 8, and a sink that refuses or never answers. -/
theorem test_witness_ReTreeEncodes : legalDepth 1#6 ∧ legalDepth 8#6 ∧ ready.reReady = true ∧
    ready.readable (spanCells (treeSpan ready.a (8#6).toNat)) ∧ (∀ code, codingAccepted bitCoded code ready) ∧
    ∀ last, last ≠ some .ok → (crowded last).reReady = true ∧
      (crowded last).readable (spanCells (treeSpan (crowded last).a (1#6).toNat)) ∧
      (∃ t, codingStops bitCoded (treeCode (crowded last).a (1#6).toNat (crowded last).b.toNat) (crowded last) t) ∧
      ∃ t, codingStops bitCoded (treeCodeRev (crowded last).a (1#6).toNat (crowded last).b.toNat) (crowded last) t := by
  refine ⟨by decide, by decide, rfl, ready_readable (by decide +kernel), ready_bitsAccepted, fun last hl =>
    ⟨crowded_reReady last, ?_⟩⟩
  have h1 : (crowded last).a = 0x10#32 := by simp only [crowded, ready]
  have h2 : (crowded last).b = 0#32 := by simp only [crowded, ready, State.reset]
  rw [h1, h2]
  exact ⟨fresh_readable (by simp only [crowded]) (by simp only [crowded]) (by decide),
    crowded_stops hl (0x11#32, false) [] (by decide), crowded_stops hl (0x11#32, false) [] (by decide)⟩

/-- ReLenEncodes: PV = 0 and PV = 1, a counter of 2 and a counter of 1, the last symbol, and a sink that refuses or never answers. -/
theorem test_witness_ReLenEncodes : (ready.reReady = true ∧ ready.legalPs 1#4 ∧ (271#32).toNat ≤ 271 ∧ ready.b.toNat ≤ 271) ∧
    (ready.readable (spanCells (lenSpan (ready.lenBase 0#1) (1#4).toNat)) ∧
      ready.readable (spanCells (lenSpan (ready.lenBase 1#1) (1#4).toNat)) ∧ ∀ code, codingAccepted bitCoded code ready) ∧
    (ready.pv 1#1 = false ∧ ready.pv 0#1 = true ∧ ready.legalTableSize ∧ ready.lenCnt.get? 0 = some 2#9 ∧
      ready.lenCnt.get? 1 = some 1#9) ∧
    ∀ last, last ≠ some .ok → (crowded last).reReady = true ∧ (crowded last).cfg = ready.cfg ∧
      (crowded last).readable (spanCells (lenSpan 0x100#32 (1#4).toNat)) ∧
      ∃ t, codingStops bitCoded (lenCode 0x100#32 (1#4).toNat 0) (crowded last) t :=
  ⟨⟨rfl, by decide, by decide, by decide⟩,
    ⟨ready_readable (by decide +kernel), ready_readable (by decide +kernel), ready_bitsAccepted⟩,
    ⟨rfl, rfl, by decide, rfl, rfl⟩, fun last hl => ⟨crowded_reReady last, by simp only [crowded],
      fresh_readable (by simp only [crowded]) (by simp only [crowded]) (by decide +kernel),
      crowded_stops hl (0x100#32, false) (treeCode 0x10A#32 3 0) (by decide)⟩⟩

/-- ReLiteralEncodes: a sink that accepts, and one that refuses or never answers. -/
theorem test_witness_ReLiteralEncodes : (ready.reReady = true ∧ ready.legalLcLp ∧
      ready.readable (spanCells (plainSpan ready.litCell)) ∧ ready.readable (spanCells (matchedSpan ready.litCell)) ∧
      ∀ code, codingAccepted bitCoded code ready) ∧
    ∀ last, last ≠ some .ok → (crowded last).litCell = ready.litCell ∧
      (∃ t, codingStops bitCoded (litCode ready.litCell 0x41) (crowded last) t) ∧
      ∃ t, codingStops bitCoded (matchedCode ready.litCell 0x40 0x41) (crowded last) t :=
  ⟨⟨rfl, by decide, ready_readable (by decide +kernel), ready_readable (by decide +kernel), ready_bitsAccepted⟩,
    fun last hl => ⟨by simp only [crowded, State.litCell], by
      obtain ⟨x, rest, h⟩ := List.exists_cons_of_length_pos (l := litCode ready.litCell 0x41) (by decide +kernel)
      rw [h]; exact crowded_stops hl x rest (by
        have : (litCode ready.litCell 0x41).all (fun x => decide (x.1.toNat < 4096)) = true := by decide +kernel
        simp only [h, List.all_cons, Bool.and_eq_true, decide_eq_true_eq] at this; exact this.1), by
      obtain ⟨x, rest, h⟩ := List.exists_cons_of_length_pos (l := matchedCode ready.litCell 0x40 0x41) (by decide +kernel)
      rw [h]; exact crowded_stops hl x rest (by
        have : (matchedCode ready.litCell 0x40 0x41).all (fun x => decide (x.1.toNat < 4096)) = true := by decide +kernel
        simp only [h, List.all_cons, Bool.and_eq_true, decide_eq_true_eq] at this; exact this.1)⟩⟩

theorem test_witness_ReInitStarts : (0x120#32).toNat % 2 ^ 8 = 0x20 ∧ 0x120#32 ≠ 0x20#32 := by decide

/-- ReFlushEmits: all five ShiftLows accepted and then each answer to the flush, and a sink that takes no byte. -/
theorem test_witness_ReFlushEmits : (ready.reReady = true ∧ shiftsAccepted 5 ready) ∧
    (∀ last : Option OutAnswer, let s := { encoder with sink := ⟨List.replicate 5 .ok, last⟩ }
      s.reReady = true ∧ shiftsAccepted 5 s ∧
        s.shifted.shifted.shifted.shifted.shifted.sink.answerAt 0 = last) ∧
    (badSink.reReady = true ∧ ∃ t, shiftsStop 5 badSink t) ∧
    ∃ t, shiftsStop 5 { badSink with sink := ⟨[], none⟩ } t := by
  refine ⟨⟨rfl, shiftsAccepted_of_sinkAccepts _ ready_sinkAccepts⟩, fun last => ⟨rfl, ?_, by rcases last with _ | _ | _ <;> decide⟩,
    ⟨rfl, _, .inl ⟨0, 0#8, rfl, by simp, .inl ⟨rfl, rfl⟩⟩⟩, _, .inl ⟨0, 0#8, rfl, by simp, .inr ⟨rfl, rfl⟩⟩⟩
  have h : ∀ s : State, s.leavingBytes.length = 1 → s.sink.answerAt 0 = some .ok → s.shiftAccepted := by
    intro s h1 h2 k hk
    obtain rfl : k = 0 := by omega
    exact h2
  rcases last with _ | _ | _ <;>
    exact ⟨h _ (by decide) (by decide), h _ (by decide) (by decide), h _ (by decide) (by decide), h _ (by decide) (by decide),
      h _ (by decide) (by decide), trivial⟩

/-- The bytes that the stream of one direct 1 bit is encoded in, and a block that reads them. -/
def streamBytes : List Byte := [0x00#8, 0x7F#8, 0xFF#8, 0xFF#8, 0xFF#8]
def reader : State := { ready with input := ⟨streamBytes.map .byte ++ [.eof], .eof⟩ }

/-- RoundTrip: every hypothesis together, the bytes being those the encoder emits. -/
theorem test_witness_RoundTrip : ([.direct 1#6 1#32] : List Coded).length < 2 ^ 32 ∧ ready.running ∧ reader.running ∧
    ready.sinkAccepts ∧ (∀ op ∈ ([.direct 1#6 1#32] : List Coded), op.legal ready) ∧ reader.params = ready.params ∧
    reader.pm = ready.pm ∧ reader.cfg = ready.cfg ∧ reader.litBase = ready.litBase ∧ reader.lenBase0 = ready.lenBase0 ∧
    reader.lenBase1 = ready.lenBase1 ∧ reader.input.answers = streamBytes.map .byte ++ [.eof] ∧
    (afterCommand .reFlush (([.direct 1#6 1#32] : List Coded).foldl Coded.encode (afterCommand .reInit ready))).output =
      ready.output ++ streamBytes.map .byte ++ [.flush] :=
  ⟨by decide, ready_running, ⟨rfl, rfl⟩, ready_sinkAccepts, List.forall_mem_singleton.mpr (by decide : legalCount 1#6), rfl,
    by simp only [reader], rfl, rfl, rfl, rfl, by simp only [reader], by decide +kernel⟩

/-- RoundTrip: every form of a coded command is legal somewhere, at the ends of its fields. -/
theorem test_witness_RoundTrip_forms : (Coded.bit 5#32 false).legal ready ∧ (Coded.direct 0#6 7#32).legal ready ∧
    (Coded.direct 32#6 7#32).legal ready ∧ (Coded.tree 0x10#32 1#6 1#32).legal ready ∧
    (Coded.tree 0x10#32 8#6 255#32).legal ready ∧ (Coded.treeRev 0x10#32 8#6 1#32).legal ready ∧
    (Coded.len 3#4 0#1 271#32).legal ready ∧ (Coded.lit 1#32 0x20#8 0x61#8).legal ready ∧
    (Coded.litMatched 1#32 0x20#8 0x61#8 0x62#8).legal ready :=
  ⟨ready_readable (by decide), (by decide : legalCount 0#6), (by decide : legalCount 32#6),
    ⟨by decide, ready_readable (by decide +kernel)⟩, ⟨by decide, ready_readable (by decide +kernel)⟩,
    ⟨by decide, ready_readable (by decide +kernel)⟩, ⟨by decide, by decide, fun _ => by decide, ready_readable (by decide +kernel)⟩,
    ⟨by decide, ready_readable (by decide +kernel)⟩, ⟨by decide, ready_readable (by decide +kernel)⟩⟩

/-- IdxPsIndexes and IdxLitIndexes: the greatest legal fields, and the least illegal ones. -/
theorem test_witness_IdxPsIndexes : ready.b = BitVec.ofNat 32 (2 ^ 32) ∧ { ready with cfg := ⟨0, 0, 4, 0⟩ }.cfg.pb.toNat ≤ 4 ∧
    4 < { ready with cfg := ⟨0, 0, 5, 0⟩ }.cfg.pb.toNat := by decide
theorem test_witness_IdxLitIndexes : { ready with cfg := ⟨8, 4, 0, 0⟩ }.legalLcLp ∧
    ¬ { ready with cfg := ⟨9, 4, 0, 0⟩ }.legalLcLp ∧ ¬ { ready with cfg := ⟨8, 5, 0, 0⟩ }.legalLcLp := by decide

/-- PriceTableFormula: the first and the last index of the first layer, and the one index of the last. -/
theorem test_witness_PriceTableFormula : (2 ^ (8 - 0) ≤ 256 ∧ 256 < 2 ^ (9 - 0)) ∧ (2 ^ (8 - 0) ≤ 511 ∧ 511 < 2 ^ (9 - 0)) ∧
    (2 ^ (8 - 8) ≤ 1 ∧ 1 < 2 ^ (9 - 8)) := by decide

theorem test_witness_BitPriceIndex : 1 ≤ (1#16).toNat ∧ (2047#16).toNat ≤ 2047 := by decide

theorem test_witness_PriceBounds : 31 ≤ (31#16).toNat ∧ (2017#16).toNat ≤ 2017 ∧
    ready.readable (codeCells (treeCode 0x10#32 8 255)) ∧ ready.readable (codeCells (litCode 0x400#32 255)) ∧
    ready.readable (codeCells (matchedCode 0x400#32 0 255)) ∧ ready.readable (codeCells (lenCode 0x100#32 3 271)) :=
  ⟨by decide, by decide, ready_readable (by decide +kernel), ready_readable (by decide +kernel),
    ready_readable (by decide +kernel), ready_readable (by decide +kernel)⟩

theorem test_witness_PriceQueriesSum : ready.readable [ready.a + ready.b] ∧ legalDepth 1#6 ∧ legalDepth 8#6 ∧
    ready.readable (spanCells (treeSpan ready.a (8#6).toNat)) ∧ ready.legalLcLp ∧
    ready.readable (spanCells (plainSpan ready.litCell)) ∧ ready.readable (spanCells (matchedSpan ready.litCell)) :=
  ⟨ready_readable (by decide +kernel), by decide, by decide, ready_readable (by decide +kernel), by decide,
    ready_readable (by decide +kernel), ready_readable (by decide +kernel)⟩

theorem test_witness_LenPriceInitFills : ready.cfg.pb.toNat ≤ 4 ∧ ready.legalTableSize ∧
    ready.readable (spanCells (lenPriceSpan (ready.lenBase 0#1) (2 ^ ready.cfg.pb.toNat))) :=
  ⟨by decide, by decide, ready_readable (by decide +kernel)⟩

/-- PrLenReads: the last filled price, an invalid table, and the first symbol past the table. -/
theorem test_witness_PrLenReads : ready.legalPs 3#4 ∧ ready.legalTableSize ∧ ready.pv 0#1 = true ∧
    ({ ready with b := 1#32 }).b.toNat < ready.cfg.tableSize.toNat ∧
    ready.lenPrice.get? (16 * (0#1).toNat + (3#4).toNat) = some [256#32, 256#32] ∧ [256#32, 256#32][1]? = some 256#32 ∧
    ready.pv 1#1 = false ∧ ready.cfg.tableSize.toNat ≤ ({ ready with b := 2#32 }).b.toNat := by
  exact ⟨by decide, by decide, rfl, by decide, rfl, rfl, rfl, by decide⟩

end Sys2Proof.Tests
end

section
/-!
SUPPORT. Proofs of the statements of 10_state: what the host's accesses and resets do, and which command writes which
registers. Each frame of a command is one case split over `CommandEffect`.
-/

namespace Sys2Proof

/-! ## A word that decodes is its command's word (30_encoding R90, R93, R94) -/

/-- What a row makes of the fields has these fields as its word, where the fields that the opcode does not use are 0. -/
theorem encode_make {op : BitVec 8} {r : OpRow} {n : BitVec 6} {ps : BitVec 4} {l : BitVec 1} (hr : opRow op = some r)
    (hn : r.n = none → n = 0) (hp : r.ps = false → ps = 0) (hl : r.l = false → l = 0) :
    encode (r.make n ps l) = commandWord op n ps l := by
  have hop : op = BitVec.ofNat 8 op.toNat := by simp
  unfold opRow at hr
  split at hr
  case h_32 => simp at hr
  all_goals
    rename_i hv
    rw [hv] at hop
    obtain rfl := Option.some.inj hr
    simp_all [OpRow.plain, OpRow.count, OpRow.depth, OpRow.length, OpRow.select, encode]

theorem encode_of_decode {w : Word} {i : Instr} (h : decode w = .ok i) : encode i = w := by
  obtain ⟨r, hr, hu, -, rfl⟩ := decode_ok h
  obtain ⟨hw, hn, hp, hl⟩ := unused_fields hu
  rw [encode_make hr hn hp hl, commandWord_fields hw]

end Sys2Proof

namespace Sys2Proof.Machine

/-! ## A write to CMD (R283, R285 steps 1 and 2) -/

/-- While ERR = 1 every word but NOP's and RESET's is ignored (R283). -/
theorem writeCmd_ignored {s : State} {w : Word} (he : s.err = true) (h0 : w ≠ 0x00000000#32) (h1 : w ≠ 0x00000001#32) :
    writeCmd w s = .next s := if_pos ⟨he, h0, h1⟩

/-- A legal word that is not ignored runs its command. -/
theorem writeCmd_legal {s : State} {w : Word} {i : Instr} (hd : decode w = .ok i)
    (hi : s.err = false ∨ i = .nop ∨ i = .reset) : writeCmd w s = exec i s := by
  have hrun : ¬ (s.err = true ∧ w ≠ 0x00000000#32 ∧ w ≠ 0x00000001#32) := by
    rintro ⟨he, h0, h1⟩
    rcases hi with hi | rfl | rfl
    · simp [he] at hi
    · exact h0 (encode_of_decode hd).symm
    · exact h1 (encode_of_decode hd).symm
  rw [writeCmd, if_neg hrun, hd]

/-- Settles O6: the write reaches `writeCmd`, which runs a legal word that is not ignored. -/
theorem stepRunsDecodedCommand : Obligations.StepRunsDecodedCommand := by
  intro s w rest i h hd hi
  rw [step_write h (by decide) (by decide)]
  exact writeCmd_legal hd hi

/-! ## The register window (R33 to R35) -/

/-- The fields of CFG that a write stores, in plain numbers (R26). -/
theorem Cfg.ofWord_eq (w : Word) :
    Cfg.ofWord w = { lc := BitVec.ofNat 4 w.toNat, lp := BitVec.ofNat 3 (w.toNat / 2 ^ 4)
                     pb := BitVec.ofNat 3 (w.toNat / 2 ^ 8), tableSize := BitVec.ofNat 9 (w.toNat / 2 ^ 16) } := by
  simp [Cfg.ofWord, BitVec.extractLsb', Nat.shiftRight_eq_div_pow]

/-- Settles O10: each writable offset has its arm in `writeReg`. -/
theorem hostWritesStore : Obligations.HostWritesStore := by
  intro s w rest
  refine ⟨fun h => ?_, fun h => ?_, fun h => ?_, fun h => ?_, fun h => ?_, fun h => ?_, fun h => ?_⟩ <;>
    rw [step_write h (by decide) (by decide)]
  case refine_4 => rw [← Cfg.ofWord_eq]; rfl
  all_goals rfl

/-- Settles O8: a write to CMD is ignored or runs NOP or RESET; the other writes do what they do at ERR = 0. -/
theorem errIgnoresCommands : Obligations.ErrIgnoresCommands := by
  intro s w rest he
  refine ⟨fun h h0 h1 => ?_, fun h => ?_, fun h => ?_, hostWritesStore s w rest⟩
  · rw [step_write h (by decide) (by decide)]
    exact writeCmd_ignored he h0 h1
  · exact stepRunsDecodedCommand s _ rest _ h decode_nop (.inr (.inl rfl))
  · exact stepRunsDecodedCommand s _ rest _ h decode_reset (.inr (.inr rfl))

/-- A write at an offset that is not writable changes nothing (R35). -/
theorem writeReg_ignored {off : Nat} (w : Word) (s : State) (h : off ∈ readOnlyOffsets ∨ unassignedOffset off) :
    writeReg off w s = .next s := by
  have hout : off ∉ [0x00, 0x04, 0x08, 0x0C, 0x1C, 0x20, 0x24, 0x28] := by
    intro hin
    simp only [List.mem_cons, List.not_mem_nil, or_false] at hin
    rcases h with h | ⟨-, h, -⟩
    · rcases hin with rfl | rfl | rfl | rfl | rfl | rfl | rfl | rfl <;> revert h <;> decide
    · omega
  unfold writeReg
  split <;> simp at hout ⊢

theorem readOnly_wordOffset : ∀ off ∈ readOnlyOffsets, off < 0x100 ∧ off % 4 = 0 := by decide

/-- Settles O12: no read-only or unassigned offset has an arm in `writeReg`. -/
theorem readOnlyWritesIgnored : Obligations.ReadOnlyWritesIgnored := by
  intro s w rest off ho h
  have hw : off < 0x100 ∧ off % 4 = 0 := ho.elim (readOnly_wordOffset off) fun ⟨h4, _, hlt⟩ => ⟨hlt, h4⟩
  rw [step_write h hw.1 hw.2]
  exact writeReg_ignored w _ ho

/-- Joining a word with one shifted past its bits adds. -/
theorem toNat_or_shiftLeft {x y : Word} {k m n : Nat} (hx : x.toNat = m) (hy : y.toNat = n) (hm : m < 2 ^ k)
    (hn : 2 ^ k * n < 2 ^ 32) : (x ||| y <<< k).toNat = m + 2 ^ k * n := by
  have hshift : (y <<< k).toNat = 2 ^ k * n := by
    rw [BitVec.toNat_shiftLeft, Nat.shiftLeft_eq, hy, Nat.mul_comm, Nat.mod_eq_of_lt hn]
  rw [BitVec.toNat_or, hshift, hx, Nat.or_comm, ← Nat.two_pow_add_eq_or_of_lt hm, Nat.add_comm]

theorem bitWord_toNat (b : Bool) : (bitWord b).toNat = b.toNat := by cases b <;> rfl

/-- STATUS as a number (R24). -/
theorem statusWord_toNat (s : State) :
    s.statusWord.toNat = s.err.toNat + 2 * s.rdReady.toNat + 4 * s.reReady.toNat + 8 * s.pv0.toNat + 16 * s.pv1.toNat
      + 2 ^ 8 * s.cause.toNat := by
  have h0 := s.err.toNat_le; have h1 := s.rdReady.toNat_le; have h2 := s.reReady.toNat_le
  have h3 := s.pv0.toNat_le; have h4 := s.pv1.toNat_le; have h5 := s.cause.isLt
  have hcause : (s.cause.setWidth 32).toNat = s.cause.toNat := BitVec.toNat_setWidth_of_le (by omega)
  have e1 := toNat_or_shiftLeft (k := 1) (bitWord_toNat s.err) (bitWord_toNat s.rdReady) (by omega) (by omega)
  have e2 := toNat_or_shiftLeft (k := 2) e1 (bitWord_toNat s.reReady) (by omega) (by omega)
  have e3 := toNat_or_shiftLeft (k := 3) e2 (bitWord_toNat s.pv0) (by omega) (by omega)
  have e4 := toNat_or_shiftLeft (k := 4) e3 (bitWord_toNat s.pv1) (by omega) (by omega)
  exact toNat_or_shiftLeft (k := 8) e4 hcause (by omega) (by omega)

/-- CFG as a number (R26). -/
theorem Cfg.word_toNat (g : Cfg) :
    g.word.toNat = g.lc.toNat + 2 ^ 4 * g.lp.toNat + 2 ^ 8 * g.pb.toNat + 2 ^ 16 * g.tableSize.toNat := by
  have h0 := g.lc.isLt; have h1 := g.lp.isLt; have h2 := g.pb.isLt; have h3 := g.tableSize.isLt
  have wide : ∀ {n : Nat} (x : BitVec n), n ≤ 32 → (x.setWidth 32).toNat = x.toNat := fun _ =>
    BitVec.toNat_setWidth_of_le
  have e1 := toNat_or_shiftLeft (k := 4) (wide g.lc (by omega)) (wide g.lp (by omega)) (by omega) (by omega)
  have e2 := toNat_or_shiftLeft (k := 8) e1 (wide g.pb (by omega)) (by omega) (by omega)
  exact toNat_or_shiftLeft (k := 16) e2 (wide g.tableSize (by omega)) (by omega) (by omega)

/-- A word is the number it holds. -/
theorem eq_ofNat_of_toNat {x : Word} {n : Nat} (h : x.toNat = n) : x = BitVec.ofNat 32 n := by simp [← h]

/-- The low word of a register of more than 32 bits (R30). -/
theorem setWidth_low {w : Nat} (x : BitVec w) : x.setWidth 32 = BitVec.ofNat 32 (x.toNat % 2 ^ 32) :=
  BitVec.eq_of_toNat_eq (by simp)

/-- The high word of a register of more than 32 bits (R30). -/
theorem setWidth_high {w : Nat} (x : BitVec w) : (x >>> 32).setWidth 32 = BitVec.ofNat 32 (x.toNat / 2 ^ 32) :=
  BitVec.eq_of_toNat_eq (by simp [Nat.shiftRight_eq_div_pow])

/-- The window reads as the map of R34 lists it, each register at a word offset. -/
theorem readReg_registerMap (s : State) :
    ∀ x ∈ registerMap s, (x.1 < 0x100 ∧ x.1 % 4 = 0) ∧ s.readReg x.1 = BitVec.ofNat 32 x.2 := by
  have status := eq_ofNat_of_toNat (statusWord_toNat s)
  have config := eq_ofNat_of_toNat s.cfg.word_toNat
  simp only [registerMap, List.forall_mem_cons]
  refine ⟨?_, ?_, ?_, ?_, ?_, ⟨by decide, status⟩, ?_, ⟨by decide, config⟩, ?_, ?_, ?_, ?_, ?_, ?_,
    ⟨by decide, setWidth_low _⟩, ⟨by decide, setWidth_high _⟩, ?_, ⟨by decide, setWidth_low _⟩,
    ⟨by decide, setWidth_high _⟩, ⟨by decide, setWidth_low _⟩, ⟨by decide, setWidth_high _⟩, ?_, ?_, by simp⟩
  all_goals exact ⟨by decide, by simp [State.readReg, idWord, revisionWord]⟩

/-- An unassigned offset reads as 0 (R34). -/
theorem readReg_unassigned (s : State) {off : Nat} (h : unassignedOffset off) : s.readReg off = 0#32 := by
  obtain ⟨-, hlo, -⟩ := h
  unfold State.readReg
  split <;> simp at hlo ⊢

/-- Settles O11: a read of the window returns what `readReg` says of it. -/
theorem hostReadsReturn : Obligations.HostReadsReturn := by
  intro s rest
  refine ⟨fun x hx h => ?_, fun off ho h => ?_⟩
  · obtain ⟨⟨hlt, h4⟩, hv⟩ := readReg_registerMap { s with host := rest } x hx
    rw [step_read h hlt h4, hv]
  · rw [step_read h ho.2.2 ho.1, readReg_unassigned _ ho]

/-- Settles O13: both are rows of the register map, at read-only offsets. -/
theorem identityIsReadOnly : Obligations.IdentityIsReadOnly := by
  intro s w rest
  have reads := (hostReadsReturn s rest).1
  have writes := fun off ho => readOnlyWritesIgnored s w rest off (.inl ho)
  exact ⟨reads (0x54, 0x4C5A5243) (by simp [registerMap]), reads (0x58, 1) (by simp [registerMap]),
    writes 0x54 (by decide), writes 0x58 (by decide)⟩

/-- Settles O14: the access is in the window and is no word access. -/
theorem otherShapedAccessRefused : Obligations.OtherShapedAccessRefused := by
  intro s off bytes w rest hr ho hb
  have hwin : State.inWindow { s with host := rest } (s.params.regBase + off) = true := by
    simp [State.inWindow, ho]
  have hword : State.wordAccess { s with host := rest } (s.params.regBase + off) bytes = false := by
    simp only [State.wordAccess, Nat.add_sub_cancel_left, decide_eq_false_iff_not]
    omega
  refine ⟨fun hh => ?_, fun hh => ?_⟩ <;> rw [step_idle hr hh] <;> simp [hostEvent, hwin, hword]

/-! ## Waiting and reset (R36, R111, R320, R331) -/

/-- While a command waits, a host's list that no hardware reset heads leaves the state as it is (R331). -/
theorem step_waiting {s : State} {q : PortRequest} (hq : s.request = some q) (hh : ∀ rest, s.host ≠ .hardReset :: rest) :
    step s = .next s := by
  simp only [step, hq]
  unfold waitingStep
  split
  · exact absurd ‹_› (hh _)
  · rfl

/-- A hardware reset at the head of the host's list acts, whether a command waits or not (R320). -/
theorem step_hardReset {s : State} {rest : List HostEvent} (hh : s.host = .hardReset :: rest) :
    step s = .next (State.resetBlock { s with host := rest }) := by
  cases hq : s.request with
  | none => rw [step_idle hq hh]; rfl
  | some q => simp [step, hq, waitingStep, hh, hostEvent]

/-- A reset leaves what is not the block's (R320). -/
theorem sameSurroundings_resetBlock (s : State) : sameSurroundings s s.resetBlock := ⟨rfl, rfl, rfl, rfl⟩

/-- Settles O15: one clause is `step_waiting`, the other `step_hardReset`. -/
theorem waitingBlocksHost : Obligations.WaitingBlocksHost := fun _ _ hq =>
  ⟨step_waiting hq, fun _ hh => ⟨_, step_hardReset hh, atReset_resetBlock _, rfl, sameSurroundings_resetBlock _⟩⟩

/-- Settles O16: resetting the reset state changes nothing. -/
theorem resetState : Obligations.ResetState := atReset_resetBlock State.reset

/-- Settles O17: the command and the hardware reset are both `State.resetBlock`. -/
theorem resetCommand : Obligations.ResetCommand := fun s =>
  ⟨⟨s.resetBlock, rfl, atReset_resetBlock s, sameSurroundings_resetBlock s, rfl⟩, fun _ hh =>
    ⟨_, step_hardReset hh, atReset_resetBlock _, sameSurroundings_resetBlock _, rfl⟩⟩

/-- Settles O29: at reset no cell is listed, no fault is raised, neither coder is started and no price table is valid. -/
theorem resetInvariants : Obligations.ResetInvariants := by
  refine ⟨⟨.nil, fun x hx => absurd hx List.not_mem_nil⟩, ⟨fun _ => rfl, nofun⟩, fun _ => nofun, fun _ => nofun, fun l hl => ?_⟩
  have hpv : State.reset.pv l = false := by simp [State.pv, State.reset]
  simp [hpv] at hl

/-! ## Which command writes what

A frame is stated through the group of registers it keeps. `congrArg` of the group carries it through `decoderOnly`,
`encoderOnly` and the other equations that say what a command leaves alone. -/

/-- What only the host writes: the operands, CFG, the model bases, the parameters and the host's own side (R21, R26 to R28). -/
def State.hostSide (s : State) :=
  (s.a, s.b, s.c, s.cfg, s.litBase, s.lenBase0, s.lenBase1, s.params, s.host, s.hostReads)

/-- The decoder's registers and its source (R29). -/
def State.decoderSide (s : State) := (s.rdRange, s.rdCode, s.input)

/-- The encoder's registers (R30). -/
def State.encoderRegs (s : State) := (s.reRange, s.reLow, s.reCache, s.reCacheSize, s.rePos)

/-- The sink and what it has received (R67). -/
def State.sinkSide (s : State) := (s.sink, s.output)

/-- The price tables and their counters (R32). -/
def State.priceTables (s : State) := (s.lenPrice, s.lenCnt)

/-- RD_READY and RE_READY (R31). -/
def State.readyBits (s : State) := (s.rdReady, s.reReady)

/-- The fault registers (R24, R25). -/
def State.faultRegs (s : State) := (s.err, s.cause, s.faultInfo)

theorem setPv_frame (s : State) (l : BitVec 1) : s.setPv l = { s with pv0 := (s.setPv l).pv0, pv1 := (s.setPv l).pv1 } := by
  unfold State.setPv
  split <;> rfl

/-- LEN_PRICE_INIT writes the price tables and PV only (R209). -/
theorem refills_setPv_frame (s : State) (l : BitVec 1) (n : Nat) :
    (s.refills l n).setPv l = { s with
      lenPrice := (s.refills l n).lenPrice, lenCnt := (s.refills l n).lenCnt
      pv0 := ((s.refills l n).setPv l).pv0, pv1 := ((s.refills l n).setPv l).pv1 } :=
  (setPv_frame _ l).trans <| congrArg (fun u => { u with
    pv0 := ((s.refills l n).setPv l).pv0, pv1 := ((s.refills l n).setPv l).pv1 }) (refills_eq s l n).1

/-- RE_LEN with its count writes what an encoder's command does, and the price tables (R206). -/
theorem counted_frame {s u : State} (hu : encoderOnly s u) (l : BitVec 1) (ps : Nat) :
    u.countAndRefill l ps = { s with
      reRange := u.reRange, reLow := u.reLow, reCache := u.reCache, reCacheSize := u.reCacheSize, rePos := u.rePos
      pm := u.pm, sink := u.sink, output := u.output
      lenPrice := (u.countAndRefill l ps).lenPrice, lenCnt := (u.countAndRefill l ps).lenCnt } :=
  (countAndRefill_frame u l ps).1.trans <| congrArg (fun v => { v with
    lenPrice := (u.countAndRefill l ps).lenPrice, lenCnt := (u.countAndRefill l ps).lenCnt }) hu

section

variable {s t : State} {i : Instr}

theorem CommandEffect.hostSide_eq (h : CommandEffect s i t) : t.hostSide = s.hostSide := by
  cases h with
  | refused | nop | pmInit | pmWr | reInit | reader | rdInit | initFault | initWaits => rfl
  | lenPriceInit l => exact (congrArg State.hostSide (refills_setPv_frame s l _) :)
  | decoded _ _ _ _ _ hu | decodeFault _ _ _ _ _ hu | decodeWaits _ _ _ _ _ hu => exact (congrArg State.hostSide hu.1 :)
  | encoded _ _ _ _ hu | encodeFault _ _ _ _ _ hu | encodeWaits _ _ _ _ _ hu => exact (congrArg State.hostSide hu.1 :)
  | counted _ _ _ _ hu => exact (congrArg State.hostSide (counted_frame hu.1 _ _) :)

theorem CommandEffect.decoderSide_eq (h : CommandEffect s i t) (h1 : i ≠ .rdInit) (h2 : needsDecoder i = false) :
    t.decoderSide = s.decoderSide := by
  cases h with
  | refused | nop | pmInit | pmWr | reInit | reader => rfl
  | lenPriceInit l => exact (congrArg State.decoderSide (refills_setPv_frame s l _) :)
  | rdInit | initFault | initWaits => exact absurd rfl h1
  | decoded _ _ _ hd | decodeFault _ _ _ hd | decodeWaits _ _ _ hd => simp [hd] at h2
  | encoded _ _ _ _ hu | encodeFault _ _ _ _ _ hu | encodeWaits _ _ _ _ _ hu => exact (congrArg State.decoderSide hu.1 :)
  | counted _ _ _ _ hu => exact (congrArg State.decoderSide (counted_frame hu.1 _ _) :)

theorem CommandEffect.sinkSide_eq (h : CommandEffect s i t) (he : needsEncoder i = false) : t.sinkSide = s.sinkSide := by
  cases h with
  | refused | nop | pmInit | pmWr | reInit | reader | rdInit | initFault | initWaits => rfl
  | lenPriceInit l => exact (congrArg State.sinkSide (refills_setPv_frame s l _) :)
  | decoded _ _ _ _ _ hu | decodeFault _ _ _ _ _ hu | decodeWaits _ _ _ _ _ hu => exact (congrArg State.sinkSide hu.1 :)
  | encoded _ _ hn | encodeFault _ _ _ hn | encodeWaits _ _ _ hn => simp [hn] at he
  | counted => simp [needsEncoder] at he

theorem CommandEffect.encoderRegs_eq (h : CommandEffect s i t) (he : needsEncoder i = false) (h1 : i ≠ .reInit) :
    t.encoderRegs = s.encoderRegs := by
  cases h with
  | refused | nop | pmInit | pmWr | reader | rdInit | initFault | initWaits => rfl
  | reInit => exact absurd rfl h1
  | lenPriceInit l => exact (congrArg State.encoderRegs (refills_setPv_frame s l _) :)
  | decoded _ _ _ _ _ hu | decodeFault _ _ _ _ _ hu | decodeWaits _ _ _ _ _ hu => exact (congrArg State.encoderRegs hu.1 :)
  | encoded _ _ hn | encodeFault _ _ _ hn | encodeWaits _ _ _ hn => simp [hn] at he
  | counted => simp [needsEncoder] at he

/-! ### RES (R22) -/

/-- RES is written where a command of R22's list completes, and nowhere else. -/
theorem CommandEffect.res_cases (h : CommandEffect s i t) :
    t.res = s.res ∨ (writesRes i = true ∧ t.err = s.err ∧ t.request = s.request) := by
  cases h with
  | refused | nop | pmInit | pmWr | reInit | rdInit | initFault | initWaits => exact .inl rfl
  | lenPriceInit l => exact .inl (congrArg State.res (refills_setPv_frame s l _) :)
  | reader _ _ hr => exact .inr ⟨by cases i <;> simp_all [readsOnly, writesRes], rfl, rfl⟩
  | decoded _ _ _ hd _ hu =>
    exact .inr ⟨by cases i <;> simp_all [needsDecoder, writesRes], (congrArg State.err hu.1 :),
      (congrArg State.request hu.1 :)⟩
  | decodeFault _ _ _ _ _ hu | decodeWaits _ _ _ _ _ hu => exact .inl (congrArg State.res hu.1 :)
  | encoded _ _ _ _ hu | encodeFault _ _ _ _ _ hu | encodeWaits _ _ _ _ _ hu => exact .inl (congrArg State.res hu.1 :)
  | counted _ _ _ _ hu => exact .inl (congrArg State.res (counted_frame hu.1 _ _) :)

/-! ### STATUS and FAULTINFO (R24, R25, R38) -/

/-- RD_READY is set by RD_INIT and RE_READY by RE_INIT; no other command but RESET writes them. -/
theorem CommandEffect.readyBits_cases (h : CommandEffect s i t) :
    t.readyBits = s.readyBits ∨ (i = .rdInit ∧ t.readyBits = (true, s.reReady)) ∨
      (i = .reInit ∧ t.readyBits = (s.rdReady, true)) := by
  cases h with
  | refused | nop | pmInit | pmWr | reader | initFault | initWaits => exact .inl rfl
  | rdInit => exact .inr (.inl ⟨rfl, rfl⟩)
  | reInit => exact .inr (.inr ⟨rfl, rfl⟩)
  | lenPriceInit l => exact .inl (congrArg State.readyBits (refills_setPv_frame s l _) :)
  | decoded _ _ _ _ _ hu | decodeFault _ _ _ _ _ hu | decodeWaits _ _ _ _ _ hu => exact .inl (congrArg State.readyBits hu.1 :)
  | encoded _ _ _ _ hu | encodeFault _ _ _ _ _ hu | encodeWaits _ _ _ _ _ hu => exact .inl (congrArg State.readyBits hu.1 :)
  | counted _ _ _ _ hu => exact .inl (congrArg State.readyBits (counted_frame hu.1 _ _) :)

@[simp] theorem pv_setPv_self (s : State) (l : BitVec 1) : (s.setPv l).pv l = true := by
  unfold State.setPv State.pv
  split <;> rfl

theorem pv_setPv_ne (s : State) {l l' : BitVec 1} (h : l' ≠ l) : (s.setPv l).pv l' = s.pv l' := by
  unfold State.setPv State.pv
  by_cases h0 : l = 0#1 <;> by_cases h1 : l' = 0#1 <;> simp [h0, h1]
  · exact absurd (h1.trans h0.symm) h
  · exact absurd (by bv_omega) h

theorem pv_refills (s : State) (l l' : BitVec 1) (n : Nat) : (s.refills l n).pv l' = s.pv l' :=
  (congrArg (State.pv · l') (refills_eq s l n).1 :)

theorem CommandEffect.pv_cases (h : CommandEffect s i t) (l : BitVec 1) :
    t.pv l = s.pv l ∨ (i = .lenPriceInit l ∧ t.pv l = true) := by
  cases h with
  | refused | nop | pmInit | pmWr | reInit | rdInit | reader | initFault | initWaits => exact .inl rfl
  | lenPriceInit l' =>
    by_cases hl : l = l'
    · exact .inr ⟨by rw [hl], by rw [hl]; exact pv_setPv_self _ _⟩
    · exact .inl ((pv_setPv_ne _ hl).trans (pv_refills _ _ _ _))
  | decoded _ _ _ _ _ hu | decodeFault _ _ _ _ _ hu | decodeWaits _ _ _ _ _ hu => exact .inl (congrArg (State.pv · l) hu.1 :)
  | encoded _ _ _ _ hu | encodeFault _ _ _ _ _ hu | encodeWaits _ _ _ _ _ hu => exact .inl (congrArg (State.pv · l) hu.1 :)
  | counted _ _ _ _ hu => exact .inl (congrArg (State.pv · l) (counted_frame hu.1 _ _) :)

/-- ERR, CAUSE and FAULTINFO are written by a fault, and by nothing else (R281). -/
theorem CommandEffect.faultRegs_cases (h : CommandEffect s i t) : t.faultRegs = s.faultRegs ∨ ∃ r u, t = State.raise u r := by
  cases h with
  | refused | initFault | decodeFault | encodeFault => exact .inr ⟨_, _, rfl⟩
  | nop | pmInit | pmWr | reInit | rdInit | reader | initWaits => exact .inl rfl
  | lenPriceInit l => exact .inl (congrArg State.faultRegs (refills_setPv_frame s l _) :)
  | decoded _ _ _ _ _ hu | decodeWaits _ _ _ _ _ hu => exact .inl (congrArg State.faultRegs hu.1 :)
  | encoded _ _ _ _ hu | encodeWaits _ _ _ _ _ hu => exact .inl (congrArg State.faultRegs hu.1 :)
  | counted _ _ _ _ hu => exact .inl (congrArg State.faultRegs (counted_frame hu.1 _ _) :)

/-! ### The price tables (R32, R205, R206, R209) -/

/-- The places of LENPRICE and LENCNT are distinct. -/
theorem lenIndex_ne {l l' : BitVec 1} {ps ps' : Nat} (h : ¬ (l = l' ∧ ps = ps')) (hp : ps < 16) (hp' : ps' < 16) :
    lenIndex l ps ≠ lenIndex l' ps' := by
  simp only [lenIndex]
  intro he
  exact h ⟨BitVec.eq_of_toNat_eq (by omega), by omega⟩

/-- The tables and counters of (l, ps) stay, unless LEN_PRICE_INIT fills those of l or RE_LEN counts at (l, ps). -/
theorem CommandEffect.priceTables_eq (h : CommandEffect s i t) {l : BitVec 1} {ps : BitVec 4} (h1 : i ≠ .lenPriceInit l)
    (h2 : s.pv l = true → i ≠ .reLen ps l) :
    t.lenPrice.get? (lenIndex l ps.toNat) = s.lenPrice.get? (lenIndex l ps.toNat) ∧
      t.lenCnt.get? (lenIndex l ps.toNat) = s.lenCnt.get? (lenIndex l ps.toNat) := by
  have same : ∀ {u : State}, u.priceTables = s.priceTables →
      u.lenPrice.get? (lenIndex l ps.toNat) = s.lenPrice.get? (lenIndex l ps.toNat) ∧
        u.lenCnt.get? (lenIndex l ps.toNat) = s.lenCnt.get? (lenIndex l ps.toNat) := fun hu => by
    obtain ⟨hp, hc⟩ := Prod.mk.inj hu
    exact ⟨by rw [hp], by rw [hc]⟩
  cases h with
  | refused | nop | pmInit | pmWr | reInit | rdInit | reader | initFault | initWaits => exact ⟨rfl, rfl⟩
  | lenPriceInit l' hc =>
    have hpb : s.cfg.pb.toNat ≤ 4 := pbFault_none.mp (Option.or_eq_none_iff.mp hc).1
    have hn : 2 ^ s.cfg.pb.toNat ≤ 16 := Nat.pow_le_pow_right (n := 2) (by omega) hpb
    have hother := (refills_eq s l' (2 ^ s.cfg.pb.toNat)).2.2 (lenIndex l ps.toNat) fun q hq =>
      lenIndex_ne (fun hl => h1 (by rw [hl.1])) ps.isLt (by omega)
    rw [setPv_frame]
    exact hother
  | decoded _ _ _ _ _ hu | decodeFault _ _ _ _ _ hu | decodeWaits _ _ _ _ _ hu =>
    exact same (congrArg State.priceTables hu.1 :)
  | encoded _ _ _ _ hu | encodeFault _ _ _ _ _ hu | encodeWaits _ _ _ _ _ hu =>
    exact same (congrArg State.priceTables hu.1 :)
  | counted ps' l' u _ hu _ hv =>
    have hne : ¬ (l = l' ∧ ps.toNat = ps'.toNat) := by
      rintro ⟨rfl, hps⟩
      exact h2 hv (by rw [BitVec.eq_of_toNat_eq hps])
    obtain ⟨hp, hc⟩ := (countAndRefill_frame u l' ps'.toNat).2 _ (lenIndex_ne hne ps.isLt ps'.isLt)
    rw [hp, hc]
    exact same (congrArg State.priceTables hu.1 :)

end

/-! ### The statements on commands -/

/-- Settles O22: no kind of command has a register of the host's side in what it writes. -/
theorem hostOnlyRegisters : Obligations.HostOnlyRegisters := by
  intro i s t hi h
  simpa [State.hostSide] using (exec_effect hi h).hostSide_eq

/-- Settles O23: the decoder's registers are in the frame of the RD_ commands only. -/
theorem decoderWriters : Obligations.DecoderWriters := by
  intro i s t hi h1 h2 h
  simpa [State.decoderSide] using (exec_effect hi h).decoderSide_eq h1 h2

/-- Settles O24: the sink is in the frame of the coding RE_ commands only, the registers also in RE_INIT's. -/
theorem encoderWriters : Obligations.EncoderWriters := by
  intro i s t hi he h
  have hs := (exec_effect hi h).sinkSide_eq he
  have hr := (exec_effect hi h).encoderRegs_eq he
  simp only [State.sinkSide, State.encoderRegs, Prod.mk.injEq] at hs hr
  exact ⟨hs.1, hs.2, hr⟩

/-- Settles O21: a command that has written RES is in the list, has not faulted and does not wait. -/
theorem resWriters : Obligations.ResWriters := by
  intro i s t hi h hw
  rcases (exec_effect hi h).res_cases with hres | ⟨hl, he, hq⟩
  · exact hres
  · rcases hw with hw | ⟨h0, h1⟩ | ⟨h0, h1⟩
    · simp [hl] at hw
    · simp [he, h0] at h1
    · exact absurd (hq.trans h0) h1

/-- Settles O25: one clause for the ready bits, for each PV and for the fault registers. -/
theorem statusWriters : Obligations.StatusWriters := by
  intro i s t hi h
  have effect := exec_effect hi h
  have ready : (t.rdReady = s.rdReady ∨ (i = .rdInit ∧ t.rdReady = true)) ∧
      (t.reReady = s.reReady ∨ (i = .reInit ∧ t.reReady = true)) := by
    have hb := effect.readyBits_cases
    simp only [State.readyBits, Prod.mk.injEq] at hb
    tauto
  refine ⟨ready.1, ready.2, effect.pv_cases 0#1, effect.pv_cases 1#1, ?_⟩
  rcases effect.faultRegs_cases with hf | ⟨r, u, rfl⟩
  · exact .inl (by simpa [State.faultRegs] using hf)
  · exact .inr rfl

/-- Settles O27: LEN_PRICE_INIT and a counting RE_LEN write the tables, each at its own places. -/
theorem priceTableWriters : Obligations.PriceTableWriters := fun _ _ _ hi h _ _ h1 h2 =>
  (exec_effect hi h).priceTables_eq h1 h2

/-! ## CAUSE and ERR (R24, R280) -/

section

variable {s t : State} {i : Instr}

theorem Cause.code_bounds (c : Cause) : 1 ≤ c.code.toNat ∧ c.code.toNat ≤ 9 := by cases c <;> decide

theorem statusInv_raise (s : State) (r : Raise) : (s.raise r).statusInv := ⟨nofun, fun _ => r.cause.code_bounds⟩

theorem statusInv_resetBlock (s : State) : s.resetBlock.statusInv := ⟨fun _ => rfl, nofun⟩

/-- The invariant speaks of the fault registers only. -/
theorem statusInv_of_faultRegs (h : t.faultRegs = s.faultRegs) (hs : s.statusInv) : t.statusInv := by
  obtain ⟨he, hc, -⟩ := by simpa [State.faultRegs] using h
  rwa [State.statusInv, he, hc]

theorem exec_keeps_statusInv (hs : s.statusInv) (h : exec i s = .next t) : t.statusInv := by
  by_cases hi : i = .reset
  · subst hi
    obtain rfl : s.resetBlock = t := by simpa [exec, execReset] using h
    exact statusInv_resetBlock s
  · rcases (exec_effect hi h).faultRegs_cases with hf | ⟨r, u, rfl⟩
    · exact statusInv_of_faultRegs hf hs
    · exact statusInv_raise u r

theorem hostEffect_keeps_statusInv (hs : s.statusInv) (h : HostEffect s t) : t.statusInv := by
  cases h with
  | ignored | setA | setB | setC | setCfg | setLitBase | setLenBase0 | setLenBase1 | read => exact hs
  | reset => exact statusInv_resetBlock s
  | illegal w => exact statusInv_raise s _
  | command w i _ _ _ hx => exact exec_keeps_statusInv hs hx

end

/-- Settles O31: the fault registers are written by a fault, with a code of R280, or by a reset. -/
theorem stepKeepsStatus : Obligations.StepKeepsStatus := by
  intro s t hs h
  rcases step_cases h with rfl | ⟨rest, rfl⟩ | ⟨-, rest, he⟩
  · exact hs
  · exact statusInv_resetBlock _
  · exact hostEffect_keeps_statusInv (s := { s with host := rest }) hs he

end Sys2Proof.Machine
end

section
/-!
SUPPORT. Proofs of the statements of 20_memory: which cells a command may change, and that every written cell stays in [31, 2017].
All that a command can do to PM is said once, in `MemoryEffect`.
-/

namespace Sys2Proof.Machine

/-! ## What a command does to the models (R61, R64, R116) -/

/-- PM and its size: all that the models' invariant speaks of (R7, R61). -/
def State.memory (s : State) := (s.params, s.pm)

/-- The coding part of a command on these cells: no other cell changes, cells that can be coded with keep the models' invariant,
and where there is no cell PM is as before. -/
structure CodesOn (cells : List Word) (s t : State) : Prop where
  agree : agreeOutside cells s.pm t.pm
  models : s.readable cells → s.modelsInv → t.modelsInv
  unchanged : cells = [] → t.pm = s.pm

/-- What a command but RESET can do to PM. -/
inductive MemoryEffect (s : State) : Instr → State → Prop where
  | kept (i : Instr) (t : State) (h : t.memory = s.memory) : MemoryEffect s i t
  | filled (h : execCheck s .pmInit = none) : MemoryEffect s .pmInit { s with pm := fillRun 1024#16 s.b.toNat s.a s.pm }
  | written (h : execCheck s .pmWr = none) : MemoryEffect s .pmWr (s.pmWrite s.operandCell s.operandProb)
  | coded (i : Instr) (t : State) (hi : needsDecoder i = true ∨ needsEncoder i = true) (h : execCheck s i = none)
      (hc : CodesOn (spanCells (footprint s i)) s t) : MemoryEffect s i t

section

variable {s t u : State} {i : Instr} {cells : List Word}

theorem modelsKept.modelsInv (h : modelsKept s t) (hs : s.modelsInv) : t.modelsInv := h.2.2 hs

theorem modelsInv_of_memory (h : t.memory = s.memory) (hs : s.modelsInv) : t.modelsInv := by
  obtain ⟨hp, hm⟩ := Prod.mk.inj h
  exact (modelsKept_of_pm hp hm).modelsInv hs

/-- After the coding part a command may still write other registers: a result, a fault, a request or a price table. -/
theorem CodesOn.of_memory (hu : CodesOn cells s u) (h : t.memory = u.memory) : CodesOn cells s t := by
  obtain ⟨-, hm⟩ := Prod.mk.inj h
  exact ⟨hm ▸ hu.agree, fun hc hs => modelsInv_of_memory h (hu.models hc hs), fun hn => hm.trans (hu.unchanged hn)⟩

/-- What `decoderOn` and `encoderOn` say beside the frame of their coder. -/
theorem CodesOn.of_frame (h : agreeOutside cells s.pm u.pm ∧ (s.readable cells → modelsKept s u) ∧ (cells = [] → u.pm = s.pm)) :
    CodesOn cells s u := by
  obtain ⟨agree, kept, unchanged⟩ := h
  exact ⟨agree, fun hc => (kept hc).modelsInv, unchanged⟩

theorem CommandEffect.memoryEffect (h : CommandEffect s i t) : MemoryEffect s i t := by
  cases h with
  | refused | nop | reInit | reader | rdInit | initFault | initWaits => exact .kept _ _ rfl
  | lenPriceInit l => exact .kept _ _ (congrArg State.memory (refills_setPv_frame s l _) :)
  | pmInit hc => exact .filled hc
  | pmWr hc => exact .written hc
  | decoded _ _ _ hi hc hu | decodeFault _ _ _ hi hc hu | decodeWaits _ _ _ hi hc hu =>
    exact .coded _ _ (.inl hi) hc ((CodesOn.of_frame hu.2).of_memory rfl)
  | encoded _ _ hi hc hu | encodeFault _ _ _ hi hc hu | encodeWaits _ _ _ hi hc hu =>
    exact .coded _ _ (.inr hi) hc ((CodesOn.of_frame hu.2).of_memory rfl)
  | counted ps l u hc hu =>
    exact .coded _ _ (.inr rfl) hc ((CodesOn.of_frame hu.2).of_memory (congrArg State.memory (countAndRefill_frame u l ps.toNat).1 :))

/-! ## The frame of a command (R64, R115) -/

theorem mem_spanCells_run {ea first : Word} {n : Nat} :
    ea ∈ spanCells [⟨first, n⟩] ↔ ∃ k < n, first + BitVec.ofNat 32 k = ea := by
  simp [spanCells, Span.cells]

theorem MemoryEffect.agreeOutside_footprint (h : MemoryEffect s i t) :
    agreeOutside (spanCells (footprint s i)) s.pm t.pm := by
  cases h with
  | kept _ _ h =>
    obtain ⟨-, hm⟩ := Prod.mk.inj h
    exact fun _ _ => by rw [hm]
  | filled =>
    intro k hk
    have outside : ¬ ∃ j < s.b.toNat, (s.a + BitVec.ofNat 32 j).toNat = k := fun ⟨j, hj, he⟩ =>
      hk _ (mem_spanCells_run.mpr ⟨j, hj, rfl⟩) he
    rw [get?_fillRun, if_neg outside]
  | written =>
    intro k hk
    have outside : s.operandCell.toNat ≠ k := hk _ (mem_spanCells_run.mpr ⟨0, Nat.one_pos, BitVec.add_zero _⟩)
    exact Cells.get?_set_ne _ _ outside.symm
  | coded _ _ _ _ hc => exact hc.agree

/-- A command that neither codes nor only writes leaves PM as it is, and so does one without a footprint. -/
theorem MemoryEffect.pm_eq (h : MemoryEffect s i t)
    (hi : (onlyWrites i = false ∧ needsDecoder i = false ∧ needsEncoder i = false) ∨ footprint s i = []) : t.pm = s.pm := by
  cases h with
  | kept _ _ h => exact (Prod.mk.inj h).2
  | filled | written => simp [onlyWrites, footprint] at hi
  | coded _ _ hn _ hc =>
    rcases hi with ⟨-, hd, he⟩ | hf
    · simp [hd, he] at hn
    · exact hc.unchanged (by rw [hf]; rfl)

theorem readsOnly_neither_codes_nor_writes (h : readsOnly i = true) :
    onlyWrites i = false ∧ needsDecoder i = false ∧ needsEncoder i = false := by
  cases i <;> simp_all [readsOnly, onlyWrites, needsDecoder, needsEncoder]

/-! ## Every written cell stays in range (R61, R116) -/

theorem modelsInv_resetBlock (s : State) : s.resetBlock.modelsInv := ⟨.nil, nofun⟩

/-- PM_INIT fills its cells, which all exist, with 1024 (R112). -/
theorem modelsInv_fillRun (hs : s.modelsInv) (h : execCheck s .pmInit = none) :
    State.modelsInv { s with pm := fillRun 1024#16 s.b.toNat s.a s.pm } := by
  refine ⟨fillRun_wf _ _ _ hs.1, fun x hx => ?_⟩
  rcases mem_fillRun hx with ⟨hv, k, hk, he⟩ | hx
  · have hcell := rangeFault_none.mp h _ (mem_spanCells_run.mpr ⟨k, hk, rfl⟩)
    rw [State.inRange, he, decide_eq_true_eq] at hcell
    exact ⟨hcell, by rw [hv]; decide⟩
  · exact hs.2 x hx

/-- C[15:0] is C where C passes PM_WR's operand check (R114). -/
theorem operandProb_toNat (h : s.c.toNat ≤ 2017) : s.operandProb.toNat = s.c.toNat := by
  rw [State.operandProb, BitVec.extractLsb'_toNat, Nat.shiftRight_zero, Nat.mod_eq_of_lt (by omega)]

/-- PM_WR writes a cell that exists with a value its check admits (R114). -/
theorem modelsInv_pmWrite (hs : s.modelsInv) (h : execCheck s .pmWr = none) :
    (s.pmWrite s.operandCell s.operandProb).modelsInv := by
  obtain ⟨hop, hrange⟩ := Option.or_eq_none_iff.mp h
  obtain ⟨hlow, hhigh⟩ := of_decide_eq_true (operandFault_none.mp hop)
  refine ⟨Cells.set_wf _ _ hs.1, fun x hx => ?_⟩
  rcases Cells.mem_set hx with rfl | hx
  · have hcell := rangeFault_none.mp hrange s.operandCell (by simp)
    rw [operandProb_toNat hhigh]
    exact ⟨of_decide_eq_true hcell, hlow, hhigh⟩
  · exact hs.2 x hx

theorem MemoryEffect.keeps_modelsInv (h : MemoryEffect s i t) (hs : s.modelsInv) : t.modelsInv := by
  cases h with
  | kept _ _ h => exact modelsInv_of_memory h hs
  | filled h => exact modelsInv_fillRun hs h
  | written h => exact modelsInv_pmWrite hs h
  | coded _ _ hi h hc => exact hc.models (footprint_readable hs hi h) hs

theorem exec_keeps_modelsInv (hs : s.modelsInv) (h : exec i s = .next t) : t.modelsInv := by
  by_cases hi : i = .reset
  · subst hi
    obtain rfl : s.resetBlock = t := by simpa [exec, execReset] using h
    exact modelsInv_resetBlock s
  · exact (exec_effect hi h).memoryEffect.keeps_modelsInv hs

theorem hostEffect_keeps_modelsInv (hs : s.modelsInv) (h : HostEffect s t) : t.modelsInv := by
  cases h with
  | ignored | setA | setB | setC | setCfg | setLitBase | setLenBase0 | setLenBase1 | read | illegal => exact hs
  | reset => exact modelsInv_resetBlock s
  | command w i _ _ _ hx => exact exec_keeps_modelsInv hs hx

end

/-! ## The statements on the models -/

/-- Settles O30: a reset empties PM, PM_INIT and PM_WR store checked values in cells that exist, and a coded bit adapts a cell
that passed its check; no other access reaches PM. -/
theorem stepKeepsModels : Obligations.StepKeepsModels := by
  intro s t hs h
  rcases step_cases h with rfl | ⟨rest, rfl⟩ | ⟨-, rest, he⟩
  · exact hs
  · exact modelsInv_resetBlock _
  · exact hostEffect_keeps_modelsInv (s := { s with host := rest }) hs he

/-- Settles O26: PM changes on the footprint only, and the commands listed have none or do not store on it. -/
theorem modelFrame : Obligations.ModelFrame := by
  intro i s t hi _ h
  have effect := (exec_effect hi h).memoryEffect
  refine ⟨effect.agreeOutside_footprint, fun hq => effect.pm_eq ?_⟩
  rcases hq with hr | rfl | rfl | rfl | rfl | ⟨n, rfl⟩ | ⟨n, rfl⟩ | ⟨l, rfl⟩
  · exact .inl (readsOnly_neither_codes_nor_writes hr)
  iterate 6 · exact .inr rfl
  · exact .inl ⟨rfl, rfl, rfl⟩

end Sys2Proof.Machine
end

section
/-!
SUPPORT. Proofs of the statements of 30_encoding on words: decoding and encoding agree, the legal words are those of the opcode
table, and a word that is not legal raises ILLEGAL_CMD (R90 to R95, R283).
-/

namespace Sys2Proof

/-! ## A command decodes from its own word, by the kind of its row (R93, R94) -/

section

variable {op : BitVec 8}

theorem decode_plain {i : Instr} (h : opRow op = some (.plain i)) : decode (commandWord op 0 0 0) = .ok i :=
  decode_commandWord h rfl (fun _ => rfl) (fun _ => rfl) (fun _ => rfl) rfl

theorem decode_count {f : BitVec 6 → Instr} {n : BitVec 6} (h : opRow op = some (.count f)) (hn : legalCount n) :
    decode (commandWord op n 0 0) = .ok (f n) :=
  decode_commandWord h (decide_eq_true ⟨Nat.zero_le _, hn⟩) nofun (fun _ => rfl) (fun _ => rfl) rfl

theorem decode_depth {f : BitVec 6 → Instr} {n : BitVec 6} (h : opRow op = some (.depth f)) (hn : legalDepth n) :
    decode (commandWord op n 0 0) = .ok (f n) :=
  decode_commandWord h (decide_eq_true hn) nofun (fun _ => rfl) (fun _ => rfl) rfl

theorem decode_length {f : BitVec 4 → BitVec 1 → Instr} (ps : BitVec 4) (l : BitVec 1) (h : opRow op = some (.length f)) :
    decode (commandWord op 0 ps l) = .ok (f ps l) :=
  decode_commandWord h rfl (fun _ => rfl) nofun nofun rfl

theorem decode_select {f : BitVec 1 → Instr} (l : BitVec 1) (h : opRow op = some (.select f)) :
    decode (commandWord op 0 0 l) = .ok (f l) :=
  decode_commandWord h rfl (fun _ => rfl) (fun _ => rfl) nofun rfl

end

/-- Settles O1: each command's row is of one of five kinds, and well-formedness is what the row asks of N. -/
theorem encodeThenDecode : Obligations.EncodeThenDecode := by
  intro i hi
  cases i with
  | nop | reset | pmInit | pmRd | pmWr | rdInit | rdBit | rdLit | rdLitm | reInit | reBit | reLit | reLitm | reFlush | idxLit
  | idxPs | prBit | prLit | prLitm => exact decode_plain rfl
  | rdDirect n | reDirect n => exact decode_count rfl (of_decide_eq_true hi)
  | rdTree n | rdRtree n | reTree n | reRtree n | prTree n | prRtree n => exact decode_depth rfl (of_decide_eq_true hi)
  | rdLen ps l | reLen ps l | prLen ps l => exact decode_length ps l rfl
  | lenPriceInit l => exact decode_select l rfl

/-! ## A word that decodes is legal for its command (R91, R93) -/

/-- What a row makes of an N that it admits is well formed. -/
theorem wellFormed_make {op : BitVec 8} {r : OpRow} {n : BitVec 6} (ps : BitVec 4) (l : BitVec 1) (hr : opRow op = some r)
    (hn : r.admits n = true) : (r.make n ps l).wellFormed = true := by
  unfold opRow at hr
  split at hr
  case h_32 => simp at hr
  all_goals
    obtain rfl := Option.some.inj hr
    simp_all [OpRow.plain, OpRow.count, OpRow.depth, OpRow.length, OpRow.select, OpRow.admits, Instr.wellFormed]

/-- Settles O2: the fields of the word are those of the command, and the row has admitted N. -/
theorem decodeThenEncode : Obligations.DecodeThenEncode := by
  intro w i h
  obtain ⟨r, hr, -, hn, rfl⟩ := decode_ok h
  exact ⟨encode_of_decode h, wellFormed_make _ _ hr hn⟩

end Sys2Proof

namespace Sys2Proof.Machine

/-! ## The opcode table (R93 to R95) -/

/-- The row of the opcode table that a row of the opcode map stands for: the fixed bits are OP and the bits that the opcode
does not use. -/
def tableRow (op : BitVec 8) (r : OpRow) : WordRow :=
  (op.setWidth 32, ~~~r.used ||| 0xFF#32, (r.n.getD (0, 63)).1, (r.n.getD (0, 63)).2)

/-- Every row of the table stands for the opcode map's row of the OP in its match word. -/
theorem opRow_of_mem_table : ∀ x ∈ controlWords ++ decoderWords ++ encoderWords ++ priceWords,
    (opRow (x.1.setWidth 8)).map (tableRow (x.1.setWidth 8)) = some x := by decide

/-- Every row of the opcode map stands in the table. -/
theorem tableRow_mem {op : BitVec 8} {r : OpRow} (hr : opRow op = some r) :
    tableRow op r ∈ controlWords ++ decoderWords ++ encoderWords ++ priceWords := by
  have hop : op = BitVec.ofNat 8 op.toNat := by simp
  unfold opRow at hr
  split at hr
  case h_32 => simp at hr
  all_goals
    rename_i hv
    rw [hv] at hop
    obtain rfl := Option.some.inj hr
    rw [hop]
    decide

/-- Under the fixed bits of a row stand OP and the bits that the opcode does not use. -/
theorem fixedBits_getLsbD (u w : Word) {k : Nat} (hk : k < 32) :
    (w &&& (~~~u ||| 0xFF#32)).getLsbD k = if k < 8 then (fieldOp w).getLsbD k else (w &&& ~~~u).getLsbD k := by
  have hmask : ∀ k < 32, (0xFF#32).getLsbD k = decide (k < 8) := by decide
  rw [BitVec.getLsbD_and, BitVec.getLsbD_or, hmask k hk]
  by_cases h8 : k < 8 <;> simp [h8, fieldOp]

/-- The fixed bits of a row match where OP is the row's and no unused bit is set. -/
theorem fixedBits_match {op : BitVec 8} {u w : Word} (hu : ∀ k < 8, u.getLsbD k = true) :
    w &&& (~~~u ||| 0xFF#32) = op.setWidth 32 ↔ fieldOp w = op ∧ w &&& ~~~u = 0#32 := by
  have hwide : ∀ k < 32, (op.setWidth 32).getLsbD k = op.getLsbD k := fun k hk => by simp [hk]
  constructor
  · intro h
    have bits : ∀ k < 32, op.getLsbD k = if k < 8 then (fieldOp w).getLsbD k else (w &&& ~~~u).getLsbD k := fun k hk => by
      rw [← hwide k hk, ← h, fixedBits_getLsbD u w hk]
    refine ⟨BitVec.eq_of_getLsbD_eq fun k hk => ?_, BitVec.eq_of_getLsbD_eq fun k hk => ?_⟩
    · rw [bits k (by omega), if_pos hk]
    · by_cases h8 : k < 8
      · simp [hu k h8]
      · have hb := bits k hk
        rw [if_neg h8, BitVec.getLsbD_of_ge op k (by omega)] at hb
        rw [← hb, BitVec.getLsbD_zero]
  · rintro ⟨rfl, hw⟩
    refine BitVec.eq_of_getLsbD_eq fun k hk => ?_
    rw [fixedBits_getLsbD u w hk, hwide k hk, hw]
    by_cases h8 : k < 8
    · rw [if_pos h8]
    · rw [if_neg h8, BitVec.getLsbD_zero, BitVec.getLsbD_of_ge _ k (by omega)]

/-- N of a word in plain numbers (R90). -/
theorem fieldN_toNat (w : Word) : (fieldN w).toNat = w.toNat / 2 ^ 8 % 2 ^ 6 := by
  rw [fieldN, BitVec.extractLsb'_toNat, Nat.shiftRight_eq_div_pow]

theorem admits_iff {r : OpRow} {n : BitVec 6} :
    r.admits n = true ↔ (r.n.getD (0, 63)).1 ≤ n.toNat ∧ n.toNat ≤ (r.n.getD (0, 63)).2 := by
  unfold OpRow.admits
  split
  case h_1 h => simpa [h] using Nat.le_of_lt_succ n.isLt
  case h_2 h => simp [h]

/-- A row uses the bits of OP. -/
theorem used_op (r : OpRow) : ∀ k < 8, r.used.getLsbD k = true := fun k hk =>
  (usedMask_set r.n.isSome r.ps r.l ⟨k, by omega⟩).1 hk

/-- The table's row allows a word by R94's tests. -/
theorem tableRow_allows {op : BitVec 8} {r : OpRow} {w : Word} :
    (tableRow op r).allows w ↔ (fieldOp w = op ∧ w &&& ~~~r.used = 0#32) ∧ r.admits (fieldN w) = true := by
  rw [admits_iff, fieldN_toNat, ← fixedBits_match (used_op r)]
  rfl

/-- A word that passes R94's tests decodes. -/
theorem decode_of_row {w : Word} {r : OpRow} (hr : opRow (fieldOp w) = some r) (hu : w &&& ~~~r.used = 0#32)
    (hn : r.admits (fieldN w) = true) : decode w = .ok (r.make (fieldN w) (fieldPs w) (fieldL w)) := by
  simp [decode, hr, hu, hn]

/-- Settles O3: the table's rows are those of the opcode map, and a row allows a word by the tests that `decode` makes. -/
theorem legalWordTable : Obligations.LegalWordTable := by
  intro w
  constructor
  · rintro ⟨i, hd⟩
    obtain ⟨r, hr, hu, hn, -⟩ := decode_ok hd
    exact ⟨tableRow (fieldOp w) r, tableRow_mem hr, tableRow_allows.mpr ⟨⟨rfl, hu⟩, hn⟩⟩
  · rintro ⟨x, hx, hw⟩
    obtain ⟨r, hr, hrow⟩ := Option.map_eq_some_iff.mp (opRow_of_mem_table x hx)
    rw [← hrow] at hw
    obtain ⟨⟨hop, hu⟩, hn⟩ := tableRow_allows.mp hw
    exact ⟨_, decode_of_row (hop ▸ hr) hu hn⟩

/-! ## A word that is not legal (R95, R283) -/

theorem decode_error_of_not_legal {w : Word} (h : ¬ legalWord w) : ∃ e, decode w = .error e := by
  cases hd : decode w with
  | error e => exact ⟨e, rfl⟩
  | ok i => exact absurd ((legalWordTable w).mp ⟨i, hd⟩) h

/-- At ERR = 0 a word that does not decode raises ILLEGAL_CMD with itself (R95). -/
theorem writeCmd_illegal {s : State} {w : Word} {e : DecodeError} (hd : decode w = .error e) (he : s.err = false) :
    writeCmd w s = .next (s.faulted ⟨.illegalCmd, w⟩) := by
  have hrun : ¬ (s.err = true ∧ w ≠ 0x00000000#32 ∧ w ≠ 0x00000001#32) := by simp [he]
  rw [writeCmd, if_neg hrun, hd]
  rfl

/-- Settles O7: such a word does not decode, so at ERR = 0 it raises, and at ERR = 1 it is neither NOP's word nor RESET's. -/
theorem illegalWordRaises : Obligations.IllegalWordRaises := by
  intro s w rest h hw
  obtain ⟨e, hd⟩ := decode_error_of_not_legal hw
  rw [step_write h (by decide) (by decide)]
  refine ⟨fun he => writeCmd_illegal hd he, fun he => writeCmd_ignored he ?_ ?_⟩
  · rintro rfl
    simp [decode_nop] at hd
  · rintro rfl
    simp [decode_reset] at hd

/-- Settles O4: each word is closed, and decoding it is computation. -/
theorem sampleWordsDecode : Obligations.SampleWordsDecode := by
  unfold Obligations.SampleWordsDecode
  decide

end Sys2Proof.Machine
end

section
/-!
SUPPORT. Proofs of the statement of 30_encoding on text: how a command line splits into words, what its fields say, and the word
it writes to CMD (R90, R93, R97).
-/

namespace Sys2Proof.Machine

/-! ## The words of a line (R97) -/

/-- The characters that end a word. -/
def separators : Text := [';', ' ', '\t', ',']

/-- Text that stands as one word of a line. -/
def isWord (t : Text) : Prop := t ≠ [] ∧ ∀ c ∈ t, c ∉ separators

/-- A field as a word of its own; none where it is left out. -/
def fieldWord (key : String) : Option Nat → List Text
  | none => []
  | some v => [key.toList ++ Nat.toDigits 10 v]

theorem fieldText_eq (key : String) (v : Option Nat) : fieldText key v = (fieldWord key v).flatMap (' ' :: ·) := by
  cases v <;> simp [fieldText, fieldWord]

theorem endWord_reverse {t : Text} (h : t ≠ []) : endWord t.reverse = [t] := by simp [endWord, h]

/-- Characters of a word join the word read so far. -/
theorem wordsFrom_append (t acc rest : Text) (h : ∀ c ∈ t, c ∉ separators) :
    wordsFrom acc (t ++ rest) = wordsFrom (t.reverse ++ acc) rest := by
  induction t generalizing acc with
  | nil => rfl
  | cons c t ih =>
    obtain ⟨hc, ht⟩ := List.forall_mem_cons.mp h
    obtain ⟨h1, h2, h3, h4⟩ : c ≠ ';' ∧ c ≠ ' ' ∧ c ≠ '\t' ∧ c ≠ ',' := by simpa [separators] using hc
    simp [wordsFrom, h1, h2, h3, h4, ih (c :: acc) ht]

/-- Words with a blank before each but the first split into these words. -/
theorem wordsFrom_words {t : Text} {ts : List Text} (ht : isWord t) (hts : ∀ u ∈ ts, isWord u) :
    wordsFrom [] (t ++ ts.flatMap (' ' :: ·)) = t :: ts := by
  induction ts generalizing t with
  | nil => rw [wordsFrom_append _ _ _ ht.2]; simp [wordsFrom, endWord_reverse ht.1]
  | cons u ts ih =>
    obtain ⟨hu, hrest⟩ := List.forall_mem_cons.mp hts
    rw [wordsFrom_append _ _ _ ht.2]
    simp [wordsFrom, endWord_reverse ht.1, ih hu hrest]

/-! ## Numbers (R97) -/

theorem digitValue_of_isDigit {c : Char} (h : c.isDigit = true) : digitValue 10 c = some (c.toNat - '0'.toNat) := by
  have hc : '0' ≤ c ∧ c ≤ '9' := by simpa [Char.isDigit, Char.le_def] using h
  have hv : c.toNat - '0'.toNat < 10 := by
    have h9 : c.toNat ≤ '9'.toNat := hc.2
    simp at h9 ⊢
    omega
  simp only [digitValue, if_pos hc, if_pos hv]

theorem numberFrom_digits (t : Text) (v : Nat) (h : ∀ c ∈ t, c.isDigit = true) :
    numberFrom 10 v t = some (Nat.ofDigitChars 10 t v) := by
  induction t generalizing v with
  | nil => rfl
  | cons c t ih =>
    obtain ⟨hc, ht⟩ := List.forall_mem_cons.mp h
    simp [numberFrom, digitValue_of_isDigit hc, ih _ ht, Nat.ofDigitChars_cons]

theorem not_mem_separators_of_isDigit {c : Char} (h : c.isDigit = true) : c ∉ separators := by
  intro hc
  have hsep : ∀ c ∈ separators, c.isDigit = false := by simp [separators]
  simp [hsep c hc] at h

theorem isDigit_toDigits (v : Nat) : ∀ c ∈ Nat.toDigits 10 v, c.isDigit = true := fun _ =>
  Nat.isDigit_of_mem_toDigits (by decide) (by decide)

/-- Digits are read in base 10: none of them is the `x` of a hexadecimal number. -/
theorem number_digits {width v : Nat} {t : Text} (hne : t ≠ []) (h : ∀ c ∈ t, c.isDigit = true)
    (hv : numberFrom 10 0 t = some v) (hlt : v < 2 ^ width) : number width t = .ok v := by
  have hx : ∀ u, t ≠ '0' :: 'x' :: u := by
    rintro u rfl
    exact absurd (h 'x' (by simp)) (by decide)
  unfold number
  split
  case h_1 => exact absurd rfl hne
  case h_2 => exact absurd rfl (hx _)
  case h_3 => exact absurd rfl (hx _)
  case h_4 => simp [hv, hlt]

/-- A number in decimal is read as itself (R97). -/
theorem number_toDigits {width v : Nat} (h : v < 2 ^ width) : number width (Nat.toDigits 10 v) = .ok v := by
  have hv := numberFrom_digits _ 0 (isDigit_toDigits v)
  rw [Nat.ofDigitChars_ten_toDigits] at hv
  exact number_digits Nat.toDigits_ne_nil (isDigit_toDigits v) hv h

/-- A field stands as one word where its key does: no digit separates words. -/
theorem isWord_of_mem_fieldWord {key : String} {v : Option Nat} {t : Text} (hk : isWord key.toList)
    (ht : t ∈ fieldWord key v) : isWord t := by
  cases v with
  | none => simp [fieldWord] at ht
  | some x =>
    obtain rfl : t = key.toList ++ Nat.toDigits 10 x := by simpa [fieldWord] using ht
    refine ⟨List.append_ne_nil_of_left_ne_nil hk.1 _, fun c hc => ?_⟩
    rcases List.mem_append.mp hc with hc | hc
    · exact hk.2 c hc
    · exact not_mem_separators_of_isDigit (isDigit_toDigits x c hc)

/-! ## The fields of a command (R90, R97) -/

section

variable {r : OpRow} {g : Given}

theorem takeField_n {x : Nat} (hr : r.n.isSome = true) (hg : g.n = none) (hx : x < 2 ^ 6) :
    takeField r g ("n=".toList ++ Nat.toDigits 10 x) = .ok { g with n := some x } := by
  simp [takeField, hr, hg, number_toDigits hx, Except.map]

theorem takeField_ps {x : Nat} (hr : r.ps = true) (hg : g.ps = none) (hx : x < 2 ^ 4) :
    takeField r g ("ps=".toList ++ Nat.toDigits 10 x) = .ok { g with ps := some x } := by
  simp [takeField, hr, hg, number_toDigits hx, Except.map]

theorem takeField_l {x : Nat} (hr : r.l = true) (hg : g.l = none) (hx : x < 2 ^ 1) :
    takeField r g ("l=".toList ++ Nat.toDigits 10 x) = .ok { g with l := some x } := by
  simp [takeField, hr, hg, number_toDigits hx, Except.map]

/-- A field's word, or none, is taken where `takeField` takes the word. -/
theorem takeFields_field {key : String} {v : Option Nat} {g' : Given} {used : Bool} {width : Nat}
    (hused : used = false → v = none) (hv : v.getD 0 < 2 ^ width) (hnone : v = none → g' = g)
    (hsome : ∀ x, v = some x → used = true → x < 2 ^ width → takeField r g (key.toList ++ Nat.toDigits 10 x) = .ok g')
    (rest : List Text) : takeFields r g (fieldWord key v ++ rest) = takeFields r g' rest := by
  cases v with
  | none => simp [fieldWord, hnone rfl]
  | some x =>
    have hu : used = true := by simpa using hused
    simp [fieldWord, takeFields, hsome x rfl hu hv]

/-- Fields that the opcode uses are taken as the numbers they say. -/
theorem takeFields_given {n ps l : Option Nat} (hrn : r.n.isSome = false → n = none) (hrp : r.ps = false → ps = none)
    (hrl : r.l = false → l = none) (hn : n.getD 0 < 2 ^ 6) (hp : ps.getD 0 < 2 ^ 4) (hl : l.getD 0 < 2 ^ 1) :
    takeFields r ⟨none, none, none⟩ (fieldWord "n=" n ++ (fieldWord "ps=" ps ++ fieldWord "l=" l)) = .ok ⟨n, ps, l⟩ := by
  calc
    _ = takeFields r ⟨n, none, none⟩ (fieldWord "ps=" ps ++ fieldWord "l=" l) :=
      takeFields_field hrn hn (by rintro rfl; rfl) (by rintro x rfl hu hx; exact takeField_n hu rfl hx) _
    _ = takeFields r ⟨n, ps, none⟩ (fieldWord "l=" l) :=
      takeFields_field hrp hp (by rintro rfl; rfl) (by rintro x rfl hu hx; exact takeField_ps hu rfl hx) _
    _ = takeFields r ⟨n, ps, l⟩ [] := by
      rw [← List.append_nil (fieldWord "l=" l)]
      exact takeFields_field hrl hl (by rintro rfl; rfl) (by rintro x rfl hu hx; exact takeField_l hu rfl hx) _

/-- A field that the opcode does not use (R97). -/
def unusedField (r : OpRow) (t : Text) : Prop :=
  ∃ v, (r.n.isSome = false ∧ t = 'n' :: '=' :: v) ∨ (r.ps = false ∧ t = 'p' :: 's' :: '=' :: v) ∨
    (r.l = false ∧ t = 'l' :: '=' :: v)

theorem takeField_unused {t : Text} (g : Given) (h : unusedField r t) : takeField r g t = .error .fieldNotUsed := by
  obtain ⟨v, ⟨hr, rfl⟩ | ⟨hr, rfl⟩ | ⟨hr, rfl⟩⟩ := h <;> simp [takeField, hr]

/-- A field that the opcode does not use is an error, whatever stands before and after it. -/
theorem takeFields_unused {t : Text} (before after : List Text) (h : unusedField r t) (g : Given) :
    ∃ e, takeFields r g (before ++ t :: after) = .error e := by
  induction before generalizing g with
  | nil => exact ⟨.fieldNotUsed, by simp [takeFields, takeField_unused g h]⟩
  | cons u us ih =>
    simp only [List.cons_append, takeFields]
    cases takeField r g u with
    | error e => exact ⟨e, rfl⟩
    | ok g' => exact ih g'

end

/-! ## Command lines (R93, R97) -/

/-- A mnemonic is one word of a line, and not that of an access. -/
theorem lineRow_isWord : ∀ row ∈ plainLines ++ fieldLines,
    isWord row.name.toList ∧ row.name.toList ≠ ['l', 'd'] ∧ row.name.toList ≠ ['r', 'd'] := by
  simp [plainLines, fieldLines, isWord, separators]

/-- A mnemonic stands for the OP in its row's word. -/
theorem lineRow_mnemonic : ∀ row ∈ plainLines ++ fieldLines,
    named mnemonicOps row.name.toList = some (row.word.setWidth 8) := by decide +kernel

/-- A mnemonic's row lists the fields that its opcode uses; its word is an OP alone. -/
theorem lineRow_fields : ∀ row ∈ plainLines ++ fieldLines, row.word.toNat < 2 ^ 8 ∧
    (opRow (row.word.setWidth 8)).map (fun r => (r.n.isSome, r.ps, r.l)) = some (row.n, row.ps, row.l) := by decide

section

variable {row : LineRow} (hrow : row ∈ plainLines ++ fieldLines)
include hrow

theorem lineRow_opRow : ∃ r, opRow (row.word.setWidth 8) = some r ∧ r.n.isSome = row.n ∧ r.ps = row.ps ∧ r.l = row.l := by
  obtain ⟨r, hr, hfields⟩ := Option.map_eq_some_iff.mp (lineRow_fields row hrow).2
  obtain ⟨hn, hp, hl⟩ := by simpa using hfields
  exact ⟨r, hr, hn, hp, hl⟩

/-- A line that begins with a mnemonic writes to CMD the word of the command (R97). -/
theorem assembleLine_command (base : Nat) {line : Text} {fields : List Text}
    (h : wordsFrom [] line = row.name.toList :: fields) :
    assembleLine base line = (assembleCommand (row.word.setWidth 8) fields).map fun w => [.write base 4 w] := by
  obtain ⟨-, hld, hrd⟩ := lineRow_isWord row hrow
  simp only [assembleLine, h, assembleWords, if_neg hld, if_neg hrd, lineRow_mnemonic row hrow]

/-- A mnemonic's word with its fields in their places, in plain numbers (R90). -/
theorem commandWord_row {n ps l : Nat} (hn : n < 2 ^ 6) (hp : ps < 2 ^ 4) (hl : l < 2 ^ 1) :
    commandWord (row.word.setWidth 8) (BitVec.ofNat 6 n) (BitVec.ofNat 4 ps) (BitVec.ofNat 1 l) =
      BitVec.ofNat 32 (row.word.toNat + 2 ^ 8 * n + 2 ^ 14 * ps + 2 ^ 18 * l) := by
  obtain ⟨hword, -⟩ := lineRow_fields row hrow
  apply eq_ofNat_of_toNat
  rw [commandWord_toNat, BitVec.toNat_setWidth, BitVec.toNat_ofNat, BitVec.toNat_ofNat, BitVec.toNat_ofNat,
    Nat.mod_eq_of_lt hword, Nat.mod_eq_of_lt hn, Nat.mod_eq_of_lt hp, Nat.mod_eq_of_lt hl]

/-- A mnemonic with fields that its opcode uses assembles (R97). -/
theorem assembleLine_fields (base : Nat) (n ps l : Option Nat) (hrn : row.n = false → n = none)
    (hrp : row.ps = false → ps = none) (hrl : row.l = false → l = none) (hn : n.getD 0 < 2 ^ 6) (hp : ps.getD 0 < 2 ^ 4)
    (hl : l.getD 0 < 2 ^ 1) :
    assembleLine base (row.name.toList ++ fieldText "n=" n ++ fieldText "ps=" ps ++ fieldText "l=" l) = .ok
      [.write base 4 (BitVec.ofNat 32 (row.word.toNat + 2 ^ 8 * n.getD 0 + 2 ^ 14 * ps.getD 0 + 2 ^ 18 * l.getD 0))] := by
  obtain ⟨r, hr, rn, rp, rl⟩ := lineRow_opRow hrow
  have hsplit : wordsFrom [] (row.name.toList ++ fieldText "n=" n ++ fieldText "ps=" ps ++ fieldText "l=" l) =
      row.name.toList :: (fieldWord "n=" n ++ (fieldWord "ps=" ps ++ fieldWord "l=" l)) := by
    simp only [List.append_assoc, fieldText_eq, ← List.flatMap_append]
    refine wordsFrom_words (lineRow_isWord row hrow).1 fun u hu => ?_
    simp only [List.mem_append] at hu
    rcases hu with hu | hu | hu <;> exact isWord_of_mem_fieldWord (by simp [isWord, separators]) hu
  have hgiven := takeFields_given (r := r) (by rwa [rn]) (by rwa [rp]) (by rwa [rl]) hn hp hl
  rw [assembleLine_command hrow base hsplit, assembleCommand, hr, ← commandWord_row hrow hn hp hl]
  simp only [hgiven, Except.map]

/-- A mnemonic with a field that its opcode does not use is an assembly error (R97). -/
theorem assembleLine_unused (base : Nat) {line field : Text} {before after : List Text}
    (hu : ∃ v, (row.n = false ∧ field = 'n' :: '=' :: v) ∨ (row.ps = false ∧ field = 'p' :: 's' :: '=' :: v) ∨
      (row.l = false ∧ field = 'l' :: '=' :: v))
    (h : wordsFrom [] line = row.name.toList :: (before ++ field :: after)) : ∃ e, assembleLine base line = .error e := by
  obtain ⟨r, hr, rn, rp, rl⟩ := lineRow_opRow hrow
  rw [← rn, ← rp, ← rl] at hu
  obtain ⟨e, he⟩ := takeFields_unused before after hu ⟨none, none, none⟩
  exact ⟨e, by rw [assembleLine_command hrow base h, assembleCommand, hr]; simp only [he, Except.map]⟩

end

/-- Settles O5: a line splits into its mnemonic and fields, which `takeFields` reads, or refuses where one is not used. R97's
lines are three of these. -/
theorem linesAssemble : Obligations.LinesAssemble := by
  refine ⟨fun row hrow base =>
    ⟨assembleLine_fields hrow base, fun _ v _ _ _ hu h => assembleLine_unused hrow base ⟨v, hu⟩ h⟩, fun base => ?_, fun base => ?_, fun base => ?_⟩
  · exact assembleLine_fields (row := ⟨"RD_TREE", 0x13, true, false, false⟩) (by simp [fieldLines]) base (some 6) none none
      nofun (fun _ => rfl) (fun _ => rfl) (by decide) (by decide) (by decide)
  · exact assembleLine_fields (row := ⟨"RE_LEN", 0x25, false, true, true⟩) (by simp [fieldLines]) base none (some 2) (some 1)
      (fun _ => rfl) nofun nofun (by decide) (by decide) (by decide)
  · exact assembleLine_fields (row := ⟨"LEN_PRICE_INIT", 0x38, false, false, true⟩) (by simp [fieldLines]) base none none
      (some 1) (fun _ => rfl) (fun _ => rfl) nofun (by decide) (by decide) (by decide)

end Sys2Proof.Machine
end

section
/-!
SUPPORT. Proofs of the statements of 40_control_and_models: the first check of R285 that fails decides, whether a command only
reads or not, and what NOP, PM_INIT, PM_RD and PM_WR do in plain numbers.
-/

namespace Sys2Proof.Machine

/-! ## The first fault (R64, R285)

`firstFault` lists the checks of every command in one order, and `execCheck` has those of each. -/

section

variable (s : State) (i : Instr)

/-- PM_RANGE is for the first cell at or above PM_SIZE (R64). -/
theorem rangeFault_eq_find? (fp : List Span) : s.rangeFault fp =
    ((spanCells fp).find? fun ea => decide (s.params.pmSize ≤ ea.toNat)).map fun ea => ⟨.pmRange, ea⟩ := by
  have missing : (fun ea => !s.inRange ea) = fun ea => decide (s.params.pmSize ≤ ea.toNat) := by
    funext ea
    rw [State.inRange, ← decide_not, decide_eq_decide, not_lt]
  rw [State.rangeFault, firstCell_eq, missing]

/-- UNINIT_MODEL is for the first cell that is not listed (R64). -/
theorem uninitFault_eq_find? (fp : List Span) : s.uninitFault fp =
    ((spanCells fp).find? fun ea => (s.pm.get? ea.toNat).isNone).map fun ea => ⟨.uninitModel, ea⟩ := by
  have unwritten : (fun ea => !s.pmWritten ea) = fun ea => (s.pm.get? ea.toNat).isNone := by
    funext ea
    simp [State.pmWritten]
  rw [State.uninitFault, firstCell_eq, unwritten]

/-- Step 6 of R285: a command that only writes its footprint needs it to exist, another one also to be written. -/
theorem footprintFault_eq :
    footprintFault s i = if onlyWrites i then s.rangeFault (footprint s i) else s.readFault (footprint s i) := by
  unfold footprintFault State.readFault
  rw [rangeFault_eq_find?, uninitFault_eq_find?]
  dsimp only
  cases (spanCells (footprint s i)).find? fun ea => decide (s.params.pmSize ≤ ea.toNat) with
  | some ea => simp
  | none => simp

/-- The fault of the first check that refuses. -/
def firstRefused (checks : List (Bool × Raise)) : Option Raise := (checks.find? Prod.fst).map Prod.snd

@[simp] theorem firstRefused_nil : firstRefused [] = none := rfl

@[simp] theorem firstRefused_cons (refused : Bool) (r : Raise) (checks : List (Bool × Raise)) :
    firstRefused ((refused, r) :: checks) = (if refused then some r else none).or (firstRefused checks) := by
  cases refused <;> rfl

theorem firstFault_eq_or : firstFault s i = (firstRefused (stepChecks s i)).or (footprintFault s i) := by
  unfold firstFault firstRefused
  cases (stepChecks s i).find? Prod.fst <;> rfl

/-- A check refuses where it is made and its test fails. -/
theorem refuses_unless (made legal : Bool) (r : Raise) :
    (if made && !legal then some r else none) = if made then (if legal then none else some r) else none := by
  cases made <;> cases legal <;> rfl

theorem decide_lt_eq_not (m n : Nat) : decide (m < n) = !decide (n ≤ m) := by
  rw [← decide_not, decide_eq_decide, not_le]

theorem decide_le_eq_not (m n : Nat) : decide (m ≤ n) = !decide (n < m) := by
  rw [decide_lt_eq_not, Bool.not_not]

/-- Steps 3 to 5 of R285, by what the command needs and reads. -/
theorem firstRefused_stepChecks : firstRefused (stepChecks s i) =
    (if needsDecoder i then s.rdReadyFault i else none).or ((if needsEncoder i then s.reReadyFault i else none).or
      ((if readsLcLp i then s.lcLpFault else none).or ((if readsPb i then s.pbFault else none).or
        ((if readsTableSize s i then s.tableSizeFault else none).or (firstRefused (operandChecks s i)))))) := by
  have tableSize : decide (s.cfg.tableSize.toNat = 0 ∨ 272 < s.cfg.tableSize.toNat) =
      !decide (1 ≤ s.cfg.tableSize.toNat ∧ s.cfg.tableSize.toNat ≤ 272) := by
    rw [← decide_not, decide_eq_decide]
    omega
  simp only [stepChecks, List.cons_append, List.nil_append, firstRefused_cons, decide_lt_eq_not, tableSize, refuses_unless]
  cases readsLcLp i with
  | false => rfl
  | true =>
    rw [if_pos rfl, if_pos rfl, if_pos rfl, State.lcLpFault, Option.or_assoc]
    rfl

/-- The operand checks of step 5 of R285, as the meanings make them. -/
def State.operandCheck (s : State) : Instr → Option Raise
  | .pmWr => operandFault (decide (31 ≤ s.c.toNat ∧ s.c.toNat ≤ 2017)) s.c
  | .rdLen ps _ => s.psFault ps
  | .reLen ps _ => (s.psFault ps).or (operandFault (decide (s.b.toNat ≤ 271)) s.b)
  | .prLen ps l =>
    (s.psFault ps).or ((s.pvFault l (.prLen ps l)).or (operandFault (decide (s.b.toNat < s.cfg.tableSize.toNat)) s.b))
  | _ => none

/-- An operand check refuses where its test fails. -/
theorem refuses_eq_operandFault {refused legal : Bool} (operand : Word) (h : refused = !legal) :
    (if refused then some ⟨.badOperand, operand⟩ else none) = operandFault legal operand := by
  subst h
  cases legal <;> rfl

theorem firstRefused_operandChecks : firstRefused (operandChecks s i) = s.operandCheck i := by
  have psCheck : ∀ ps : BitVec 4, (if decide (2 ^ s.cfg.pb.toNat ≤ ps.toNat) then some ⟨.badOperand, ps.setWidth 32⟩ else none)
      = s.psFault ps := fun ps => refuses_eq_operandFault _ (decide_le_eq_not _ _)
  cases i with
  | pmWr =>
    rw [operandChecks, firstRefused_cons, firstRefused_nil, Option.or_none]
    exact refuses_eq_operandFault _ (by rw [← decide_not, decide_eq_decide]; omega)
  | rdLen ps l => rw [operandChecks, firstRefused_cons, psCheck, firstRefused_nil, Option.or_none, State.operandCheck]
  | reLen ps l =>
    rw [operandChecks, firstRefused_cons, psCheck, firstRefused_cons, firstRefused_nil, Option.or_none,
      refuses_eq_operandFault _ (decide_lt_eq_not _ _), State.operandCheck]
  | prLen ps l =>
    have pvCheck : (if !s.pv l then some ⟨.priceInvalid, encode (.prLen ps l)⟩ else none) = s.pvFault l (.prLen ps l) := by
      unfold State.pvFault
      cases s.pv l <;> rfl
    have lenCheck := refuses_eq_operandFault s.b (decide_le_eq_not s.cfg.tableSize.toNat s.b.toNat)
    rw [operandChecks, firstRefused_cons, psCheck, firstRefused_cons, pvCheck, firstRefused_cons, lenCheck, firstRefused_nil,
      Option.or_none, State.operandCheck]
  | _ => rfl

/-- The first fault of R285 is that of the command's own checks. -/
theorem firstFault_eq_execCheck : firstFault s i = execCheck s i := by
  rw [firstFault_eq_or, firstRefused_stepChecks, firstRefused_operandChecks, footprintFault_eq]
  have noCells : s.readFault [] = none := rfl
  cases i <;> simp [needsDecoder, needsEncoder, readsLcLp, readsPb, readsTableSize, onlyWrites, State.operandCheck, footprint,
    execCheck, noCells, Option.or_assoc, cellSpan, State.operandCell]
  -- The two sides decide PV[l] = 1 in ways that are equal by definition.
  case reLen => rfl

end

/-- A command whose check fails faults as R282 says. -/
theorem exec_faulted {s : State} {i : Instr} {r : Raise} (h : execCheck s i = some r) : exec i s = .next (s.faulted r) := by
  rw [exec_of_some h, raise_eq_faulted]

/-- Settles O28: a reader's check that fails is the first of R285, and its pseudocode writes RES only. -/
theorem readersChangeRes : Obligations.ReadersChangeRes := by
  intro i s t hi h
  rcases exec_cases h with ⟨r, hr, rfl⟩ | ⟨-, rfl⟩
  · exact .inr ⟨r, (firstFault_eq_execCheck s i).trans hr, raise_eq_faulted s r⟩
  · obtain ⟨v, hv⟩ := execBody_reader (s := s) hi
    rw [hv]
    exact .inl rfl

/-! ## NOP (R110) -/

/-- NOP's row is that of OP = 0, and uses no other field. -/
theorem eq_zero_of_decode {w : Word} {i : Instr} (h : decode w = .ok i) (hop : w.toNat % 2 ^ 8 = 0) : w = 0#32 := by
  obtain ⟨r, hr, -, -, hi⟩ := decode_ok h
  have hfield : fieldOp w = 0#8 := BitVec.eq_of_toNat_eq (by simpa [fieldOp] using hop)
  rw [hfield] at hr
  obtain rfl : OpRow.plain .nop = r := Option.some.inj hr
  subst hi
  exact (encode_of_decode h).symm

/-- Settles O18: NOP's meaning is the identity, and no other word of its opcode decodes. -/
theorem nopDoesNothing : Obligations.NopDoesNothing := by
  refine ⟨fun _ => rfl, decode_nop, fun s rest h => ?_, fun w hop hw => ?_⟩
  · exact stepRunsDecodedCommand s _ rest _ h decode_nop (.inr (.inl rfl))
  · cases hd : decode w with
    | error e => exact ⟨e, rfl⟩
    | ok i => exact absurd (eq_zero_of_decode hd hop) hw

/-! ## Cells in plain numbers (R63, R64) -/

section

variable (s : State)

/-- The cell k of a run (R64). -/
theorem runCell_eq (first : Word) (k : Nat) : first + BitVec.ofNat 32 k = BitVec.ofNat 32 (first.toNat + k) := by
  rw [BitVec.ofNat_add, BitVec.ofNat_toNat, BitVec.setWidth_eq]

theorem runCell_toNat (first : Word) (k : Nat) : (first + BitVec.ofNat 32 k).toNat = (first.toNat + k) % 2 ^ 32 := by
  rw [runCell_eq, BitVec.toNat_ofNat]

/-- A run that exists passes the footprint check. -/
theorem rangeFault_run_none {first : Word} {n : Nat} (h : ∀ k < n, (first.toNat + k) % 2 ^ 32 < s.params.pmSize) :
    s.rangeFault [⟨first, n⟩] = none := by
  rw [rangeFault_none]
  intro ea hea
  obtain ⟨k, hk, rfl⟩ := mem_spanCells_run.mp hea
  exact decide_eq_true (runCell_toNat first k ▸ h k hk)

/-- The footprint check of a run names its first cell that does not exist. -/
theorem rangeFault_run_some {first : Word} {n k : Nat} (hk : k < n) (hout : s.params.pmSize ≤ (first.toNat + k) % 2 ^ 32)
    (hin : ∀ j < k, (first.toNat + j) % 2 ^ 32 < s.params.pmSize) :
    s.rangeFault [⟨first, n⟩] = some ⟨.pmRange, BitVec.ofNat 32 (first.toNat + k)⟩ := by
  have hcells : spanCells [⟨first, n⟩] = (List.range n).map fun j => first + BitVec.ofNat 32 j := List.append_nil _
  have hfirst : (List.range n).find? ((fun ea => decide (s.params.pmSize ≤ ea.toNat)) ∘ fun j => first + BitVec.ofNat 32 j)
      = some k := by
    rw [List.find?_range_eq_some]
    simp only [Function.comp_apply, runCell_toNat]
    exact ⟨decide_eq_true hout, List.mem_range.mpr hk, fun j hj => by simpa using hin j hj⟩
  rw [rangeFault_eq_find?, hcells, List.find?_map, hfirst, ← runCell_eq]
  rfl

/-- The cell A + B as a number (R63). -/
theorem operandCell_toNat : s.operandCell.toNat = (s.a.toNat + s.b.toNat) % 2 ^ 32 := BitVec.toNat_add ..

/-- The range check of one cell. -/
theorem rangeFault_cell (ea : Word) :
    s.rangeFault (cellSpan ea) = if s.params.pmSize ≤ ea.toNat then some ⟨.pmRange, ea⟩ else none := by
  rw [rangeFault_eq_find?, spanCells_cellSpan, List.find?_singleton]
  split <;> simp_all

/-- The check that one cell is written. -/
theorem uninitFault_cell (ea : Word) :
    s.uninitFault (cellSpan ea) = if (s.pm.get? ea.toNat).isNone then some ⟨.uninitModel, ea⟩ else none := by
  rw [uninitFault_eq_find?, spanCells_cellSpan, List.find?_singleton]
  split <;> simp_all

end

/-! ## PM_INIT, PM_RD and PM_WR (R112 to R114) -/

/-- Settles O35: the run passes its check exactly where its cells exist, and `get?_fillRun` says what the writes leave. -/
theorem pmInitFills : Obligations.PmInitFills := by
  refine ⟨by decide, fun s => ⟨fun h => ?_, fun k hk hout hin => ?_⟩⟩
  · refine ⟨_, exec_of_none (i := .pmInit) (rangeFault_run_none s h), rfl, fun k => ?_⟩
    exact (get?_fillRun 1024#16 s.b.toNat s.a s.pm k).trans (by simp only [runCell_toNat])
  · exact exec_faulted (i := .pmInit) (rangeFault_run_some s hk hout hin)

/-- Settles O36: the cell passes both checks, fails the first, or fails only the second. -/
theorem pmRdReads : Obligations.PmRdReads := by
  refine ⟨by decide, fun s cell hcell => ?_⟩
  have hnat : s.operandCell.toNat = cell := (operandCell_toNat s).trans hcell.symm
  have check : execCheck s .pmRd = (s.rangeFault (cellSpan s.operandCell)).or (s.uninitFault (cellSpan s.operandCell)) := rfl
  rw [rangeFault_cell, uninitFault_cell, hnat, eq_ofNat_of_toNat hnat] at check
  refine ⟨fun v hin hv => ?_, fun hout => ?_, fun hin hv => ?_⟩
  · rw [exec_of_none (by rw [check, if_neg (not_le.mpr hin), hv]; rfl)]
    simp [execBody, State.setRes, State.pmRead, hnat, hv]
  · exact exec_faulted (by rw [check, if_pos hout]; rfl)
  · exact exec_faulted (by rw [check, if_neg (not_le.mpr hin), hv]; rfl)

/-- Settles O37: C passes the operand check, which comes first, and the cell passes the footprint check, or one of them fails. -/
theorem pmWrWrites : Obligations.PmWrWrites := by
  intro s cell hcell
  have hnat : s.operandCell.toNat = cell := (operandCell_toNat s).trans hcell.symm
  have check : execCheck s .pmWr =
      (operandFault (decide (31 ≤ s.c.toNat ∧ s.c.toNat ≤ 2017)) s.c).or (s.rangeFault (cellSpan s.operandCell)) := rfl
  rw [rangeFault_cell, hnat, eq_ofNat_of_toNat hnat] at check
  refine ⟨fun hlow hhigh hin => ?_, fun hc => ?_, fun hlow hhigh hout => ?_⟩
  · have legal := operandFault_none (w := s.c).mpr (decide_eq_true (And.intro hlow hhigh))
    refine ⟨_, exec_of_none (by rw [check, legal, if_neg (not_le.mpr hin)]; rfl), rfl, fun k => ?_⟩
    have hprob : s.operandProb = BitVec.ofNat 16 s.c.toNat := BitVec.eq_of_toNat_eq (by simp [State.operandProb])
    rw [← hprob, ← hnat]
    exact Cells.get?_set ..
  · have illegal : ¬ (31 ≤ s.c.toNat ∧ s.c.toNat ≤ 2017) := by omega
    exact exec_faulted (by rw [check, decide_eq_false illegal]; rfl)
  · have legal := operandFault_none (w := s.c).mpr (decide_eq_true (And.intro hlow hhigh))
    exact exec_faulted (by rw [check, legal, if_pos hout]; rfl)

end Sys2Proof.Machine
end

section
/-!
SUPPORT. Proofs of the statements of 41_range_decoder on one command: RD_INIT, RD_BIT and RD_DIRECT in plain numbers, the
interval that every step keeps, and how many input answers a command reads.
-/

namespace Sys2Proof.Machine

/-! ## The interval of a started decoder (R134) -/

/-- All that the decoder's invariant speaks of. -/
def State.decoderView (s : State) := (s.err, s.request, s.rdReady, s.rdRange)

section

variable {s t : State} {i : Instr}

theorem decoderInv_of_view (h : t.decoderView = s.decoderView) (hs : s.decoderInv) : t.decoderInv := by
  simp only [State.decoderView, Prod.mk.injEq] at h
  obtain ⟨he, hq, hr, hrange⟩ := h
  simpa only [State.decoderInv, State.running, State.decoderInterval, he, hq, hr, hrange] using hs

/-- The invariant promises nothing of a block that has faulted. -/
theorem decoderInv_raise (s : State) (r : Raise) : (s.raise r).decoderInv := fun hrun => Bool.noConfusion hrun.1

/-- The invariant promises nothing of a block that waits on a port. -/
theorem decoderInv_await (s : State) (q : PortRequest) : (s.await q).decoderInv := fun hrun => nomatch hrun.2

theorem decoderInv_resetBlock (s : State) : s.resetBlock.decoderInv := fun _ hr => Bool.noConfusion hr

/-- RD_INIT starts with the widest interval, a completed decode command ends with RD_RANGE renormalised, and no other command
writes RD_RANGE. -/
theorem CommandEffect.keeps_decoderInv (h : CommandEffect s i t) (hs : s.decoderInv) : t.decoderInv := by
  cases h with
  | nop | pmInit | pmWr | reInit | reader => exact hs
  | refused | initFault | decodeFault | encodeFault => exact decoderInv_raise _ _
  | initWaits | decodeWaits | encodeWaits => exact decoderInv_await _ _
  | rdInit => exact fun _ _ => (by decide : 2 ^ 24 ≤ (0xFFFFFFFF#32).toNat)
  | lenPriceInit l => exact decoderInv_of_view (congrArg State.decoderView (refills_setPv_frame s l _) :) hs
  | decoded _ u v _ _ hu hr =>
    obtain ⟨he, hq, hrd⟩ : u.err = s.err ∧ u.request = s.request ∧ u.rdReady = s.rdReady := by rw [hu.1]; exact ⟨rfl, rfl, rfl⟩
    exact fun hrun hready => hr (hs ⟨he ▸ hrun.1, hq ▸ hrun.2⟩ (hrd ▸ hready))
  | encoded _ _ _ _ hu => exact decoderInv_of_view (congrArg State.decoderView hu.1 :) hs
  | counted _ _ _ _ hu => exact decoderInv_of_view (congrArg State.decoderView (counted_frame hu.1 _ _) :) hs

theorem exec_keeps_decoderInv (hs : s.decoderInv) (h : exec i s = .next t) : t.decoderInv := by
  by_cases hi : i = .reset
  · subst hi
    obtain rfl : s.resetBlock = t := by simpa [exec, execReset] using h
    exact decoderInv_resetBlock s
  · exact (exec_effect hi h).keeps_decoderInv hs

theorem hostEffect_keeps_decoderInv (hs : s.decoderInv) (h : HostEffect s t) : t.decoderInv := by
  cases h with
  | ignored | setA | setB | setC | setCfg | setLitBase | setLenBase0 | setLenBase1 | read => exact hs
  | reset => exact decoderInv_resetBlock s
  | illegal => exact decoderInv_raise s _
  | command w i _ _ _ hx => exact exec_keeps_decoderInv hs hx

end

/-- Settles O32: a reset stops the decoder, and each command that completes keeps its interval. -/
theorem stepKeepsDecoder : Obligations.StepKeepsDecoder := by
  intro s t hs h
  rcases step_cases h with rfl | ⟨rest, rfl⟩ | ⟨-, rest, he⟩
  · exact hs
  · exact decoderInv_resetBlock _
  · exact hostEffect_keeps_decoderInv (s := { s with host := rest }) hs he

/-! ## RD_INIT (R130) -/

/-- The number that these bytes are, the first the most significant. -/
def bytesValue (bs : List Byte) : Nat := bs.foldl (fun v b => 2 ^ 8 * v + b.toNat) 0

theorem foldl_bytesValue (bs : List Byte) (v : Nat) :
    bs.foldl (fun v b => 2 ^ 8 * v + b.toNat) v = v * 2 ^ (8 * bs.length) + bytesValue bs := by
  induction bs generalizing v with
  | nil => simp [bytesValue]
  | cons b bs ih =>
    have hb := ih (2 ^ 8 * 0 + b.toNat)
    simp only [bytesValue, List.foldl_cons, List.length_cons, Nat.mul_add] at hb ih ⊢
    rw [ih, hb]
    ring

/-- A byte moves into the low end of the code register (R130, R131). -/
theorem shiftIn_eq (code : Word) (b : Byte) :
    (code <<< 8) ||| b.setWidth 32 = BitVec.ofNat 32 (2 ^ 8 * code.toNat + b.toNat) := by
  apply BitVec.eq_of_toNat_eq
  have hb := b.isLt
  rw [BitVec.toNat_or, BitVec.toNat_setWidth, BitVec.toNat_shiftLeft, Nat.shiftLeft_eq, BitVec.toNat_ofNat,
    Nat.mod_eq_of_lt (a := b.toNat) (by omega),
    show code.toNat * 2 ^ 8 % 2 ^ 32 = 2 ^ 8 * (code.toNat % 2 ^ 24) by omega, ← Nat.two_pow_add_eq_or_of_lt hb]
  omega

/-- Reading bytes that are to come takes them, and the code register holds the last four of them (R130). -/
theorem seedCode_bytes (bs : List Byte) (v : Nat) {s : State} {rest : List InAnswer}
    (h : s.input.answers = bs.map .byte ++ rest) :
    seedCode bs.length (BitVec.ofNat 32 v) s =
      .ok (BitVec.ofNat 32 (bs.foldl (fun v b => 2 ^ 8 * v + b.toNat) v))
        { s with input := { s.input with answers := rest } } := by
  induction bs generalizing v s with
  | nil =>
    obtain rfl : s.input.answers = rest := by simpa using h
    rfl
  | cons b bs ih =>
    have hcode : (BitVec.ofNat 32 v <<< 8) ||| b.setWidth 32 = BitVec.ofNat 32 (2 ^ 8 * v + b.toNat) := by
      rw [shiftIn_eq]
      apply BitVec.eq_of_toNat_eq
      simp only [BitVec.toNat_ofNat]
      omega
    rw [List.length_cons, seedCode, inByte_byte (by simpa using h), Act.bind_ok, hcode]
    exact ih (2 ^ 8 * v + b.toNat) rfl

/-- RD_INIT on five bytes starts the decoder (R130). -/
theorem exec_rdInit {s : State} {bs : List Byte} {rest : List InAnswer} (hl : bs.length = 5)
    (h : s.input.answers = bs.map .byte ++ rest) :
    exec .rdInit s = .next
      { s with
        input := { s.input with answers := rest }, rdRange := 0xFFFFFFFF#32, rdReady := true
        rdCode := BitVec.ofNat 32 (bytesValue bs) } := by
  have hseed := seedCode_bytes bs 0 h
  rw [hl] at hseed
  rw [exec_of_none rfl, execBody, hseed]
  rfl

/-- Settles O38: the first of the five bytes is shifted out of RD_CODE, and fewer bytes end the command before it writes a
register. -/
theorem rdInitStarts : Obligations.RdInitStarts := by
  refine ⟨fun s b0 b1 b2 b3 b4 rest h => ?_, fun s t bs rest hl hin h => ?_⟩
  · have hcode : BitVec.ofNat 32 (bytesValue [b0, b1, b2, b3, b4]) =
        BitVec.ofNat 32 (2 ^ 24 * b1.toNat + 2 ^ 16 * b2.toNat + 2 ^ 8 * b3.toNat + b4.toNat) := by
      apply BitVec.eq_of_toNat_eq
      simp only [bytesValue, List.foldl, BitVec.toNat_ofNat]
      omega
    rw [exec_rdInit (bs := [b0, b1, b2, b3, b4]) rfl h, hcode]
  · rw [exec_of_none rfl]
    exact congrArg _ (Act.settle_endsAt (Act.endsAt_bind (seedCode_ends hl hin h) _))

/-! ## RD_BIT (R132) -/

theorem refilled_of_le {s u : State} (h : refilled s u) (hs : 2 ^ 24 ≤ s.rdRange.toNat) : u = s := by
  rcases h with ⟨-, hu⟩ | ⟨hlt, -⟩
  · exact hu
  · omega

theorem execBody_rdBit (s : State) : execBody s .rdBit = ((decodeBit (s.a + s.b) s).bind fun bit u => .ok bit.toNat u).toRes := rfl

theorem execCheck_rdBit {s : State} (hr : s.rdReady = true) (hc : s.readable [s.a + s.b]) : execCheck s .rdBit = none :=
  Option.or_eq_none_iff.mpr ⟨rdReadyFault_none.mpr hr, readFault_none_of_readable ((spanCells_cellSpan _).symm ▸ hc)⟩

/-- Where its bit completes, RD_BIT puts it into RES. -/
theorem exec_rdBit_ok {s u : State} {bit : Bool} (hr : s.rdReady = true) (hc : s.readable [s.a + s.b])
    (h : decodeBit (s.a + s.b) s = .ok bit u) : exec .rdBit s = .next { u with res := BitVec.ofNat 32 bit.toNat } := by
  rw [exec_of_none (execCheck_rdBit hr hc), execBody_rdBit, h]
  rfl

/-- Where its bit asks for a byte that does not come, RD_BIT ends there. -/
theorem exec_rdBit_endsAt {s t : State} (hr : s.rdReady = true) (hc : s.readable [s.a + s.b])
    (h : (decodeBit (s.a + s.b) s).endsAt t) : exec .rdBit s = .next t := by
  rw [exec_of_none (execCheck_rdBit hr hc), execBody_rdBit]
  exact congrArg _ (Act.toRes_endsAt (Act.endsAt_bind h _))

/-- What does not complete ends in one state. -/
theorem Act.endsAt_unique {α : Type} {m : Act α} {t t' : State} (h : m.endsAt t) (h' : m.endsAt t') : t' = t := by
  rcases h with ⟨r, u, rfl, rfl⟩ | ⟨q, u, rfl, rfl⟩ <;> rcases h' with ⟨r', u', he, rfl⟩ | ⟨q', u', he, rfl⟩ <;> cases he <;> rfl

theorem noByte_unique {s t t' : State} (h : noByte s t) (h' : noByte s t') : t' = t :=
  Act.endsAt_unique (inByte_noByte h) (inByte_noByte h')

/-- A renormalisation that asks for a byte and gets it is none that gets no byte. -/
theorem refilled_noByte {s u t : State} (h : refilled s u) (hlt : s.rdRange.toNat < 2 ^ 24) : ¬ noByte s t := by
  rcases h with ⟨hle, -⟩ | ⟨-, b, rest, hin, -⟩
  · omega
  · exact hasBytes_noByte (n := 0) ⟨[b], rest, hin, le_refl _⟩

/-- Settles O39: the bit completes, or it asks for a byte that does not come. -/
theorem rdBitDecodes : Obligations.RdBitDecodes := by
  intro s hready hinterval hcell
  obtain ⟨bit, hfound, ⟨u, hok, hrefill, -, -⟩ | ⟨hlt, t, hno, hends⟩⟩ := decodeBit_ends hinterval (hcell _ (List.mem_singleton_self _))
  · have hexec := exec_rdBit_ok hready hcell hok
    have hframe := decodesBit_frame (x := (s.a + s.b, bit)) ⟨hfound, hrefill⟩
    refine ⟨bit, _, hfound, rfl, fun hle => ?_, fun _ => ⟨u, ⟨hfound, hrefill⟩, hframe.1, hframe.2, hexec⟩, fun t hlt hno => ?_⟩
    · rw [hexec, refilled_of_le hrefill hle]
    · exact absurd hno (refilled_noByte hrefill hlt)
  · refine ⟨bit, _, hfound, rfl, fun hle => by omega, ?_, fun t' _ hno' => ?_⟩
    · rintro (hle | hbytes)
      · omega
      · exact absurd hno (hasBytes_noByte (n := 0) hbytes)
    · exact exec_rdBit_endsAt hready hcell (noByte_unique hno hno' ▸ hends)

/-! ## RD_DIRECT (R133) -/

theorem bitsValue_lt (bits : List Bool) : bitsValue bits < 2 ^ bits.length := by
  induction bits with
  | nil => exact Nat.one_pos
  | cons b bits ih =>
    have hb : b.toNat * 2 ^ bits.length ≤ 1 * 2 ^ bits.length := Nat.mul_le_mul_right _ (Bool.toNat_le b)
    rw [bitsValue, List.foldl_cons, bitsValue_append, Nat.mul_zero, Nat.zero_add, List.length_cons, Nat.pow_succ]
    omega

theorem execBody_rdDirect (s : State) (n : BitVec 6) :
    execBody s (.rdDirect n) = (decodeDirect n.toNat (BitVec.ofNat 32 0) s).bind fun v u => .ok () (u.setRes v) := rfl

/-- Settles O40: each bit completes, or one asks for a byte that does not come. -/
theorem rdDirectDecodes : Obligations.RdDirectDecodes := by
  intro s n _ hready hinterval
  have hexec : exec (.rdDirect n) s = .next (execBody s (.rdDirect n)).settle := exec_of_none (rdReadyFault_none.mpr hready)
  rw [execBody_rdDirect] at hexec
  obtain ⟨bits, hl, ⟨u, hok, hhalves, -, -⟩ | ⟨hshort, t, hstarves, hends⟩⟩ := decodeDirect_ends (n := n.toNat) (v := 0) hinterval
  · rw [hok, Nat.zero_mul, Nat.zero_add] at hexec
    have hframe := decodesHalves_frame hhalves
    exact ⟨fun _ => ⟨bits, u, hl, hl ▸ bitsValue_lt bits, hhalves, hframe.1, hframe.2, hexec⟩,
      bits, _, hl, hexec, .inl ⟨u, hhalves, rfl⟩⟩
  · rw [Act.settle_endsAt (Act.endsAt_bind hends _)] at hexec
    exact ⟨fun hbytes => absurd hbytes hshort, bits, t, hl, hexec, .inr hstarves⟩

/-! ## How many input answers a command reads (R135, R341) -/

/-- At most n of the source's listed answers are taken, and nothing else happens to it. -/
def readsAtMost (n : Nat) (s t : State) : Prop := ∃ k ≤ n, t.input = { s.input with answers := s.input.answers.drop k }

section

variable {s t u : State} {m n : Nat}

theorem readsAtMost_of_input (h : t.input = s.input) : readsAtMost n s t := ⟨0, Nat.zero_le n, h⟩

theorem readsAtMost.trans (h1 : readsAtMost m s t) (h2 : readsAtMost n t u) : readsAtMost (m + n) s u := by
  obtain ⟨j, hj, ht⟩ := h1
  obtain ⟨k, hk, hu⟩ := h2
  exact ⟨j + k, Nat.add_le_add hj hk, by rw [hu, ht, List.drop_drop]⟩

theorem readsAtMost.mono (h : readsAtMost m s t) (hmn : m ≤ n) : readsAtMost n s t := by
  obtain ⟨k, hk, ht⟩ := h
  exact ⟨k, hk.trans hmn, ht⟩

theorem readsAtMost.congr (h : readsAtMost n s t) (hs : u.input = t.input) : readsAtMost n s u := by
  obtain ⟨k, hk, ht⟩ := h
  exact ⟨k, hk, hs.trans ht⟩

/-- A sequence reads what its parts read. -/
theorem readsAtMost_bind {α β : Type} {a : Act α} {f : α → State → Act β} (h : readsAtMost m s a.state)
    (hf : ∀ v t, a = .ok v t → readsAtMost n t (f v t).state) : readsAtMost (m + n) s (a.bind f).state := by
  cases a with
  | ok v t => exact h.trans (hf v t rfl)
  | raised r t => exact h.mono (Nat.le_add_right m n)
  | waiting q t => exact h.mono (Nat.le_add_right m n)

/-- A request takes the first listed answer, if there is one (R66). -/
theorem inByte_reads (s : State) : readsAtMost 1 s (inByte s).state := by
  unfold inByte InPort.next
  cases hin : s.input.answers with
  | nil => cases s.input.last <;> exact readsAtMost_of_input rfl
  | cons x rest => cases x <;> exact ⟨1, le_refl 1, by rw [hin]; rfl⟩

theorem seedCode_reads (n : Nat) (code : Word) (s : State) : readsAtMost n s (seedCode n code s).state := by
  induction n generalizing code s with
  | zero => exact readsAtMost_of_input rfl
  | succ n ih =>
    rw [seedCode, Nat.add_comm]
    exact readsAtMost_bind (inByte_reads s) fun _ _ _ => ih _ _

theorem decNormalizeOnce_reads (s : State) : readsAtMost 1 s (decNormalizeOnce s).state := by
  unfold decNormalizeOnce
  split
  · exact readsAtMost_bind (n := 0) (inByte_reads s) fun _ _ _ => readsAtMost_of_input rfl
  · exact readsAtMost_of_input rfl

/-- A bit decoded with a model cell reads one answer at most (R135). -/
theorem decodeBit_reads {ea : Word} (hr : s.decoderInterval) (hc : s.modelCell ea) : readsAtMost 1 s (decodeBit ea s).state := by
  rw [decodeBit_once hr hc]
  refine readsAtMost_bind (n := 0) ?_ fun _ _ _ => readsAtMost_of_input rfl
  obtain ⟨k, hk, hin⟩ := decNormalizeOnce_reads (decodeSplit ea s).2
  exact ⟨k, hk, by rw [hin, (decodeSplit_frame ea s).2.2]⟩

/-- n direct bits read n answers at most (R135). -/
theorem decodeDirect_reads (n : Nat) (v : Word) (hr : s.decoderInterval) : readsAtMost n s (decodeDirect n v s).state := by
  induction n generalizing v s with
  | zero => exact readsAtMost_of_input rfl
  | succ n ih =>
    rw [decodeDirect, Nat.add_comm]
    refine readsAtMost_bind ?_ fun _ t ht => ih _ (decNormalize_range ht)
    rw [directBit_once hr]
    exact decNormalizeOnce_reads (directSplit s).2

/-- A walk reads one answer at most for each bit on its longest way (R135). -/
theorem Walk.reads (w : Walk) (hr : s.decoderInterval) (hw : w.within n)
    (hc : ∀ code v, w.path code v → ∀ ea ∈ codeCells code, s.modelCell ea) : readsAtMost n s (w.run s).state := by
  induction w generalizing s n with
  | done v => exact readsAtMost_of_input rfl
  | ask ea next ih =>
    obtain ⟨code, v, hp⟩ := (next true).exists_path
    have hea := hc ((ea, true) :: code) v ⟨true, code, rfl, hp⟩ ea (by simp)
    have hn := hw ((ea, true) :: code) v ⟨true, code, rfl, hp⟩
    obtain ⟨n, rfl⟩ : ∃ m, n = 1 + m := ⟨n - 1, by simp at hn; omega⟩
    refine readsAtMost_bind (decodeBit_reads hr hea) fun b t ht => ih b (decodeBit_range ht) (fun code v hp => ?_)
      fun code v hp x hx => ?_
    · have := hw ((ea, b) :: code) v ⟨b, code, rfl, hp⟩
      rw [List.length_cons] at this
      omega
    · have hk := decModels_kept.bit hea
      rw [ht] at hk
      exact hk.2.1 x (hc ((ea, b) :: code) v ⟨b, code, rfl, hp⟩ x (List.mem_cons_of_mem _ hx))

end

/-- The walk of a decode command with model cells (R132, R182, R183, R204, R232, R234). -/
def decodeWalk (s : State) : Instr → Walk
  | .rdBit => .ask s.operandCell fun b => .done b.toNat
  | .rdTree n => (walkTree s.a n.toNat 1).map (· - 2 ^ n.toNat)
  | .rdRtree n => walkTreeRev s.a n.toNat 0 1 0
  | .rdLen ps l => walkLen (s.lenBase l) ps.toNat
  | .rdLit => (walkTree s.litSub 8 1).map (· &&& 0xFF)
  | .rdLitm => (walkMatched s.litSub 8 s.matchByte 1).map (· &&& 0xFF)
  | _ => .done 0

/-- A decode command runs its walk, or decodes direct bits. -/
theorem execBody_decode {i : Instr} (s : State) (h : needsDecoder i = true) :
    execBody s i = ((decodeWalk s i).run s).toRes ∨
      ∃ n, i = .rdDirect n ∧ execBody s i = (decodeDirect n.toNat 0#32 s).bind fun v u => .ok () (u.setRes v) := by
  cases i with
  | rdBit => exact .inl rfl
  | rdDirect n => exact .inr ⟨n, rfl, rfl⟩
  | rdTree n => exact .inl (congrArg Act.toRes (treeDecode_run ..))
  | rdRtree n => exact .inl (congrArg Act.toRes (treeDecodeRev_run ..))
  | rdLen ps l => exact .inl (congrArg Act.toRes (lenDecode_run ..))
  | rdLit => exact .inl (congrArg Act.toRes (litDecode_run ..))
  | rdLitm => exact .inl (congrArg Act.toRes (litDecodeMatched_run ..))
  | _ => simp [needsDecoder] at h

/-- The cells on a way through the walk lie in the command's footprint, and the way has no more bits than R341 counts. -/
theorem decodeWalk_path {i : Instr} {s : State} {code : List Decision} {v : Nat} (h : needsDecoder i = true)
    (hp : (decodeWalk s i).path code v) :
    (∀ ea ∈ codeCells code, ea ∈ spanCells (footprint s i)) ∧ code.length ≤ byteBudget i := by
  cases i with
  | rdBit =>
    obtain ⟨b, rest, rfl, rfl, -⟩ := hp
    exact ⟨fun ea hea => (spanCells_cellSpan s.operandCell).symm ▸ hea, le_refl 1⟩
  | rdDirect n =>
    obtain ⟨rfl, -⟩ := hp
    exact ⟨nofun, Nat.zero_le _⟩
  | rdTree n =>
    obtain ⟨u, hu, -⟩ := (Walk.path_map _).mp hp
    obtain ⟨sym, -, rfl, -⟩ := walkTree_path_root hu
    exact ⟨fun _ => treeCode_cells, (treeCode_length ..).le⟩
  | rdRtree n =>
    obtain ⟨-, rfl⟩ := walkTreeRev_path_root hp
    exact ⟨fun _ => treeCodeRev_cells, (treeCodeRev_length ..).le⟩
  | rdLen ps l =>
    obtain ⟨-, rfl⟩ := walkLen_path hp
    exact ⟨fun _ => lenCode_cells, lenCode_length ..⟩
  | rdLit =>
    obtain ⟨-, rfl⟩ := walkLit_path hp
    exact ⟨fun _ => litCode_cells, (litCode_length ..).le⟩
  | rdLitm =>
    obtain ⟨-, rfl⟩ := walkLitm_path hp
    exact ⟨fun _ => matchedCode_cells, (matchedCode_length ..).le⟩
  | _ => simp [needsDecoder] at h

section

variable {s t : State} {i : Instr} {n : Nat}

theorem settle_reads {a : Act Unit} (h : readsAtMost n s a.state) : readsAtMost n s a.settle := by
  cases a <;> exact h.congr rfl

/-- A decode command whose checks pass reads one answer at most for each bit it may decode (R341). -/
theorem decoder_reads (h : needsDecoder i = true) (hr : s.decoderInterval) (hc : s.readable (spanCells (footprint s i))) :
    readsAtMost (byteBudget i) s (execBody s i).settle := by
  apply settle_reads
  rcases execBody_decode s h with hb | ⟨n, rfl, hb⟩
  · rw [hb]
    exact readsAtMost_bind (n := 0)
      ((decodeWalk s i).reads hr (fun code v hp => (decodeWalk_path h hp).2) fun code v hp ea hea => hc ea ((decodeWalk_path h hp).1 ea hea))
      fun _ _ _ => readsAtMost_of_input rfl
  · rw [hb]
    exact readsAtMost_bind (n := 0) (decodeDirect_reads n.toNat 0#32 hr) fun _ _ _ => readsAtMost_of_input rfl

theorem rdReady_of_execCheck (h : needsDecoder i = true) (hc : execCheck s i = none) : s.rdReady = true := by
  cases i with
  | rdDirect n => exact rdReadyFault_none.mp hc
  | rdBit | rdTree | rdRtree | rdLen | rdLit | rdLitm => exact rdReadyFault_none.mp (Option.or_eq_none_iff.mp hc).1
  | _ => simp [needsDecoder] at h

/-- However a command but RESET ends, it has read no more answers than R341 bounds. -/
theorem exec_reads (hi : i ≠ .reset) (hm : s.modelsInv) (hr : s.rdReady = true → s.decoderInterval) (h : exec i s = .next t) :
    readsAtMost (byteBudget i) s t := by
  rcases exec_cases h with ⟨r, -, rfl⟩ | ⟨hc, rfl⟩
  · exact readsAtMost_of_input rfl
  · by_cases hd : needsDecoder i = true
    · exact decoder_reads hd (hr (rdReady_of_execCheck hd hc)) (footprint_readable hm (.inl hd) hc)
    · by_cases hinit : i = .rdInit
      · subst hinit
        exact settle_reads (readsAtMost_bind (n := 0) (seedCode_reads 5 0#32 s) fun _ _ _ => readsAtMost_of_input rfl)
      · have hside := (exec_effect hi h).decoderSide_eq hinit (Bool.not_eq_true _ ▸ hd)
        simp only [State.decoderSide, Prod.mk.injEq] at hside
        exact readsAtMost_of_input hside.2.2

end

/-- Settles O44: both kinds of bits leave at least 2^16 of the interval, so one answer is enough for each. (`byteBudget` is the
bound of R341.) -/
theorem byteBudgetHolds : Obligations.ByteBudget :=
  ⟨fun _ _ hr hc => ⟨decodeSplit_wide hr hc.2.2.1 hc.2.2.2, decNormalize_once (decodeSplit_range hr hc.2.2.1 hc.2.2.2)⟩,
    fun _ hr => ⟨directSplit_wide hr, directBit_once hr⟩, fun _ _ _ _ hi hm hr h => exec_reads hi hm hr h⟩

end Sys2Proof.Machine
end

section
/-!
SUPPORT. The coded stream as a number (41_range_decoder R137, 42_range_encoder R152, R153, R159): what the encoder has emitted and
still holds is the low end of an interval, every coded bit takes a part of it, and a ShiftLow rewrites the same number with one
byte more.
-/

namespace Sys2Proof.Machine

/-! ## Strings of bytes as numbers -/

theorem bytesValue_append (as bs : List Byte) :
    bytesValue (as ++ bs) = bytesValue as * 2 ^ (8 * bs.length) + bytesValue bs := by
  rw [bytesValue, List.foldl_append, foldl_bytesValue]
  rfl

theorem bytesValue_singleton (b : Byte) : bytesValue [b] = b.toNat := Nat.zero_add _

theorem bytesValue_cons (b : Byte) (bs : List Byte) : bytesValue (b :: bs) = b.toNat * 2 ^ (8 * bs.length) + bytesValue bs := by
  rw [← List.singleton_append, bytesValue_append, bytesValue_singleton]

theorem bytesValue_concat (bs : List Byte) (b : Byte) : bytesValue (bs ++ [b]) = bytesValue bs * 2 ^ 8 + b.toNat := by
  rw [bytesValue_append, bytesValue_singleton]
  rfl

theorem bytesValue_lt (bs : List Byte) : bytesValue bs < 2 ^ (8 * bs.length) := by
  induction bs with
  | nil => exact Nat.one_pos
  | cons b bs ih =>
    have hb : (b.toNat + 1) * 2 ^ (8 * bs.length) ≤ 2 ^ 8 * 2 ^ (8 * bs.length) := Nat.mul_le_mul_right _ b.isLt
    rw [bytesValue_cons, List.length_cons, Nat.mul_succ, Nat.add_comm (8 * bs.length), Nat.pow_add]
    rw [Nat.succ_mul] at hb
    omega

theorem bytesValue_replicate_ones (k : Nat) : bytesValue (List.replicate k 0xFF#8) + 1 = 2 ^ (8 * k) := by
  induction k with
  | zero => rfl
  | succ k ih =>
    rw [List.replicate_succ', bytesValue_concat, Nat.mul_succ, Nat.pow_add, ← ih]
    simp only [BitVec.toNat_ofNat]
    omega

theorem bytesValue_replicate_zeros (k : Nat) : bytesValue (List.replicate k 0#8) = 0 := by
  induction k with
  | zero => rfl
  | succ k ih => rw [List.replicate_succ', bytesValue_concat, ih]; rfl

/-- A carry into a queue of 0xFF bytes ripples up to the byte before them (R152). -/
theorem bytesValue_carried {b : Byte} {carry : Nat} (k : Nat) (hc : carry ≤ 1) (hb : b.toNat + carry < 2 ^ 8) :
    bytesValue (BitVec.ofNat 8 (b.toNat + carry) :: List.replicate k (BitVec.ofNat 8 (0xFF + carry))) =
      bytesValue (b :: List.replicate k 0xFF#8) + carry := by
  have hones := bytesValue_replicate_ones k
  simp only [bytesValue_cons, List.length_replicate, BitVec.toNat_ofNat, Nat.mod_eq_of_lt hb]
  obtain rfl | rfl : carry = 0 ∨ carry = 1 := by omega
  · rfl
  · rw [show BitVec.ofNat 8 (0xFF + 1) = 0#8 from rfl, bytesValue_replicate_zeros, ← hones, Nat.add_mul]
    omega

/-! ## Intervals -/

/-- An interval of numbers of shifts + 5 bytes: those from `low` on, `width` of them. -/
structure Interval where
  low    : Nat
  width  : Nat
  shifts : Nat

/-- The part of the interval from `lo` on, w wide. -/
def Interval.part (I : Interval) (lo w : Nat) : Interval := ⟨I.low + lo, w, I.shifts⟩

/-- The interval with one byte more, where it has become narrow (R131, R151). -/
def Interval.renormalised (I : Interval) : Interval :=
  if I.width < 2 ^ 24 then ⟨2 ^ 8 * I.low, 2 ^ 8 * I.width, I.shifts + 1⟩ else I

/-- J lies in I, read with as many bytes as J's numbers have. -/
def Interval.contains (I J : Interval) : Prop :=
  ∃ k, J.shifts = I.shifts + k ∧ I.low * 2 ^ (8 * k) ≤ J.low ∧ J.low + J.width ≤ (I.low + I.width) * 2 ^ (8 * k)

/-- The stream is longer than the interval's numbers, or as long, and lies in the interval. -/
def Interval.leadsTo (I : Interval) (bytes : List Byte) : Prop :=
  ∃ k, bytes.length = I.shifts + 5 + k ∧ I.low * 2 ^ (8 * k) ≤ bytesValue bytes ∧
    bytesValue bytes < (I.low + I.width) * 2 ^ (8 * k)

section

variable {I J K : Interval} {lo w : Nat} {bytes : List Byte}

theorem Interval.contains_refl (I : Interval) : I.contains I := ⟨0, rfl, by simp, by simp⟩

theorem Interval.contains.trans (h1 : I.contains J) (h2 : J.contains K) : I.contains K := by
  obtain ⟨j, hj, hlow, hhigh⟩ := h1
  obtain ⟨k, hk, hlow', hhigh'⟩ := h2
  refine ⟨j + k, by omega, ?_, ?_⟩ <;> rw [Nat.mul_add, Nat.pow_add, ← Nat.mul_assoc]
  · exact (Nat.mul_le_mul_right _ hlow).trans hlow'
  · exact hhigh'.trans (Nat.mul_le_mul_right _ hhigh)

theorem Interval.contains_part (h : lo + w ≤ I.width) : I.contains (I.part lo w) :=
  ⟨0, rfl, by simp [Interval.part], by simp only [Interval.part]; omega⟩

theorem Interval.contains_renormalised (I : Interval) : I.contains I.renormalised := by
  unfold Interval.renormalised
  split
  · exact ⟨1, rfl, by simp only; omega, by simp only; omega⟩
  · exact I.contains_refl

theorem Interval.renormalised_shifts_le (I : Interval) : I.renormalised.shifts ≤ I.shifts + 1 := by
  unfold Interval.renormalised
  split
  · exact le_refl _
  · exact Nat.le_succ _

theorem Interval.contains.leadsTo (h : I.contains J) (hJ : J.leadsTo bytes) : I.leadsTo bytes := by
  obtain ⟨j, hj, hlow, hhigh⟩ := h
  obtain ⟨k, hk, hlow', hhigh'⟩ := hJ
  refine ⟨j + k, by omega, ?_, ?_⟩ <;> rw [Nat.mul_add, Nat.pow_add, ← Nat.mul_assoc]
  · exact (Nat.mul_le_mul_right _ hlow).trans hlow'
  · exact hhigh'.trans_le (Nat.mul_le_mul_right _ hhigh)

/-- The first bytes of the stream, as many as the interval's numbers have, lie in the interval. -/
theorem Interval.leadsTo.prefix_mem (h : I.leadsTo bytes) :
    I.low ≤ bytesValue (bytes.take (I.shifts + 5)) ∧ bytesValue (bytes.take (I.shifts + 5)) < I.low + I.width := by
  obtain ⟨k, hk, hlow, hhigh⟩ := h
  have hrest := bytesValue_lt (bytes.drop (I.shifts + 5))
  have hsplit := bytesValue_append (bytes.take (I.shifts + 5)) (bytes.drop (I.shifts + 5))
  rw [List.length_drop, show bytes.length - (I.shifts + 5) = k by omega] at hrest hsplit
  rw [List.take_append_drop] at hsplit
  constructor
  · refine Nat.le_of_lt_add_one (Nat.lt_of_mul_lt_mul_right (a := 2 ^ (8 * k)) ?_)
    rw [Nat.add_mul, Nat.one_mul]
    omega
  · exact Nat.lt_of_mul_lt_mul_right (a := 2 ^ (8 * k)) (by omega)

end

/-! ## The encoder's stream -/

/-- The byte of an event of the sink. -/
def OutEvent.byte? : OutEvent → Option Byte
  | .byte b => some b
  | .flush => none

/-- The bytes that the sink has accepted since it had received `pre`. -/
def State.sent (s : State) (pre : List OutEvent) : List Byte := (s.output.drop pre.length).filterMap OutEvent.byte?

/-- The bytes held back: RE_CACHE, and 0xFF as often as RE_CACHESIZE counts beside it (R152). -/
def State.queued (s : State) : List Byte := s.reCache :: List.replicate (s.reCacheSize.toNat - 1) 0xFF#8

/-- The interval of the encoder: from the number that is sent, queued and in RE_LOW on, RE_RANGE wide. -/
def State.interval (s : State) (pre : List OutEvent) : Interval where
  low    := bytesValue (s.sent pre ++ s.queued) * 2 ^ 32 + s.reLow.toNat
  width  := s.reRange.toNat
  shifts := (s.sent pre).length + s.reCacheSize.toNat - 1

/-- The encoder of s has sent only bytes after `pre`, to a sink that accepts them, and RE_POS counts them (R159); and no number
from RE_LOW on, r of them, carries beyond the byte in RE_CACHE. -/
structure Emits (pre : List OutEvent) (r : Nat) (s : State) : Prop where
  accepts : s.sinkAccepts
  output : s.output = pre ++ (s.sent pre).map .byte
  pos : s.rePos = BitVec.ofNat 64 (s.sent pre).length
  queue : 1 ≤ s.reCacheSize.toNat
  room : bytesValue s.queued * 2 ^ 32 + s.reLow.toNat + r ≤ 2 ^ (8 * s.reCacheSize.toNat) * 2 ^ 32
  below : s.reLow.toNat + r < 2 ^ 33

/-- All of the encoder's stream but the interval: the sink, what it has received, and what is held back. -/
def State.streamSide (s : State) := (s.sink, s.output, s.rePos, s.reCache, s.reCacheSize)

section

variable {s t : State} {pre : List OutEvent} {r : Nat}

theorem sent_of_output {bytes : List Byte} (h : s.output = pre ++ bytes.map .byte) : s.sent pre = bytes := by
  have hbytes : (fun b => OutEvent.byte? (.byte b)) = some := rfl
  rw [State.sent, h, List.drop_left, List.filterMap_map]
  exact (congrArg (List.filterMap · bytes) hbytes).trans List.filterMap_some

theorem queued_length (h : 1 ≤ s.reCacheSize.toNat) : s.queued.length = s.reCacheSize.toNat := by
  rw [State.queued, List.length_cons, List.length_replicate]
  omega

/-- A smaller part of the interval carries no further. -/
theorem Emits.narrowed (h : Emits pre r s) {lo w : Nat} (hlow : t.reLow.toNat = s.reLow.toNat + lo) (hw : lo + w ≤ r)
    (hside : t.streamSide = s.streamSide) : Emits pre w t := by
  simp only [State.streamSide, Prod.mk.injEq] at hside
  obtain ⟨hsink, hout, hpos, hcache, hsize⟩ := hside
  have hroom := h.room
  have hbelow := h.below
  refine ⟨?_, ?_, ?_, ?_, ?_, ?_⟩
  · rw [State.sinkAccepts, hsink]; exact h.accepts
  · rw [State.sent, hout]; exact h.output
  · rw [State.sent, hpos, hout]; exact h.pos
  · rw [hsize]; exact h.queue
  · rw [State.queued, hcache, hsize, hlow, ← State.queued]; omega
  · omega

theorem interval_part {lo : Nat} (hlow : t.reLow.toNat = s.reLow.toNat + lo) (hside : t.streamSide = s.streamSide) :
    t.interval pre = (s.interval pre).part lo t.reRange.toNat := by
  simp only [State.streamSide, Prod.mk.injEq] at hside
  obtain ⟨-, hout, -, hcache, hsize⟩ := hside
  simp only [State.interval, Interval.part, State.sent, State.queued, hout, hcache, hsize, hlow, Nat.add_assoc]

/-! ### ShiftLow (R152) -/

/-- A ShiftLow that emits nothing has no carry to emit, and the top byte of RE_LOW is 0xFF. -/
theorem leavingBytes_eq_nil : s.leavingBytes = [] ↔ 0xFF000000 ≤ s.reLow.toNat ∧ s.reLow.toNat < 2 ^ 32 := by
  have hlt := s.reLow.isLt
  unfold State.leavingBytes
  dsimp only
  split <;> simp <;> omega

/-- The bytes a ShiftLow emits are those queued, with the carry added (R152). -/
theorem leavingBytes_value (h : Emits pre r s) (hr : 1 ≤ r) (hne : s.leavingBytes ≠ []) :
    s.leavingBytes.length = s.reCacheSize.toNat ∧ bytesValue s.leavingBytes = bytesValue s.queued + s.reLow.toNat / 2 ^ 32 := by
  have hlt := s.reLow.isLt
  have hq := h.queue
  have hroom := h.room
  have hones := bytesValue_replicate_ones (s.reCacheSize.toNat - 1)
  have hemit : s.reLow.toNat / 2 ^ 32 ≠ 0 ∨ s.reLow.toNat < 0xFF000000 := by
    rw [Ne, leavingBytes_eq_nil] at hne
    omega
  have hcarry : s.reCache.toNat + s.reLow.toNat / 2 ^ 32 < 2 ^ 8 := by
    have hb := s.reCache.isLt
    by_cases hc : s.reLow.toNat / 2 ^ 32 = 0
    · omega
    · refine Nat.lt_of_mul_lt_mul_right (a := 2 ^ (8 * (s.reCacheSize.toNat - 1))) ?_
      rw [State.queued, bytesValue_cons, List.length_replicate, show 8 * s.reCacheSize.toNat = 8 + 8 * (s.reCacheSize.toNat - 1) by omega,
        Nat.pow_add] at hroom
      rw [show s.reLow.toNat / 2 ^ 32 = 1 by omega, Nat.add_mul]
      omega
  unfold State.leavingBytes
  dsimp only
  rw [if_pos hemit]
  refine ⟨by rw [List.length_cons, List.length_replicate]; omega, bytesValue_carried _ (by omega) hcarry⟩

theorem shifted_output (h : Emits pre r s) : s.shifted.output = pre ++ (s.sent pre ++ s.leavingBytes).map .byte := by
  rw [List.map_append, ← List.append_assoc, ← h.output]
  rfl

theorem shifted_sent (h : Emits pre r s) : s.shifted.sent pre = s.sent pre ++ s.leavingBytes := sent_of_output (shifted_output h)

/-- What a ShiftLow leaves queued: the top byte of RE_LOW alone, or one byte 0xFF more (R152). -/
theorem shifted_queue (hq : 1 ≤ s.reCacheSize.toNat) (hsize : s.reCacheSize.toNat + 1 < 2 ^ 64) :
    (s.leavingBytes ≠ [] ∧ s.shifted.reCacheSize.toNat = 1 ∧ bytesValue s.shifted.queued = s.reLow.toNat / 2 ^ 24 % 2 ^ 8) ∨
      (s.leavingBytes = [] ∧ s.shifted.reCacheSize.toNat = s.reCacheSize.toNat + 1 ∧
        bytesValue s.shifted.queued = bytesValue s.queued * 2 ^ 8 + 0xFF) := by
  by_cases hne : s.leavingBytes = []
  · have hcount : s.shifted.reCacheSize.toNat = s.reCacheSize.toNat + 1 := by
      simp only [State.shifted, if_pos hne, BitVec.toNat_ofNat, Nat.mod_eq_of_lt hsize]
    have hcache : s.shifted.reCache = s.reCache := if_pos hne
    refine .inr ⟨hne, hcount, ?_⟩
    rw [State.queued, hcount, hcache, show s.reCacheSize.toNat + 1 - 1 = s.reCacheSize.toNat - 1 + 1 by omega, List.replicate_succ',
      ← List.cons_append, bytesValue_concat]
    rfl
  · have hcount : s.shifted.reCacheSize.toNat = 1 := by simp only [State.shifted, if_neg hne]; rfl
    have hcache : s.shifted.reCache = BitVec.ofNat 8 (s.reLow.toNat / 2 ^ 24) := if_neg hne
    refine .inl ⟨hne, hcount, ?_⟩
    rw [State.queued, hcount, hcache]
    exact (bytesValue_singleton _).trans (BitVec.toNat_ofNat ..)

/-- A ShiftLow rewrites the same number with one byte more (R152). -/
theorem shifted_interval (h : Emits pre r s) (hr : 1 ≤ r) (hsize : s.reCacheSize.toNat + 1 < 2 ^ 64) :
    s.shifted.interval pre = ⟨2 ^ 8 * (s.interval pre).low, s.reRange.toNat, (s.interval pre).shifts + 1⟩ := by
  have hlt := s.reLow.isLt
  have hq := h.queue
  rw [State.interval, shifted_sent h, shifted_reLow]
  rcases shifted_queue hq hsize with ⟨hne, hcount, hvalue⟩ | ⟨hnil, hcount, hvalue⟩
  · obtain ⟨hlen, hleave⟩ := leavingBytes_value h hr hne
    simp only [State.interval, Interval.mk.injEq]
    refine ⟨?_, rfl, ?_⟩
    · rw [bytesValue_append, hvalue, queued_length (by omega), hcount, bytesValue_append, hleave, hlen, bytesValue_append, queued_length hq]
      omega
    · rw [List.length_append, hlen, hcount]
      omega
  · have hlow := leavingBytes_eq_nil.mp hnil
    simp only [State.interval, Interval.mk.injEq]
    refine ⟨?_, rfl, ?_⟩
    · rw [hnil, List.append_nil, bytesValue_append, hvalue, queued_length (by omega), hcount, bytesValue_append, queued_length hq,
        Nat.mul_succ, Nat.pow_add, ← Nat.mul_assoc]
      omega
    · rw [hnil, List.append_nil, hcount]
      omega

/-- A ShiftLow of a narrow interval leaves room for the interval with one byte more (R152, R153). -/
theorem Emits.shifted (h : Emits pre r s) (hr : 1 ≤ r) (hr' : r ≤ 2 ^ 24) (hsize : s.reCacheSize.toNat + 1 < 2 ^ 64) :
    Emits pre (2 ^ 8 * r) s.shifted := by
  have hlt := s.reLow.isLt
  have hq := h.queue
  have hroom := h.room
  have hbelow := h.below
  refine ⟨sinkAccepts_shifted h.accepts, ?_, ?_, ?_, ?_, ?_⟩
  · rw [shifted_sent h]; exact shifted_output h
  · rw [shifted_sent h, List.length_append, State.shifted, h.pos]
    apply BitVec.eq_of_toNat_eq
    simp only [BitVec.toNat_ofNat]
    omega
  · rcases shifted_queue hq hsize with ⟨-, hcount, -⟩ | ⟨-, hcount, -⟩ <;> omega
  · rw [shifted_reLow]
    rcases shifted_queue hq hsize with ⟨hne, hcount, hvalue⟩ | ⟨hnil, hcount, hvalue⟩
    · rw [Ne, leavingBytes_eq_nil] at hne
      rw [hcount, hvalue, Nat.mul_one]
      clear hroom
      omega
    · have hlow := leavingBytes_eq_nil.mp hnil
      have htop : s.reLow.toNat % 2 ^ 24 * 2 ^ 8 + 0xFF * 2 ^ 32 = 2 ^ 8 * s.reLow.toNat := by omega
      rw [hcount, hvalue, Nat.mul_succ, Nat.pow_add]
      linarith
  · rw [shifted_reLow]
    omega

end

end Sys2Proof.Machine
end

section
/-!
SUPPORT. One coded bit on both sides (41_range_decoder R131 to R133, R137, 42_range_encoder R151, R154, R155): the encoder takes a
part of its interval, and a decoder that follows it finds the same part and needs a byte exactly where the encoder's number
gets one.
-/

namespace Sys2Proof.Machine

/-! ## The encoder takes a part of its interval -/

/-- The encoder of s is between two bits (R153). -/
structure Codes (pre : List OutEvent) (s : State) : Prop where
  emits : Emits pre s.reRange.toNat s
  wide : 2 ^ 24 ≤ s.reRange.toNat

/-- The encoder of t has taken, of the interval of s, the part from lo on, w wide, and has not renormalised. -/
structure Narrows (s t : State) (lo w : Nat) : Prop where
  low : t.reLow.toNat = s.reLow.toNat + lo
  width : t.reRange.toNat = w
  fits : lo + w ≤ s.reRange.toNat
  wide : 2 ^ 16 ≤ w
  side : t.streamSide = s.streamSide

/-- The encoder has gone on from s to t with at most n ShiftLows, within its interval. -/
structure Advances (pre : List OutEvent) (n : Nat) (s t : State) : Prop where
  codes : Codes pre t
  within : (s.interval pre).contains (t.interval pre)
  shifts : (t.interval pre).shifts ≤ (s.interval pre).shifts + n

section

variable {s t u : State} {pre : List OutEvent} {lo w m n : Nat}

theorem Advances.refl (h : Codes pre s) : Advances pre 0 s s := ⟨h, Interval.contains_refl _, le_refl _⟩

theorem Advances.trans (h1 : Advances pre m s t) (h2 : Advances pre n t u) : Advances pre (m + n) s u :=
  ⟨h2.codes, h1.within.trans h2.within, by have := h1.shifts; have := h2.shifts; omega⟩

theorem Advances.mono (h : Advances pre m s t) (hmn : m ≤ n) : Advances pre n s t :=
  ⟨h.codes, h.within, h.shifts.trans (Nat.add_le_add_left hmn _)⟩

/-- The encoder renormalises its interval (R151). -/
theorem Emits.renormalised (h : Emits pre s.reRange.toNat s) (hw : 2 ^ 16 ≤ s.reRange.toNat)
    (hs : (s.interval pre).shifts + 2 < 2 ^ 64) :
    Codes pre s.renormalised ∧ s.renormalised.interval pre = (s.interval pre).renormalised := by
  have hq := h.queue
  have hshifts : (s.interval pre).shifts = (s.sent pre).length + s.reCacheSize.toNat - 1 := rfl
  by_cases hn : s.reRange.toNat < 2 ^ 24
  · have hrange : (BitVec.ofNat 32 (s.reRange.toNat * 2 ^ 8)).toNat = 2 ^ 8 * s.reRange.toNat := by
      rw [BitVec.toNat_ofNat]
      omega
    have hemits : Emits pre s.reRange.toNat { s with reRange := BitVec.ofNat 32 (s.reRange.toNat * 2 ^ 8) } :=
      h.narrowed (lo := 0) rfl (Nat.zero_add _).le rfl
    have hsize : s.reCacheSize.toNat + 1 < 2 ^ 64 := by omega
    rw [State.renormalised, if_pos hn, Interval.renormalised, if_pos (show (s.interval pre).width < 2 ^ 24 from hn)]
    refine ⟨⟨?_, ?_⟩, ?_⟩
    · exact hrange.symm ▸ hemits.shifted (by omega) hn.le hsize
    · exact (show 2 ^ 24 ≤ 2 ^ 8 * s.reRange.toNat by omega).trans hrange.ge
    · rw [shifted_interval hemits (by omega) hsize, hrange]
      rfl
  · rw [State.renormalised, if_neg hn, Interval.renormalised, if_neg (show ¬ (s.interval pre).width < 2 ^ 24 from hn)]
    exact ⟨⟨h, Nat.le_of_not_lt hn⟩, rfl⟩

/-- Taking a part of the interval and renormalising keeps the encoder coding (R153). -/
theorem Codes.narrowed (h : Codes pre s) (ht : Narrows s t lo w) (hs : (s.interval pre).shifts + 2 < 2 ^ 64) :
    Codes pre t.renormalised ∧ t.renormalised.interval pre = ((s.interval pre).part lo w).renormalised := by
  have hpart := interval_part (pre := pre) ht.low ht.side
  rw [ht.width] at hpart
  have hemits := h.emits.narrowed ht.low ht.fits ht.side
  rw [← ht.width] at hemits
  rw [← hpart]
  exact hemits.renormalised (ht.width ▸ ht.wide) (hpart ▸ hs)

theorem Codes.advances (h : Codes pre s) (ht : Narrows s t lo w) (hs : (s.interval pre).shifts + 2 < 2 ^ 64) :
    Advances pre 1 s t.renormalised := by
  obtain ⟨hcodes, hinterval⟩ := h.narrowed ht hs
  refine ⟨hcodes, ?_, ?_⟩ <;> rw [hinterval]
  · exact (Interval.contains_part ht.fits).trans (Interval.contains_renormalised _)
  · exact Interval.renormalised_shifts_le _

/-! ### A bit with a model cell (R132, R154) -/

/-- Where the part of a bit begins in an interval split at p. -/
def bitLow (range p : Nat) (b : Bool) : Nat := if b then boundOf range p else 0

/-- How wide that part is. -/
def bitWidth (range p : Nat) (b : Bool) : Nat := if b then range - boundOf range p else boundOf range p

/-- Both parts are wider than 2^16 and lie in the interval (R118). -/
theorem bitPart_fits {range : Word} {p : Prob} (b : Bool) (hr : 2 ^ 24 ≤ range.toNat) (h1 : 31 ≤ p.toNat) (h2 : p.toNat ≤ 2017) :
    bitLow range.toNat p.toNat b + bitWidth range.toNat p.toNat b ≤ range.toNat ∧ 2 ^ 16 ≤ bitWidth range.toNat p.toNat b := by
  have hb := splitPoint_bounds hr h1 h2
  rw [splitPoint_eq] at hb
  cases b <;> simp only [bitLow, bitWidth, Bool.false_eq_true, if_true, if_false] <;> omega

theorem bitCoded_narrows {x : Decision} (h : Codes pre s) (hc : s.modelCell x.1) :
    Narrows s (bitCoded x s) (bitLow s.reRange.toNat (s.pmRead x.1).toNat x.2) (bitWidth s.reRange.toNat (s.pmRead x.1).toNat x.2) := by
  obtain ⟨-, -, h1, h2⟩ := hc
  have hbelow := h.emits.below
  have hlt := s.reRange.isLt
  obtain ⟨hfits, hwide⟩ := bitPart_fits x.2 h.wide h1 h2
  refine ⟨?_, ?_, hfits, hwide, rfl⟩
  · have hlow : (bitCoded x s).reLow = BitVec.ofNat 33 (s.reLow.toNat + bitLow s.reRange.toNat (s.pmRead x.1).toNat x.2) := by
      cases hx : x.2 <;> simp [bitCoded, bitLow, hx]
    rw [hlow, BitVec.toNat_ofNat]
    omega
  · have hrange : (bitCoded x s).reRange = BitVec.ofNat 32 (bitWidth s.reRange.toNat (s.pmRead x.1).toNat x.2) := rfl
    rw [hrange, BitVec.toNat_ofNat]
    omega

/-! ### A direct bit (R133, R155) -/

/-- Where the part of a direct bit begins. -/
def halfLow (range : Nat) (b : Bool) : Nat := if b then range / 2 else 0

theorem halfLow_fits (range : Nat) (b : Bool) : halfLow range b + range / 2 ≤ range := by
  cases b <;> simp only [halfLow, Bool.false_eq_true, if_true, if_false] <;> omega

theorem halfCoded_narrows (b : Bool) (h : Codes pre s) : Narrows s (halfCoded b s) (halfLow s.reRange.toNat b) (s.reRange.toNat / 2) := by
  have hbelow := h.emits.below
  have hlt := s.reRange.isLt
  have hwide := h.wide
  have hfits := halfLow_fits s.reRange.toNat b
  refine ⟨?_, ?_, hfits, by omega, rfl⟩
  · have hlow : (halfCoded b s).reLow = BitVec.ofNat 33 (s.reLow.toNat + halfLow s.reRange.toNat b) := by
      cases b <;> simp [halfCoded, halfLow]
    rw [hlow, BitVec.toNat_ofNat]
    omega
  · rw [halfCoded, BitVec.toNat_ofNat]
    omega

end

/-! ## The decoder finds it -/

/-- The decoder of d follows the interval I on this stream: it has taken as many bytes as I's numbers have, RD_CODE is what they
are above I's low end, and RD_RANGE is I's width (R137). -/
structure Follows (bytes : List Byte) (rest : List InAnswer) (d : State) (I : Interval) : Prop where
  width : d.rdRange.toNat = I.width
  code : d.rdCode.toNat + I.low = bytesValue (bytes.take (I.shifts + 5))
  input : d.input.answers = (bytes.drop (I.shifts + 5)).map .byte ++ rest

section

variable {d u v : State} {I : Interval} {bytes : List Byte} {rest : List InAnswer} {lo w : Nat}

theorem Follows.congr (h : Follows bytes rest d I) (hu : u.decoderSide = d.decoderSide) : Follows bytes rest u I := by
  simp only [State.decoderSide, Prod.mk.injEq] at hu
  obtain ⟨hrange, hcode, hinput⟩ := hu
  exact ⟨hrange ▸ h.width, hcode ▸ h.code, hinput ▸ h.input⟩

/-- Where the stream lies in a part of the interval, so does RD_CODE. -/
theorem Follows.code_mem (h : Follows bytes rest d I) (hl : (I.part lo w).leadsTo bytes) :
    lo ≤ d.rdCode.toNat ∧ d.rdCode.toNat < lo + w := by
  have hcode := h.code
  obtain ⟨hlow, hhigh⟩ := hl.prefix_mem
  simp only [Interval.part] at hlow hhigh
  omega

/-- RD_CODE is below RD_RANGE (R137). -/
theorem Follows.code_lt (h : Follows bytes rest d I) (hl : I.leadsTo bytes) : d.rdCode.toNat < d.rdRange.toNat := by
  have hcode := h.code
  have hhigh := hl.prefix_mem.2
  rw [h.width]
  omega

/-- Taking the part in which RD_CODE lies keeps the decoder on the stream. -/
theorem Follows.taken (h : Follows bytes rest d I) (hlo : lo ≤ d.rdCode.toNat) (hrange : v.rdRange.toNat = w)
    (hcode : v.rdCode.toNat = d.rdCode.toNat - lo) (hinput : v.input = d.input) : Follows bytes rest v (I.part lo w) := by
  refine ⟨hrange, ?_, hinput ▸ h.input⟩
  have := h.code
  simp only [Interval.part]
  omega

/-- The decoder asks for a byte exactly where the interval gets one, and the stream has it (R131). -/
theorem Follows.normalised (h : Follows bytes rest d I) (hw : 2 ^ 16 ≤ I.width) (hl : I.renormalised.leadsTo bytes) :
    ∃ u, decNormalize d = .ok () u ∧ Follows bytes rest u I.renormalised := by
  by_cases hn : I.width < 2 ^ 24
  · have hlt := h.code_lt (I.contains_renormalised.leadsTo hl)
    have hwidth := h.width
    rw [Interval.renormalised, if_pos hn] at hl ⊢
    have hlen : I.shifts + 5 < bytes.length := by
      obtain ⟨k, hk, -⟩ := hl
      simp only at hk
      omega
    have hdrop : bytes.drop (I.shifts + 5) = bytes[I.shifts + 5] :: bytes.drop (I.shifts + 5 + 1) := List.drop_eq_getElem_cons hlen
    have htake : bytes.take (I.shifts + 5 + 1) = bytes.take (I.shifts + 5) ++ [bytes[I.shifts + 5]] :=
      (List.take_append_getElem hlen).symm
    have hb := bytes[I.shifts + 5].isLt
    have hinput := h.input
    rw [hdrop, List.map_cons, List.cons_append] at hinput
    refine ⟨_, decNormalize_byte (by omega) (by omega) hinput, ?_, ?_, ?_⟩
    · rw [BitVec.toNat_shiftLeft, Nat.shiftLeft_eq, hwidth]
      simp only
      omega
    · have hcode := h.code
      simp only [Nat.add_right_comm I.shifts 1 5, htake, bytesValue_concat, shiftIn_eq, BitVec.toNat_ofNat]
      omega
    · simp only [Nat.add_right_comm I.shifts 1 5]
  · rw [Interval.renormalised, if_neg hn] at hl ⊢
    exact ⟨d, decNormalize_of_le (h.width ▸ Nat.le_of_not_lt hn), h⟩

end

/-! ### The decision of a bit, in the terms of its part -/

section

variable {range p code : Nat} {b : Bool}

/-- RD_CODE lies in the part of the bit that is found (R132). -/
theorem bit_of_mem (hlo : bitLow range p b ≤ code) (hhi : code < bitLow range p b + bitWidth range p b) :
    decide (boundOf range p ≤ code) = b := by
  cases b <;> simp only [bitLow, bitWidth, Bool.false_eq_true, if_true, if_false] at hlo hhi
  · exact decide_eq_false (by omega)
  · exact decide_eq_true hlo

/-- RD_CODE lies in the part of the direct bit that is found (R133). -/
theorem half_of_mem (hr : range < 2 ^ 32) (hlo : halfLow range b ≤ code) (hhi : code < halfLow range b + range / 2) :
    decide ((code + 2 ^ 32 - range / 2) % 2 ^ 32 < 2 ^ 31) = b := by
  cases b <;> simp only [halfLow, Bool.false_eq_true, if_true, if_false] at hlo hhi
  · exact decide_eq_false (by omega)
  · exact decide_eq_true (by omega)

variable {d : State} {x : Decision}

theorem bitTaken_rdRange (hp : (d.pmRead x.1).toNat ≤ 2048) :
    (bitTaken x d).rdRange.toNat = bitWidth d.rdRange.toNat (d.pmRead x.1).toNat x.2 := by
  have hlt := d.rdRange.isLt
  have hb := boundOf_le (range := d.rdRange.toNat) hp
  simp only [bitTaken, bitWidth, BitVec.toNat_ofNat]
  split <;> omega

theorem bitTaken_rdCode (x : Decision) (d : State) :
    (bitTaken x d).rdCode.toNat = d.rdCode.toNat - bitLow d.rdRange.toNat (d.pmRead x.1).toNat x.2 := by
  have hlt := d.rdCode.isLt
  simp only [bitTaken, bitLow, BitVec.toNat_ofNat]
  split <;> omega

theorem halfTaken_rdRange (b : Bool) (d : State) : (halfTaken b d).rdRange.toNat = d.rdRange.toNat / 2 := by
  have hlt := d.rdRange.isLt
  simp only [halfTaken, BitVec.toNat_ofNat]
  omega

theorem halfTaken_rdCode (h : halfLow d.rdRange.toNat b ≤ d.rdCode.toNat) :
    (halfTaken b d).rdCode.toNat = d.rdCode.toNat - halfLow d.rdRange.toNat b := by
  have hlt := d.rdCode.isLt
  simp only [halfLow] at h
  simp only [halfTaken, halfLow, BitVec.toNat_ofNat]
  cases b <;> simp only [Bool.false_eq_true, if_true, if_false] at h ⊢ <;> omega

end

/-! ## In step -/

section

variable {e d : State} {pre : List OutEvent} {bytes : List Byte} {rest : List InAnswer}

/-- DecodeBit finds the bit that EncodeBit coded, where its cell is as it was for the encoder (R137). -/
theorem decodeBit_follows {x : Decision} (h : Codes pre e) (hs : (e.interval pre).shifts + 2 < 2 ^ 64) (hc : e.modelCell x.1)
    (hpm : d.pm = e.pm) (hf : Follows bytes rest d (e.interval pre)) (hl : ((e.encodedBit x).interval pre).leadsTo bytes) :
    ∃ u, decodeBit x.1 d = .ok x.2 u ∧ Follows bytes rest u ((e.encodedBit x).interval pre) ∧ u.pm = (e.encodedBit x).pm := by
  have hp : d.pmRead x.1 = e.pmRead x.1 := by simp only [State.pmRead, hpm]
  have hrange : d.rdRange.toNat = e.reRange.toNat := hf.width
  have hnarrow := bitCoded_narrows h hc
  have hinterval : (e.encodedBit x).interval pre = _ := (h.narrowed hnarrow hs).2
  rw [← hrange, ← hp] at hnarrow hinterval
  rw [hinterval] at hl ⊢
  obtain ⟨hlo, hhi⟩ := hf.code_mem ((Interval.contains_renormalised _).leadsTo hl)
  obtain ⟨hfound, htaken⟩ := decodeSplit_taken (ea := x.1) (s := d) (hp ▸ hc.2.2.2)
  have hbit : (decodeSplit x.1 d).1 = x.2 := hfound.trans (bit_of_mem hlo hhi)
  rw [hbit] at htaken
  have hrange' := bitTaken_rdRange (d := d) (x := x) (hp ▸ hc.2.2.2.trans (by decide))
  obtain ⟨u, hok, hu⟩ := (hf.taken hlo hrange' (bitTaken_rdCode x d) rfl).normalised hnarrow.wide hl
  refine ⟨u, by rw [decodeBit, htaken, hok, hbit]; rfl, hu, ?_⟩
  have hframe := (decNormalize_frame (bitTaken x d)).2
  rw [hok] at hframe
  exact hframe.trans (by rw [State.encodedBit, (renormalised_frame _).2, bitTaken, bitCoded, hp, hpm])

/-- A direct bit is found as it was coded (R137). -/
theorem directBit_follows (b : Bool) (h : Codes pre e) (hs : (e.interval pre).shifts + 2 < 2 ^ 64)
    (hf : Follows bytes rest d (e.interval pre)) (hl : ((e.encodedHalf b).interval pre).leadsTo bytes) :
    1#32 - (directSplit d).1 = BitVec.ofNat 32 b.toNat ∧
      ∃ u, decNormalize (directSplit d).2 = .ok () u ∧ Follows bytes rest u ((e.encodedHalf b).interval pre) := by
  have hrange : d.rdRange.toNat = e.reRange.toNat := hf.width
  have hnarrow := halfCoded_narrows b h
  have hinterval : (e.encodedHalf b).interval pre = _ := (h.narrowed hnarrow hs).2
  rw [← hrange] at hnarrow hinterval
  rw [hinterval] at hl ⊢
  obtain ⟨hlo, hhi⟩ := hf.code_mem ((Interval.contains_renormalised _).leadsTo hl)
  obtain ⟨bit, hvalue, hfound, htaken⟩ := directSplit_taken d
  obtain rfl : bit = b := hfound.trans (half_of_mem d.rdRange.isLt hlo hhi)
  rw [htaken]
  exact ⟨hvalue, (hf.taken hlo (halfTaken_rdRange bit d) (halfTaken_rdCode hlo) rfl).normalised hnarrow.wide hl⟩

end

end Sys2Proof.Machine
end

section
/-!
SUPPORT. One command of a stream on both sides (41_range_decoder R137): every RE_ command that codes encodes a list of decisions or
of direct bits, and the matching RD_ command, told nothing of the value, finds the same list and so the value.
-/

namespace Sys2Proof.Machine

/-! ## Lists of decisions and of direct bits -/

/-- All that an encoder's interval and stream depend on. -/
def State.coderSide (s : State) := (s.streamSide, s.reRange, s.reLow)

section

variable {s t e d : State} {pre : List OutEvent} {bytes : List Byte} {rest : List InAnswer}

theorem interval_congr (h : t.coderSide = s.coderSide) : t.interval pre = s.interval pre := by
  simp only [State.coderSide, State.streamSide, Prod.mk.injEq] at h
  obtain ⟨⟨-, hout, -, hcache, hsize⟩, hrange, hlow⟩ := h
  simp only [State.interval, State.sent, State.queued, hout, hcache, hsize, hrange, hlow]

theorem Codes.congr (hs : Codes pre s) (h : t.coderSide = s.coderSide) : Codes pre t := by
  simp only [State.coderSide, Prod.mk.injEq] at h
  obtain ⟨hside, hrange, hlow⟩ := h
  exact ⟨hs.emits.narrowed (lo := 0) (by rw [hlow]; rfl) (by rw [hrange]; omega) hside, hrange ▸ hs.wide⟩

theorem Advances.congr {n : Nat} {s' t' : State} (h : Advances pre n s t) (hs : s'.coderSide = s.coderSide)
    (ht : t'.coderSide = t.coderSide) : Advances pre n s' t' :=
  ⟨h.codes.congr ht, by rw [interval_congr hs, interval_congr ht]; exact h.within,
    by rw [interval_congr hs, interval_congr ht]; exact h.shifts⟩

/-- Coding with a cell keeps every cell one that can be coded with. -/
theorem encodedAs_modelCell {code : List Decision} {ea : Word} (hc : s.readable (codeCells code)) (h : s.modelCell ea) :
    (s.encodedAs code).modelCell ea := by
  induction code generalizing s with
  | nil => exact h
  | cons x code ih =>
    have hx := hc x.1 List.mem_cons_self
    exact ih (fun ea' h' => encodedBit_modelCell hx (hc ea' (List.mem_cons_of_mem _ h'))) (encodedBit_modelCell hx h)

/-- A list of decisions runs at most one ShiftLow each (R153). -/
theorem encodedAs_advances (code : List Decision) (h : Codes pre e) (hc : e.readable (codeCells code))
    (hs : (e.interval pre).shifts + code.length + 1 < 2 ^ 64) : Advances pre code.length e (e.encodedAs code) := by
  induction code generalizing e with
  | nil => exact Advances.refl h
  | cons x code ih =>
    rw [List.length_cons] at hs ⊢
    have hx := hc x.1 List.mem_cons_self
    have hbit : Advances pre 1 e (e.encodedBit x) := h.advances (bitCoded_narrows h hx) (by omega)
    rw [Nat.add_comm]
    exact hbit.trans (ih hbit.codes (fun ea h' => encodedBit_modelCell hx (hc ea (List.mem_cons_of_mem _ h')))
      (by have := hbit.shifts; omega))

/-- A list of direct bits runs at most one ShiftLow each (R153). -/
theorem encodedHalves_advances (bits : List Bool) (h : Codes pre e) (hs : (e.interval pre).shifts + bits.length + 1 < 2 ^ 64) :
    Advances pre bits.length e (bits.foldl State.encodedHalf e) := by
  induction bits generalizing e with
  | nil => exact Advances.refl h
  | cons b bits ih =>
    rw [List.length_cons] at hs ⊢
    have hbit : Advances pre 1 e (e.encodedHalf b) := h.advances (halfCoded_narrows b h) (by omega)
    rw [Nat.add_comm]
    exact hbit.trans (ih hbit.codes (by have := hbit.shifts; omega))

/-- A walk takes the way whose decisions were encoded, and stays in step (R137). -/
theorem Walk.run_follows {w : Walk} {code : List Decision} {v : Nat} (hw : w.path code v) (h : Codes pre e)
    (hc : e.readable (codeCells code)) (hs : (e.interval pre).shifts + code.length + 1 < 2 ^ 64) (hpm : d.pm = e.pm)
    (hf : Follows bytes rest d (e.interval pre)) (hl : ((e.encodedAs code).interval pre).leadsTo bytes) :
    ∃ u, w.run d = .ok v u ∧ Follows bytes rest u ((e.encodedAs code).interval pre) ∧ u.pm = (e.encodedAs code).pm := by
  induction w generalizing code e d with
  | done v' =>
    obtain ⟨rfl, rfl⟩ := hw
    exact ⟨d, rfl, hf, hpm⟩
  | ask ea next ih =>
    obtain ⟨b, code, rfl, hw⟩ := hw
    rw [List.length_cons] at hs
    have hx := hc ea List.mem_cons_self
    have hbit : Advances pre 1 e (e.encodedBit (ea, b)) := h.advances (bitCoded_narrows (x := (ea, b)) h hx) (by omega)
    have hc' : (e.encodedBit (ea, b)).readable (codeCells code) := fun ea' h' =>
      encodedBit_modelCell (x := (ea, b)) hx (hc ea' (List.mem_cons_of_mem _ h'))
    have hs' : ((e.encodedBit (ea, b)).interval pre).shifts + code.length + 1 < 2 ^ 64 := by have := hbit.shifts; omega
    have hlead := (encodedAs_advances code hbit.codes hc' hs').within.leadsTo hl
    obtain ⟨u, hok, hu, hupm⟩ := decodeBit_follows (x := (ea, b)) h (by omega) hx hpm hf hlead
    obtain ⟨t, hrun, ht⟩ := ih b hw hbit.codes hc' hs' hupm hu hl
    exact ⟨t, by rw [Walk.run, hok]; exact hrun, ht⟩

/-- Direct bits are found as they were coded (R137). -/
theorem decodeDirect_follows (v : Word) (n acc : Nat) (h : Codes pre e) (hs : (e.interval pre).shifts + n + 1 < 2 ^ 64)
    (hf : Follows bytes rest d (e.interval pre)) (hl : (((topBits v n).foldl State.encodedHalf e).interval pre).leadsTo bytes) :
    ∃ u, decodeDirect n (BitVec.ofNat 32 acc) d = .ok (BitVec.ofNat 32 (acc * 2 ^ n + v.toNat % 2 ^ n)) u ∧
      Follows bytes rest u (((topBits v n).foldl State.encodedHalf e).interval pre) := by
  induction n generalizing acc e d with
  | zero => exact ⟨d, by simp [decodeDirect, Nat.mod_one], hf⟩
  | succ n ih =>
    have hlen : (topBits v n).length = n := by rw [topBits, List.length_map, List.length_range]
    rw [topBits_succ, List.foldl_cons] at hl ⊢
    have hbit : Advances pre 1 e (e.encodedHalf (v.toNat.testBit n)) := h.advances (halfCoded_narrows _ h) (by omega)
    have hs' : ((e.encodedHalf (v.toNat.testBit n)).interval pre).shifts + n + 1 < 2 ^ 64 := by have := hbit.shifts; omega
    have hlead := (encodedHalves_advances (topBits v n) hbit.codes (by rw [hlen]; exact hs')).within.leadsTo hl
    obtain ⟨hvalue, u, hok, hu⟩ := directBit_follows _ h (by omega) hf hlead
    obtain ⟨t, hrest, ht⟩ := ih (2 * acc + (v.toNat.testBit n).toNat) hbit.codes hs' hu hl
    refine ⟨t, ?_, ht⟩
    rw [decodeDirect, hok, Act.bind_ok, direct_push hvalue, hrest, mod_two_pow_succ', Nat.pow_succ]
    congr 2
    ring

end

/-! ## The way through a walk that a symbol's code is -/

/-- A forward tree's way to a symbol (R182, R184). -/
theorem walkTree_code (base : Word) (sym d m : Nat) :
    (walkTree base d m).path (treeCodeFrom base sym d m) (m * 2 ^ d + sym % 2 ^ d) := by
  induction d generalizing m with
  | zero => exact ⟨rfl, by rw [Nat.pow_zero, Nat.mod_one, Nat.mul_one]; rfl⟩
  | succ d ih =>
    refine ⟨sym.testBit d, _, rfl, ?_⟩
    have hvalue : m * 2 ^ (d + 1) + sym % 2 ^ (d + 1) = child m (sym.testBit d) * 2 ^ d + sym % 2 ^ d := by
      rw [mod_two_pow_succ', child, Nat.pow_succ]
      ring
    exact hvalue ▸ ih _

theorem walkTree_treeCode (base : Word) (d sym : Nat) :
    (walkTree base d 1).path (treeCode base d sym) (2 ^ d + sym % 2 ^ d) := by
  have h := walkTree_code base sym d 1
  rwa [← treeCode_eq, Nat.one_mul] at h

/-- The same less the root, as RD_TREE has it. -/
theorem treeDecode_treeCode (base : Word) (d sym : Nat) :
    ((walkTree base d 1).map (· - 2 ^ d)).path (treeCode base d sym) (sym % 2 ^ d) :=
  (Walk.path_map _).mpr ⟨_, walkTree_treeCode base d sym, (Nat.add_sub_cancel_left ..).symm⟩

/-- A tree's way moved up by k, as the tiers of a length symbol have it (R202). -/
theorem treeDecode_treeCode_shift (base : Word) {d sym k : Nat} (hk : k ≤ sym) (hs : sym - k < 2 ^ d) :
    (((walkTree base d 1).map (· - 2 ^ d)).map (k + ·)).path (treeCode base d (sym - k)) sym :=
  (Walk.path_map _).mpr ⟨_, treeDecode_treeCode base d (sym - k), by rw [Nat.mod_eq_of_lt hs]; omega⟩

/-- A reverse tree's way to a symbol (R183, R185). -/
theorem walkTreeRev_code (base : Word) (sym d i m : Nat) :
    (walkTreeRev base d i m (sym % 2 ^ i)).path (treeCodeRevFrom base sym d i m) (sym % 2 ^ (i + d)) := by
  induction d generalizing i m with
  | zero => exact ⟨rfl, rfl⟩
  | succ d ih =>
    have hbit : sym % 2 ^ i ||| (sym.testBit i).toNat <<< i = sym % 2 ^ (i + 1) := by
      rw [mod_two_pow_succ', Nat.shiftLeft_eq, Nat.or_comm, Nat.mul_comm,
        ← Nat.two_pow_add_eq_or_of_lt (Nat.mod_lt _ (Nat.two_pow_pos i))]
    refine ⟨sym.testBit i, _, rfl, ?_⟩
    beta_reduce
    rw [hbit, show i + (d + 1) = i + 1 + d by omega]
    exact ih (i + 1) _

theorem walkTreeRev_treeCodeRev (base : Word) (d sym : Nat) :
    (walkTreeRev base d 0 1 0).path (treeCodeRev base d sym) (sym % 2 ^ d) := by
  have h := walkTreeRev_code base sym d 0 1
  rwa [Nat.pow_zero, Nat.mod_one, Nat.zero_add, ← treeCodeRev_eq] at h

/-- The length decoder's way to a symbol (R202, R204, R205). -/
theorem walkLen_lenCode (base : Word) (ps : Nat) {sym : Nat} (h : sym ≤ 271) : (walkLen base ps).path (lenCode base ps sym) sym := by
  unfold lenCode
  split
  · have hlow := treeDecode_treeCode (lowTree base ps) 3 sym
    rw [Nat.mod_eq_of_lt (by omega)] at hlow
    exact ⟨false, _, rfl, hlow⟩
  · split
    · exact ⟨true, _, rfl, false, _, rfl, treeDecode_treeCode_shift (midTree base ps) (by omega) (by omega)⟩
    · exact ⟨true, _, rfl, true, _, rfl, treeDecode_treeCode_shift (highTree base) (by omega) (by omega)⟩

/-- The low 8 bits of the node that a byte's walk reaches are the byte (R232). -/
theorem literal_of_node {byte : Nat} (h : byte < 256) : byte = (2 ^ 8 + byte % 2 ^ 8) &&& 0xFF := by
  rw [show (0xFF : Nat) = 2 ^ 8 - 1 from rfl, Nat.and_two_pow_sub_one_eq_mod]
  omega

theorem walkLit_litCode (sub : Word) {byte : Nat} (h : byte < 256) :
    ((walkTree sub 8 1).map (· &&& 0xFF)).path (litCode sub byte) byte :=
  (Walk.path_map _).mpr ⟨_, walkTree_treeCode sub 8 byte, literal_of_node h⟩

/-- The matched decoder's way to a byte, d bits before its end (R234, R235). -/
theorem walkMatched_code (sub : Word) (mb : Byte) (byte m : Nat) {d : Nat} (hd : d ≤ 8) :
    (walkMatched sub d (mb <<< (8 - d)) m).path (matchedCodeFrom sub mb.toNat byte d m true) (m * 2 ^ d + byte % 2 ^ d) := by
  induction d generalizing m with
  | zero => exact ⟨rfl, by rw [Nat.pow_zero, Nat.mod_one, Nat.mul_one]; rfl⟩
  | succ d ih =>
    have hbit : (mb <<< (8 - (d + 1))).getLsbD 7 = mb.toNat.testBit d := by
      rw [BitVec.getLsbD_shiftLeft, BitVec.testBit_toNat, show 7 - (8 - (d + 1)) = d by omega]
      simp
    have hshift : mb <<< (8 - (d + 1)) <<< 1 = mb <<< (8 - d) := by
      rw [← BitVec.shiftLeft_add]
      congr 1
      omega
    have hvalue : m * 2 ^ (d + 1) + byte % 2 ^ (d + 1) = child m (byte.testBit d) * 2 ^ d + byte % 2 ^ d := by
      rw [mod_two_pow_succ', child, Nat.pow_succ]
      ring
    rw [walkMatched, matchedCodeFrom, hbit, hshift, hvalue]
    refine ⟨byte.testBit d, _, rfl, ?_⟩
    beta_reduce
    by_cases he : byte.testBit d = mb.toNat.testBit d
    · rw [if_pos he, he, beq_self_eq_true]
      exact he ▸ ih _ (by omega)
    · rw [if_neg he, Bool.true_and, beq_false_of_ne (Ne.symm he), matchedCodeFrom_plain]
      exact walkTree_code sub byte d _

theorem walkLitm_matchedCode (sub : Word) (mb : Byte) {byte : Nat} (h : byte < 256) :
    ((walkMatched sub 8 mb 1).map (· &&& 0xFF)).path (matchedCode sub mb.toNat byte) byte := by
  have hw := walkMatched_code sub mb byte 1 (d := 8) (le_refl 8)
  rw [Nat.sub_self, BitVec.shiftLeft_zero, Nat.one_mul, ← matchedCode_eq sub mb.isLt h] at hw
  exact (Walk.path_map _).mpr ⟨_, hw, literal_of_node h⟩

end Sys2Proof.Machine
end

section
/-!
SUPPORT. The round trip (41_range_decoder R137, 42_range_encoder R159): each command of a stream keeps the two blocks in step, from
RE_INIT and RD_INIT on, and RE_FLUSH sends the number that the stream stands for.
-/

namespace Sys2Proof.Machine

/-! ## The commands of a stream -/

/-- The RE_ command. -/
def Coded.encodeCmd : Coded → Instr
  | .bit _ _ => .reBit
  | .direct n _ => .reDirect n
  | .tree _ n _ => .reTree n
  | .treeRev _ n _ => .reRtree n
  | .len ps l _ => .reLen ps l
  | .lit _ _ _ => .reLit
  | .litMatched _ _ _ _ => .reLitm

/-- The block with the operands of the RE_ command written. -/
def Coded.encodeOperands (s : State) : Coded → State
  | .bit ea b => { s with a := ea, b := 0#32, c := bitWord b }
  | .direct _ v => { s with b := v }
  | .tree base _ sym => { s with a := base, b := sym }
  | .treeRev base _ sym => { s with a := base, b := sym }
  | .len _ _ sym => { s with b := sym }
  | .lit pos prev byte => { s with b := pos, c := BitVec.ofNat 32 (2 ^ 16 * byte.toNat + prev.toNat) }
  | .litMatched pos prev mb byte =>
    { s with b := pos, c := BitVec.ofNat 32 (2 ^ 16 * byte.toNat + 2 ^ 8 * mb.toNat + prev.toNat) }

/-- The RD_ command. -/
def Coded.decodeCmd : Coded → Instr
  | .bit _ _ => .rdBit
  | .direct n _ => .rdDirect n
  | .tree _ n _ => .rdTree n
  | .treeRev _ n _ => .rdRtree n
  | .len ps l _ => .rdLen ps l
  | .lit _ _ _ => .rdLit
  | .litMatched _ _ _ _ => .rdLitm

/-- The block with the operands of the RD_ command written. -/
def Coded.decodeOperands (s : State) : Coded → State
  | .bit ea _ => { s with a := ea, b := 0#32 }
  | .direct _ _ => s
  | .tree base _ _ => { s with a := base }
  | .treeRev base _ _ => { s with a := base }
  | .len _ _ _ => s
  | .lit pos prev _ => { s with b := pos, c := BitVec.ofNat 32 prev.toNat }
  | .litMatched pos prev mb _ => { s with b := pos, c := BitVec.ofNat 32 (2 ^ 8 * mb.toNat + prev.toNat) }

/-- The literal sub-coder at a position after a previous byte (R230). -/
def State.literalAt (s : State) (pos : Word) (prev : Byte) : Word := { s with b := pos, c := BitVec.ofNat 32 prev.toNat }.litCell

/-- The decisions that a command codes with model cells. -/
def Coded.decisions (s : State) : Coded → List Decision
  | .bit ea b => [(ea, b)]
  | .direct _ _ => []
  | .tree base n sym => treeCode base n.toNat sym.toNat
  | .treeRev base n sym => treeCodeRev base n.toNat sym.toNat
  | .len ps l sym => lenCode (s.lenBase l) ps.toNat sym.toNat
  | .lit pos prev byte => litCode (s.literalAt pos prev) byte.toNat
  | .litMatched pos prev mb byte => matchedCode (s.literalAt pos prev) mb.toNat byte.toNat

/-- The direct bits that a command codes. -/
def Coded.halves : Coded → List Bool
  | .direct n v => topBits v n.toNat
  | _ => []

/-- The block after the RE_ command's coding. -/
def Coded.encoded (s : State) (op : Coded) : State :=
  (op.halves.foldl State.encodedHalf (op.encodeOperands s)).encodedAs (op.decisions s)

/-- What a command needs and none of a stream writes: no fault and no request, the parameters, CFG and the model bases. -/
def State.setup (s : State) := (s.err, s.request, s.params, s.cfg, s.litBase, s.lenBase0, s.lenBase1)

section

variable {s t e d : State} {op : Coded}

theorem Coded.encode_eq (s : State) (op : Coded) : op.encode s = afterCommand op.encodeCmd (op.encodeOperands s) := by
  cases op <;> rfl

theorem Coded.decode_eq (s : State) (op : Coded) : op.decode s = afterCommand op.decodeCmd (op.decodeOperands s) := by
  cases op <;> rfl

theorem Coded.encodeOperands_frame (s : State) (op : Coded) :
    op.encodeOperands s = { s with a := (op.encodeOperands s).a, b := (op.encodeOperands s).b, c := (op.encodeOperands s).c } := by
  cases op <;> rfl

theorem Coded.decodeOperands_frame (s : State) (op : Coded) :
    op.decodeOperands s = { s with a := (op.decodeOperands s).a, b := (op.decodeOperands s).b, c := (op.decodeOperands s).c } := by
  cases op <;> rfl

theorem afterCommand_of_none {i : Instr} (h : execCheck s i = none) : afterCommand i s = (execBody s i).settle := by
  rw [afterCommand, exec_of_none h]

/-- Which cells can be coded with depends on PM and its size only. -/
theorem readable_of_memory {cells : List Word} (h : t.memory = s.memory) (hs : s.readable cells) : t.readable cells := by
  obtain ⟨hp, hm⟩ := Prod.mk.inj h
  exact fun ea hea => (modelsKept_of_pm hp hm).2.1 ea (hs ea hea)

/-- The literal sub-coder depends on LITBASE, CFG, B and C[7:0] only (R230). -/
theorem litSub_eq_literalAt {prev : Byte} (hlegal : s.legalLcLp) (hbase : t.litBase = s.litBase) (hcfg : t.cfg = s.cfg)
    (hc : t.c.toNat % 2 ^ 8 = prev.toNat) : t.litSub = s.literalAt t.b prev := by
  have hprev : (BitVec.ofNat 32 prev.toNat).toNat % 2 ^ 8 = prev.toNat := by
    have := prev.isLt
    rw [BitVec.toNat_ofNat]
    omega
  rw [litSub_eq (by rw [State.legalLcLp, hcfg]; exact hlegal)]
  simp only [State.literalAt, State.litCell, hbase, hcfg, hc, hprev]

theorem literalAt_congr (hbase : t.litBase = s.litBase) (hcfg : t.cfg = s.cfg) (pos : Word) (prev : Byte) :
    t.literalAt pos prev = s.literalAt pos prev := by
  simp only [State.literalAt, State.litCell, hbase, hcfg]

/-! ### Legality -/

theorem Coded.legal_of (hsetup : t.setup = s.setup) (hpv : ∀ l, t.pv l = s.pv l) (hcells : ∀ ea, s.modelCell ea → t.modelCell ea)
    (h : op.legal s) : op.legal t := by
  simp only [State.setup, Prod.mk.injEq] at hsetup
  obtain ⟨-, -, -, hcfg, hlit, hlen0, hlen1⟩ := hsetup
  have hread : ∀ cells, s.readable cells → t.readable cells := fun cells hs ea hea => hcells ea (hs ea hea)
  have hlen : ∀ l, t.lenBase l = s.lenBase l := fun l => by simp only [State.lenBase, hlen0, hlen1]
  cases op with
  | bit ea b => exact hread _ h
  | direct n v => exact h
  | tree base n sym | treeRev base n sym => exact ⟨h.1, hread _ h.2⟩
  | len ps l sym =>
    simp only [Coded.legal, State.legalPs, State.legalTableSize, hcfg, hpv, hlen] at h ⊢
    exact ⟨h.1, h.2.1, h.2.2.1, hread _ h.2.2.2⟩
  | lit pos prev byte =>
    have hcell := congrArg (fun sub => spanCells (plainSpan sub)) (literalAt_congr hlit hcfg pos prev)
    exact ⟨by rw [State.legalLcLp, hcfg]; exact h.1, hcell ▸ hread _ h.2⟩
  | litMatched pos prev mb byte =>
    have hcell := congrArg (fun sub => spanCells (matchedSpan sub)) (literalAt_congr hlit hcfg pos prev)
    exact ⟨by rw [State.legalLcLp, hcfg]; exact h.1, hcell ▸ hread _ h.2⟩

/-- A legal command codes with cells in [31, 2017]. -/
theorem Coded.legal.readable (h : op.legal s) : s.readable (codeCells (op.decisions s)) := by
  cases op with
  | bit ea b => exact h
  | direct n v => exact nofun
  | tree base n sym => exact fun ea hea => h.2 ea (treeCode_cells hea)
  | treeRev base n sym => exact fun ea hea => h.2 ea (treeCodeRev_cells hea)
  | len ps l sym => exact fun ea hea => h.2.2.2 ea (lenCode_cells hea)
  | lit pos prev byte => exact fun ea hea => h.2 ea (litCode_cells hea)
  | litMatched pos prev mb byte => exact fun ea hea => h.2 ea (matchedCode_cells hea)

/-- A legal command codes at most 32 bits (R341). -/
theorem Coded.legal.bits_le (h : op.legal s) : op.halves.length + (op.decisions s).length ≤ 32 := by
  cases op with
  | bit ea b => exact (by decide : 1 ≤ 32)
  | direct n v =>
    simp only [Coded.halves, Coded.decisions, topBits, List.length_map, List.length_range, List.length_nil]
    exact h
  | tree base n sym | treeRev base n sym =>
    have hn := h.1.2
    simp only [Coded.halves, Coded.decisions, treeCode_length, treeCodeRev_length, List.length_nil]
    omega
  | len ps l sym =>
    have hlen := lenCode_length (s.lenBase l) ps.toNat sym.toNat
    simp only [Coded.halves, Coded.decisions, List.length_nil]
    omega
  | lit pos prev byte | litMatched pos prev mb byte =>
    simp only [Coded.halves, Coded.decisions, litCode_length, matchedCode_length, List.length_nil]
    decide

end

/-! ## The encoder's command (R154, R155, R184, R185, R205, R233, R235) -/

section

variable {s e : State} {op : Coded}

/-- C of a literal's RE_ command holds the previous byte and the byte (R92). -/
theorem literalOperand_bytes (prev byte : Byte) :
    (BitVec.ofNat 32 (2 ^ 16 * byte.toNat + prev.toNat)).toNat % 2 ^ 8 = prev.toNat ∧
      (BitVec.ofNat 32 (2 ^ 16 * byte.toNat + prev.toNat)).toNat / 2 ^ 16 % 2 ^ 8 = byte.toNat := by
  have hprev := prev.isLt
  have hbyte := byte.isLt
  rw [BitVec.toNat_ofNat]
  omega

/-- C of a matched literal's RE_ command holds the previous byte, the match byte and the byte (R92). -/
theorem matchedOperand_bytes (prev mb byte : Byte) :
    (BitVec.ofNat 32 (2 ^ 16 * byte.toNat + 2 ^ 8 * mb.toNat + prev.toNat)).toNat % 2 ^ 8 = prev.toNat ∧
      (BitVec.ofNat 32 (2 ^ 16 * byte.toNat + 2 ^ 8 * mb.toNat + prev.toNat)).toNat / 2 ^ 8 % 2 ^ 8 = mb.toNat ∧
      (BitVec.ofNat 32 (2 ^ 16 * byte.toNat + 2 ^ 8 * mb.toNat + prev.toNat)).toNat / 2 ^ 16 % 2 ^ 8 = byte.toNat := by
  have hprev := prev.isLt
  have hmb := mb.isLt
  have hbyte := byte.isLt
  rw [BitVec.toNat_ofNat]
  omega

/-- The sub-coder of a literal's RE_ command. -/
theorem encodeOperands_lit_litSub (hlegal : e.legalLcLp) (pos : Word) (prev byte : Byte) :
    (Coded.encodeOperands e (.lit pos prev byte)).litSub = e.literalAt pos prev :=
  litSub_eq_literalAt hlegal rfl rfl (literalOperand_bytes prev byte).1

/-- The sub-coder of a matched literal's RE_ command. -/
theorem encodeOperands_litMatched_litSub (hlegal : e.legalLcLp) (pos : Word) (prev mb byte : Byte) :
    (Coded.encodeOperands e (.litMatched pos prev mb byte)).litSub = e.literalAt pos prev :=
  litSub_eq_literalAt hlegal rfl rfl (matchedOperand_bytes prev mb byte).1

/-- A legal RE_ command passes its checks. -/
theorem Coded.legal.encode_check (h : op.legal e) (hr : e.reReady = true) : execCheck (op.encodeOperands e) op.encodeCmd = none := by
  have ready : ∀ i, (op.encodeOperands e).reReadyFault i = none := fun i => by
    rw [reReadyFault_none, Coded.encodeOperands_frame]
    exact hr
  cases op with
  | bit ea b =>
    refine Option.or_eq_none_iff.mpr ⟨ready _, readFault_none_of_readable ?_⟩
    rw [spanCells_cellSpan, State.operandCell]
    exact (BitVec.add_zero ea).symm ▸ h
  | direct n v => exact ready _
  | tree base n sym | treeRev base n sym => exact Option.or_eq_none_iff.mpr ⟨ready _, readFault_none_of_readable h.2⟩
  | len ps l sym =>
    obtain ⟨hps, hsym, hsize, hcells⟩ := h
    simp only [Coded.encodeCmd, execCheck, Option.or_eq_none_iff]
    refine ⟨ready _, pbFault_none.mpr hps.1, ?_, psFault_none.mpr hps.2, operandFault_none.mpr (decide_eq_true hsym),
      readFault_none_of_readable hcells⟩
    split
    · exact tableSizeFault_none.mpr (hsize ‹_›)
    · rfl
  | lit pos prev byte =>
    refine Option.or_eq_none_iff.mpr ⟨ready _, Option.or_eq_none_iff.mpr ⟨lcLpFault_none.mpr h.1, readFault_none_of_readable ?_⟩⟩
    rw [encodeOperands_lit_litSub h.1]
    exact h.2
  | litMatched pos prev mb byte =>
    refine Option.or_eq_none_iff.mpr ⟨ready _, Option.or_eq_none_iff.mpr ⟨lcLpFault_none.mpr h.1, readFault_none_of_readable ?_⟩⟩
    rw [encodeOperands_litMatched_litSub h.1]
    exact h.2

theorem encodeAll_singleton (x : Decision) (s : State) : encodeAll [x] s = encodeBit x.1 x.2 s := by
  rw [encodeAll_cons]
  cases encodeBit x.1 x.2 s <;> rfl

/-- What a legal RE_ command codes: direct bits, or its decisions. -/
theorem Coded.legal.encodePart_cases (h : op.legal e) :
    (∃ n v, op = .direct n v) ∨
      (op.halves = [] ∧ encodePart (op.encodeOperands e) op.encodeCmd = encodeAll (op.decisions e) (op.encodeOperands e)) := by
  cases op with
  | direct n v => exact .inl ⟨n, v, rfl⟩
  | bit ea b =>
    have hbit : (bitWord b).getLsbD 0 = b := by cases b <;> rfl
    refine .inr ⟨rfl, ?_⟩
    rw [Coded.decisions, encodeAll_singleton]
    simp only [encodePart, Coded.encodeCmd, execBody, Coded.encodeOperands, State.operandCell, State.operandBit, hbit, BitVec.add_zero]
  | tree base n sym => exact .inr ⟨rfl, treeEncode_eq ..⟩
  | treeRev base n sym => exact .inr ⟨rfl, treeEncodeRev_eq ..⟩
  | len ps l sym => exact .inr ⟨rfl, lenEncode_eq ..⟩
  | lit pos prev byte =>
    refine .inr ⟨rfl, (litEncode_eq ..).trans ?_⟩
    rw [encodeOperands_lit_litSub h.1, literal_toNat]
    exact congrArg (fun v => encodeAll (litCode _ v) _) (literalOperand_bytes prev byte).2
  | litMatched pos prev mb byte =>
    refine .inr ⟨rfl, (litEncodeMatched_eq ..).trans ?_⟩
    rw [encodeOperands_litMatched_litSub h.1, literal_toNat, matchByte_toNat]
    exact congrArg₂ (fun u v => encodeAll (matchedCode _ u v) _) (matchedOperand_bytes prev mb byte).2.1
      (matchedOperand_bytes prev mb byte).2.2

/-- A legal RE_ command codes its bits, where the sink accepts them. -/
theorem Coded.legal.encodePart_eq (h : op.legal e) (hsink : e.sinkAccepts) :
    encodePart (op.encodeOperands e) op.encodeCmd = .ok () (op.encoded e) := by
  have hsink' : (op.encodeOperands e).sinkAccepts := by rw [op.encodeOperands_frame]; exact hsink
  rcases h.encodePart_cases with ⟨n, v, rfl⟩ | ⟨hnone, hpart⟩
  · exact encodeDirect_ok v n.toNat (codingAccepted_of_sinkAccepts (coded := halfCoded) (fun _ _ => rfl) _ hsink')
  · have hmem : (op.encodeOperands e).memory = e.memory := by rw [op.encodeOperands_frame]; rfl
    rw [hpart, encodeAll_ok (codingAccepted_of_sinkAccepts (coded := bitCoded) (fun _ _ => rfl) _ hsink') (readable_of_memory hmem h.readable),
      Coded.encoded, hnone]
    rfl

theorem Coded.needsEncoder_encodeCmd (op : Coded) : needsEncoder op.encodeCmd = true := by cases op <;> rfl

/-- An RE_ command leaves what its coding does, and RE_LEN may also count a price table. -/
theorem afterCommand_encoder {i : Instr} {u : State} (hi : needsEncoder i = true) (hc : execCheck s i = none)
    (hp : encodePart s i = .ok () u) : ∃ prices counts, afterCommand i s = { u with lenPrice := prices, lenCnt := counts } := by
  rw [afterCommand_of_none hc]
  rcases execBody_encoder (s := s) hi with hb | ⟨ps, l, -, hb⟩
  · exact ⟨u.lenPrice, u.lenCnt, by rw [hb, hp]; rfl⟩
  · rw [hb, hp, Act.bind_ok, Act.settle_ok]
    split
    · exact ⟨_, _, (countAndRefill_frame u l ps.toNat).1⟩
    · exact ⟨u.lenPrice, u.lenCnt, rfl⟩

theorem Coded.legal.encode_eq (h : op.legal e) (hr : e.reReady = true) (hsink : e.sinkAccepts) :
    ∃ prices counts, op.encode e = { op.encoded e with lenPrice := prices, lenCnt := counts } := by
  rw [Coded.encode_eq]
  exact afterCommand_encoder op.needsEncoder_encodeCmd (h.encode_check hr) (h.encodePart_eq hsink)

/-- What a coding leaves of the encoder's block beside the cells. -/
def State.encoderSetup (s : State) := (s.setup, s.pv0, s.pv1, s.reReady)

theorem Coded.encodeOperands_coderSide (e : State) (op : Coded) : (op.encodeOperands e).coderSide = e.coderSide := by
  cases op <;> rfl

theorem Coded.encodedHalves_memory (e : State) (op : Coded) :
    (op.halves.foldl State.encodedHalf (op.encodeOperands e)).memory = e.memory := by
  have hf := encodedHalves_frame op.halves (op.encodeOperands e)
  rw [State.memory, hf.2, hf.1]
  cases op <;> rfl

theorem Coded.encoded_setup (e : State) (op : Coded) : (op.encoded e).encoderSetup = e.encoderSetup := by
  have hframe : encoderOnly (op.encodeOperands e) (op.encoded e) := (encodedHalves_frame _ _).1.trans (encodedAs_frame _ _).1
  refine (congrArg State.encoderSetup hframe :).trans ?_
  cases op <;> rfl

theorem Coded.legal.encoded_modelCell {ea : Word} (hl : op.legal e) (h : e.modelCell ea) : (op.encoded e).modelCell ea := by
  have hread : ∀ cells, e.readable cells → (op.halves.foldl State.encodedHalf (op.encodeOperands e)).readable cells :=
    fun _ => readable_of_memory (op.encodedHalves_memory e)
  exact encodedAs_modelCell (hread _ hl.readable) (hread [ea] (fun x hx => List.mem_singleton.mp hx ▸ h) ea (List.mem_singleton_self ea))

/-- A command's coding stays within the encoder's interval. -/
theorem Codes.encoded_advances {pre : List OutEvent} (h : Codes pre e) (hl : op.legal e)
    (hs : (e.interval pre).shifts + 33 < 2 ^ 64) : Advances pre 32 e (op.encoded e) := by
  have hbits := hl.bits_le
  have hside := op.encodeOperands_coderSide e
  have hhalves := encodedHalves_advances op.halves (h.congr hside) (by rw [interval_congr hside]; omega)
  have hshifts := hhalves.shifts
  rw [interval_congr hside] at hshifts
  have hdecisions := encodedAs_advances (op.decisions e) hhalves.codes
    (readable_of_memory (op.encodedHalves_memory e) hl.readable) (by omega)
  exact ((hhalves.trans hdecisions).congr hside.symm rfl).mono hbits

/-- The encoder between two commands of a stream that began in s. -/
structure Encoding (pre : List OutEvent) (s e : State) : Prop where
  setup : e.encoderSetup = (s.setup, s.pv0, s.pv1, true)
  cells : ∀ ea, s.modelCell ea → e.modelCell ea
  codes : Codes pre e

variable {pre : List OutEvent}

theorem Encoding.legal (h : Encoding pre s e) (hl : op.legal s) : op.legal e := by
  obtain ⟨hsetup, h0, h1, -⟩ := by simpa only [State.encoderSetup, Prod.mk.injEq] using h.setup
  exact Coded.legal_of hsetup (fun l => by simp only [State.pv, h0, h1]) h.cells hl

/-- A legal command leaves the encoder coding, within its interval. -/
theorem Encoding.encode (h : Encoding pre s e) (hl : op.legal s) (hs : (e.interval pre).shifts + 33 < 2 ^ 64) :
    Encoding pre s (op.encode e) ∧ Advances pre 32 e (op.encode e) := by
  have hle := h.legal hl
  obtain ⟨-, -, -, hready⟩ := by simpa only [State.encoderSetup, Prod.mk.injEq] using h.setup
  obtain ⟨prices, counts, he⟩ := hle.encode_eq hready h.codes.emits.accepts
  have hadv : Advances pre 32 e (op.encode e) := (h.codes.encoded_advances hle hs).congr rfl (he ▸ rfl)
  have hsetup : (op.encode e).encoderSetup = (op.encoded e).encoderSetup := he ▸ rfl
  refine ⟨⟨hsetup.trans ((op.encoded_setup e).trans h.setup), fun ea hea => ?_, hadv.codes⟩, hadv⟩
  rw [he]
  exact hle.encoded_modelCell (h.cells ea hea)

end

/-! ## The decoder's command (R132, R133, R182, R183, R204, R232, R234) -/

section

variable {s e d u : State} {op : Coded}

/-- C of a matched literal's RD_ command holds the previous byte and the match byte (R92). -/
theorem matchOperand_bytes (prev mb : Byte) :
    (BitVec.ofNat 32 (2 ^ 8 * mb.toNat + prev.toNat)).toNat % 2 ^ 8 = prev.toNat ∧
      (BitVec.ofNat 32 (2 ^ 8 * mb.toNat + prev.toNat)).toNat / 2 ^ 8 % 2 ^ 8 = mb.toNat := by
  have hprev := prev.isLt
  have hmb := mb.isLt
  rw [BitVec.toNat_ofNat]
  omega

/-- The sub-coder of a literal's RD_ command. -/
theorem decodeOperands_lit_litSub (hlegal : d.legalLcLp) (pos : Word) (prev byte : Byte) :
    (Coded.decodeOperands d (.lit pos prev byte)).litSub = d.literalAt pos prev :=
  litSub_eq_literalAt hlegal rfl rfl (by
    have hprev := prev.isLt
    rw [Coded.decodeOperands, BitVec.toNat_ofNat]
    omega)

/-- The sub-coder of a matched literal's RD_ command. -/
theorem decodeOperands_litMatched_litSub (hlegal : d.legalLcLp) (pos : Word) (prev mb byte : Byte) :
    (Coded.decodeOperands d (.litMatched pos prev mb byte)).litSub = d.literalAt pos prev :=
  litSub_eq_literalAt hlegal rfl rfl (matchOperand_bytes prev mb).1

/-- The decoder is in step with the encoder: the same cells, CFG and bases, and on the stream in the encoder's interval (R137). -/
structure InStep (pre : List OutEvent) (bytes : List Byte) (rest : List InAnswer) (e d : State) : Prop where
  setup : d.setup = e.setup
  pm : d.pm = e.pm
  ready : d.rdReady = true
  follows : Follows bytes rest d (e.interval pre)

/-- The RD_ command that matches a legal RE_ command passes its checks. -/
theorem Coded.legal.decode_check (h : op.legal e) (hsetup : d.setup = e.setup) (hpm : d.pm = e.pm) (hr : d.rdReady = true) :
    execCheck (op.decodeOperands d) op.decodeCmd = none := by
  simp only [State.setup, Prod.mk.injEq] at hsetup
  obtain ⟨-, -, hparams, hcfg, hlit, hlen0, hlen1⟩ := hsetup
  have ready : ∀ i, (op.decodeOperands d).rdReadyFault i = none := fun i => by
    rw [rdReadyFault_none, Coded.decodeOperands_frame]
    exact hr
  have hmem : (op.decodeOperands d).memory = e.memory := by
    rw [Coded.decodeOperands_frame, State.memory, hparams, hpm]
    rfl
  have read : ∀ fp, e.readable (spanCells fp) → (op.decodeOperands d).readFault fp = none := fun fp hc =>
    readFault_none_of_readable (readable_of_memory hmem hc)
  cases op with
  | bit ea b =>
    refine Option.or_eq_none_iff.mpr ⟨ready _, read _ ?_⟩
    rw [spanCells_cellSpan, State.operandCell]
    exact (BitVec.add_zero ea).symm ▸ h
  | direct n v => exact ready _
  | tree base n sym | treeRev base n sym => exact Option.or_eq_none_iff.mpr ⟨ready _, read _ h.2⟩
  | len ps l sym =>
    obtain ⟨hps, -, -, hcells⟩ := h
    have hbase : d.lenBase l = e.lenBase l := by simp only [State.lenBase, hlen0, hlen1]
    rw [State.legalPs, ← hcfg] at hps
    rw [← hbase] at hcells
    simp only [Coded.decodeCmd, execCheck, Option.or_eq_none_iff]
    exact ⟨ready _, pbFault_none.mpr hps.1, psFault_none.mpr hps.2, read _ hcells⟩
  | lit pos prev byte =>
    have hlegal : d.legalLcLp := by rw [State.legalLcLp, hcfg]; exact h.1
    refine Option.or_eq_none_iff.mpr ⟨ready _, Option.or_eq_none_iff.mpr ⟨lcLpFault_none.mpr hlegal, read _ ?_⟩⟩
    rw [decodeOperands_lit_litSub hlegal, literalAt_congr hlit hcfg]
    exact h.2
  | litMatched pos prev mb byte =>
    have hlegal : d.legalLcLp := by rw [State.legalLcLp, hcfg]; exact h.1
    refine Option.or_eq_none_iff.mpr ⟨ready _, Option.or_eq_none_iff.mpr ⟨lcLpFault_none.mpr hlegal, read _ ?_⟩⟩
    rw [decodeOperands_litMatched_litSub hlegal, literalAt_congr hlit hcfg]
    exact h.2

/-- The decisions of a legal command are the way through the decoder's walk to the coded value. -/
theorem Coded.legal.path_cases (h : op.legal e) (hsetup : d.setup = e.setup) :
    (∃ n v, op = .direct n v) ∨
      (op.halves = [] ∧ (∀ n, op.decodeCmd ≠ .rdDirect n) ∧
        (decodeWalk (op.decodeOperands d) op.decodeCmd).path (op.decisions e) op.value) := by
  simp only [State.setup, Prod.mk.injEq] at hsetup
  obtain ⟨-, -, -, hcfg, hlit, hlen0, hlen1⟩ := hsetup
  cases op with
  | direct n v => exact .inl ⟨n, v, rfl⟩
  | bit ea b =>
    refine .inr ⟨rfl, nofun, b, [], ?_, rfl, rfl⟩
    rw [State.operandCell, Coded.decodeOperands, BitVec.add_zero]
    rfl
  | tree base n sym => exact .inr ⟨rfl, nofun, treeDecode_treeCode base n.toNat sym.toNat⟩
  | treeRev base n sym => exact .inr ⟨rfl, nofun, walkTreeRev_treeCodeRev base n.toNat sym.toNat⟩
  | len ps l sym =>
    have hbase : d.lenBase l = e.lenBase l := by simp only [State.lenBase, hlen0, hlen1]
    refine .inr ⟨rfl, nofun, ?_⟩
    rw [Coded.decodeCmd, decodeWalk, Coded.decodeOperands, hbase]
    exact walkLen_lenCode _ _ h.2.1
  | lit pos prev byte =>
    have hlegal : d.legalLcLp := by rw [State.legalLcLp, hcfg]; exact h.1
    refine .inr ⟨rfl, nofun, ?_⟩
    rw [Coded.decodeCmd, decodeWalk, decodeOperands_lit_litSub hlegal, literalAt_congr hlit hcfg]
    exact walkLit_litCode _ byte.isLt
  | litMatched pos prev mb byte =>
    have hlegal : d.legalLcLp := by rw [State.legalLcLp, hcfg]; exact h.1
    have hmb : (Coded.decodeOperands d (.litMatched pos prev mb byte)).matchByte = mb :=
      BitVec.eq_of_toNat_eq ((matchByte_toNat _).trans (matchOperand_bytes prev mb).2)
    refine .inr ⟨rfl, nofun, ?_⟩
    rw [Coded.decodeCmd, decodeWalk, decodeOperands_litMatched_litSub hlegal, literalAt_congr hlit hcfg, hmb]
    exact walkLitm_matchedCode _ mb byte.isLt

theorem Coded.needsDecoder_decodeCmd (op : Coded) : needsDecoder op.decodeCmd = true := by cases op <;> rfl

variable {pre : List OutEvent} {bytes : List Byte} {rest : List InAnswer}

/-- The RD_ command finds the value that was coded, where the stream lies in the interval that its coding leaves. -/
theorem InStep.decode_eq (hd : InStep pre bytes rest e d) (h : Codes pre e) (hl : op.legal e)
    (hs : (e.interval pre).shifts + 33 < 2 ^ 64) (hlead : ((op.encoded e).interval pre).leadsTo bytes) :
    ∃ u, op.decode d = u.setRes (BitVec.ofNat 32 op.value) ∧ decoderOnly (op.decodeOperands d) u ∧
      Follows bytes rest u ((op.encoded e).interval pre) ∧ u.pm = (op.encoded e).pm := by
  have hbits := hl.bits_le
  have hcodes := h.congr (op.encodeOperands_coderSide e)
  have hinterval := interval_congr (pre := pre) (op.encodeOperands_coderSide e)
  have hfollows : Follows bytes rest (op.decodeOperands d) ((op.encodeOperands e).interval pre) := by
    rw [hinterval]
    exact hd.follows.congr (by cases op <;> rfl)
  have hpm : (op.decodeOperands d).pm = e.pm := by rw [op.decodeOperands_frame]; exact hd.pm
  have hmem := op.encodedHalves_memory e
  rw [Coded.decode_eq, afterCommand_of_none (hl.decode_check hd.setup hd.pm hd.ready)]
  rw [← hinterval] at hs
  rcases hl.path_cases hd.setup with ⟨n, v, rfl⟩ | ⟨hnone, hwalk, hpath⟩
  · have hn : n.toNat ≤ 32 := hl
    obtain ⟨u, hok, hu⟩ := decodeDirect_follows v n.toNat 0 hcodes (by omega) hfollows hlead
    rw [Nat.zero_mul, Nat.zero_add] at hok
    have hframe := decodeDirect_frame n.toNat (BitVec.ofNat 32 0) d
    rw [show decodeDirect n.toNat (BitVec.ofNat 32 0) d = _ from hok] at hframe
    refine ⟨u, ?_, hframe.1, hu, hframe.2.trans (hpm.trans (Prod.mk.inj hmem).2.symm)⟩
    show (execBody d (.rdDirect n)).settle = _
    rw [execBody_rdDirect]
    exact congrArg (fun a => (Act.bind a fun v u => .ok () (u.setRes v)).settle) hok
  · rw [Coded.encoded, hnone] at hlead ⊢
    rw [hnone] at hmem
    obtain ⟨u, hrun, hu, hupm⟩ := Walk.run_follows hpath hcodes (readable_of_memory hmem hl.readable) (by omega)
      (hpm.trans (Prod.mk.inj hmem).2.symm) hfollows hlead
    have hframe := Walk.kept decFrame_kept (decodeWalk (op.decodeOperands d) op.decodeCmd) (s := op.decodeOperands d)
      fun _ _ _ _ _ => trivial
    rw [hrun] at hframe
    refine ⟨u, ?_, hframe, hu, hupm⟩
    rcases execBody_decode (op.decodeOperands d) op.needsDecoder_decodeCmd with hb | ⟨n, hcmd, -⟩
    · rw [hb, hrun]
      rfl
    · exact absurd hcmd (hwalk n)

/-- A legal command leaves the two blocks in step, with its value in RES (R137). -/
theorem InStep.step (hd : InStep pre bytes rest e d) (h : Encoding pre s e) (hl : op.legal s)
    (hs : (e.interval pre).shifts + 33 < 2 ^ 64) (hlead : ((op.encode e).interval pre).leadsTo bytes) :
    InStep pre bytes rest (op.encode e) (op.decode d) ∧ (op.decode d).res = BitVec.ofNat 32 op.value := by
  have hle := h.legal hl
  obtain ⟨-, -, -, hready⟩ := by simpa only [State.encoderSetup, Prod.mk.injEq] using h.setup
  obtain ⟨prices, counts, he⟩ := hle.encode_eq hready h.codes.emits.accepts
  have hinterval : (op.encode e).interval pre = (op.encoded e).interval pre := interval_congr (he ▸ rfl)
  obtain ⟨u, hdec, hframe, hu, hpm⟩ := hd.decode_eq h.codes hle hs (hinterval ▸ hlead)
  have hsetup : u.setup = (op.decodeOperands d).setup := (congrArg State.setup hframe :)
  have hrd : u.rdReady = (op.decodeOperands d).rdReady := (congrArg State.rdReady hframe :)
  rw [op.decodeOperands_frame] at hsetup hrd
  have hsetup' : (op.encode e).setup = e.setup := (congrArg State.setup he :).trans (Prod.mk.inj (op.encoded_setup e)).1
  rw [hdec]
  refine ⟨⟨hsetup.trans (hd.setup.trans hsetup'.symm), ?_, hrd.trans hd.ready, ?_⟩, rfl⟩
  · rw [he]
    exact hpm
  · rw [hinterval]
    exact hu.congr rfl

end

end Sys2Proof.Machine
end

section
/-!
SUPPORT. The round trip of a whole stream (41_range_decoder R137, 42_range_encoder R156, R159): commands one after another keep the
two blocks in step, from RE_INIT and RD_INIT on, and RE_FLUSH sends the number that the stream stands for.
-/

namespace Sys2Proof.Machine

/-! ## Streams of commands -/

section

variable {s e d : State} {pre : List OutEvent} {bytes : List Byte} {rest : List InAnswer} {ops : List Coded}

/-- A stream of legal commands leaves the encoder coding, within its interval. -/
theorem Encoding.encode_stream (h : Encoding pre s e) (hl : ∀ op ∈ ops, op.legal s)
    (hs : (e.interval pre).shifts + 32 * ops.length + 1 < 2 ^ 64) :
    Encoding pre s (ops.foldl Coded.encode e) ∧ Advances pre (32 * ops.length) e (ops.foldl Coded.encode e) := by
  induction ops generalizing e with
  | nil => exact ⟨h, Advances.refl h.codes⟩
  | cons op ops ih =>
    rw [List.length_cons] at hs ⊢
    obtain ⟨h1, hadv⟩ := h.encode (hl op List.mem_cons_self) (by omega)
    have hshifts := hadv.shifts
    obtain ⟨h2, hadv'⟩ := ih h1 (fun op' h' => hl op' (List.mem_cons_of_mem _ h')) (by omega)
    rw [List.foldl_cons]
    exact ⟨h2, (hadv.trans hadv').mono (by omega)⟩

/-- What R137 says of the states after each decode command of a stream. -/
structure RoundTrips (ops : List Coded) (e d : State) : Prop where
  values : (streamStates Coded.decode ops d).map (·.res) = ops.map fun op => BitVec.ofNat 32 op.value
  cells : (streamStates Coded.decode ops d).map (·.pm) = (streamStates Coded.encode ops e).map (·.pm)
  inside : ∀ t ∈ streamStates Coded.decode ops d, t.setup = e.setup ∧ t.rdCode.toNat < t.rdRange.toNat

/-- A stream of matching commands keeps the two blocks in step (R137). -/
theorem InStep.decode_stream (hd : InStep pre bytes rest e d) (h : Encoding pre s e) (hl : ∀ op ∈ ops, op.legal s)
    (hs : (e.interval pre).shifts + 32 * ops.length + 1 < 2 ^ 64)
    (hlead : ((ops.foldl Coded.encode e).interval pre).leadsTo bytes) :
    RoundTrips ops e d ∧
      InStep pre bytes rest (ops.foldl Coded.encode e) ((streamStates Coded.decode ops d).getLast?.getD d) := by
  induction ops generalizing e d with
  | nil => exact ⟨⟨rfl, rfl, nofun⟩, hd⟩
  | cons op ops ih =>
    rw [List.length_cons] at hs
    have hop := hl op List.mem_cons_self
    have hops : ∀ op' ∈ ops, op'.legal s := fun op' h' => hl op' (List.mem_cons_of_mem _ h')
    obtain ⟨h1, hadv⟩ := h.encode hop (by omega)
    have hshifts := hadv.shifts
    have hlead1 := (h1.encode_stream hops (by omega)).2.within.leadsTo hlead
    obtain ⟨hd1, hres⟩ := hd.step h hop (by omega) hlead1
    obtain ⟨htrip, hlast⟩ := ih hd1 h1 hops (by omega) hlead
    have hsetup : (op.encode e).setup = e.setup := (Prod.mk.inj h1.setup).1.trans (Prod.mk.inj h.setup).1.symm
    simp only [streamStates, List.getLast?_cons, Option.getD_some, List.foldl_cons]
    refine ⟨⟨?_, ?_, ?_⟩, hlast⟩
    · rw [streamStates, List.map_cons, List.map_cons, hres, htrip.values]
    · rw [streamStates, streamStates, List.map_cons, List.map_cons, hd1.pm, htrip.cells]
    · intro t ht
      rcases List.mem_cons.mp ht with rfl | ht
      · exact ⟨hd1.setup.trans hsetup, hd1.follows.code_lt hlead1⟩
      · exact ⟨(htrip.inside t ht).1.trans hsetup, (htrip.inside t ht).2⟩

end

/-! ## The ends of a stream -/

section

variable {s e d : State} {pre : List OutEvent} {bytes : List Byte} {rest : List InAnswer}

/-- RE_INIT starts on the whole interval, with nothing sent (R150). -/
theorem encoding_reInit (hsink : s.sinkAccepts) :
    Encoding s.output s (afterCommand .reInit s) ∧ (afterCommand .reInit s).interval s.output = ⟨0, 0xFFFFFFFF, 0⟩ := by
  have hinit : afterCommand .reInit s = { s with
      reRange := 0xFFFFFFFF#32, reLow := 0#33, reCache := 0#8, reCacheSize := 1#64, rePos := 0#64, reReady := true } := rfl
  rw [hinit]
  generalize ht : { s with
      reRange := 0xFFFFFFFF#32, reLow := 0#33, reCache := 0#8, reCacheSize := 1#64, rePos := 0#64, reReady := true } = t
  have hsent : t.sent s.output = [] := sent_of_output (by rw [← ht]; exact (List.append_nil _).symm)
  have hqueued : t.queued = [0#8] := by rw [← ht]; rfl
  have hlow : t.reLow.toNat = 0 := by rw [← ht]; rfl
  have hsize : t.reCacheSize.toNat = 1 := by rw [← ht]; rfl
  have hrange : t.reRange.toNat = 0xFFFFFFFF := by rw [← ht]; rfl
  have hzero : bytesValue [0#8] = 0 := rfl
  refine ⟨⟨by rw [← ht]; rfl, fun ea hea => by rw [← ht]; exact hea, ⟨⟨by rw [← ht]; exact hsink, ?_, ?_, ?_, ?_, ?_⟩, ?_⟩⟩, ?_⟩
  · rw [hsent, ← ht]; exact (List.append_nil _).symm
  · rw [hsent, ← ht]; rfl
  · rw [hsize]
  · rw [hqueued, hzero, hlow, hsize, hrange]; decide
  · rw [hlow, hrange]; decide
  · rw [hrange]; decide
  · rw [State.interval, hsent, hqueued, hlow, hrange, hsize]; rfl

/-- RD_INIT puts the decoder in step on the first five bytes of the stream (R130). -/
theorem inStep_rdInit (hsetup : d.setup = e.setup) (hpm : d.pm = e.pm) (he : e.interval pre = ⟨0, 0xFFFFFFFF, 0⟩)
    (hlead : (e.interval pre).leadsTo bytes) (hin : d.input.answers = bytes.map .byte ++ rest) :
    InStep pre bytes rest e (afterCommand .rdInit d) := by
  rw [he] at hlead
  have hvalue : bytesValue (bytes.take 5) < 0 + 0xFFFFFFFF := hlead.prefix_mem.2
  have hlen : (bytes.take 5).length = 5 := by
    obtain ⟨k, hk, -⟩ := hlead
    rw [List.length_take]
    simp only at hk
    omega
  have hinput : d.input.answers = (bytes.take 5).map .byte ++ ((bytes.drop 5).map .byte ++ rest) := by
    rw [hin, ← List.append_assoc, ← List.map_append, List.take_append_drop]
  have hd : afterCommand .rdInit d = { d with
      input := { d.input with answers := (bytes.drop 5).map .byte ++ rest }, rdRange := 0xFFFFFFFF#32, rdReady := true
      rdCode := BitVec.ofNat 32 (bytesValue (bytes.take 5)) } := by
    rw [afterCommand, exec_rdInit hlen hinput]
  rw [hd]
  refine ⟨hsetup, hpm, rfl, ?_⟩
  rw [he]
  refine ⟨rfl, ?_, rfl⟩
  rw [BitVec.toNat_ofNat, Nat.mod_eq_of_lt (by omega)]
  rfl

/-- RE_FLUSH's ShiftLows move the number out, byte by byte (R156). -/
theorem emits_shifts (n : Nat) (h : Emits pre 1 s) (hs : (s.interval pre).shifts + n + 2 < 2 ^ 64) :
    Emits pre 1 (Nat.repeat State.shifted n s) ∧
      ((Nat.repeat State.shifted n s).interval pre).low = 2 ^ (8 * n) * (s.interval pre).low ∧
      ((Nat.repeat State.shifted n s).interval pre).shifts = (s.interval pre).shifts + n := by
  induction n with
  | zero => exact ⟨h, (Nat.one_mul _).symm, rfl⟩
  | succ n ih =>
    obtain ⟨hemits, hlow, hshifts⟩ := ih (by omega)
    rw [Nat.repeat]
    generalize Nat.repeat State.shifted n s = t at *
    have hq := hemits.queue
    have hcount : (t.interval pre).shifts = (t.sent pre).length + t.reCacheSize.toNat - 1 := rfl
    have hsize : t.reCacheSize.toNat + 1 < 2 ^ 64 := by omega
    have hnext := shifted_interval hemits (le_refl 1) hsize
    refine ⟨(hemits.shifted (le_refl 1) (by decide) hsize).narrowed (lo := 0) rfl (by decide) rfl, ?_, ?_⟩ <;> rw [hnext]
    · rw [hlow, Nat.mul_succ, Nat.pow_add, ← Nat.mul_assoc, Nat.mul_comm (2 ^ 8)]
    · rw [hshifts, Nat.add_assoc]

/-- Five ShiftLows leave RE_LOW empty and RE_CACHE alone in the queue (R156). -/
theorem shifts_drained (s : State) :
    (Nat.repeat State.shifted 5 s).reLow = 0#33 ∧ (Nat.repeat State.shifted 5 s).reCacheSize = 1#64 := by
  refine shifted_idle (s := Nat.repeat State.shifted 4 s) ?_
  simp only [Nat.repeat, shifted_reLow]
  omega

/-- Where RE_LOW is empty and RE_CACHE alone in the queue, five bytes after a number, the number is what has been sent. -/
theorem sent_of_drained {value n : Nat} (hlow : s.reLow = 0#33) (hsize : s.reCacheSize = 1#64)
    (hvalue : (s.interval pre).low = 2 ^ 40 * value) (hshifts : (s.interval pre).shifts = n) :
    bytesValue (s.sent pre) = value ∧ (s.sent pre).length = n := by
  have hqueued : s.queued = [s.reCache] := by rw [State.queued, hsize]; rfl
  have hcache := s.reCache.isLt
  simp only [State.interval, hqueued, hlow, hsize, bytesValue_concat, BitVec.toNat_ofNat] at hvalue hshifts
  omega

theorem repeat_shifted_setup (n : Nat) (s : State) : (Nat.repeat State.shifted n s).setup = s.setup := by
  induction n with
  | zero => rfl
  | succ n ih => rw [Nat.repeat, ← ih]; rfl

/-- RE_FLUSH on an accepting sink is five ShiftLows and the flush request (R156). -/
theorem afterCommand_reFlush (hready : e.reReady = true) (hsink : e.sinkAccepts) {u : State}
    (hu : Nat.repeat State.shifted 5 e = u) (hsink' : u.sinkAccepts) : afterCommand .reFlush e =
      { u with sink := { u.sink with answers := u.sink.answers.drop 1 }, output := u.output ++ [.flush] } := by
  have hcheck : execCheck e .reFlush = none := reReadyFault_none.mpr hready
  rw [afterCommand_of_none hcheck, execBody, shiftLows_ok (shiftsAccepted_of_sinkAccepts 5 hsink), Act.bind_ok, hu,
    outFlush_ok (answerAt_of_sinkAccepts hsink' 0), Act.settle_ok]

/-- The five ShiftLows of RE_FLUSH send the low end of the interval (R156, R159). -/
theorem flushed_sent {u : State} (h : Encoding pre s e) (hs : (e.interval pre).shifts + 7 < 2 ^ 64)
    (hu : Nat.repeat State.shifted 5 e = u) :
    Emits pre 1 u ∧ bytesValue (u.sent pre) = (e.interval pre).low ∧ (u.sent pre).length = (e.interval pre).shifts + 5 := by
  have hwide := h.codes.wide
  have hone : Emits pre 1 e := h.codes.emits.narrowed (lo := 0) rfl (by omega) rfl
  obtain ⟨hemits, hlow, hshifts⟩ := emits_shifts 5 hone (by omega)
  obtain ⟨hdrained, hsize⟩ := shifts_drained e
  rw [hu] at hemits hlow hshifts hdrained hsize
  exact ⟨hemits, sent_of_drained hdrained hsize hlow hshifts⟩

/-- RE_FLUSH sends the number of the stream, one byte for each ShiftLow since RE_INIT (R156, R159). -/
theorem reFlush_stream (h : Encoding pre s e) (hrun : s.running) (hs : (e.interval pre).shifts + 7 < 2 ^ 64) :
    ∃ bytes, (e.interval pre).leadsTo bytes ∧ bytes.length = (e.interval pre).shifts + 5 ∧
      (afterCommand .reFlush e).running ∧ (afterCommand .reFlush e).output = pre ++ bytes.map .byte ++ [.flush] ∧
      (afterCommand .reFlush e).rePos = BitVec.ofNat 64 bytes.length := by
  obtain ⟨hsetup, -, -, hready⟩ := by simpa only [State.encoderSetup, Prod.mk.injEq] using h.setup
  have hwide : 2 ^ 24 ≤ (e.interval pre).width := h.codes.wide
  have hflushed := (repeat_shifted_setup 5 e).trans hsetup
  obtain ⟨u, hu⟩ : ∃ u, Nat.repeat State.shifted 5 e = u := ⟨_, rfl⟩
  obtain ⟨hemits, hvalue, hlen⟩ := flushed_sent h hs hu
  rw [afterCommand_reFlush hready h.codes.emits.accepts hu hemits.accepts]
  simp only [hu, State.setup, Prod.mk.injEq] at hflushed
  refine ⟨u.sent pre, ⟨0, hlen, ?_, ?_⟩, hlen, ⟨hflushed.1.trans hrun.1, hflushed.2.1.trans hrun.2⟩,
    congrArg (· ++ [.flush]) hemits.output, hemits.pos⟩ <;> rw [hvalue, Nat.mul_zero, Nat.pow_zero, Nat.mul_one]
  omega

end

/-- Settles O52: RE_FLUSH sends a number of the encoder's last interval, which lies in all the earlier ones, and the decoder, whose
RD_CODE is what it has read of that number above the low end of the encoder's interval, finds each part as it was taken. -/
theorem roundTrip : Obligations.RoundTrip := by
  intro ops s d hlen hs hd hsink hlegal hparams hpm hcfg hlit hlen0 hlen1
  obtain ⟨hinit, hinterval⟩ := encoding_reInit hsink
  have hsetup : d.setup = (afterCommand .reInit s).setup := by
    refine Eq.trans ?_ (Prod.mk.inj hinit.setup).1.symm
    simp only [State.setup, hs.1, hs.2, hd.1, hd.2, hparams, hcfg, hlit, hlen0, hlen1]
  have hcells : d.pm = (afterCommand .reInit s).pm := hpm
  generalize afterCommand .reInit s = e0 at *
  have hzero : (e0.interval s.output).shifts = 0 := by rw [hinterval]
  obtain ⟨hcoded, hadv⟩ := hinit.encode_stream hlegal (by omega)
  have hshifts := hadv.shifts
  obtain ⟨bytes, hlead, hcount, hrun, hout, hpos⟩ := reFlush_stream hcoded hs (by omega)
  refine ⟨bytes, _, rfl, hrun, hout, hpos, fun rest hin => ?_⟩
  have hlead0 := hadv.within.leadsTo hlead
  have hd0 := inStep_rdInit hsetup hcells hinterval hlead0 hin
  obtain ⟨htrip, hlast⟩ := hd0.decode_stream hinit hlegal (by omega) hlead
  have running : ∀ t : State, t.setup = e0.setup → t.running := fun t ht => by
    have ht' := ht.trans hsetup.symm
    simp only [State.setup, Prod.mk.injEq] at ht'
    exact ⟨ht'.1.trans hd.1, ht'.2.1.trans hd.2⟩
  refine ⟨_, _, rfl, rfl, htrip.values, htrip.cells, fun t ht => ?_, ?_⟩
  · rcases List.mem_cons.mp ht with rfl | ht
    · exact ⟨running _ hd0.setup, hd0.follows.code_lt hlead0⟩
    · exact ⟨running t (htrip.inside t ht).1, (htrip.inside t ht).2⟩
  · rw [hlast.follows.input, List.drop_of_length_le hcount.le]
    rfl

end Sys2Proof.Machine
end

section
/-!
SUPPORT. Proofs of the statements of 42_range_encoder: the interval that every step keeps, and what RE_INIT, RE_BIT, RE_DIRECT
and RE_FLUSH do in plain numbers, or where the sink ends them.
-/

namespace Sys2Proof

/-! ## A word with the OP of a command without fields (R93 to R95) -/

/-- Where an opcode uses no field, the command's own word is the only legal one with its OP. -/
theorem decode_error_of_plain {op : BitVec 8} {i : Instr} {w : Word} (hrow : opRow op = some (.plain i))
    (hop : fieldOp w = op) (hw : w ≠ encode i) : ∃ e, decode w = .error e := by
  cases hd : decode w with
  | error e => exact ⟨e, rfl⟩
  | ok j =>
    obtain ⟨r, hr, -, -, rfl⟩ := decode_ok hd
    rw [hop, hrow] at hr
    obtain rfl := Option.some.inj hr
    exact absurd (encode_of_decode hd).symm hw

/-- OP of a word in plain numbers (R90). -/
theorem fieldOp_toNat (w : Word) : (fieldOp w).toNat = w.toNat % 2 ^ 8 := by
  rw [fieldOp, BitVec.extractLsb'_toNat, Nat.shiftRight_zero]

end Sys2Proof

namespace Sys2Proof.Machine

/-! ## The interval of a started encoder (R153) -/

/-- All that the encoder's invariant speaks of. -/
def State.encoderView (s : State) := (s.err, s.request, s.reReady, s.reRange, s.reLow)

section

variable {s t u : State} {i : Instr}

theorem encoderInv_of_view (h : t.encoderView = s.encoderView) (hs : s.encoderInv) : t.encoderInv := by
  simp only [State.encoderView, Prod.mk.injEq] at h
  obtain ⟨he, hq, hr, hrange, hlow⟩ := h
  simpa only [State.encoderInv, State.running, State.encoderInterval, he, hq, hr, hrange, hlow] using hs

/-- The invariant promises nothing of a block that has faulted. -/
theorem encoderInv_raise (s : State) (r : Raise) : (s.raise r).encoderInv := fun hrun => Bool.noConfusion hrun.1

/-- The invariant promises nothing of a block that waits on a port. -/
theorem encoderInv_await (s : State) (q : PortRequest) : (s.await q).encoderInv := fun hrun => nomatch hrun.2

theorem encoderInv_resetBlock (s : State) : s.resetBlock.encoderInv := fun _ hr => Bool.noConfusion hr

theorem reReady_of_execCheck (hi : needsEncoder i = true) (hc : execCheck s i = none) : s.reReady = true := by
  cases i with
  | reDirect | reFlush => exact reReadyFault_none.mp hc
  | reBit | reTree | reRtree | reLen | reLit | reLitm => exact reReadyFault_none.mp (Option.or_eq_none_iff.mp hc).1
  | _ => simp [needsEncoder] at hi

/-- A completed encoding renormalises: its checks have found the encoder started and cells in [31, 2017], and it writes neither
ERR nor the pending request. -/
theorem encodePart_keeps_encoderInv (hm : s.modelsInv) (hs : s.encoderInv) (hi : needsEncoder i = true)
    (hc : execCheck s i = none) (hp : encodePart s i = .ok () u) : u.encoderInv := by
  have hframe : encoderOnly s u := by
    have hpart := (encodePart_frame (s := s) hi).1.1
    rwa [hp] at hpart
  obtain ⟨he, hq⟩ : u.err = s.err ∧ u.request = s.request := by rw [hframe]; exact ⟨rfl, rfl⟩
  exact fun hrun _ => encodePart_interval hi (hs ⟨he ▸ hrun.1, hq ▸ hrun.2⟩ (reReady_of_execCheck hi hc))
    (footprint_readable hm (.inr hi) hc) hp

/-- RE_INIT starts with the widest interval, a completed encoding keeps it, and no other command writes RE_RANGE or RE_LOW. -/
theorem CommandEffect.keeps_encoderInv (h : CommandEffect s i t) (hm : s.modelsInv) (hs : s.encoderInv) : t.encoderInv := by
  cases h with
  | nop | pmInit | pmWr | rdInit | reader => exact hs
  | refused | initFault | decodeFault | encodeFault => exact encoderInv_raise _ _
  | initWaits | decodeWaits | encodeWaits => exact encoderInv_await _ _
  | reInit =>
    exact fun _ _ => (by decide : 2 ^ 24 ≤ (0xFFFFFFFF#32).toNat ∧ (0#33).toNat + (0xFFFFFFFF#32).toNat < 2 ^ 33)
  | lenPriceInit l => exact encoderInv_of_view (congrArg State.encoderView (refills_setPv_frame s l _) :) hs
  | decoded _ _ _ _ _ hu => exact encoderInv_of_view (congrArg State.encoderView hu.1 :) hs
  | encoded _ _ hi hc _ hp => exact encodePart_keeps_encoderInv hm hs hi hc hp
  | counted ps l u hc _ hp =>
    exact encoderInv_of_view (s := u) (congrArg State.encoderView (countAndRefill_frame u l ps.toNat).1 :)
      (encodePart_keeps_encoderInv hm hs rfl hc hp)

theorem exec_keeps_encoderInv (hm : s.modelsInv) (hs : s.encoderInv) (h : exec i s = .next t) : t.encoderInv := by
  by_cases hi : i = .reset
  · subst hi
    obtain rfl : s.resetBlock = t := by simpa [exec, execReset] using h
    exact encoderInv_resetBlock s
  · exact (exec_effect hi h).keeps_encoderInv hm hs

theorem hostEffect_keeps_encoderInv (hm : s.modelsInv) (hs : s.encoderInv) (h : HostEffect s t) : t.encoderInv := by
  cases h with
  | ignored | setA | setB | setC | setCfg | setLitBase | setLenBase0 | setLenBase1 | read => exact hs
  | reset => exact encoderInv_resetBlock s
  | illegal => exact encoderInv_raise s _
  | command w i _ _ _ hx => exact exec_keeps_encoderInv hm hs hx

end

/-- Settles O33: a reset stops the encoder, and each command that completes keeps its interval. The models' invariant bounds the
split point, so that a coded bit leaves at least 2^16 of RE_RANGE and one shift is enough. -/
theorem stepKeepsEncoder : Obligations.StepKeepsEncoder := by
  intro s t hm hs h
  rcases step_cases h with rfl | ⟨rest, rfl⟩ | ⟨-, rest, he⟩
  · exact hs
  · exact encoderInv_resetBlock _
  · exact hostEffect_keeps_encoderInv (s := { s with host := rest }) hm hs he

/-! ## RE_INIT (R150) -/

/-- Settles O45: RE_INIT makes no check and uses no port, and its opcode uses no field. -/
theorem reInitStarts : Obligations.ReInitStarts := by
  refine ⟨by decide, fun w hop hw => ?_, fun s => rfl⟩
  have hfield : fieldOp w = 0x20#8 := BitVec.eq_of_toNat_eq ((fieldOp_toNat w).trans hop)
  exact decode_error_of_plain (i := .reInit) rfl hfield hw

/-! ## How a command ends -/

section

variable {s t : State} {i : Instr}

theorem exec_of_ok (hc : execCheck s i = none) (h : execBody s i = .ok () t) : exec i s = .next t := by
  rw [exec_of_none hc, h, Act.settle_ok]

theorem exec_of_endsAt (hc : execCheck s i = none) (h : (execBody s i).endsAt t) : exec i s = .next t := by
  rw [exec_of_none hc, Act.settle_endsAt h]

/-- A command that encodes decisions with cells in use completes where the sink accepts every byte, and else ends as the sink
answers (R67, R284, R331). -/
theorem exec_encodes {code : List Decision} (hc : execCheck s i = none) (hb : execBody s i = encodeAll code s)
    (hr : s.readable (codeCells code)) :
    (codingAccepted bitCoded code s → ∃ t, exec i s = .next t ∧ t = s.encodedAs code ∧ encoderOnly s t ∧
      agreeOutside (codeCells code) s.pm t.pm) ∧
    (∀ t, codingStops bitCoded code s t → exec i s = .next t) := by
  refine ⟨fun haccepted => ?_, fun t hstops => ?_⟩
  · obtain ⟨hframe, hcells⟩ := encodedAs_frame code s
    exact ⟨_, exec_of_ok hc (hb.trans (encodeAll_ok haccepted hr)), rfl, hframe, hcells⟩
  · exact exec_of_endsAt hc (hb ▸ encodeAll_stops hstops hr)

end

/-! ## RE_BIT (R154) -/

theorem execCheck_reBit {s : State} (hready : s.reReady = true) (hr : s.readable [s.a + s.b]) : execCheck s .reBit = none :=
  Option.or_eq_none_iff.mpr ⟨reReadyFault_none.mpr hready, readFault_none_of_readable ((spanCells_cellSpan _).symm ▸ hr)⟩

/-- Going on with nothing changes nothing. -/
theorem Act.bind_ok_unit (m : Act Unit) : (m.bind fun _ u => .ok () u) = m := by
  cases m <;> rfl

/-- RE_BIT encodes one decision: C[0] with the cell A + B. -/
theorem execBody_reBit (s : State) : execBody s .reBit = encodeAll [(s.a + s.b, s.c.toNat.testBit 0)] s := by
  rw [← operandBit_eq]
  exact (Act.bind_ok_unit _).symm

/-- Settles O46: RE_BIT is the encoding of one decision. -/
theorem reBitEncodes : Obligations.ReBitEncodes := fun s hready hr =>
  exec_encodes (execCheck_reBit hready hr) (execBody_reBit s) hr

/-! ## RE_DIRECT (R155) -/

/-- Settles O47: the listed bits are `topBits` of B, which EncodeDirect encodes in this order. -/
theorem reDirectEncodes : Obligations.ReDirectEncodes := by
  rintro s n bits - hready rfl
  have hcheck : execCheck s (.reDirect n) = none := reReadyFault_none.mpr hready
  obtain ⟨hframe, hpm⟩ := encodedHalves_frame (topBits s.b n.toNat) s
  exact ⟨fun haccepted => ⟨_, exec_of_ok hcheck (encodeDirect_ok s.b n.toNat haccepted), hframe, hpm, rfl⟩,
    fun t hstops => exec_of_endsAt hcheck (encodeDirect_stops s.b n.toNat hstops)⟩

/-! ## RE_FLUSH (R156) -/

theorem repeat_shifted_frame (n : Nat) (s : State) : portOnly s (Nat.repeat State.shifted n s) := by
  induction n with
  | zero => exact portOnly.refl s
  | succ n ih => exact ih.trans (shifted_frame _)

/-- Where the sink accepts the bytes of the five ShiftLows, the flush request is all that is left. -/
theorem execBody_reFlush {s : State} (h : shiftsAccepted 5 s) :
    execBody s .reFlush = outFlush (Nat.repeat State.shifted 5 s) := by
  rw [execBody, shiftLows_ok h, Act.bind_ok]

/-- Settles O51: the five ShiftLows complete and the sink answers the flush request in one of three ways, or one of them ends
the command. -/
theorem reFlushEmits : Obligations.ReFlushEmits := by
  intro s hready
  have hcheck : execCheck s .reFlush = none := reReadyFault_none.mpr hready
  refine ⟨fun haccepted => ?_, fun t hstops => exec_of_endsAt hcheck (Act.endsAt_bind (shiftLows_stops hstops) _)⟩
  have hbody := execBody_reFlush haccepted
  have hframe := repeat_shifted_frame 5 s
  obtain ⟨hlow, hsize⟩ := shifts_drained s
  generalize hu : Nat.repeat State.shifted 5 s = u at *
  refine ⟨u, hu.symm, fun hok => ?_, fun herr => ?_, fun hsilent => ?_⟩
  · have hflush := outFlush_frame u
    rw [outFlush_ok hok] at hflush
    obtain ⟨honly, hpm⟩ := hframe.trans hflush
    exact ⟨_, exec_of_ok hcheck (hbody.trans (outFlush_ok hok)), rfl, hlow, hsize, honly, hpm⟩
  · exact exec_of_endsAt hcheck (.inl ⟨_, _, hbody.trans (outFlush_err herr), (raise_eq_faulted _ _).symm⟩)
  · exact exec_of_endsAt hcheck (.inr ⟨_, _, hbody.trans (outFlush_silent hsilent), rfl⟩)

end Sys2Proof.Machine
end

section
/-!
SUPPORT. Proofs of the statements of 43_bit_tree: RD_TREE and RD_RTREE, RE_TREE and RE_RTREE, and the price queries, of literals
also. What a command that runs a walk can do is said once for any such command.
-/

namespace Sys2Proof.Machine

section

variable {s : State} {i : Instr}

/-! ## The checks (R285) -/

/-- Where the earlier checks pass, a command whose footprint can be coded with passes them all. -/
theorem or_readFault_none {earlier : Option Raise} {fp : List Span} (he : earlier = none) (hr : s.readable (spanCells fp)) :
    earlier.or (s.readFault fp) = none :=
  Option.or_eq_none_iff.mpr ⟨he, readFault_none_of_readable hr⟩

/-! ## Decoding a symbol -/

/-- A command that runs a walk whose ways are the codes of the admitted symbols: with a byte for each decision it decodes one of
them into RES, and whatever is to come, it does or ends where a byte does not come (R66, R131, R284, R331). -/
theorem exec_decodes {w : Walk} {code : Nat → List Decision} {admitted : Nat → Prop} {n : Nat}
    (hcheck : execCheck s i = none) (hbody : execBody s i = (w.run s).toRes) (hinterval : s.decoderInterval)
    (hpath : ∀ c v, w.path c v → admitted v ∧ c = code v) (hlength : ∀ v, (code v).length ≤ n)
    (hreadable : ∀ v, s.readable (codeCells (code v))) :
    (s.hasBytes n → ∃ sym, admitted sym ∧ ∃ u, decodesAs (code sym) s u ∧ decoderOnly s u ∧
      agreeOutside (codeCells (code sym)) s.pm u.pm ∧ exec i s = .next { u with res := BitVec.ofNat 32 sym }) ∧
    (∃ sym, admitted sym ∧ ∃ t, exec i s = .next t ∧ decodeEnds (code sym) sym s t) := by
  have hcells : ∀ c v, w.path c v → ∀ ea ∈ codeCells c, s.modelCell ea := fun c v hp => by
    obtain ⟨-, rfl⟩ := hpath c v hp
    exact hreadable v
  have hwithin : w.within n := fun c v hp => by
    obtain ⟨-, rfl⟩ := hpath c v hp
    exact hlength v
  have hexec : ∀ {v u}, w.run s = .ok v u → exec i s = .next { u with res := BitVec.ofNat 32 v } := fun hrun =>
    exec_of_ok hcheck (hbody.trans (congrArg Act.toRes hrun))
  refine ⟨fun hbytes => ?_, ?_⟩
  · obtain ⟨c, v, u, hp, hrun, hdecodes, -, -⟩ := w.completes (k := 0) hinterval hbytes hwithin hcells
    obtain ⟨hv, rfl⟩ := hpath c v hp
    obtain ⟨hframe, hagree⟩ := decodesAs_frame hdecodes
    exact ⟨v, hv, u, hdecodes, hframe, hagree, hexec hrun⟩
  · obtain ⟨c, v, hp, hends⟩ := w.ends hinterval hcells
    obtain ⟨hv, rfl⟩ := hpath c v hp
    rcases hends with ⟨u, hrun, hdecodes⟩ | ⟨t, hstarves, hends⟩
    · exact ⟨v, hv, _, hexec hrun, .inl ⟨u, hdecodes, rfl⟩⟩
    · exact ⟨v, hv, t, by rw [exec_of_none hcheck, hbody, Act.toRes_endsAt hends], .inr hstarves⟩

end

/-! ## RD_TREE and RD_RTREE (R182, R183) -/

/-- The ways through RD_TREE's walk are the codes of the symbols below 2^d (R182). -/
theorem walkTreeDecode_path {base : Word} {d : Nat} {code : List Decision} {v : Nat}
    (h : ((walkTree base d 1).map (· - 2 ^ d)).path code v) : v < 2 ^ d ∧ code = treeCode base d v := by
  obtain ⟨u, hu, rfl⟩ := (Walk.path_map _).mp h
  obtain ⟨sym, hsym, rfl, rfl⟩ := walkTree_path_root hu
  rw [Nat.add_sub_cancel_left]
  exact ⟨hsym, rfl⟩

/-- Settles O41: both commands run walks whose ways are the codes of the symbols below 2^N. -/
theorem rdTreeDecodes : Obligations.RdTreeDecodes := by
  intro s n _ hready hinterval hreadable
  obtain ⟨forward, forwardEnds⟩ := exec_decodes (i := .rdTree n)
    (or_readFault_none (rdReadyFault_none.mpr hready) hreadable) (congrArg Act.toRes (treeDecode_run ..)) hinterval
    (fun _ _ => walkTreeDecode_path) (fun v => (treeCode_length s.a n.toNat v).le) fun _ ea hea => hreadable ea (treeCode_cells hea)
  obtain ⟨reverse, reverseEnds⟩ := exec_decodes (i := .rdRtree n)
    (or_readFault_none (rdReadyFault_none.mpr hready) hreadable) (congrArg Act.toRes (treeDecodeRev_run ..)) hinterval
    (fun _ _ => walkTreeRev_path_root) (fun v => (treeCodeRev_length s.a n.toNat v).le) fun _ ea hea =>
      hreadable ea (treeCodeRev_cells hea)
  exact ⟨fun hbytes => ⟨forward hbytes, reverse hbytes⟩, forwardEnds, reverseEnds⟩

/-! ## RE_TREE and RE_RTREE (R184, R185) -/

/-- Settles O48: both commands encode the code of B, whose cells lie in the footprint that was checked. -/
theorem reTreeEncodes : Obligations.ReTreeEncodes := by
  intro s n _ hready hreadable
  obtain ⟨forward, forwardStops⟩ := exec_encodes (i := .reTree n)
    (or_readFault_none (reReadyFault_none.mpr hready) hreadable) (treeEncode_eq s.a n.toNat s.b.toNat s) fun ea hea =>
      hreadable ea (treeCode_cells hea)
  obtain ⟨reverse, reverseStops⟩ := exec_encodes (i := .reRtree n)
    (or_readFault_none (reReadyFault_none.mpr hready) hreadable) (treeEncodeRev_eq s.a n.toNat s.b.toNat s) fun ea hea =>
      hreadable ea (treeCodeRev_cells hea)
  exact ⟨forward, forwardStops, reverse, reverseStops⟩

/-! ## The price queries (R186, R187, R188, R236, R237, R262) -/

section

variable (s : State)

theorem execBody_prBit : execBody s .prBit =
    .ok () (s.setRes (BitVec.ofNat 32 (priceBit (s.pmRead (s.a + s.b)) (s.c.toNat.testBit 0)))) := by
  rw [execBody, operandBit_eq, State.operandCell]

theorem execBody_prTree (n : BitVec 6) : execBody s (.prTree n) =
    .ok () (s.setRes (BitVec.ofNat 32 (codePrice s (treeCode s.a n.toNat s.b.toNat)))) := by
  rw [execBody, treePrice_eq]

theorem execBody_prRtree (n : BitVec 6) : execBody s (.prRtree n) =
    .ok () (s.setRes (BitVec.ofNat 32 (codePrice s (treeCodeRev s.a n.toNat s.b.toNat)))) := by
  rw [execBody, treePriceRev_eq]

variable {s}

theorem execBody_prLit (hlegal : s.legalLcLp) : execBody s .prLit =
    .ok () (s.setRes (BitVec.ofNat 32 (codePrice s (litCode s.litCell (s.c.toNat / 2 ^ 16 % 2 ^ 8))))) := by
  rw [execBody, litPrice_eq, litSub_eq hlegal, literal_toNat]

theorem execBody_prLitm (hlegal : s.legalLcLp) : execBody s .prLitm =
    .ok () (s.setRes (BitVec.ofNat 32 (codePrice s
      (matchedCode s.litCell (s.c.toNat / 2 ^ 8 % 2 ^ 8) (s.c.toNat / 2 ^ 16 % 2 ^ 8))))) := by
  rw [execBody, litPriceMatched_eq, litSub_eq hlegal, matchByte_toNat, literal_toNat]

end

/-- Settles O58: each query passes its checks, and its pseudocode sums the prices of the decisions that the encode command would
take. -/
theorem priceQueriesSum : Obligations.PriceQueriesSum := by
  refine fun s => ⟨fun hr => ?_, fun n _ hr => ⟨?_, ?_⟩, fun hlegal hr => ?_, fun hlegal hr => ?_⟩
  · exact exec_of_ok (readFault_none_of_readable ((spanCells_cellSpan _).symm ▸ hr)) (execBody_prBit s)
  · exact exec_of_ok (readFault_none_of_readable hr) (execBody_prTree s n)
  · exact exec_of_ok (readFault_none_of_readable hr) (execBody_prRtree s n)
  · exact exec_of_ok (or_readFault_none (lcLpFault_none.mpr hlegal) (litSub_eq hlegal ▸ hr)) (execBody_prLit hlegal)
  · exact exec_of_ok (or_readFault_none (lcLpFault_none.mpr hlegal) (litSub_eq hlegal ▸ hr)) (execBody_prLitm hlegal)

end Sys2Proof.Machine
end

section
/-!
SUPPORT. Proofs of the statements of 44_length_coder: pos_state, the length symbol's commands, and the price tables with their
counters, which every step keeps filled while they are valid.
-/

namespace Sys2Proof.Machine

/-! ## pos_state (R200) -/

/-- `B & ((1 << pb) - 1)` is the remainder by 2^pb (R200). -/
theorem posState_eq (s : State) : s.posState = BitVec.ofNat 32 (s.b.toNat % 2 ^ s.cfg.pb.toNat) := by
  have hpb : 2 ^ s.cfg.pb.toNat ≤ 2 ^ 7 := Nat.pow_le_pow_right (by omega) (by omega)
  have hone : 1 ≤ 2 ^ s.cfg.pb.toNat := Nat.one_le_two_pow
  have hmask : ((1#32 <<< s.cfg.pb.toNat) - 1#32).toNat = 2 ^ s.cfg.pb.toNat - 1 := by
    have hshift : (1#32 <<< s.cfg.pb.toNat).toNat = 2 ^ s.cfg.pb.toNat := by
      rw [BitVec.toNat_shiftLeft, Nat.shiftLeft_eq, BitVec.toNat_ofNat, Nat.one_mod, Nat.one_mul, Nat.mod_eq_of_lt (by omega)]
    rw [BitVec.toNat_sub, hshift, BitVec.toNat_ofNat]
    omega
  apply eq_ofNat_of_toNat
  rw [State.posState, BitVec.toNat_and, hmask, Nat.and_two_pow_sub_one_eq_mod]

theorem pbFault_some {s : State} (h : 4 < s.cfg.pb.toNat) : s.pbFault = some ⟨.invalidOption, s.cfg.word⟩ := by
  simp [State.pbFault, State.optionFault, h]

/-- Settles O53: PB is the only check, and the result is below 2^pb because it is a remainder by it. -/
theorem idxPsIndexes : Obligations.IdxPsIndexes := by
  refine ⟨by decide, fun s => ⟨fun hpb => ⟨?_, Nat.mod_lt _ (by positivity), ?_, fun pos hpos => ?_⟩, fun hpb => ?_⟩⟩
  · exact exec_of_ok (i := .idxPs) (pbFault_none.mpr hpb) (by rw [execBody, posState_eq]; rfl)
  · exact Nat.pow_le_pow_right (n := 2) (by omega) hpb
  · rw [hpos, BitVec.toNat_ofNat]
    exact Nat.mod_mod_of_dvd pos (Nat.pow_dvd_pow 2 (by omega))
  · exact exec_faulted (i := .idxPs) (pbFault_some hpb)

section

variable {s : State} {l : BitVec 1}

/-! ## Reading a price (R210) -/

/-- Past the checks of CFG and PS, PR_LEN checks PV[L] and then B (R210, R285). -/
theorem execCheck_prLen {ps : BitVec 4} (hps : s.legalPs ps) (hsize : s.legalTableSize) : execCheck s (.prLen ps l) =
    (s.pvFault l (.prLen ps l)).or (operandFault (decide (s.b.toNat < s.cfg.tableSize.toNat)) s.b) := by
  rw [execCheck, pbFault_none.mpr hps.1, tableSizeFault_none.mpr hsize, psFault_none.mpr hps.2]
  rfl

theorem pvFault_valid (h : s.pv l = true) (i : Instr) : s.pvFault l i = none := by rw [State.pvFault, if_pos h]

theorem pvFault_invalid (h : s.pv l = false) (i : Instr) : s.pvFault l i = some ⟨.priceInvalid, encode i⟩ := by
  rw [State.pvFault, if_neg (ne_true_of_eq_false h)]

theorem lenPriceAt_listed {ps sym : Nat} {prices : List Word} {v : Word} (hp : s.lenPrice.get? (lenIndex l ps) = some prices)
    (hv : prices[sym]? = some v) : s.lenPriceAt l ps sym = v := by
  simp [State.lenPriceAt, hp, hv]

end

/-- Settles O60: PV[L] is checked before B, and where both pass RES is the listed price. -/
theorem prLenReads : Obligations.PrLenReads := by
  intro s ps l hps hsize
  have check := execCheck_prLen (l := l) hps hsize
  refine ⟨fun prices v hpv hb hp hv => ?_, fun hpv => ?_, fun hpv hb => ?_⟩
  · have hcheck : execCheck s (.prLen ps l) = none := by rw [check, pvFault_valid hpv, decide_eq_true hb]; rfl
    exact exec_of_ok hcheck (by rw [execBody, lenPriceAt_listed hp hv]; rfl)
  · exact exec_faulted (by rw [check, pvFault_invalid hpv]; rfl)
  · exact exec_faulted (by rw [check, pvFault_valid hpv, decide_eq_false (not_lt.mpr hb)]; rfl)

section

variable {s : State} {l : BitVec 1}

/-! ## Filling the tables (R209) -/

/-- PV[l] is set and the other valid bit stays (R209). -/
theorem setPv_eq (s : State) (l : BitVec 1) :
    s.setPv l = { s with pv0 := if l = 0#1 then true else s.pv0, pv1 := if l = 1#1 then true else s.pv1 } := by
  rcases BitVec.eq_zero_or_eq_one l with rfl | rfl <;> rfl

/-- LEN_PRICE_INIT checks PB, TABLESIZE and its footprint. -/
theorem execCheck_lenPriceInit_none : execCheck s (.lenPriceInit l) = none ↔ s.cfg.pb.toNat ≤ 4 ∧ s.legalTableSize ∧
    s.readFault (lenPriceSpan (s.lenBase l) (2 ^ s.cfg.pb.toNat)) = none := by
  rw [execCheck, Option.or_eq_none_iff, Option.or_eq_none_iff, pbFault_none, tableSizeFault_none]

end

/-- Settles O59: `refills_eq` says what the refills leave in the tables, and PV[L] is set after them. -/
theorem lenPriceInitFills : Obligations.LenPriceInitFills := by
  intro s l hpb hsize hr
  have hcheck : execCheck s (.lenPriceInit l) = none :=
    execCheck_lenPriceInit_none.mpr ⟨hpb, hsize, readFault_none_of_readable hr⟩
  obtain ⟨hframe, hfilled, hother⟩ := refills_eq s l (2 ^ s.cfg.pb.toNat)
  refine ⟨_, exec_of_ok hcheck rfl, ?_, ?_⟩
  · rw [setPv_eq, hframe]
  · rw [setPv_eq]
    exact ⟨hfilled, hother⟩

/-! ## RD_LEN (R204) -/

/-- Settles O42: RD_LEN runs a walk whose ways are the codes of the symbols 0 to 271. -/
theorem rdLenDecodes : Obligations.RdLenDecodes := by
  intro s ps l hready hps hinterval hreadable
  have hcheck : execCheck s (.rdLen ps l) = none := by
    simp only [execCheck, Option.or_eq_none_iff]
    exact ⟨rdReadyFault_none.mpr hready, pbFault_none.mpr hps.1, psFault_none.mpr hps.2, readFault_none_of_readable hreadable⟩
  exact exec_decodes hcheck (congrArg Act.toRes (lenDecode_run ..)) hinterval (fun _ _ => walkLen_path)
    (lenCode_length (s.lenBase l) ps.toNat) fun _ ea hea => hreadable ea (lenCode_cells hea)

/-! ## The count of RE_LEN (R206) -/

/-- Of two writes to one index the second stays. -/
theorem Cells.set_set_self {β : Type} (m : Cells β) (k : Nat) (v w : β) : Cells.set k w (Cells.set k v m) = Cells.set k w m := by
  induction m with
  | nil => simp [Cells.set]
  | cons x rest ih =>
    obtain ⟨j, x⟩ := x
    rcases Nat.lt_trichotomy k j with h | rfl | h
    · simp [Cells.set, h]
    · simp [Cells.set]
    · simp [Cells.set, Nat.lt_asymm h, h.ne', ih]

section

variable {s : State} {l : BitVec 1}

/-- A refill lists the prices of the symbols' codes and starts the counter at TABLESIZE (R206). -/
theorem refill_eq (s : State) (l : BitVec 1) (ps : Nat) : s.refill l ps = { s with
    lenCnt := s.lenCnt.set (lenIndex l ps) s.cfg.tableSize
    lenPrice := s.lenPrice.set (lenIndex l ps) (lenPrices s (s.lenBase l) ps s.cfg.tableSize.toNat) } := by
  simp only [State.refill, lenPrice_eq, lenPrices]

/-- A counter above 1 counts down, and nothing else changes (R206). -/
theorem countAndRefill_counts {ps : Nat} {n : BitVec 9} (hn : s.lenCnt.get? (lenIndex l ps) = some n) (h : 2 ≤ n.toNat) :
    s.countAndRefill l ps = { s with lenCnt := s.lenCnt.set (lenIndex l ps) (BitVec.ofNat 9 (n.toNat - 1)) } := by
  have hat : s.lenCntAt l ps = n := by simp [State.lenCntAt, hn]
  have hless : n - 1#9 = BitVec.ofNat 9 (n.toNat - 1) := by bv_omega
  have hne : ¬ BitVec.ofNat 9 (n.toNat - 1) = 0#9 := by bv_omega
  simp only [State.countAndRefill, hat, hless, if_neg hne]

/-- A counter of 1 reaches 0, which refills its table from the cells as they are (R206). -/
theorem countAndRefill_refills {ps : Nat} {n : BitVec 9} (hn : s.lenCnt.get? (lenIndex l ps) = some n) (h : n.toNat = 1) :
    s.countAndRefill l ps = { s with
      lenCnt := s.lenCnt.set (lenIndex l ps) s.cfg.tableSize
      lenPrice := s.lenPrice.set (lenIndex l ps) (lenPrices s (s.lenBase l) ps s.cfg.tableSize.toNat) } := by
  have hat : s.lenCntAt l ps = n := by simp [State.lenCntAt, hn]
  have hzero : n - 1#9 = 0#9 := by bv_omega
  simp only [State.countAndRefill, hat, if_pos hzero, refill_eq, Cells.set_set_self]
  rfl

/-! ## RE_LEN (R205) -/

/-- All that RE_LEN's count reads beside the cells. -/
def State.countView (s : State) (l : BitVec 1) := (s.pv l, s.lenBase l, s.cfg, s.lenPrice, s.lenCnt)

theorem execCheck_reLen {ps : BitVec 4} (hready : s.reReady = true) (hps : s.legalPs ps) (hb : s.b.toNat ≤ 271)
    (hsize : s.pv l = true → s.legalTableSize) (hr : s.readable (spanCells (lenSpan (s.lenBase l) ps.toNat))) :
    execCheck s (.reLen ps l) = none := by
  simp only [execCheck, Option.or_eq_none_iff]
  refine ⟨reReadyFault_none.mpr hready, pbFault_none.mpr hps.1, ?_, psFault_none.mpr hps.2,
    operandFault_none.mpr (decide_eq_true hb), readFault_none_of_readable hr⟩
  split
  · exact tableSizeFault_none.mpr (hsize ‹_›)
  · rfl

/-- RE_LEN encodes the code of B and then counts, if PV[L] is set (R205). -/
theorem execBody_reLen (s : State) (ps : BitVec 4) (l : BitVec 1) : execBody s (.reLen ps l) =
    (encodeAll (lenCode (s.lenBase l) ps.toNat s.b.toNat) s).bind fun _ u =>
      .ok () (if u.pv l then u.countAndRefill l ps.toNat else u) := by
  rw [← lenEncode_eq]
  rfl

end

/-- Settles O49: the encoding changes nothing that the count reads but the cells, and the count goes down or refills. -/
theorem reLenEncodes : Obligations.ReLenEncodes := by
  intro s ps l hready hps hb hsize hreadable
  have hcheck := execCheck_reLen hready hps hb hsize hreadable
  have hbody := execBody_reLen s ps l
  have hcells : s.readable (codeCells (lenCode (s.lenBase l) ps.toNat s.b.toNat)) := fun ea hea =>
    hreadable ea (lenCode_cells hea)
  obtain ⟨hframe, hagree⟩ := encodedAs_frame (lenCode (s.lenBase l) ps.toNat s.b.toNat) s
  refine ⟨fun haccepted => ⟨_, rfl, hframe, hagree, ?_⟩, fun t hstops => ?_⟩
  · rw [encodeAll_ok haccepted hcells, Act.bind_ok] at hbody
    generalize s.encodedAs (lenCode (s.lenBase l) ps.toNat s.b.toNat) = u at *
    have hview : u.countView l = s.countView l := (congrArg (State.countView · l) hframe :)
    simp only [State.countView, Prod.mk.injEq] at hview
    obtain ⟨hpv, hbase, hcfg, hprice, hcnt⟩ := hview
    rw [← hpv, ← hbase, ← hcfg, ← hprice, ← hcnt]
    refine ⟨fun h => ?_, fun n h hn => ⟨fun hmany => ?_, fun hone => ?_⟩⟩
    · exact exec_of_ok hcheck (by rw [hbody, if_neg (ne_true_of_eq_false h)])
    · exact exec_of_ok hcheck (by rw [hbody, if_pos h, countAndRefill_counts hn hmany]; rfl)
    · exact exec_of_ok hcheck (by rw [hbody, if_pos h, countAndRefill_refills hn hone]; rfl)
  · exact exec_of_endsAt hcheck (hbody ▸ Act.endsAt_bind (encodeAll_stops hstops hcells) _)

/-! ## The counters' invariant (R206, R209) -/

/-- The counter of (l, ps) is in 1 to n and its table has n prices. -/
def State.filledAt (s : State) (l : BitVec 1) (ps n : Nat) : Prop :=
  (∃ c, s.lenCnt.get? (lenIndex l ps) = some c ∧ 1 ≤ c.toNat ∧ c.toNat ≤ n) ∧
    ∃ prices, s.lenPrice.get? (lenIndex l ps) = some prices ∧ prices.length = n

/-- All that the counters' invariant speaks of. -/
def State.countersView (s : State) := (s.pv0, s.pv1, s.cfg, s.lenPrice, s.lenCnt)

section

variable {s t : State} {i : Instr} {l : BitVec 1} {ps n : Nat}

/-- The invariant, with its last clause by name. -/
theorem countersInv_iff : s.countersInv ↔ ∀ l, s.pv l = true → s.cfg.pb.toNat ≤ 4 ∧ s.legalTableSize ∧
    ∀ ps < 2 ^ s.cfg.pb.toNat, s.filledAt l ps s.cfg.tableSize.toNat := by
  simp only [State.countersInv, State.filledAt, State.legalTableSize, and_assoc]

theorem filledAt_congr (h : t.lenPrice.get? (lenIndex l ps) = s.lenPrice.get? (lenIndex l ps) ∧
    t.lenCnt.get? (lenIndex l ps) = s.lenCnt.get? (lenIndex l ps)) (hs : s.filledAt l ps n) : t.filledAt l ps n := by
  rwa [State.filledAt, h.1, h.2]

@[simp] theorem lenPrices_length (s : State) (base : Word) (ps n : Nat) : (lenPrices s base ps n).length = n := by
  simp [lenPrices]

/-- Counting down keeps the counter in 1 to TABLESIZE: at 1 it refills. -/
theorem filledAt_countAndRefill (hsize : s.legalTableSize) (h : s.filledAt l ps s.cfg.tableSize.toNat) :
    (s.countAndRefill l ps).filledAt l ps s.cfg.tableSize.toNat := by
  obtain ⟨⟨c, hc, hlow, hhigh⟩, hprices⟩ := h
  rcases Nat.eq_or_lt_of_le hlow with hone | hmany
  · rw [countAndRefill_refills hc hone.symm]
    exact ⟨⟨_, Cells.get?_set_self .., hsize.1, le_refl _⟩, _, Cells.get?_set_self .., lenPrices_length ..⟩
  · rw [countAndRefill_counts hc hmany]
    exact ⟨⟨_, Cells.get?_set_self .., by rw [BitVec.toNat_ofNat]; omega, by rw [BitVec.toNat_ofNat]; omega⟩, hprices⟩

/-- A counting RE_LEN keeps the invariant: the tables at other places stay. -/
theorem countersInv_countAndRefill (hs : s.countersInv) (l : BitVec 1) (ps : BitVec 4) :
    (s.countAndRefill l ps.toNat).countersInv := by
  obtain ⟨hframe, hother⟩ := countAndRefill_frame s l ps.toNat
  have hcfg : (s.countAndRefill l ps.toNat).cfg = s.cfg := (congrArg State.cfg hframe :)
  have hpv : ∀ l', (s.countAndRefill l ps.toNat).pv l' = s.pv l' := fun l' => (congrArg (State.pv · l') hframe :)
  rw [countersInv_iff] at hs ⊢
  intro l' hl'
  obtain ⟨hpb, hsize, hfilled⟩ := hs l' (hpv l' ▸ hl')
  have hn : 2 ^ s.cfg.pb.toNat ≤ 2 ^ 4 := Nat.pow_le_pow_right (by omega) hpb
  rw [State.legalTableSize, hcfg]
  refine ⟨hpb, hsize, fun ps' hps' => ?_⟩
  by_cases hat : l' = l ∧ ps' = ps.toNat
  · obtain ⟨rfl, rfl⟩ := hat
    exact filledAt_countAndRefill hsize (hfilled _ hps')
  · exact filledAt_congr (hother _ (lenIndex_ne hat (by omega) ps.isLt)) (hfilled ps' hps')

/-- LEN_PRICE_INIT establishes the invariant for L and keeps it for the other coder. -/
theorem countersInv_lenPriceInit (hs : s.countersInv) (hc : execCheck s (.lenPriceInit l) = none) :
    ((s.refills l (2 ^ s.cfg.pb.toNat)).setPv l).countersInv := by
  obtain ⟨hpb, hsize, -⟩ := execCheck_lenPriceInit_none.mp hc
  have hn : 2 ^ s.cfg.pb.toNat ≤ 2 ^ 4 := Nat.pow_le_pow_right (by omega) hpb
  obtain ⟨hframe, hfilled, hother⟩ := refills_eq s l (2 ^ s.cfg.pb.toNat)
  have hcfg : ((s.refills l (2 ^ s.cfg.pb.toNat)).setPv l).cfg = s.cfg := by rw [setPv_frame, hframe]
  rw [countersInv_iff] at hs ⊢
  intro l' hl'
  rw [State.legalTableSize, hcfg]
  refine ⟨hpb, hsize, fun ps hps => ?_⟩
  rw [setPv_frame]
  by_cases hl : l' = l
  · subst hl
    obtain ⟨hprices, hcnt⟩ := hfilled ps hps
    exact ⟨⟨_, hcnt, hsize.1, le_refl _⟩, _, hprices, lenPrices_length ..⟩
  · rw [pv_setPv_ne _ hl, pv_refills] at hl'
    have hplace := hother (lenIndex l' ps) fun q hq => lenIndex_ne (fun h => hl h.1) (by omega) (by omega)
    exact filledAt_congr (s := s) hplace ((hs l' hl').2.2 ps hps)

theorem countersInv_of_view (h : t.countersView = s.countersView) (hs : s.countersInv) : t.countersInv := by
  simp only [State.countersView, Prod.mk.injEq] at h
  obtain ⟨h0, h1, hcfg, hprice, hcnt⟩ := h
  simpa only [State.countersInv, State.pv, h0, h1, hcfg, hprice, hcnt] using hs

/-- Of the commands, only LEN_PRICE_INIT and a counting RE_LEN write the tables or a valid bit. -/
theorem CommandEffect.keeps_countersInv (h : CommandEffect s i t) (hs : s.countersInv) : t.countersInv := by
  cases h with
  | refused | nop | pmInit | pmWr | reInit | rdInit | reader | initFault | initWaits => exact hs
  | decoded _ _ _ _ _ hu | decodeFault _ _ _ _ _ hu | decodeWaits _ _ _ _ _ hu =>
    exact countersInv_of_view (congrArg State.countersView hu.1 :) hs
  | encoded _ _ _ _ hu | encodeFault _ _ _ _ _ hu | encodeWaits _ _ _ _ _ hu =>
    exact countersInv_of_view (congrArg State.countersView hu.1 :) hs
  | lenPriceInit l hc => exact countersInv_lenPriceInit hs hc
  | counted ps l u _ hu =>
    exact countersInv_countAndRefill (countersInv_of_view (congrArg State.countersView hu.1 :) hs) l ps

/-- A reset clears both valid bits. -/
theorem countersInv_resetBlock (s : State) : s.resetBlock.countersInv := by
  intro l hl
  simp [State.pv, State.reset] at hl

theorem exec_keeps_countersInv (hs : s.countersInv) (h : exec i s = .next t) : t.countersInv := by
  by_cases hi : i = .reset
  · subst hi
    obtain rfl : s.resetBlock = t := by simpa [exec, execReset] using h
    exact countersInv_resetBlock s
  · exact (exec_effect hi h).keeps_countersInv hs

/-- A write that only clears valid bits sets none. -/
theorem pv_mono (h0 : t.pv0 = true → s.pv0 = true) (h1 : t.pv1 = true → s.pv1 = true) (h : t.pv l = true) : s.pv l = true := by
  by_cases hl : l = 0#1
  · rw [State.pv, if_pos hl] at h ⊢
    exact h0 h
  · rw [State.pv, if_neg hl] at h ⊢
    exact h1 h

/-- A write of CFG or of a coder's base clears the valid bits that it makes stale (R26, R28). -/
theorem hostEffect_keeps_countersInv (hs : s.countersInv) (h : HostEffect s t) : t.countersInv := by
  cases h with
  | ignored | setA | setB | setC | setLitBase | read | illegal => exact hs
  | setCfg g =>
    intro l hl
    simp [State.pv] at hl
  | setLenBase0 w => exact fun l hl => hs l (pv_mono (t := { s with lenBase0 := w, pv0 := false }) nofun id hl)
  | setLenBase1 w => exact fun l hl => hs l (pv_mono (t := { s with lenBase1 := w, pv1 := false }) id nofun hl)
  | reset => exact countersInv_resetBlock s
  | command w i _ _ _ hx => exact exec_keeps_countersInv hs hx

end

/-- Settles O34: the valid bits are cleared by whatever makes the tables stale, and the tables are written by a refill, which
fills them, or by a count that stays above 0. -/
theorem stepKeepsCounters : Obligations.StepKeepsCounters := by
  intro s t hs h
  rcases step_cases h with rfl | ⟨rest, rfl⟩ | ⟨-, rest, he⟩
  · exact hs
  · exact countersInv_resetBlock _
  · exact hostEffect_keeps_countersInv (s := { s with host := rest }) hs he

end Sys2Proof.Machine
end

section
/-!
SUPPORT. Proofs of the statements of 45_literal_coder: IDX_LIT, and the literal commands, plain and against the match byte.
-/

namespace Sys2Proof.Machine

section

variable {s : State}

/-! ## Indexing (R230, R231) -/

/-- The check of LC and LP fails in one way only: INVALID_OPTION with CFG (R26, R280). -/
theorem lcLpFault_some (h : ¬ s.legalLcLp) : s.lcLpFault = some ⟨.invalidOption, s.cfg.word⟩ := by
  by_cases hlc : s.cfg.lc.toNat ≤ 8
  · have hlp : ¬ s.cfg.lp.toNat ≤ 4 := fun hlp => h ⟨hlc, hlp⟩
    simp [State.lcLpFault, State.optionFault, hlc, hlp]
  · simp [State.lcLpFault, State.optionFault, hlc]

theorem execBody_idxLit (hlegal : s.legalLcLp) : execBody s .idxLit = .ok () (s.setRes s.litCell) := by
  rw [execBody, litSub_eq hlegal]

/-! ## The checks of a literal command that codes (R285) -/

/-- Past its ready bit, a coding literal command with legal LC and LP passes where the footprint in its sub-coder can be coded
with. -/
theorem literalCheck_none {ready : Option Raise} {span : Word → List Span} (hready : ready = none) (hlegal : s.legalLcLp)
    (hr : s.readable (spanCells (span s.litCell))) : ready.or (s.lcLpFault.or (s.readFault (span s.litSub))) = none := by
  rw [litSub_eq hlegal, hready, Option.none_or]
  exact or_readFault_none (lcLpFault_none.mpr hlegal) hr

/-! ## Decoding a literal (R232, R234) -/

theorem execBody_rdLit (hlegal : s.legalLcLp) : execBody s .rdLit =
    (((walkTree s.litCell 8 1).map (· &&& 0xFF)).run s).toRes := by
  rw [execBody, litDecode_run, litSub_eq hlegal]

theorem execBody_rdLitm (hlegal : s.legalLcLp) : execBody s .rdLitm =
    (((walkMatched s.litCell 8 s.matchByte 1).map (· &&& 0xFF)).run s).toRes := by
  rw [execBody, litDecodeMatched_run, litSub_eq hlegal]

/-! ## Encoding a literal (R233, R235) -/

theorem execBody_reLit (hlegal : s.legalLcLp) : execBody s .reLit =
    encodeAll (litCode s.litCell (s.c.toNat / 2 ^ 16 % 2 ^ 8)) s := by
  rw [execBody, litEncode_eq, litSub_eq hlegal, literal_toNat]

theorem execBody_reLitm (hlegal : s.legalLcLp) : execBody s .reLitm =
    encodeAll (matchedCode s.litCell (s.c.toNat / 2 ^ 8 % 2 ^ 8) (s.c.toNat / 2 ^ 16 % 2 ^ 8)) s := by
  rw [execBody, litEncodeMatched_eq, litSub_eq hlegal, matchByte_toNat, literal_toNat]

end

/-- Settles O54: LC and LP are the only check, and past it the shifts and masks of LitBase are its plain numbers. -/
theorem idxLitIndexes : Obligations.IdxLitIndexes :=
  ⟨by decide, fun _ => ⟨fun hlegal => exec_of_ok (lcLpFault_none.mpr hlegal) (execBody_idxLit hlegal),
    fun hillegal => exec_faulted (i := .idxLit) (lcLpFault_some hillegal)⟩⟩

/-- Settles O43: both commands run walks whose ways are the codes of the bytes, plain and against the match byte. -/
theorem rdLiteralDecodes : Obligations.RdLiteralDecodes := by
  intro s hready hlegal hinterval
  have hfault := fun i => rdReadyFault_none (i := i).mpr hready
  refine ⟨fun hreadable => ?_, fun hreadable => ?_⟩
  · exact exec_decodes (literalCheck_none (hfault .rdLit) hlegal hreadable) (execBody_rdLit hlegal) hinterval
      (fun _ _ => walkLit_path) (fun v => (litCode_length s.litCell v).le) fun _ ea hea => hreadable ea (litCode_cells hea)
  · rw [← matchByte_toNat]
    exact exec_decodes (literalCheck_none (hfault .rdLitm) hlegal hreadable) (execBody_rdLitm hlegal) hinterval
      (fun _ _ => walkLitm_path) (fun v => (matchedCode_length s.litCell s.matchByte.toNat v).le)
      fun _ ea hea => hreadable ea (matchedCode_cells hea)

/-- Settles O50: both commands encode the code of the byte in C, whose cells lie in the footprint that was checked. -/
theorem reLiteralEncodes : Obligations.ReLiteralEncodes := by
  rintro s _ _ hready hlegal rfl rfl
  have hfault := fun i => reReadyFault_none (i := i).mpr hready
  refine ⟨fun hreadable => ?_, fun hreadable => ?_⟩
  · exact exec_encodes (literalCheck_none (hfault .reLit) hlegal hreadable) (execBody_reLit hlegal)
      fun ea hea => hreadable ea (litCode_cells hea)
  · exact exec_encodes (literalCheck_none (hfault .reLitm) hlegal hreadable) (execBody_reLitm hlegal)
      fun ea hea => hreadable ea (matchedCode_cells hea)

end Sys2Proof.Machine
end

section
/-!
SUPPORT. Proofs of the statements of 46_price: the table's entries layer by layer, the index of a bit's price, and what the prices
of written cells add up to at most.
-/

namespace Sys2Proof.Machine

/-! ## The price table (R260) -/

theorem layerPrice_eq (k j : Nat) : layerPrice k j = k * 2 ^ 6 + (2 ^ (9 - k) - j) * 2 ^ 6 / 2 ^ (8 - k) := by
  rw [layerPrice, Nat.shiftLeft_eq, Nat.shiftLeft_eq, Nat.shiftRight_eq_div_pow]

/-- Every index but 0 lies in the layer that is found for it. -/
theorem priceLayer_bounds {j : Nat} (h1 : 1 ≤ j) (h2 : j < 512) :
    priceLayer j ≤ 8 ∧ 2 ^ (8 - priceLayer j) ≤ j ∧ j < 2 ^ (9 - priceLayer j) := by
  unfold priceLayer
  split_ifs <;> omega

/-- The layers do not overlap: an index at or above the least one of layer k is in layer k or in one before it. -/
theorem priceLayer_le {k j : Nat} (hj : j < 512) (h : 2 ^ (8 - k) ≤ j) : priceLayer j ≤ k := by
  obtain ⟨-, -, hlt⟩ := priceLayer_bounds (Nat.one_le_two_pow.trans h) hj
  have : 8 - k < 9 - priceLayer j := (Nat.pow_lt_pow_iff_right Nat.one_lt_two).mp (h.trans_lt hlt)
  omega

/-- An index below the end of layer k is in layer k or in a later one. -/
theorem le_priceLayer {k j : Nat} (hj : 1 ≤ j) (h : j < 2 ^ (9 - k)) : k ≤ priceLayer j := by
  have h9 : 2 ^ (9 - k) ≤ 512 := Nat.pow_le_pow_right Nat.two_pos (Nat.sub_le 9 k)
  obtain ⟨h8, hle, -⟩ := priceLayer_bounds hj (h.trans_le h9)
  have : 8 - priceLayer j < 9 - k := (Nat.pow_lt_pow_iff_right Nat.one_lt_two).mp (hle.trans_lt h)
  omega

/-- In layer k the prices run from 64 (k + 1) down to 64 k. -/
theorem layerPrice_bounds {k j : Nat} (hk : k ≤ 8) (h : 2 ^ (8 - k) ≤ j) :
    k * 64 ≤ layerPrice k j ∧ layerPrice k j ≤ (k + 1) * 64 := by
  have hrest : 2 ^ (9 - k) - j ≤ 2 ^ (8 - k) := by
    rw [show 9 - k = 8 - k + 1 by omega, pow_succ]
    omega
  have hfrac : (2 ^ (9 - k) - j) * 2 ^ 6 / 2 ^ (8 - k) ≤ 64 := Nat.div_le_of_le_mul (Nat.mul_le_mul_right _ hrest)
  rw [layerPrice_eq, Nat.add_mul]
  exact ⟨Nat.le_add_right _ _, Nat.add_le_add_left hfrac _⟩

/-- PRICE[j] as a number: no entry of a layer is cut to its 10 bits. -/
theorem priceRom_toNat {j : Nat} (h1 : 1 ≤ j) (h2 : j < 512) :
    (priceRom (BitVec.ofNat 9 j)).toNat = layerPrice (priceLayer j) j := by
  obtain ⟨hk, hle, -⟩ := priceLayer_bounds h1 h2
  have hj : (BitVec.ofNat 9 j).toNat = j := by rw [BitVec.toNat_ofNat, Nat.mod_eq_of_lt h2]
  have hne : BitVec.ofNat 9 j ≠ 0#9 := fun h => by
    rw [h, BitVec.toNat_zero] at hj
    omega
  have hbound := (layerPrice_bounds hk hle).2
  rw [priceRom, if_neg hne, hj, BitVec.toNat_ofNat, Nat.mod_eq_of_lt (by omega)]

/-- PRICE does not rise from index 1 on: a later index of the same layer leaves less to interpolate, and every price of a later
layer is at least those of an earlier one (R264). -/
theorem priceRom_antitone {i j : Nat} (hi : 1 ≤ i) (hij : i ≤ j) (hj : j < 512) :
    (priceRom (BitVec.ofNat 9 j)).toNat ≤ (priceRom (BitVec.ofNat 9 i)).toNat := by
  obtain ⟨hki, hlei, -⟩ := priceLayer_bounds hi (hij.trans_lt hj)
  obtain ⟨hkj, hlej, -⟩ := priceLayer_bounds (hi.trans hij) hj
  rw [priceRom_toNat (hi.trans hij) hj, priceRom_toNat hi (hij.trans_lt hj)]
  rcases (priceLayer_le hj (hlei.trans hij)).eq_or_lt with hsame | hless
  · rw [hsame, layerPrice_eq, layerPrice_eq]
    gcongr
  · calc layerPrice (priceLayer j) j
      _ ≤ (priceLayer j + 1) * 64 := (layerPrice_bounds hkj hlej).2
      _ ≤ priceLayer i * 64 := Nat.mul_le_mul_right _ hless
      _ ≤ layerPrice (priceLayer i) i := (layerPrice_bounds hki hlei).1

/-- The prices of the indices that written cells have (R264). -/
theorem priceRom_bounds {j : Nat} (h1 : 7 ≤ j) (h2 : j ≤ 504) :
    2 ≤ (priceRom (BitVec.ofNat 9 j)).toNat ∧ (priceRom (BitVec.ofNat 9 j)).toNat ≤ 400 :=
  ⟨calc 2 = (priceRom (BitVec.ofNat 9 504)).toNat := by decide
      _ ≤ _ := priceRom_antitone (by omega) h2 (by omega),
    calc (priceRom (BitVec.ofNat 9 j)).toNat
      _ ≤ (priceRom (BitVec.ofNat 9 7)).toNat := priceRom_antitone (by omega) h1 (by omega)
      _ = 400 := by decide⟩

/-! ## The price of a bit (R261) -/

theorem bitWord_eq_ofNat (b : Bool) : bitWord b = BitVec.ofNat 32 b.toNat := by cases b <;> rfl

/-- The mask and the shift keep bits 10:2. -/
theorem maskedIndex_toNat (w : Word) : (((w &&& 2047#32) >>> 2).setWidth 9).toNat = w.toNat % 2048 / 2 ^ 2 := by
  have hmask : w.toNat &&& 2047 = w.toNat % 2048 := Nat.and_two_pow_sub_one_eq_mod w.toNat 11
  rw [BitVec.toNat_setWidth, BitVec.toNat_ushiftRight, BitVec.toNat_and, BitVec.toNat_ofNat, Nat.shiftRight_eq_div_pow,
    Nat.mod_eq_of_lt (b := 2 ^ 32) (by omega), hmask, Nat.mod_eq_of_lt (by omega)]

/-- The exclusive or with -b leaves p for a 0. -/
theorem priceIndex_zero_toNat (p : Prob) : (priceIndex p false).toNat = p.toNat % 2048 / 2 ^ 2 := by
  have hw : (p.setWidth 32 - bitWord false) ^^^ (0#32 - bitWord false) = p.setWidth 32 := by simp [bitWord]
  rw [priceIndex, hw, maskedIndex_toNat, BitVec.toNat_setWidth_of_le (by decide)]

/-- The exclusive or with -b complements p - 1 for a 1, which gives -p. -/
theorem priceIndex_one_toNat (p : Prob) : (priceIndex p true).toNat = (2 ^ 32 - p.toNat) % 2048 / 2 ^ 2 := by
  have hw : (p.setWidth 32 - bitWord true) ^^^ (0#32 - bitWord true) = -p.setWidth 32 := by
    rw [show 0#32 - bitWord true = BitVec.allOnes 32 from rfl, BitVec.xor_allOnes, bitWord, if_pos rfl,
      BitVec.not_sub_one_eq_not_add_one, ← BitVec.neg_eq_not_add]
  rw [priceIndex, hw, maskedIndex_toNat, BitVec.toNat_neg, BitVec.toNat_setWidth_of_le (by decide),
    Nat.mod_mod_of_dvd _ (by decide)]

theorem priceIndex_zero {p : Prob} (h : p.toNat ≤ 2047) : priceIndex p false = BitVec.ofNat 9 (p.toNat / 2 ^ 2) := by
  apply BitVec.eq_of_toNat_eq
  rw [priceIndex_zero_toNat, BitVec.toNat_ofNat]
  omega

theorem priceIndex_one {p : Prob} (h1 : 1 ≤ p.toNat) (h2 : p.toNat ≤ 2047) :
    priceIndex p true = BitVec.ofNat 9 ((2048 - p.toNat) / 2 ^ 2) := by
  apply BitVec.eq_of_toNat_eq
  rw [priceIndex_one_toNat, BitVec.toNat_ofNat]
  omega

/-- The indices of written cells keep clear of the free entry PRICE[0] (R264). -/
theorem priceIndex_bounds {p : Prob} (bit : Bool) (h1 : 31 ≤ p.toNat) (h2 : p.toNat ≤ 2017) :
    7 ≤ (priceIndex p bit).toNat ∧ (priceIndex p bit).toNat ≤ 504 := by
  cases bit with
  | false =>
    rw [priceIndex_zero_toNat]
    omega
  | true =>
    rw [priceIndex_one_toNat]
    omega

theorem priceBit_bounds {p : Prob} (bit : Bool) (h1 : 31 ≤ p.toNat) (h2 : p.toNat ≤ 2017) :
    2 ≤ priceBit p bit ∧ priceBit p bit ≤ 400 := by
  obtain ⟨h7, h504⟩ := priceIndex_bounds bit h1 h2
  have := priceRom_bounds h7 h504
  rwa [BitVec.ofNat_toNat, BitVec.setWidth_eq] at this

/-! ## The price of a symbol (R188, R264) -/

/-- Every decision with a written cell costs at most 400. -/
theorem codePrice_le {s : State} {code : List Decision} (h : s.readable (codeCells code)) :
    codePrice s code ≤ 400 * code.length := by
  have hbit : ∀ price ∈ code.map fun x => priceBit (s.pmRead x.1) x.2, price ≤ 400 := by
    simp only [List.mem_map, forall_exists_index, and_imp, forall_apply_eq_imp_iff₂]
    intro x hx
    obtain ⟨-, -, h31, h2017⟩ := h x.1 (List.mem_map_of_mem hx)
    exact (priceBit_bounds x.2 h31 h2017).2
  have := List.sum_le_card_nsmul _ _ hbit
  rwa [List.length_map, smul_eq_mul, Nat.mul_comm] at this

/-! ## The statements -/

/-- Settles O55: the layer that is found is the only one that holds the index. -/
theorem priceTableFormula : Obligations.PriceTableFormula := by
  intro k _ j hle hlt
  have hj : 1 ≤ j := Nat.one_le_two_pow.trans hle
  have h512 : j < 512 := hlt.trans_le (Nat.pow_le_pow_right Nat.two_pos (Nat.sub_le 9 k))
  have hlayer : priceLayer j = k := (priceLayer_le h512 hle).antisymm (le_priceLayer hj hlt)
  rw [priceRom_toNat hj h512, hlayer, layerPrice_eq]

/-- Settles O56: the index is the rule's expression, and its plain forms are those of p below 2048. -/
theorem bitPriceIndex : Obligations.BitPriceIndex := fun p =>
  ⟨fun bit => by rw [priceBit, priceIndex, bitWord_eq_ofNat],
    fun h => by rw [priceBit, priceIndex_zero h],
    fun h1 h2 => by rw [priceBit, priceIndex_one h1 h2]⟩

/-- Settles O57: PRICE does not rise, which bounds the price of one decision by that of the outermost indices; a symbol is then
bounded by the length of its code. -/
theorem priceBounds : Obligations.PriceBounds := by
  refine ⟨fun j h1 h2 => priceRom_antitone h1 (Nat.le_succ j) (by omega), fun p bit h1 h2 => ?_,
    fun s base d sym h => ?_, fun s sub byte h => ?_, fun s sub mb byte h => ?_, fun s base ps sym h => ?_⟩
  · obtain ⟨h7, h504⟩ := priceIndex_bounds bit h1 h2
    exact ⟨h7, h504, priceBit_bounds bit h1 h2⟩
  · simpa using codePrice_le h
  · simpa using codePrice_le h
  · simpa using codePrice_le h
  · exact (codePrice_le h).trans (Nat.mul_le_mul_left 400 (lenCode_length base ps sym))

end Sys2Proof.Machine
end

section
/-!
SUPPORT. Proofs of the statements of 60_exceptions: what leaves ERR = 1, which check decides a fault, and what a port's fault leaves.
How a command past its checks can end with ERR = 1 is said once, in `exec_err`.
-/

namespace Sys2Proof.Machine

/-- RESET has no check and is `State.resetBlock` (R111). -/
theorem exec_reset (s : State) : exec .reset s = .next s.resetBlock := rfl

section

variable {s t : State} {i : Instr}

/-! ## ERR = 1 (R283, R288) -/

/-- While ERR = 1 a host event leaves the fault registers, or is a reset. -/
theorem HostEffect.of_err (h : HostEffect s t) (he : s.err = true) : t.faultRegs = s.faultRegs ∨ t = s.resetBlock := by
  cases h with
  | ignored | setA | setB | setC | setCfg | setLitBase | setLenBase0 | setLenBase1 | read => exact .inl rfl
  | reset => exact .inr rfl
  | illegal _ h0 => exact absurd (he.symm.trans h0) nofun
  | command _ i _ _ hi hx =>
    rcases hi with h0 | rfl | rfl
    · exact absurd (he.symm.trans h0) nofun
    · rw [← Host.Outcome.next.inj ((nopDoesNothing.1 s).symm.trans hx)]
      exact .inl rfl
    · exact .inr (Host.Outcome.next.inj ((exec_reset s).symm.trans hx)).symm

/-! ## The fault of a port (R284) -/

/-- A port's fault is one of two causes (R280). -/
theorem portFault.code {r : Raise} (h : portFault r) : r.cause.code = 8#8 ∨ r.cause.code = 9#8 := by
  rcases h with rfl | rfl
  · exact .inl rfl
  · exact .inr rfl

theorem portFault.info {r : Raise} (h : portFault r) : r.info = 0#32 := by
  rcases h with rfl | rfl <;> rfl

/-- What no port's fault writes: RES, the operands, the ready and valid bits, and the price tables (R284). -/
def State.portFaultKeeps (s : State) := (s.res, s.a, s.b, s.c, s.rdReady, s.reReady, s.pv0, s.pv1, s.lenPrice, s.lenCnt)

/-- What a port's fault in RD_INIT also leaves, and in another command may not: the decoder's registers and the models (R130). -/
def State.decoderModels (s : State) := (s.rdRange, s.rdCode, s.pm)

/-- A port's fault r ends the command i, begun in s, in the state t: u is the state at that moment (R130, R284). -/
structure PortFaults (i : Instr) (s t u : State) (r : Raise) : Prop where
  raised : t = u.raise r
  port   : portFault r
  kept   : u.portFaultKeeps = s.portFaultKeeps
  init   : i = .rdInit → u.decoderModels = s.decoderModels
  source : sinkFault r ∨ i = .rdInit ∨ needsDecoder i = true

/-- Past its checks a command leaves the fault registers, or a port's fault ends it. -/
theorem CommandEffect.portFaults (h : CommandEffect s i t) (hc : execCheck s i = none) :
    t.faultRegs = s.faultRegs ∨ ∃ u r, PortFaults i s t u r := by
  cases h with
  | refused _ _ hr => exact absurd (hc.symm.trans hr) nofun
  | nop | pmInit | pmWr | reInit | rdInit | reader | initWaits => exact .inl rfl
  | lenPriceInit l => exact .inl (congrArg State.faultRegs (refills_setPv_frame s l _) :)
  | decoded _ _ _ _ _ hu | decodeWaits _ _ _ _ _ hu => exact .inl (congrArg State.faultRegs hu.1 :)
  | encoded _ _ _ _ hu | encodeWaits _ _ _ _ _ hu => exact .inl (congrArg State.faultRegs hu.1 :)
  | counted _ _ _ _ hu => exact .inl (congrArg State.faultRegs (counted_frame hu.1 _ _) :)
  | initFault p r hr => exact .inr ⟨_, r, rfl, hr, rfl, fun _ => rfl, .inr (.inl rfl)⟩
  | decodeFault _ u r hi _ hu hr =>
    exact .inr ⟨u, r, rfl, hr, (congrArg State.portFaultKeeps hu.1 :), (by rintro rfl; cases hi), .inr (.inr hi)⟩
  | encodeFault _ u r hi _ hu hr =>
    exact .inr ⟨u, r, rfl, hr.port, (congrArg State.portFaultKeeps hu.1 :), (by rintro rfl; cases hi), .inl hr⟩

/-- A command that passes its checks and leaves ERR = 1 found it so, or a port's fault ended it. -/
theorem exec_err (hc : execCheck s i = none) (h : exec i s = .next t) (he : t.err = true) :
    s.err = true ∨ ∃ u r, PortFaults i s t u r := by
  by_cases hi : i = .reset
  · subst hi
    obtain rfl := Host.Outcome.next.inj ((exec_reset s).symm.trans h)
    cases he
  · exact ((exec_effect hi h).portFaults hc).imp_left fun hf => (congrArg Prod.fst hf).symm.trans he

end

/-! ## The statements -/

/-- Settles O9: a step takes at most one host event, which leaves the fault registers or is a reset. -/
theorem onlyResetLeavesErr : Obligations.OnlyResetLeavesErr := by
  intro s t he h
  have kept : ∀ {u : State}, u.faultRegs = s.faultRegs → u.err = true ∧ u.cause = s.cause ∧ u.faultInfo = s.faultInfo := by
    intro u hf
    simpa [State.faultRegs, he] using hf
  rcases step_cases h with rfl | ⟨rest, rfl⟩ | ⟨-, rest, heffect⟩
  · exact .inl (kept rfl)
  · exact .inr ⟨atReset_resetBlock _, sameSurroundings_resetBlock _⟩
  · rcases heffect.of_err he with hf | rfl
    · exact .inl (kept hf)
    · exact .inr ⟨atReset_resetBlock _, sameSurroundings_resetBlock _⟩

/-- Settles O19: the first fault of R285 is the check that `exec` makes, and past it only a port's fault sets ERR. -/
theorem firstFaultDecides : Obligations.FirstFaultDecides := by
  intro i s
  rw [firstFault_eq_execCheck]
  refine ⟨fun r hr => exec_faulted hr, fun hc => ⟨_, runsTo_afterCommand i s, fun he => ?_⟩⟩
  refine (exec_err hc (runsTo_afterCommand i s) he).imp_right ?_
  rintro ⟨u, r, hfault⟩
  rw [hfault.raised]
  exact ⟨hfault.port.code, hfault.port.info⟩

/-- Settles O20: the state at the port's fault is in the frame of the command's coder, and only a source's fault is
UNEXPECTED_EOF. -/
theorem portFaultLeaves : Obligations.PortFaultLeaves := by
  intro i s t herr hfirst h he
  rw [firstFault_eq_execCheck] at hfirst
  obtain hs | ⟨u, r, rfl, hport, hkept, hinit, hsource⟩ := exec_err hfirst h he
  · exact absurd (hs.symm.trans herr) nofun
  simp only [State.portFaultKeeps, Prod.mk.injEq] at hkept
  obtain ⟨hres, ha, hb, hc, hrd, hre, hpv0, hpv1, hprice, hcount⟩ := hkept
  refine ⟨hport.code, hport.info, hres, ha, hb, hc, hrd, hre, hpv0, hpv1, hprice, hcount, fun hi => ?_, fun heof => ?_⟩
  · simpa [State.decoderModels] using hinit hi
  · refine hsource.resolve_left ?_
    rintro rfl
    cases heof

end Sys2Proof.Machine
end
